-- ==== Sys2Proof/Word.lean ====
section
/-!
DEFINITION. The word types of the core and their plainest arithmetic (`00_scope.md` R7, R10).
A register the spec gives a width is a bit vector of that width. A counter, a price, an index or a length the
spec calls a natural is a `Nat`.
-/

namespace Sys2Proof

/-- A byte of one of the four byte spaces, the unit of every data access (R12, R90). -/
abbrev Byte := BitVec 8

/-- A 32-bit word: a host register (R32), `range` and `code` (R50, R51), a rep distance (R53), a stored
position (R65). -/
abbrev Word := BitVec 32

/-- `u32(v) = v mod 2^32` (R10). -/
abbrev u32 (v : Nat) : Word := BitVec.ofNat 32 v

/-- `u8(v) = v mod 2^8` (R175). -/
abbrev u8 (v : Nat) : Byte := BitVec.ofNat 8 v

/-- A probability cell's value, 11 bits (R42). -/
abbrev Prob := BitVec 11

end Sys2Proof
end

