-- ==== Sys2Proof/Config.lean ====
section
/-!
DEFINITION. What an implementation of the core fixes (`00_scope.md` R8): the constants of the design, the
parameters this spec decides with a default (`92_eei_decisions.md` D6, D7, D8) and the one it leaves open.
The default of `hashMaskFn` (D7) stands with the hashes, in `Machine/MatchFinder.lean`. The free value of the
machine, `Config.freeSession`, stands in `Machine/State.lean`, after the type it has.
-/

namespace Sys2Proof.Config

/-- `kNumOpts`: the nodes of the optimal-parse window (R8, R60). -/
abbrev kNumOpts : Nat := 4096

/-- `kMatchMinLen` (R8). -/
abbrev kMatchMinLen : Nat := 2

/-- `kMatchMaxLen` (R8). -/
abbrev kMatchMaxLen : Nat := 273

/-- `kInfinityPrice` (R7, R328). -/
abbrev kInfinityPrice : Nat := 0x0FFFFFFF

/-- `progressChunk`: bytes per step before it yields, default 4096 (R8; decision D8). -/
def progressChunk : Nat := 4096

/-- `shortRepTieWins`: the tie-break of the in-loop short-rep relaxation, default false (R8, R336; decision D6). -/
def shortRepTieWins : Bool := false

/-- `coreBaseAddress`: OPEN (R8, R102; decision D2). The platform chooses it and no rule depends on it, so it is
a constant with no body (log entry 14). -/
opaque coreBaseAddress : Nat

/-- A byte the assembler of symbol programs needs and no rule gives: one a copy takes from before the start of the output
(R131, R134). A free value with no body, applied to a counter (log entry 24). No instruction uses it. -/
opaque freeByte : Nat → Byte

end Sys2Proof.Config
end

