-- ==== Sys2Proof/Syntax.lean ====
section
/-!
DEFINITION. The syntax of the core: one constructor for each row of `spec/opcode_table.json`. The first eight are the
coded symbols of the stream (`00_scope.md` R3, `30_encoding.md` R123), which the decoder executes. The last six are
the host's command words (`30_encoding.md` R150).
-/

namespace Sys2Proof

/-- The alphabet of the core. -/
inductive Instr where
  /-- LIT v: append the byte `v` (R123, R402). -/
  | lit (v : Byte)
  /-- MATCH len, d: copy `len` bytes from `d + 1` back, `d` the coded distance field (R123, R134, R405). -/
  | matchSym (len : Nat) (d : Word)
  /-- SHORTREP: a length-1 repeat of `reps[0]` (R123, R403). -/
  | shortRep
  /-- REP0 len (R123, R404). -/
  | rep0 (len : Nat)
  /-- REP1 len (R123, R404). -/
  | rep1 (len : Nat)
  /-- REP2 len (R123, R404). -/
  | rep2 (len : Nat)
  /-- REP3 len (R123, R404). -/
  | rep3 (len : Nat)
  /-- END, the MATCH whose decoded distance is 0xFFFFFFFF, with the length it was coded with. The encoder writes
  2; a decoder accepts any (R130, R405; log entry 19). -/
  | endMark (len : Nat)
  /-- NOP, op 0 (R431). -/
  | nop
  /-- ENC_OPEN, op 1 (R432). -/
  | encOpen
  /-- ENC_STEP, op 2 (R433). -/
  | encStep
  /-- DEC_OPEN, op 3 (R434). -/
  | decOpen
  /-- DEC_STEP, op 4 (R435). -/
  | decStep
  /-- CLOSE, op 5 (R436). -/
  | close
deriving DecidableEq, Repr

/-- A row of format "command" of the opcode table, not a symbol of the stream. -/
def Instr.isCommand : Instr → Bool
  | .lit _ | .matchSym _ _ | .shortRep | .rep0 _ | .rep1 _ | .rep2 _ | .rep3 _ | .endMark _ => false
  | .nop | .encOpen | .encStep | .decOpen | .decStep | .close => true

end Sys2Proof
end

