-- ==== Sys2Proof/WellFormed.lean ====
section
/-!
DEFINITION. The operand ranges of the symbols (`30_encoding.md` R123, R126, R130, R134): what an encoding can carry.
-/

namespace Sys2Proof

/-- A coded length, `kMatchMinLen .. kMatchMaxLen` (R126: `len − 2` is 0..271). -/
def lenOk (len : Nat) : Bool := Config.kMatchMinLen ≤ len && len ≤ Config.kMatchMaxLen

/-- The distance that identifies END and names no copy (R130). -/
abbrev endDistance : Word := 0xFFFFFFFF

/-- An instruction whose operands an encoding carries: a length in 2..273 (R126), and a MATCH distance other than
the one that makes it END (R130). -/
def Instr.wellFormed : Instr → Bool
  | .lit _ => true
  | .matchSym len d => lenOk len && d != endDistance
  | .shortRep => true
  | .rep0 len | .rep1 len | .rep2 len | .rep3 len => lenOk len
  | .endMark len => lenOk len
  | .nop | .encOpen | .encStep | .decOpen | .decStep | .close => true

end Sys2Proof
end

