-- ==== Sys2Proof/Decode.lean ====
section
/-!
DEFINITION. The decoder and the encoder of the two encodings an instruction has (`30_encoding.md`):
the host command word (R150), and the decision bits of a coded symbol in the order they are coded (R123 to R130).
How the decision bits are range-coded into the bytes of the stream depends on the session's cells: that is
`Machine/RangeCoder.lean` and `Machine/Decoder.lean`. The properties blob (R120, R121) is here too.
-/

namespace Sys2Proof

/-- Why a code is no instruction. -/
inductive Reject where
  /-- The decision bits end inside a symbol. -/
  | truncated
  /-- Decision bits are left after the symbol. -/
  | trailing
  /-- A command word whose op is 6..15 (R150; IllegalCommand sub 1). -/
  | illegalOp
  /-- A command word with a reserved bit set (R150; IllegalCommand sub 2). -/
  | reservedBits
deriving DecidableEq, Repr

/-- The code of one instruction: a command word, or a symbol's decision bits, the first coded first. -/
inductive Code where
  | word (w : Word)
  | decisions (bs : List Bool)
deriving DecidableEq, Repr

/-! ### Fields of decision bits -/

/-- Read `n` bits most significant first onto the value `acc`. -/
def readMsb : Nat → Nat → List Bool → Except Reject (Nat × List Bool)
  | 0, acc, bs => .ok (acc, bs)
  | _ + 1, _, [] => .error .truncated
  | n + 1, acc, b :: bs => readMsb n (2 * acc + b.toNat) bs

/-- Read `n` bits least significant first. -/
def readLsb : Nat → List Bool → Except Reject (Nat × List Bool)
  | 0, bs => .ok (0, bs)
  | _ + 1, [] => .error .truncated
  | n + 1, b :: bs =>
    match readLsb n bs with
    | .ok (v, rest) => .ok (b.toNat + 2 * v, rest)
    | .error r => .error r

/-- The low `n` bits of `v`, most significant first. -/
def msbBits : Nat → Nat → List Bool
  | 0, _ => []
  | n + 1, v => v.testBit n :: msbBits n v

/-- The low `n` bits of `v`, least significant first. -/
def lsbBits : Nat → Nat → List Bool
  | 0, _ => []
  | n + 1, v => v.testBit 0 :: lsbBits n (v / 2)

/-! ### Pos-slots (R127, R128, R310) -/

/-- The pos-slot of a distance (R310): `d` itself below 4, else `2·n + d[n − 1]` with `n = floor(log2 d)`. -/
def posSlot (d : Nat) : Nat :=
  if d < 4 then d else 2 * d.log2 + (d.testBit (d.log2 - 1)).toNat

/-- `fb = (s >> 1) − 1`, the footer bits of a slot `s ≥ 4` (R127). -/
def slotFooterBits (s : Nat) : Nat := s / 2 - 1

/-- `base = (2 | (s & 1)) << fb`, the first distance of a slot `s ≥ 4` (R127). -/
def slotBase (s : Nat) : Nat := (2 + s % 2) <<< slotFooterBits s

/-! ### The fields of a symbol -/

/-- The length field (R126), read as the length itself. -/
def readLength : List Bool → Except Reject (Nat × List Bool)
  | [] => .error .truncated
  | false :: bs =>
    match readMsb 3 0 bs with
    | .ok (v, rest) => .ok (2 + v, rest)
    | .error r => .error r
  | true :: [] => .error .truncated
  | true :: false :: bs =>
    match readMsb 3 0 bs with
    | .ok (v, rest) => .ok (10 + v, rest)
    | .error r => .error r
  | true :: true :: bs =>
    match readMsb 8 0 bs with
    | .ok (v, rest) => .ok (18 + v, rest)
    | .error r => .error r

/-- The length field of a length (R126). -/
def lengthBits (len : Nat) : List Bool :=
  if len < 10 then false :: msbBits 3 (len - 2)
  else if len < 18 then true :: false :: msbBits 3 (len - 10)
  else true :: true :: msbBits 8 (len - 18)

/-- The footer of slot `s ≥ 4` (R127): reverse-tree bits for 4..13, direct bits then four align bits from 14. -/
def readFooter (s : Nat) (bs : List Bool) : Except Reject (Nat × List Bool) :=
  if s < 14 then readLsb (slotFooterBits s) bs
  else
    match readMsb (slotFooterBits s - 4) 0 bs with
    | .error r => .error r
    | .ok (direct, rest) =>
      match readLsb 4 rest with
      | .error r => .error r
      | .ok (align, rest') => .ok (direct * 16 + align, rest')

/-- The distance field (R127). -/
def readDistance (bs : List Bool) : Except Reject (Word × List Bool) :=
  match readMsb 6 0 bs with
  | .error r => .error r
  | .ok (s, rest) =>
    if s < 4 then .ok (u32 s, rest)
    else
      match readFooter s rest with
      | .error r => .error r
      | .ok (footer, rest') => .ok (u32 (slotBase s + footer), rest')

/-- The footer bits of a distance in slot `s ≥ 4` (R127). -/
def footerBits (s r : Nat) : List Bool :=
  if s < 14 then lsbBits (slotFooterBits s) r
  else msbBits (slotFooterBits s - 4) (r / 16) ++ lsbBits 4 (r % 16)

/-- The distance field of a distance (R127). -/
def distanceBits (d : Word) : List Bool :=
  let s := posSlot d.toNat
  msbBits 6 s ++ (if s < 4 then [] else footerBits s (d.toNat - slotBase s))

/-! ### Symbols (R123) -/

/-- A symbol that is a length field under a constructor. -/
def readRep (k : Nat → Instr) (bs : List Bool) : Except Reject (Instr × List Bool) :=
  match readLength bs with
  | .ok (len, rest) => .ok (k len, rest)
  | .error r => .error r

/-- MATCH and END share a prefix and differ by the distance (R130). -/
def matchOrEnd (len : Nat) (d : Word) : Instr :=
  if d = endDistance then .endMark len else .matchSym len d

/-- The fields after the MATCH prefix (R123, R130). -/
def readMatch (bs : List Bool) : Except Reject (Instr × List Bool) :=
  match readLength bs with
  | .error r => .error r
  | .ok (len, rest) =>
    match readDistance rest with
    | .error r => .error r
    | .ok (d, rest') => .ok (matchOrEnd len d, rest')

/-- Decode one symbol from decision bits and give the bits after it (R123). -/
def decodeSymbol : List Bool → Except Reject (Instr × List Bool)
  | false :: bs =>
    match readMsb 8 0 bs with
    | .ok (v, rest) => .ok (.lit (u8 v), rest)
    | .error r => .error r
  | true :: false :: bs => readMatch bs
  | true :: true :: false :: false :: bs => .ok (.shortRep, bs)
  | true :: true :: false :: true :: bs => readRep .rep0 bs
  | true :: true :: true :: false :: bs => readRep .rep1 bs
  | true :: true :: true :: true :: false :: bs => readRep .rep2 bs
  | true :: true :: true :: true :: true :: bs => readRep .rep3 bs
  | _ => .error .truncated

/-- Decode a host command word (R150). The op is checked before the reserved bits (R458). -/
def decodeCommand (w : Word) : Except Reject Instr :=
  let op := w.toNat % 16
  if 6 ≤ op then .error .illegalOp
  else if w.toNat / 16 ≠ 0 then .error .reservedBits
  else
    match op with
    | 0 => .ok .nop
    | 1 => .ok .encOpen
    | 2 => .ok .encStep
    | 3 => .ok .decOpen
    | 4 => .ok .decStep
    | _ => .ok .close

/-- Decode the code of exactly one instruction. Total: every code is an instruction or is rejected by name. -/
def decode : Code → Except Reject Instr
  | .word w => decodeCommand w
  | .decisions bs =>
    match decodeSymbol bs with
    | .ok (i, []) => .ok i
    | .ok (_, _ :: _) => .error .trailing
    | .error r => .error r

/-! ### The encoder -/

/-- The decision bits of a symbol (R123); none for a command. -/
def symbolBits : Instr → List Bool
  | .lit v => false :: msbBits 8 v.toNat
  | .matchSym len d => true :: false :: (lengthBits len ++ distanceBits d)
  | .shortRep => [true, true, false, false]
  | .rep0 len => true :: true :: false :: true :: lengthBits len
  | .rep1 len => true :: true :: true :: false :: lengthBits len
  | .rep2 len => true :: true :: true :: true :: false :: lengthBits len
  | .rep3 len => true :: true :: true :: true :: true :: lengthBits len
  | .endMark len => true :: false :: (lengthBits len ++ distanceBits endDistance)
  | .nop | .encOpen | .encStep | .decOpen | .decStep | .close => []

/-- The code of an instruction: a command's word (R150) or a symbol's decision bits (R123). -/
def encode : Instr → Code
  | .nop => .word 0
  | .encOpen => .word 1
  | .encStep => .word 2
  | .decOpen => .word 3
  | .decStep => .word 4
  | .close => .word 5
  | .lit v => .decisions (symbolBits (.lit v))
  | .matchSym len d => .decisions (symbolBits (.matchSym len d))
  | .shortRep => .decisions (symbolBits .shortRep)
  | .rep0 len => .decisions (symbolBits (.rep0 len))
  | .rep1 len => .decisions (symbolBits (.rep1 len))
  | .rep2 len => .decisions (symbolBits (.rep2 len))
  | .rep3 len => .decisions (symbolBits (.rep3 len))
  | .endMark len => .decisions (symbolBits (.endMark len))

/-! ### The host's numbered words -/

/-- The instruction a number read as the opcode table numbers bits stands for (log entry 3). A word of exactly 32
bits is a command word, as every command row of the table is. Any other width is a symbol's decision bits, the first
decision bit 0; bits past the symbol's end are padding. -/
def decodeTableWord (nbits w : Nat) : Option Instr :=
  if nbits = 32 then
    match decodeCommand (u32 w) with
    | .ok i => some i
    | .error _ => none
  else
    match decodeSymbol (lsbBits (max nbits 64) w) with
    | .ok (i, _) => some i
    | .error _ => none

/-! ### The properties blob (R120, R121) -/

/-- Byte 0 of the blob, `(pb·5 + lp)·9 + lc` (R120). -/
def propsByte (lc lp pb : Nat) : Byte := u8 ((pb * 5 + lp) * 9 + lc)

/-- Byte 0 read back as (lc, lp, pb); none when `pb > 4`, which is ConfigError sub 7 (R121). -/
def decodePropsByte (b0 : Byte) : Option (Nat × Nat × Nat) :=
  let b := b0.toNat
  if b / 9 / 5 > 4 then none else some (b % 9, b / 9 % 5, b / 9 / 5)

/-- The five bytes of the blob: byte 0, then the dictionary size with bits 7:0 first (R98, R120). -/
def propsBlob (b0 : Byte) (dict : Word) : List Byte :=
  [b0, u8 dict.toNat, u8 (dict.toNat >>> 8), u8 (dict.toNat >>> 16), u8 (dict.toNat >>> 24)]

end Sys2Proof
end

