-- ==== Sys2Proof/Machine/Memory.lean ====
section
/-!
DEFINITION. Sparse memories: the internal memories of the core (`20_memory.md` R90) as lists of (index, value) pairs
in one canonical form, indices strictly rising and no entry equal to what an unlisted index reads as (log entry 7).
-/

namespace Sys2Proof.Machine

/-- A memory of `α`, by index. What an unlisted index reads as is the argument `d` of each operation. -/
abbrev Memory (α : Type) := List (Nat × α)

/-- The element at index `k`. -/
def Memory.read {α : Type} (d : α) : Memory α → Nat → α
  | [], _ => d
  | (k', v) :: m, k => if k < k' then d else if k = k' then v else Memory.read d m k

/-- Set the element at index `k`, keeping the canonical form. -/
def Memory.write {α : Type} [DecidableEq α] (d : α) : Memory α → Nat → α → Memory α
  | [], k, v => if v = d then [] else [(k, v)]
  | (k', v') :: m, k, v =>
    if k < k' then (if v = d then (k', v') :: m else (k, v) :: (k', v') :: m)
    else if k = k' then (if v = d then m else (k, v) :: m)
    else (k', v') :: Memory.write d m k v

/-- Apply `f` to every element, where `f` keeps the value `d` of the unlisted ones. -/
def Memory.mapValues {α : Type} [DecidableEq α] (d : α) (f : α → α) : Memory α → Memory α
  | [] => []
  | (k, v) :: m => if f v = d then Memory.mapValues d f m else (k, f v) :: Memory.mapValues d f m

/-- Every index of `m` is above `k`. -/
def Memory.above {α : Type} (k : Nat) : Memory α → Bool
  | [] => true
  | (k', _) :: m => k < k' && Memory.above k m

/-- The canonical form: indices strictly rising, no entry equal to the unlisted value `d`. -/
def Memory.wf {α : Type} [DecidableEq α] (d : α) : Memory α → Bool
  | [] => true
  | (k, v) :: m => v != d && Memory.above k m && Memory.wf d m

/-- A memory of unknown contents as data of the model: a list out of canonical form is read as the empty one. -/
def Memory.canonical {α : Type} [DecidableEq α] (d : α) (m : Memory α) : Memory α := if m.wf d then m else []

end Sys2Proof.Machine
end

