-- ==== Sys2Proof/Machine/State.lean ====
section
/-!
DEFINITION. The state of the core as plain data (`10_state.md`), its value after reset (`70_reset_and_hazards.md` R480),
and the reasons a step can stop.
-/

namespace Sys2Proof.Machine

/-! ### Host-visible registers (R32 to R40) -/

/-- STATUS.`phase` (R37, R40). The values 5..7 never occur (`93_implementation_defined.md` I25). -/
inductive Phase where
  | idle | encReady | decReady | done | fault
deriving DecidableEq, Repr, Inhabited

/-- STATUS.`faultClass` (R37, R450). -/
inductive FaultClass where
  | none | configError | sourceExhausted | dataError | internalInvariant | illegalCommand
deriving DecidableEq, Repr, Inhabited

/-- The host-visible register file (R32). STATUS is held as its fields (R37). Registers 12 to 15 hold nothing. -/
structure HostRegs where
  /-- CMD, the command word last written; it reads 0 (R32). -/
  cmd : Word
  /-- CFG (R33). -/
  cfg : Word
  /-- DICT (R34). -/
  dict : Word
  /-- DPROPS0 bits 7:0, the only ones stored (R35). -/
  dprops0 : Byte
  /-- DPROPS1 (R35). -/
  dprops1 : Word
  /-- OUTSIZE_LO (R36). -/
  outsizeLo : Word
  /-- OUTSIZE_HI (R36). -/
  outsizeHi : Word
  /-- STATUS[2:0] (R37, R40). -/
  phase : Phase
  /-- STATUS[3] (R37). -/
  isEncoder : Bool
  /-- STATUS[7:4] (R37). -/
  faultClass : FaultClass
  /-- STATUS[15:8] (R37). -/
  faultSub : Byte
  /-- EPROPS0 bits 7:0 (R38). -/
  eprops0 : Byte
  /-- EPROPS1 (R38). -/
  eprops1 : Word
  /-- IN_COUNT (R39). -/
  inCount : Word
  /-- OUT_COUNT (R39). -/
  outCount : Word
deriving DecidableEq, Repr, Inhabited

/-! ### Session state: the coder -/

/-- The rep-distance set `reps[0..3]` (R53). -/
structure Reps where
  r0 : Word
  r1 : Word
  r2 : Word
  r3 : Word
deriving DecidableEq, Repr, Inhabited

/-- The coder state: 0..11, and 12..15 never occur (R52; `93_implementation_defined.md` I28). -/
abbrev CoderState := Fin 12

/-- The properties a session latches at its open (R74, R482). -/
structure Props where
  lc : Nat
  lp : Nat
  pb : Nat
  dictSize : Nat
deriving DecidableEq, Repr, Inhabited

/-- The names of the probability arrays (R43 to R48). -/
inductive CellArray where
  | isMatch | isRep | isRepG0 | isRepG1 | isRepG2 | isRep0Long
  | literal | posSlot | posSpecial | align | lenC | repLenC
deriving DecidableEq, Repr, Inhabited

/-- One probability cell: an array and an index into it (R13). -/
structure Cell where
  arr : CellArray
  idx : Nat
deriving DecidableEq, Repr, Inhabited

/-- The start value of every cell (R42, R484), and what an unlisted cell reads as. -/
abbrev probInit : Prob := 1024

/-- The probability arrays of the session (R43 to R48). -/
structure Cells where
  isMatch : Memory Prob
  isRep : Memory Prob
  isRepG0 : Memory Prob
  isRepG1 : Memory Prob
  isRepG2 : Memory Prob
  isRep0Long : Memory Prob
  literal : Memory Prob
  posSlot : Memory Prob
  posSpecial : Memory Prob
  align : Memory Prob
  lenC : Memory Prob
  repLenC : Memory Prob
deriving DecidableEq, Repr, Inhabited

/-- The range encoder (R50). -/
structure RangeEnc where
  low : BitVec 33
  range : Word
  cache : Byte
  cacheSize : Nat
deriving DecidableEq, Repr, Inhabited

/-- The range decoder (R51). -/
structure RangeDec where
  range : Word
  code : Word
  inPos : Nat
deriving DecidableEq, Repr, Inhabited

/-- The decode session's own latches (R74); its properties are in `Props`. -/
structure DecLatch where
  /-- `max(dictSize, 1)`. -/
  dictCheck : Nat
  /-- The declared output size, `none` for UNKNOWN (R36). -/
  outSize : Option Nat
deriving DecidableEq, Repr, Inhabited

/-! ### Session state: the encoder -/

/-- The match-finder kind (R33: 0 = BT2, 1 = BT4). -/
inductive MfKind where
  | bt2 | bt4
deriving DecidableEq, Repr, Inhabited

/-- The encoder's latched configuration and sequencing registers. -/
structure EncRegs where
  /-- Latched from CFG (R33). -/
  numFastBytes : Nat
  /-- Latched from CFG (R33). -/
  mfKind : MfKind
  /-- Latched from CFG (R33). -/
  writeEndMarker : Bool
  /-- R41. -/
  finished : Bool
  /-- R54. -/
  prevByte : Byte
  /-- R55. -/
  nowPos : Nat
  /-- R64. -/
  progressStart : Nat
  /-- R62. -/
  additionalOffset : Nat
deriving DecidableEq, Repr, Inhabited

/-- The encoder's price tables and their refresh counters (R57, R58, R59). A row of a table is a list in index
order; `lenPrices`, `repLenPrices` and the two counters are indexed by the pos-state, `posSlotPrices` and
`distancesPrices` by the length-to-pos-state. -/
structure Prices where
  posSlotPrices : List (List Nat)
  distancesPrices : List (List Nat)
  alignPrices : List Nat
  lenPrices : List (List Nat)
  repLenPrices : List (List Nat)
  lenCounter : List Nat
  repLenCounter : List Nat
  lenTableSize : Nat
  matchPriceCount : Nat
  alignPriceCount : Nat
deriving DecidableEq, Repr, Inhabited

/-- One optimal-parse node (R60). -/
structure OptNode where
  price : Nat
  posPrev : Nat
  backPrev : Word
  prev1IsChar : Bool
  prev2 : Bool
  posPrev2 : Nat
  backPrev2 : Word
  state : CoderState
  backs : Reps
deriving DecidableEq, Repr, Inhabited

/-- The node with every field 0 or false, what an unlisted node of `Opt` reads as (log entry 6). -/
def optZero : OptNode :=
  { price := 0, posPrev := 0, backPrev := 0, prev1IsChar := false, prev2 := false, posPrev2 := 0, backPrev2 := 0,
    state := 0, backs := { r0 := 0, r1 := 0, r2 := 0, r3 := 0 } }

/-- A (length, distance) pair of the match finder's report (R230). -/
structure MatchPair where
  len : Nat
  dist : Word
deriving DecidableEq, Repr, Inhabited

/-- The optimal-parse store (R60, R61) and the saved-longest-match registers (R63). -/
structure OptStore where
  nodes : Memory OptNode
  optimumEndIndex : Nat
  optimumCurrentIndex : Nat
  longestMatchWasFound : Bool
  longestMatchLength : Nat
  savedPairs : List MatchPair
deriving DecidableEq, Repr, Inhabited

/-- The match finder's registers, memories and session constants (R65 to R68). -/
structure MatchFinder where
  mfPos : Word
  mfBase : Nat
  cyclicPos : Nat
  cbs : Nat
  matchMaxLen : Nat
  cutValue : Nat
  minMatchCheck : Nat
  numHashDirectBytes : Nat
  fixHashSize : Nat
  hashMask : Nat
  son : Memory Word
  hash : Memory Word
deriving DecidableEq, Repr, Inhabited

/-- The internal state of a session (R42 to R69, R74): what a session open sets and what CLOSE leaves unspecified
(R436). The core holds one session at a time (R30), so one copy serves both kinds (log entry 17). -/
structure Session where
  props : Props
  state : CoderState
  reps : Reps
  cells : Cells
  renc : RangeEnc
  rdec : RangeDec
  dec : DecLatch
  enc : EncRegs
  prices : Prices
  opt : OptStore
  mf : MatchFinder
deriving DecidableEq, Repr, Inhabited

/-! ### The machine -/

/-- One access of the host to the core (R30, R32, R70, R72, R481). -/
inductive HostAccess where
  /-- `RegWrite(n, v)`; a write of register 0 issues a command (R101, R150). -/
  | regWrite (n : Fin 16) (v : Word)
  /-- `RegRead(n)` (R32). -/
  | regRead (n : Fin 16)
  /-- Place the encoder input `In` (R70, R487). -/
  | placeIn (bytes : List Byte)
  /-- Supply the compressed input `Cin` (R72, R487). -/
  | supplyCin (bytes : List Byte)
  /-- Reset (R481). -/
  | reset
deriving DecidableEq, Repr, Inhabited

/-- The state of the core and of what the host has handed it. -/
structure State where
  /-- The host-visible registers (R32). -/
  regs : HostRegs
  /-- The session's internal state. -/
  session : Session
  /-- `In`, the encoder input (R70). -/
  inp : List Byte
  /-- `Out`, the compressed output (R71). -/
  out : List Byte
  /-- `Cin`, the compressed input (R72). -/
  cin : List Byte
  /-- `Win`, the decoder output window (R73). -/
  win : List Byte
  /-- The model's own: the accesses the host has still to make, in its program order (R30, R32; log entry 1). -/
  pending : List HostAccess
  /-- The model's own: the value the last `RegRead` returned (log entry 8). -/
  readData : Word
  /-- The model's own: counts the uses of the free value `Config.freeSession` (log entry 5). -/
  freeCount : Nat
deriving DecidableEq, Repr, Inhabited

end Sys2Proof.Machine

namespace Sys2Proof.Config

/-- The session state CLOSE leaves: "The session's internal state becomes unspecified" (R436). A free value with no
body, a fresh one for each CLOSE (log entry 5). -/
opaque freeSession : Nat → Sys2Proof.Machine.Session

end Sys2Proof.Config

namespace Sys2Proof.Machine

/-! ### Outcomes -/

/-- Why a step stops with no next state. The faults of the spec (`60_exceptions.md` R450) are no stop: the machine
goes on in phase FAULT, so each is a next state. -/
inductive Fault where
  /-- Raised by ENC_STEP when the emission loop makes no progress (a pending chain whose next step has length 0),
  where the spec's loop would never end (R373). Safe: no run reaches it (log entry 15). -/
  | encoderStuck
deriving DecidableEq, Repr

/-- Why a step has no meaning. -/
inductive Refusal where
  /-- Raised by `exec` for an instruction that has no meaning yet. Safe. No arm answers it. -/
  | notModelled (mnemonic : String)
  /-- Raised by the host access `placeIn` while an encode session is open: the host may not change `In` then, and the
  model gives it no such move (R106, R490; `93_implementation_defined.md` I29). Safe (log entry 9). -/
  | inputChangedInSession
deriving DecidableEq, Repr

/-! ### Reset (R480) -/

/-- The host-visible registers after reset (R32, R480). -/
def HostRegs.reset : HostRegs :=
  { cmd := 0, cfg := 0x00088103, dict := 0x00400000, dprops0 := 0x5D, dprops1 := 0x00400000,
    outsizeLo := 0xFFFFFFFF, outsizeHi := 0xFFFFFFFF, phase := .idle, isEncoder := false, faultClass := .none,
    faultSub := 0, eprops0 := 0, eprops1 := 0, inCount := 0, outCount := 0 }

/-- Every cell at 1024 (R484). -/
def Cells.init : Cells :=
  { isMatch := [], isRep := [], isRepG0 := [], isRepG1 := [], isRepG2 := [], isRep0Long := [], literal := [],
    posSlot := [], posSpecial := [], align := [], lenC := [], repLenC := [] }

/-- `RcEncInit()` (R173). -/
def RangeEnc.init : RangeEnc := { low := 0, range := 0xFFFFFFFF, cache := 0, cacheSize := 1 }

/-- All four distances 0 (R53). -/
def Reps.zero : Reps := { r0 := 0, r1 := 0, r2 := 0, r3 := 0 }

/-- The session's internal state after reset. Only `finished` has a value in the spec (R41, R480). Every other value
is the model's: DESIGN CHOICE, log entry 4. -/
def Session.reset : Session :=
  { props := { lc := 3, lp := 0, pb := 2, dictSize := 0x00400000 }
    state := 0
    reps := Reps.zero
    cells := Cells.init
    renc := RangeEnc.init
    rdec := { range := 0xFFFFFFFF, code := 0, inPos := 0 }
    dec := { dictCheck := 0x00400000, outSize := none }
    enc := { numFastBytes := 32, mfKind := .bt4, writeEndMarker := false, finished := false, prevByte := 0,
             nowPos := 0, progressStart := 0, additionalOffset := 0 }
    prices := { posSlotPrices := [], distancesPrices := [], alignPrices := [], lenPrices := [], repLenPrices := [],
                lenCounter := [], repLenCounter := [], lenTableSize := 31, matchPriceCount := 0,
                alignPriceCount := 0 }
    opt := { nodes := [], optimumEndIndex := 0, optimumCurrentIndex := 0, longestMatchWasFound := false,
             longestMatchLength := 0, savedPairs := [] }
    mf := { mfPos := 1, mfBase := 0, cyclicPos := 0, cbs := 0x00400001, matchMaxLen := 32, cutValue := 32,
            minMatchCheck := 4, numHashDirectBytes := 0, fixHashSize := 66560, hashMask := 0x1FFFFF,
            son := [], hash := [] } }

/-- The machine right after reset (R480): no session, the byte spaces empty, nothing pending from the host. -/
def State.reset : State :=
  { regs := HostRegs.reset, session := Session.reset, inp := [], out := [], cin := [], win := [], pending := [],
    readData := 0, freeCount := 0 }

end Sys2Proof.Machine
end

