-- ==== Sys2Proof/Machine/Flags.lean ====
section
/-!
DEFINITION. The core has no condition codes (`10_state.md` R75). Its flags are the coder state and what is read from it
(`43_state_and_symbols.md` R270 to R272, R314), and the fields of STATUS (`10_state.md` R37).
-/

namespace Sys2Proof.Machine

/-! ### The state automaton (R270) -/

/-- LIT: `0 if s < 4, s − 3 if s < 10, else s − 6`. -/
def updateChar (s : CoderState) : CoderState :=
  if s.val < 4 then 0
  else if s.val < 10 then ⟨s.val - 3, by omega⟩
  else ⟨s.val - 6, by omega⟩

/-- MATCH and END: `7 if s < 7 else 10`. -/
def updateMatch (s : CoderState) : CoderState := if s.val < 7 then 7 else 10

/-- REP0 to REP3: `8 if s < 7 else 11`. -/
def updateRep (s : CoderState) : CoderState := if s.val < 7 then 8 else 11

/-- SHORTREP: `9 if s < 7 else 11`. -/
def updateShortRep (s : CoderState) : CoderState := if s.val < 7 then 9 else 11

/-- The last symbol was a literal (R271): the literal mode is plain. -/
def isChar (s : CoderState) : Bool := s.val < 7

/-- The pos-state of a symbol whose first byte is at `pos`: `pos & (2^pb − 1)` (R272). -/
def posStateOf (pb pos : Nat) : Nat := pos % 2 ^ pb

/-- `LenToPosState(len) = min(len − 2, 3)` (R314). -/
def lenToPosState (len : Nat) : Nat := min (len - 2) 3

/-! ### The rep-distance set (R273) -/

/-- `reps[k]` for k in 0..3. -/
def Reps.get (r : Reps) (k : Nat) : Word :=
  match k with
  | 0 => r.r0
  | 1 => r.r1
  | 2 => r.r2
  | _ => r.r3

/-- Using `reps[k]` moves it to index 0 and shifts the ones before it down (R273). -/
def Reps.promote (r : Reps) (k : Nat) : Reps :=
  match k with
  | 0 => r
  | 1 => { r0 := r.r1, r1 := r.r0, r2 := r.r2, r3 := r.r3 }
  | 2 => { r0 := r.r2, r1 := r.r0, r2 := r.r1, r3 := r.r3 }
  | _ => { r0 := r.r3, r1 := r.r0, r2 := r.r1, r3 := r.r2 }

/-- A MATCH pushes its distance in at index 0 and drops the old `reps[3]` (R273). -/
def Reps.push (r : Reps) (d : Word) : Reps := { r0 := d, r1 := r.r0, r2 := r.r1, r3 := r.r2 }

/-! ### STATUS (R37) -/

/-- The code of a phase in STATUS[2:0]. -/
def Phase.code : Phase → Nat
  | .idle => 0
  | .encReady => 1
  | .decReady => 2
  | .done => 3
  | .fault => 4

/-- The code of a fault class in STATUS[7:4] (R450). -/
def FaultClass.code : FaultClass → Nat
  | .none => 0
  | .configError => 1
  | .sourceExhausted => 2
  | .dataError => 3
  | .internalInvariant => 4
  | .illegalCommand => 5

/-- STATUS as the host reads it (R37); bits 31:16 read 0. -/
def HostRegs.status (r : HostRegs) : Word :=
  u32 (r.phase.code + 8 * r.isEncoder.toNat + 16 * r.faultClass.code + 256 * r.faultSub.toNat)

/-! ### CFG (R33) -/

/-- CFG[3:0]. -/
def cfgLc (cfg : Word) : Nat := cfg.toNat % 16
/-- CFG[6:4]. -/
def cfgLp (cfg : Word) : Nat := cfg.toNat / 2 ^ 4 % 8
/-- CFG[9:7]. -/
def cfgPb (cfg : Word) : Nat := cfg.toNat / 2 ^ 7 % 8
/-- CFG[18:10]. -/
def cfgNumFastBytes (cfg : Word) : Nat := cfg.toNat / 2 ^ 10 % 512
/-- CFG[19]: 0 = BT2, 1 = BT4. -/
def cfgMfKind (cfg : Word) : MfKind := if cfg.toNat.testBit 19 then .bt4 else .bt2
/-- CFG[20]. -/
def cfgWriteEndMarker (cfg : Word) : Bool := cfg.toNat.testBit 20
/-- CFG[31:21], reserved, must be 0. -/
def cfgReserved (cfg : Word) : Nat := cfg.toNat / 2 ^ 21

/-- OUTSIZE_HI:OUTSIZE_LO as the declared size; all ones means UNKNOWN (R36). -/
def declaredSize (r : HostRegs) : Option Nat :=
  let n := r.outsizeHi.toNat * 2 ^ 32 + r.outsizeLo.toNat
  if n = 2 ^ 64 - 1 then none else some n

end Sys2Proof.Machine
end

