-- ==== Sys2Proof/Machine/Ops.lean ====
section
/-!
DEFINITION. The named operations over the registers and memories of the core, on which every meaning is built:
taking a fault (`60_exceptions.md` R451), the host register file (`10_state.md` R32), the byte spaces
(`20_memory.md` R92 to R95), the probability cells, the match finder's memories and the optimal-parse nodes.
-/

namespace Sys2Proof.Machine

/-! ### Actions and faults -/

/-- Why an action stops before its end. -/
inductive Abort where
  /-- A rule raised the fault of this class and sub-code (R451). -/
  | raised (c : FaultClass) (sub : Byte)
  /-- The spec's loop would not end here (`Fault.encoderStuck`). -/
  | stuck
deriving DecidableEq, Repr

/-- A procedure of the spec: it runs from a state and gives a value and the state after it, or stops with the state as
it stands at the stop ("every effect before the raise has happened, and none after it", R451). -/
abbrev Act (α : Type) := EStateM Abort State α

/-- `raise <Fault>(sub k)` (R11, R451). -/
def raise {α : Type} (c : FaultClass) (k : Nat) : Act α := throw (.raised c (u8 k))

/-- TAKING A FAULT (R451), the core's only exception: STATUS gets the class, the sub-code and phase FAULT. `isEncoder`
and every other register keep their values. IN_COUNT and OUT_COUNT already stand at the raise (log entry 12). There
is no handler and no return from it (R461). -/
def enterFault (c : FaultClass) (sub : Byte) (s : State) : State :=
  { s with regs := { s.regs with phase := .fault, faultClass := c, faultSub := sub } }

/-- The outcome of a meaning: a fault raised in it is taken and the machine goes on. -/
def outcome (a : Act Unit) (s : State) : Host.Outcome State Fault Refusal :=
  match a s with
  | .ok _ s' => .next s'
  | .error (.raised c k) s' => .next (enterFault c k s')
  | .error .stuck _ => .fault .encoderStuck

/-- Run `a`; if it stops, `f` is applied to the state it stops in. -/
def onStop {α : Type} (f : State → State) (a : Act α) : Act α := fun s =>
  match a s with
  | .ok x s' => .ok x s'
  | .error e s' => .error e (f s')

/-- The values of `f` at `i, i + 1, …, i + n − 1`, in this order. -/
def tabulate {α : Type} (f : Nat → Act α) : Nat → Nat → Act (List α)
  | _, 0 => pure []
  | i, n + 1 => do
    let x ← f i
    let xs ← tabulate f (i + 1) n
    pure (x :: xs)

/-- Element `i` of a list register; an index outside it is InternalInvariant(sub 3) (R49, R457). -/
def elemAt {α : Type} (xs : List α) (i : Nat) : Act α :=
  match xs[i]? with
  | some x => pure x
  | none => raise .internalInvariant 3

/-! ### Writing parts of the state -/

/-- Change the host-visible registers. -/
def State.mapRegs (f : HostRegs → HostRegs) (s : State) : State := { s with regs := f s.regs }

/-- Change the session's internal state. -/
def State.mapSession (f : Session → Session) (s : State) : State := { s with session := f s.session }

/-- Set `phase`. -/
def setPhase (p : Phase) : Act Unit := modify (State.mapRegs fun r => { r with phase := p })

/-- Change the session's internal state. -/
def mapSession (f : Session → Session) : Act Unit := modify (State.mapSession f)

/-- Change the encoder's sequencing registers. -/
def mapEnc (f : EncRegs → EncRegs) : Act Unit := mapSession fun ss => { ss with enc := f ss.enc }

/-- Change the price tables. -/
def mapPrices (f : Prices → Prices) : Act Unit := mapSession fun ss => { ss with prices := f ss.prices }

/-- Change the optimal-parse store. -/
def mapOpt (f : OptStore → OptStore) : Act Unit := mapSession fun ss => { ss with opt := f ss.opt }

/-- Change the match finder. -/
def mapMf (f : MatchFinder → MatchFinder) : Act Unit := mapSession fun ss => { ss with mf := f ss.mf }

/-- Write `state` (R52). -/
def setCoderState (st : CoderState) : Act Unit := mapSession fun ss => { ss with state := st }

/-- Write `reps` (R53). -/
def setReps (r : Reps) : Act Unit := mapSession fun ss => { ss with reps := r }

/-- Write `nowPos` (R55). IN_COUNT of an encode session is `nowPos` (R39). -/
def setNowPos (n : Nat) : Act Unit := modify fun s =>
  { s with
    regs := { s.regs with inCount := u32 n }
    session := { s.session with enc := { s.session.enc with nowPos := n } } }

/-! ### The host register file (R32) -/

/-- `RegRead(n)`. CMD and registers 12..15 read 0, and so do the reserved fields (R32, R35, R37, R38). -/
def regRead (s : State) (n : Fin 16) : Word :=
  match n.val with
  | 1 => s.regs.cfg
  | 2 => s.regs.dict
  | 3 => u32 s.regs.dprops0.toNat
  | 4 => s.regs.dprops1
  | 5 => s.regs.outsizeLo
  | 6 => s.regs.outsizeHi
  | 7 => s.regs.status
  | 8 => u32 s.regs.eprops0.toNat
  | 9 => s.regs.eprops1
  | 10 => s.regs.inCount
  | 11 => s.regs.outCount
  | _ => 0

/-- What `RegWrite(n, v)` stores. A write to a read-only or reserved register is ignored (R32); DPROPS0 stores bits 7:0
only (R35). The command that a write of CMD issues is `Machine/HostPort.lean`. -/
def regStore (n : Fin 16) (v : Word) (r : HostRegs) : HostRegs :=
  match n.val with
  | 0 => { r with cmd := v }
  | 1 => { r with cfg := v }
  | 2 => { r with dict := v }
  | 3 => { r with dprops0 := u8 v.toNat }
  | 4 => { r with dprops1 := v }
  | 5 => { r with outsizeLo := v }
  | 6 => { r with outsizeHi := v }
  | _ => r

/-! ### The byte spaces (R90 to R95) -/

/-- `InByte(a)`: byte `a` of `In`, InternalInvariant(sub 4) outside it (R92). -/
def inByte (a : Nat) : Act Byte := do
  let s ← get
  match s.inp[a]? with
  | some b => pure b
  | none => raise .internalInvariant 4

/-- `EmitByte(b)`: append `b` to `Out` (R93). OUT_COUNT of an encode session is `|Out|` (R39). -/
def emitByte (b : Byte) : Act Unit := modify fun s =>
  { s with out := s.out ++ [b], regs := { s.regs with outCount := u32 (s.out.length + 1) } }

/-- `ReadIn()`: take the next byte of `Cin`, or SourceExhausted(sub 0) (R94). IN_COUNT of a decode session is `inPos`
(R39). -/
def readIn : Act Byte := do
  let s ← get
  match s.cin[s.session.rdec.inPos]? with
  | none => raise .sourceExhausted 0
  | some b =>
    let n := s.session.rdec.inPos + 1
    set { s with
      regs := { s.regs with inCount := u32 n }
      session := { s.session with rdec := { s.session.rdec with inPos := n } } }
    pure b

/-- `outPos = |Win|` (R73). -/
def State.outPos (s : State) : Nat := s.win.length

/-- `WinRead(a)`: byte `a` of `Win`, InternalInvariant(sub 4) outside it (R95). -/
def winRead (a : Nat) : Act Byte := do
  let s ← get
  match s.win[a]? with
  | some b => pure b
  | none => raise .internalInvariant 4

/-- `WinAppend(b)`: append `b` to `Win` (R95). OUT_COUNT of a decode session is `outPos` (R39). -/
def winAppend (b : Byte) : Act Unit := modify fun s =>
  { s with win := s.win ++ [b], regs := { s.regs with outCount := u32 (s.win.length + 1) } }

/-! ### Probability cells (R42 to R49) -/

/-- The cells of an array (R43 to R48). -/
def CellArray.size (p : Props) : CellArray → Nat
  | .isMatch | .isRep0Long => 192
  | .isRep | .isRepG0 | .isRepG1 | .isRepG2 => 12
  | .literal => 0x300 * 2 ^ (p.lc + p.lp)
  | .posSlot => 256
  | .posSpecial => 114
  | .align => 16
  | .lenC | .repLenC => 514

/-- The memory of an array. -/
def Cells.memory (c : Cells) : CellArray → Memory Prob
  | .isMatch => c.isMatch
  | .isRep => c.isRep
  | .isRepG0 => c.isRepG0
  | .isRepG1 => c.isRepG1
  | .isRepG2 => c.isRepG2
  | .isRep0Long => c.isRep0Long
  | .literal => c.literal
  | .posSlot => c.posSlot
  | .posSpecial => c.posSpecial
  | .align => c.align
  | .lenC => c.lenC
  | .repLenC => c.repLenC

/-- Replace the memory of an array. -/
def Cells.setMemory (c : Cells) (a : CellArray) (m : Memory Prob) : Cells :=
  match a with
  | .isMatch => { c with isMatch := m }
  | .isRep => { c with isRep := m }
  | .isRepG0 => { c with isRepG0 := m }
  | .isRepG1 => { c with isRepG1 := m }
  | .isRepG2 => { c with isRepG2 := m }
  | .isRep0Long => { c with isRep0Long := m }
  | .literal => { c with literal := m }
  | .posSlot => { c with posSlot := m }
  | .posSpecial => { c with posSpecial := m }
  | .align => { c with align := m }
  | .lenC => { c with lenC := m }
  | .repLenC => { c with repLenC := m }

/-- The value of a cell. -/
def Cells.get (c : Cells) (cell : Cell) : Prob := (c.memory cell.arr).read probInit cell.idx

/-- Set a cell. -/
def Cells.put (c : Cells) (cell : Cell) (p : Prob) : Cells :=
  c.setMemory cell.arr ((c.memory cell.arr).write probInit cell.idx p)

/-- The arrays, each in canonical form. -/
def Cells.canonical (c : Cells) : Cells :=
  { isMatch := c.isMatch.canonical probInit
    isRep := c.isRep.canonical probInit
    isRepG0 := c.isRepG0.canonical probInit
    isRepG1 := c.isRepG1.canonical probInit
    isRepG2 := c.isRepG2.canonical probInit
    isRep0Long := c.isRep0Long.canonical probInit
    literal := c.literal.canonical probInit
    posSlot := c.posSlot.canonical probInit
    posSpecial := c.posSpecial.canonical probInit
    align := c.align.canonical probInit
    lenC := c.lenC.canonical probInit
    repLenC := c.repLenC.canonical probInit }

/-- A session with every memory in canonical form. -/
def Session.canonical (ss : Session) : Session :=
  { ss with
    cells := ss.cells.canonical
    opt := { ss.opt with nodes := ss.opt.nodes.canonical optZero }
    mf := { ss.mf with son := ss.mf.son.canonical 0, hash := ss.mf.hash.canonical 0 } }

/-- Read a cell. An index outside its array is InternalInvariant(sub 3) (R49), a value outside [1, 2047]
InternalInvariant(sub 5) (R457; log entry 16). -/
def readCell (cell : Cell) : Act Prob := do
  let s ← get
  if cell.idx < cell.arr.size s.session.props then
    let p := s.session.cells.get cell
    if p = 0 then raise .internalInvariant 5 else pure p
  else raise .internalInvariant 3

/-- Write a cell that `readCell` has read. -/
def writeCell (cell : Cell) (p : Prob) : Act Unit :=
  mapSession fun ss => { ss with cells := ss.cells.put cell p }

/-! ### The match finder's memories (R66, R67) -/

/-- `Son[i]`, for `i` in 0 .. 2·cbs − 1. -/
def readSon (i : Nat) : Act Nat := do
  let s ← get
  if i < 2 * s.session.mf.cbs then pure ((s.session.mf.son.read 0 i).toNat)
  else raise .internalInvariant 3

/-- `Son[i] <- v`. -/
def writeSon (i v : Nat) : Act Unit := do
  let s ← get
  if i < 2 * s.session.mf.cbs then mapMf fun m => { m with son := m.son.write 0 i (u32 v) }
  else raise .internalInvariant 3

/-- `Hash[i]`, for `i` in 0 .. fixHashSize + hashMask. -/
def readHash (i : Nat) : Act Nat := do
  let s ← get
  if i ≤ s.session.mf.fixHashSize + s.session.mf.hashMask then pure ((s.session.mf.hash.read 0 i).toNat)
  else raise .internalInvariant 3

/-- `Hash[i] <- v`. -/
def writeHash (i v : Nat) : Act Unit := do
  let s ← get
  if i ≤ s.session.mf.fixHashSize + s.session.mf.hashMask then
    mapMf fun m => { m with hash := m.hash.write 0 i (u32 v) }
  else raise .internalInvariant 3

/-! ### Optimal-parse nodes (R60) -/

/-- `Opt[i]`, for `i` in 0..4095. -/
def readNode (i : Nat) : Act OptNode := do
  let s ← get
  if i < Config.kNumOpts then pure (s.session.opt.nodes.read optZero i)
  else raise .internalInvariant 3

/-- `Opt[i] <- n`. -/
def writeNode (i : Nat) (n : OptNode) : Act Unit :=
  if i < Config.kNumOpts then mapOpt fun o => { o with nodes := o.nodes.write optZero i n }
  else raise .internalInvariant 3

/-- Change some fields of `Opt[i]`. -/
def modifyNode (i : Nat) (f : OptNode → OptNode) : Act Unit := do
  let n ← readNode i
  writeNode i (f n)

end Sys2Proof.Machine
end

