-- ==== Sys2Proof/Machine/RangeCoder.lean ====
section
/-!
DEFINITION. The adaptive range coder (`40_range_coder.md` R170 to R181).
-/

namespace Sys2Proof.Machine

/-- `kTop` (R170). -/
abbrev kTop : Nat := 2 ^ 24

/-- `Update(cell, b)` on a cell's value (R171). -/
def updateProb (p : Prob) (b : Bool) : Prob :=
  if b then BitVec.ofNat 11 (p.toNat - p.toNat >>> 5)
  else BitVec.ofNat 11 (p.toNat + (2048 - p.toNat) >>> 5)

/-! ### Range encoder -/

/-- Emit `b`, then every pending 0xFF with the carry added: the repeat of ShiftLow (R175). -/
def emitRun (carry : Nat) (b : Byte) : Nat → Act Unit
  | 0 => pure ()
  | n + 1 => do
    emitByte (u8 (b.toNat + carry))
    emitRun carry 0xFF n

/-- Change the range encoder. -/
def mapRenc (f : RangeEnc → RangeEnc) : Act Unit := mapSession fun ss => { ss with renc := f ss.renc }

/-- `ShiftLow()` (R175). -/
def shiftLow : Act Unit := do
  let s ← get
  let e := s.session.renc
  let low := e.low.toNat
  let next := BitVec.ofNat 33 (low % 2 ^ 24 * 2 ^ 8)
  if low < 0xFF000000 || 2 ^ 32 ≤ low then
    emitRun (low / 2 ^ 32) e.cache e.cacheSize
    mapRenc fun e => { e with cache := u8 (low / 2 ^ 24), cacheSize := 1, low := next }
  else
    mapRenc fun e => { e with cacheSize := e.cacheSize + 1, low := next }

/-- The encoder's normalisation after a coded bit (R174, R176). -/
def encNormalize : Act Unit := do
  let s ← get
  let r := s.session.renc.range.toNat
  if r < kTop then
    mapRenc fun e => { e with range := u32 (r * 2 ^ 8) }
    shiftLow

/-- `EncodeBit(cell, b)` (R174). -/
def encodeBit (cell : Cell) (b : Bool) : Act Unit := do
  let p ← readCell cell
  let s ← get
  let e := s.session.renc
  let bound := e.range.toNat / 2 ^ 11 * p.toNat
  if b then
    mapRenc fun e =>
      { e with low := BitVec.ofNat 33 (e.low.toNat + bound), range := u32 (e.range.toNat - bound) }
  else
    mapRenc fun e => { e with range := u32 bound }
  writeCell cell (updateProb p b)
  encNormalize

/-- `EncodeDirectBits(v, n)` (R176). -/
def encodeDirectBits (v : Nat) : Nat → Act Unit
  | 0 => pure ()
  | i + 1 => do
    let s ← get
    let half := s.session.renc.range.toNat / 2
    mapRenc fun e =>
      { e with range := u32 half
               low := if v.testBit i then BitVec.ofNat 33 (e.low.toNat + half) else e.low }
    encNormalize
    encodeDirectBits v i

/-- `n` calls of ShiftLow. -/
def shiftLows : Nat → Act Unit
  | 0 => pure ()
  | n + 1 => do
    shiftLow
    shiftLows n

/-- `FlushEncoder()`: five calls of ShiftLow (R177). -/
def flushEncoder : Act Unit := shiftLows 5

/-! ### Range decoder -/

/-- Change the range decoder. -/
def mapRdec (f : RangeDec → RangeDec) : Act Unit := mapSession fun ss => { ss with rdec := f ss.rdec }

/-- `code <- u32((code << 8) | ReadIn())` (R179, R180). -/
def shiftInCode : Act Unit := do
  let b ← readIn
  mapRdec fun d => { d with code := u32 (d.code.toNat * 2 ^ 8 + b.toNat) }

/-- `n` bytes into `code`. -/
def shiftInCodes : Nat → Act Unit
  | 0 => pure ()
  | n + 1 => do
    shiftInCode
    shiftInCodes n

/-- `RcDecInit()` (R179). -/
def rcDecInit : Act Unit := do
  mapRdec fun d => { d with range := 0xFFFFFFFF, code := 0 }
  let b0 ← readIn
  if b0 ≠ 0 then raise .dataError 5
  shiftInCodes 4
  let s ← get
  if s.session.rdec.code = 0xFFFFFFFF then raise .dataError 6

/-- The decoder's normalisation after a bit (R180, R181). -/
def decNormalize : Act Unit := do
  let s ← get
  let r := s.session.rdec.range.toNat
  if r < kTop then
    mapRdec fun d => { d with range := u32 (r * 2 ^ 8) }
    shiftInCode

/-- `b <- DecodeBit(cell)` (R180). -/
def decodeBit (cell : Cell) : Act Bool := do
  let p ← readCell cell
  let s ← get
  let d := s.session.rdec
  let bound := d.range.toNat / 2 ^ 11 * p.toNat
  let b := decide (bound ≤ d.code.toNat)
  if b then
    mapRdec fun d => { d with range := u32 (d.range.toNat - bound), code := u32 (d.code.toNat - bound) }
  else
    mapRdec fun d => { d with range := u32 bound }
  writeCell cell (updateProb p b)
  decNormalize
  pure b

/-- `v <- DecodeDirectBits(n)` onto the value `v` (R181). -/
def decodeDirectBits (v : Nat) : Nat → Act Nat
  | 0 => pure v
  | n + 1 => do
    let s ← get
    let half := s.session.rdec.range.toNat / 2
    let b := decide (half ≤ s.session.rdec.code.toNat)
    mapRdec fun d =>
      { d with range := u32 half, code := if b then u32 (d.code.toNat - half) else d.code }
    decNormalize
    decodeDirectBits (2 * v + b.toNat) n

end Sys2Proof.Machine
end

