-- ==== Sys2Proof/Machine/BitTree.lean ====
section
/-!
DEFINITION. Bit trees and the price model (`41_bit_tree_and_prices.md` R200 to R209). A tree of array `A` at base `b` uses
cells `b + m` for the nodes `m` from 1 (R204). A reverse tree is given by its cell function, since the footer trees of
`PosSpecial` have a base below 0 for slot 4 (R128).
-/

namespace Sys2Proof.Machine

/-! ### Prices (R200 to R202) -/

/-- `ProbPrices[j]` (R200): `j` of `n + 1` significant bits is in the block `i = 8 − n` of the table's loop. Entry 0 is
left 0. -/
def probPrice (j : Nat) : Nat :=
  if j = 0 then 0
  else
    let n := j.log2
    (8 - n) <<< 6 + ((2 ^ (n + 1) - j) <<< 6) >>> n

/-- `priceBit(p, b)` (R201): `price0` for a 0 bit, `price1` for a 1 bit. -/
def priceBit (p : Prob) (b : Bool) : Nat :=
  if b then probPrice ((2048 - p.toNat) >>> 2) else probPrice (p.toNat >>> 2)

/-- The price of coding `b` under a cell, with the cell unchanged (R201). -/
def cellPrice (cell : Cell) (b : Bool) : Act Nat := do
  let p ← readCell cell
  pure (priceBit p b)

/-! ### Coding (R205 to R208) -/

/-- The walk of `BitTreeEncode` (R205) from node `m`, coding bits `n − 1 .. 0` of `sym`. -/
def treeEncodeFrom (A : CellArray) (b sym : Nat) : Nat → Nat → Act Unit
  | 0, _ => pure ()
  | n + 1, m => do
    encodeBit ⟨A, b + m⟩ (sym.testBit n)
    treeEncodeFrom A b sym n (2 * m + (sym.testBit n).toNat)

/-- `BitTreeEncode(A, b, k, sym)` (R205). -/
def bitTreeEncode (A : CellArray) (b k sym : Nat) : Act Unit := treeEncodeFrom A b sym k 1

/-- The walk of `BitTreeReverseEncode` (R206) from node `m`, coding the low `n` bits of `sym`; node `m` is the cell
`node m`. -/
def treeReverseEncodeFrom (node : Nat → Cell) : Nat → Nat → Nat → Act Unit
  | 0, _, _ => pure ()
  | n + 1, m, sym => do
    encodeBit (node m) (sym.testBit 0)
    treeReverseEncodeFrom node n (2 * m + (sym.testBit 0).toNat) (sym / 2)

/-- `BitTreeReverseEncode(A, b, k, sym)` (R206), node `m` being the cell `node m`. -/
def bitTreeReverseEncode (node : Nat → Cell) (k sym : Nat) : Act Unit := treeReverseEncodeFrom node k 1 sym

/-- The walk of `BitTreeDecode` (R207): `n` bits down from node `m`, giving the node reached. -/
def treeDecodeFrom (A : CellArray) (b : Nat) : Nat → Nat → Act Nat
  | 0, m => pure m
  | n + 1, m => do
    let bit ← decodeBit ⟨A, b + m⟩
    treeDecodeFrom A b n (2 * m + bit.toNat)

/-- `sym <- BitTreeDecode(A, b, k)` (R207). -/
def bitTreeDecode (A : CellArray) (b k : Nat) : Act Nat := do
  let m ← treeDecodeFrom A b k 1
  pure (m - 2 ^ k)

/-- The walk of `BitTreeReverseDecode` (R208): `n` bits down from node `m`, giving them as a value, the first its
bit 0. -/
def treeReverseDecodeFrom (node : Nat → Cell) : Nat → Nat → Act Nat
  | 0, _ => pure 0
  | n + 1, m => do
    let bit ← decodeBit (node m)
    let sym ← treeReverseDecodeFrom node n (2 * m + bit.toNat)
    pure (bit.toNat + 2 * sym)

/-- `sym <- BitTreeReverseDecode(A, b, k)` (R208). -/
def bitTreeReverseDecode (node : Nat → Cell) (k : Nat) : Act Nat := treeReverseDecodeFrom node k 1

/-! ### Tree prices (R209) -/

/-- The price of the walk of `treeEncodeFrom`. -/
def treePriceFrom (A : CellArray) (b sym : Nat) : Nat → Nat → Act Nat
  | 0, _ => pure 0
  | n + 1, m => do
    let c ← cellPrice ⟨A, b + m⟩ (sym.testBit n)
    let rest ← treePriceFrom A b sym n (2 * m + (sym.testBit n).toNat)
    pure (c + rest)

/-- `BitTreePrice(A, b, k, sym)` (R209). -/
def bitTreePrice (A : CellArray) (b k sym : Nat) : Act Nat := treePriceFrom A b sym k 1

/-- The price of the walk of `treeReverseEncodeFrom`. -/
def treeReversePriceFrom (node : Nat → Cell) : Nat → Nat → Nat → Act Nat
  | 0, _, _ => pure 0
  | n + 1, m, sym => do
    let c ← cellPrice (node m) (sym.testBit 0)
    let rest ← treeReversePriceFrom node n (2 * m + (sym.testBit 0).toNat) (sym / 2)
    pure (c + rest)

/-- `BitTreeReversePrice(A, b, k, sym)` (R209). -/
def bitTreeReversePrice (node : Nat → Cell) (k sym : Nat) : Act Nat := treeReversePriceFrom node k 1 sym

end Sys2Proof.Machine
end

