-- ==== Sys2Proof/Machine/Operands.lean ====
section
/-!
DEFINITION. The operand fields of the symbols under the session's cells (`43_state_and_symbols.md` sections 2 to 4):
the literal field (R290 to R294), the length field (R300 to R303) and the distance field (R310 to R314), each with its
encoder, its decoder and its price.
-/

namespace Sys2Proof.Machine

/-! ### Literal field -/

/-- `LitBase(pos, prev)` (R44, R290). -/
def litBase (p : Props) (pos : Nat) (prev : Byte) : Nat :=
  0x300 * (pos % 2 ^ p.lp * 2 ^ p.lc + prev.toNat >>> (8 - p.lc))

/-- `LitEncode(base, v)`, plain mode (R290). -/
def litEncode (base : Nat) (v : Byte) : Act Unit := bitTreeEncode .literal base 8 v.toNat

/-- The walk of `LitEncodeMatched` (R291) from node `m` over bits `n − 1 .. 0`; `same` while every bit coded so far
equals the match byte's. -/
def litEncodeMatchedFrom (base : Nat) (mb v : Byte) : Nat → Nat → Bool → Act Unit
  | 0, _, _ => pure ()
  | n + 1, m, same => do
    let bit := v.toNat.testBit n
    let mbit := mb.toNat.testBit n
    let c := if same then 0x100 * (1 + mbit.toNat) + m else m
    encodeBit ⟨.literal, base + c⟩ bit
    litEncodeMatchedFrom base mb v n (2 * m + bit.toNat) (same && mbit == bit)

/-- `LitEncodeMatched(base, mb, v)` (R291). -/
def litEncodeMatched (base : Nat) (mb v : Byte) : Act Unit := litEncodeMatchedFrom base mb v 8 1 true

/-- `LitDecode(base)`, plain mode (R292). -/
def litDecode (base : Nat) : Act Byte := do
  let m ← treeDecodeFrom .literal base 8 1
  pure (u8 (m - 0x100))

/-- The walk of `LitDecodeMatched` (R293) from node `m` over bits `n − 1 .. 0`. -/
def litDecodeMatchedFrom (base : Nat) (mb : Byte) : Nat → Nat → Act Nat
  | 0, m => pure m
  | n + 1, m => do
    let mbit := mb.toNat.testBit n
    let bit ← decodeBit ⟨.literal, base + 0x100 * (1 + mbit.toNat) + m⟩
    if mbit = bit then litDecodeMatchedFrom base mb n (2 * m + bit.toNat)
    else treeDecodeFrom .literal base n (2 * m + bit.toNat)

/-- `LitDecodeMatched(base, mb)` (R293). -/
def litDecodeMatched (base : Nat) (mb : Byte) : Act Byte := do
  let m ← litDecodeMatchedFrom base mb 8 1
  pure (u8 (m - 0x100))

/-- The matched part of `LitPrice` (R294) from node `m` over bits `n − 1 .. 0`, then the plain part. -/
def litPriceMatchedFrom (base : Nat) (mb v : Byte) : Nat → Nat → Act Nat
  | 0, _ => pure 0
  | n + 1, m => do
    let bit := v.toNat.testBit n
    let mbit := mb.toNat.testBit n
    let c ← cellPrice ⟨.literal, base + 0x100 * (1 + mbit.toNat) + m⟩ bit
    let rest ←
      if mbit = bit then litPriceMatchedFrom base mb v n (2 * m + bit.toNat)
      else treePriceFrom .literal base v.toNat n (2 * m + bit.toNat)
    pure (c + rest)

/-- `LitPrice(base, matched, mb, v)` (R294). -/
def litPrice (base : Nat) (matched : Bool) (mb v : Byte) : Act Nat :=
  if matched then litPriceMatchedFrom base mb v 8 1 else treePriceFrom .literal base v.toNat 8 1

/-! ### Length field (`L` is `lenC` or `repLenC`) -/

/-- The base of `Low[ps]` (R300). -/
def lenLow (ps : Nat) : Nat := 2 + 8 * ps
/-- The base of `Mid[ps]` (R300). -/
def lenMid (ps : Nat) : Nat := 130 + 8 * ps
/-- The base of `High` (R300). -/
def lenHigh : Nat := 258

/-- `LenEncode(L, sym, ps)` (R301). -/
def lenEncode (L : CellArray) (sym ps : Nat) : Act Unit :=
  if sym < 8 then do
    encodeBit ⟨L, 0⟩ false
    bitTreeEncode L (lenLow ps) 3 sym
  else if sym < 16 then do
    encodeBit ⟨L, 0⟩ true
    encodeBit ⟨L, 1⟩ false
    bitTreeEncode L (lenMid ps) 3 (sym - 8)
  else do
    encodeBit ⟨L, 0⟩ true
    encodeBit ⟨L, 1⟩ true
    bitTreeEncode L lenHigh 8 (sym - 16)

/-- `LenDecode(L, ps)` (R302). -/
def lenDecode (L : CellArray) (ps : Nat) : Act Nat := do
  let c ← decodeBit ⟨L, 0⟩
  if c then
    let c2 ← decodeBit ⟨L, 1⟩
    if c2 then
      let v ← bitTreeDecode L lenHigh 8
      pure (16 + v)
    else
      let v ← bitTreeDecode L (lenMid ps) 3
      pure (8 + v)
  else bitTreeDecode L (lenLow ps) 3

/-- `LenPrice(L, sym, ps)` (R303). -/
def lenPrice (L : CellArray) (sym ps : Nat) : Act Nat :=
  if sym < 8 then do
    let a ← cellPrice ⟨L, 0⟩ false
    let t ← bitTreePrice L (lenLow ps) 3 sym
    pure (a + t)
  else if sym < 16 then do
    let a ← cellPrice ⟨L, 0⟩ true
    let b ← cellPrice ⟨L, 1⟩ false
    let t ← bitTreePrice L (lenMid ps) 3 (sym - 8)
    pure (a + b + t)
  else do
    let a ← cellPrice ⟨L, 0⟩ true
    let b ← cellPrice ⟨L, 1⟩ true
    let t ← bitTreePrice L lenHigh 8 (sym - 16)
    pure (a + b + t)

/-! ### Distance field -/

/-- Node `m ≥ 1` of the footer tree of slot `s` in 4..13: cell `base − s − 1 + m` of `PosSpecial` (R311). -/
def footerNode (s m : Nat) : Cell := ⟨.posSpecial, slotBase s + m - s - 1⟩

/-- Node `m` of the align tree (R47). -/
def alignNode (m : Nat) : Cell := ⟨.align, m⟩

/-- `DistEncode(d, len)` (R312), counting `alignPriceCount` for slots from 14. -/
def distEncode (d len : Nat) : Act Unit := do
  let s := posSlot d
  bitTreeEncode .posSlot (64 * lenToPosState len) 6 s
  if 4 ≤ s then
    let fb := slotFooterBits s
    let r := d - slotBase s
    if s < 14 then bitTreeReverseEncode (footerNode s) fb r
    else
      encodeDirectBits (r / 16) (fb - 4)
      bitTreeReverseEncode alignNode 4 (r % 16)
      mapPrices fun p => { p with alignPriceCount := p.alignPriceCount + 1 }

/-- `DistDecode(len)` (R313). -/
def distDecode (len : Nat) : Act Word := do
  let s ← bitTreeDecode .posSlot (64 * lenToPosState len) 6
  if s < 4 then pure (u32 s)
  else
    let fb := slotFooterBits s
    if s < 14 then
      let r ← bitTreeReverseDecode (footerNode s) fb
      pure (u32 (slotBase s + r))
    else
      let direct ← decodeDirectBits 0 (fb - 4)
      let a ← bitTreeReverseDecode alignNode 4
      pure (u32 (slotBase s + direct * 16 + a))

end Sys2Proof.Machine
end

