-- ==== Sys2Proof/Machine/MatchFinder.lean ====
section
/-!
DEFINITION. The sliding-window match finder (`42_match_finder.md` R230 to R249).
-/

namespace Sys2Proof.Machine

/-! ### Hashes (R231 to R234) -/

/-- `n` steps of the CRC-32 table's inner loop (R231). -/
def crcSteps : Nat → Nat → Nat
  | 0, r => r
  | n + 1, r => crcSteps n (if r.testBit 0 then (r >>> 1) ^^^ 0xEDB88320 else r >>> 1)

/-- `CRC[i]` (R69, R231). -/
def crc (i : Nat) : Nat := crcSteps 8 i

/-- The default `hashMaskFn(dictSize)` (R232; decision D7). -/
def hashMaskFn (dictSize : Nat) : Nat :=
  let hs := dictSize - 1
  let hs := hs ||| hs >>> 1
  let hs := hs ||| hs >>> 2
  let hs := hs ||| hs >>> 4
  let hs := hs ||| hs >>> 8
  let hs := hs >>> 1
  let hs := hs ||| 0xFFFF
  if hs > 2 ^ 24 then hs >>> 1 else hs

/-- The head cells of BT4 for four bytes: the 2-byte, the 3-byte and the main head (R233). -/
def bt4Heads (hashMask : Nat) (b0 b1 b2 b3 : Byte) : Nat × Nat × Nat :=
  let temp := crc b0.toNat ^^^ b1.toNat
  let h2 := temp &&& 0x3FF
  let temp := temp ^^^ (b2.toNat <<< 8)
  let h3 := temp &&& 0xFFFF
  let hv := (temp ^^^ (crc b3.toNat <<< 5)) &&& hashMask
  (h2, 1024 + h3, 66560 + hv)

/-- The head cell of BT2 for two bytes (R234). -/
def bt2Head (b0 b1 : Byte) : Nat := b0.toNat + b1.toNat * 2 ^ 8

/-! ### Positions -/

/-- `mfAbs = mfPos − 1 + mfBase` (R65). -/
def MatchFinder.mfAbs (m : MatchFinder) : Nat := m.mfPos.toNat - 1 + m.mfBase

/-- `B(q, k)`: the byte `k` after the stored position `q ≠ 0`. -/
def storedByte (q k : Nat) : Act Byte := do
  let s ← get
  inByte (q - 1 + s.session.mf.mfBase + k)

/-- `GetNumAvailableBytes()` (R235). -/
def getNumAvailableBytes : Act Nat := do
  let s ← get
  pure (s.inp.length - s.session.mf.mfAbs)

/-- `GetIndexByte(idx)` (R247). -/
def getIndexByte (idx : Int) : Act Byte := do
  let s ← get
  let a : Int := s.session.mf.mfAbs + idx
  if a < 0 then raise .internalInvariant 4 else inByte a.toNat

/-- How many of the first `limit` bytes of two sequences are equal from the start. -/
def matchRun : Nat → List Byte → List Byte → Nat
  | n + 1, x :: xs, y :: ys => if x = y then matchRun n xs ys + 1 else 0
  | _, _, _ => 0

/-- `GetMatchLen(idx, d, limit)` (R245). Clipped at the end of `In`, every byte it compares is in range. -/
def getMatchLen (idx : Int) (d limit : Nat) : Act Nat := do
  let s ← get
  let a : Int := s.session.mf.mfAbs + idx
  if a - d - 1 < 0 || (s.inp.length : Int) < a then raise .internalInvariant 4
  else
    let a := a.toNat
    pure (matchRun (min limit (s.inp.length - a)) (s.inp.drop a) (s.inp.drop (a - d - 1)))

/-! ### Advancing (R248, R249) -/

/-- A stored position rebased by `sub` (R248). -/
def rebase (sub : Nat) (v : Word) : Word := if v.toNat ≤ sub then 0 else u32 (v.toNat - sub)

/-- `Normalize()` (R248). -/
def normalize : Act Unit := mapMf fun m =>
  let sub := m.mfPos.toNat - m.cbs
  { m with
    son := m.son.mapValues 0 (rebase sub)
    hash := m.hash.mapValues 0 (rebase sub)
    mfPos := u32 (m.mfPos.toNat - sub)
    mfBase := m.mfBase + sub }

/-- `MovePos()` (R249). -/
def movePos : Act Unit := do
  mapMf fun m =>
    { m with
      cyclicPos := if m.cyclicPos + 1 = m.cbs then 0 else m.cyclicPos + 1
      mfPos := u32 (m.mfPos.toNat + 1) }
  let s ← get
  if s.session.mf.mfPos.toNat = 2 ^ 31 - 1 then normalize

/-! ### Searching and inserting -/

/-- The length limit, or `none` where the position is not searched (R236). -/
def lengthLimit (s : State) : Option Nat :=
  let m := s.session.mf
  if m.mfAbs + m.matchMaxLen ≤ s.inp.length then some m.matchMaxLen
  else if s.inp.length - m.mfAbs < m.minMatchCheck then none
  else some (s.inp.length - m.mfAbs)

/-- The window horizon of the current position (R237). -/
def MatchFinder.matchMinPos (m : MatchFinder) : Nat :=
  if m.mfPos.toNat > m.cbs then m.mfPos.toNat - m.cbs else 0

/-- The cyclic slot of a candidate at `delta` (R243). -/
def MatchFinder.cyc (m : MatchFinder) (delta : Nat) : Nat :=
  if delta ≤ m.cyclicPos then m.cyclicPos - delta else m.cyclicPos + m.cbs - delta

/-- A pair of the report. A length above `matchMaxLen` is InternalInvariant(sub 1) (R230). -/
def reportPair (pairs : List MatchPair) (len dist : Nat) : Act (List MatchPair) := do
  let s ← get
  if s.session.mf.matchMaxLen < len then raise .internalInvariant 1
  else pure (pairs ++ [{ len := len, dist := u32 dist }])

/-- The length from which the bytes of the stored position `q` and of the current position differ, extended from the
equal byte at `len` up to `lenLimit` (the inner loop of R244). -/
def extendMatch (q len lenLimit : Nat) : Act Nat := do
  let s ← get
  let m := s.session.mf
  pure (len + 1 + matchRun (lenLimit - (len + 1))
    (s.inp.drop (q - 1 + m.mfBase + (len + 1))) (s.inp.drop (m.mfAbs + (len + 1))))

/-- The end of a walk that leaves both open children empty (R244). -/
def closeWalk (ptr0 ptr1 : Nat) : Act Unit := do
  writeSon ptr0 0
  writeSon ptr1 0

/-- The end of a walk that grafts the subtrees of the node at `c` in its place (R244). -/
def graft (ptr0 ptr1 c : Nat) : Act Unit := do
  let l ← readSon c
  writeSon ptr1 l
  let r ← readSon (c + 1)
  writeSon ptr0 r

/-- `TreeWalk` (R244). The first argument is `count`; `pairs` is the report so far, none when `report` is false. -/
def treeWalk (lenLimit matchMinPos : Nat) (report : Bool) :
    Nat → (curMatch ptr0 ptr1 len0 len1 maxLen : Nat) → List MatchPair → Act (List MatchPair)
  | 0, _, ptr0, ptr1, _, _, _, pairs => do
    closeWalk ptr0 ptr1
    pure pairs
  | count + 1, curMatch, ptr0, ptr1, len0, len1, maxLen, pairs => do
    if curMatch ≤ matchMinPos then
      closeWalk ptr0 ptr1
      pure pairs
    else
      let s ← get
      let m := s.session.mf
      let delta := m.mfPos.toNat - curMatch
      let c := 2 * m.cyc delta
      let start := min len0 len1
      let x ← storedByte curMatch start
      let y ← inByte (m.mfAbs + start)
      let len ← if x = y then extendMatch curMatch start lenLimit else pure start
      let improves := x = y && report && decide (maxLen < len)
      let pairs ← if improves then reportPair pairs len (delta - 1) else pure pairs
      let maxLen := if improves then len else maxLen
      if x = y && (improves || !report) && len = lenLimit then
        graft ptr0 ptr1 c
        pure pairs
      else
        let x ← storedByte curMatch len
        let y ← inByte (m.mfAbs + len)
        if x.toNat < y.toNat then
          writeSon ptr1 curMatch
          let next ← readSon (c + 1)
          treeWalk lenLimit matchMinPos report count next ptr0 (c + 1) len0 len maxLen pairs
        else
          writeSon ptr0 curMatch
          let next ← readSon c
          treeWalk lenLimit matchMinPos report count next c ptr1 len len1 maxLen pairs

/-- TreeWalk from the start of its loop: `ptr0`, `ptr1`, `len0`, `len1` and `count` as R244 sets them. -/
def walkFrom (lenLimit : Nat) (report : Bool) (curMatch maxLen : Nat) (pairs : List MatchPair) :
    Act (List MatchPair) := do
  let s ← get
  let m := s.session.mf
  treeWalk lenLimit m.matchMinPos report m.cutValue curMatch (2 * m.cyclicPos + 1) (2 * m.cyclicPos)
    m.numHashDirectBytes m.numHashDirectBytes maxLen pairs

/-- The head cells of the current position under BT4 (R233). -/
def currentHeads : Act (Nat × Nat × Nat) := do
  let s ← get
  let cur := s.session.mf.mfAbs
  let b0 ← inByte cur
  let b1 ← inByte (cur + 1)
  let b2 ← inByte (cur + 2)
  let b3 ← inByte (cur + 3)
  pure (bt4Heads s.session.mf.hashMask b0 b1 b2 b3)

/-- The head cell of the current position under BT2 (R234). -/
def currentHead2 : Act Nat := do
  let s ← get
  let cur := s.session.mf.mfAbs
  let b0 ← inByte cur
  let b1 ← inByte (cur + 1)
  pure (bt2Head b0 b1)

/-- The stored position `q` is live and its first byte is the current one (R238). -/
def liveShort (q : Nat) : Act Bool := do
  let s ← get
  let m := s.session.mf
  if q > m.matchMinPos then
    let x ← storedByte q 0
    let y ← inByte m.mfAbs
    pure (x = y)
  else pure false

/-- BT4 short candidates (R238): the tree's first candidate, `maxLen` and the report. -/
def bt4Short : Act (Nat × Nat × List MatchPair) := do
  let (i2, i3, iv) ← currentHeads
  let s ← get
  let pos := s.session.mf.mfPos.toNat
  let curMatch ← readHash iv
  let cm2 ← readHash i2
  let cm3 ← readHash i3
  writeHash i2 pos
  writeHash i3 pos
  let live2 ← liveShort cm2
  let pairs ← if live2 then reportPair [] 2 (pos - cm2 - 1) else pure []
  let live3 ← liveShort cm3
  let pairs ←
    if live3 then reportPair (if cm3 = cm2 then pairs.dropLast else pairs) 3 (pos - cm3 - 1) else pure pairs
  let maxLen := if live3 then 3 else if live2 then 2 else 1
  let short := if live3 then cm3 else cm2
  writeHash iv pos
  if !pairs.isEmpty && short = curMatch then pure (curMatch, 1, pairs.dropLast)
  else pure (curMatch, maxLen, pairs)

/-- BT2 direct candidate (R239): the tree's first candidate, `maxLen` and the report. -/
def bt2Direct : Act (Nat × Nat × List MatchPair) := do
  let hv ← currentHead2
  let s ← get
  let m := s.session.mf
  let pos := m.mfPos.toNat
  let curMatch ← readHash hv
  writeHash hv pos
  if curMatch > m.matchMinPos then
    let x ← storedByte curMatch 2
    let y ← inByte (m.mfAbs + 2)
    if x = y then pure (curMatch, 1, [])
    else
      let pairs ← reportPair [] 2 (pos - curMatch - 1)
      pure (curMatch, 2, pairs)
  else pure (curMatch, 1, [])

/-- `GetMatches()` (R240). -/
def getMatches : Act (List MatchPair) := do
  let s ← get
  match lengthLimit s with
  | none =>
    movePos
    pure []
  | some lenLimit =>
    let (curMatch, maxLen, pairs) ←
      match s.session.enc.mfKind with
      | .bt4 => bt4Short
      | .bt2 => bt2Direct
    let pairs ← walkFrom lenLimit true curMatch maxLen pairs
    movePos
    pure pairs

/-- The heads a skipped position updates (R241), giving the tree's first candidate. -/
def skipHeads : Act Nat := do
  let s ← get
  let pos := s.session.mf.mfPos.toNat
  match s.session.enc.mfKind with
  | .bt4 =>
    let (i2, i3, iv) ← currentHeads
    writeHash i2 pos
    writeHash i3 pos
    let curMatch ← readHash iv
    writeHash iv pos
    pure curMatch
  | .bt2 =>
    let hv ← currentHead2
    let curMatch ← readHash hv
    writeHash hv pos
    pure curMatch

/-- One position of `Skip` (R241). -/
def skipOne : Act Unit := do
  let s ← get
  match lengthLimit s with
  | none => movePos
  | some lenLimit =>
    let curMatch ← skipHeads
    let _ ← walkFrom lenLimit false curMatch 1 []
    movePos

/-- `Skip(n)` (R241). -/
def skip : Nat → Act Unit
  | 0 => pure ()
  | n + 1 => do
    skipOne
    skip n

end Sys2Proof.Machine
end

