-- ==== Sys2Proof/Machine/OptimalParse.lean ====
section
/-!
DEFINITION. The optimal-parse encoder, GetOptimum (`44_optimal_parse.md` R320 to R341). A step of a parse is a pair
(len, back): back 0xFFFFFFFF is LIT, 0 with length 1 SHORTREP, 0..3 with a longer length REPk, `d + 4` a MATCH of
distance `d`.
-/

namespace Sys2Proof.Machine

/-- The back of a literal step. -/
abbrev backChar : Word := 0xFFFFFFFF

/-- The back of a MATCH of distance `d`. -/
abbrev backMatch (d : Word) : Word := u32 (d.toNat + 4)

/-! ### Price tables (R321 to R323) -/

/-- `UpdateLenTable(LenC, ps)` (R321). -/
def updateLenTable (ps : Nat) : Act Unit := do
  let s ← get
  let n := s.session.prices.lenTableSize
  let row ← tabulate (fun i => lenPrice .lenC i ps) 0 n
  mapPrices fun p => { p with lenPrices := p.lenPrices.set ps row, lenCounter := p.lenCounter.set ps n }

/-- `UpdateLenTable(RepLenC, ps)` (R321). -/
def updateRepLenTable (ps : Nat) : Act Unit := do
  let s ← get
  let n := s.session.prices.lenTableSize
  let row ← tabulate (fun i => lenPrice .repLenC i ps) 0 n
  mapPrices fun p => { p with repLenPrices := p.repLenPrices.set ps row, repLenCounter := p.repLenCounter.set ps n }

/-- After a LenEncode under `LenC`: count down and refresh at 0 (R321). -/
def countLen (ps : Nat) : Act Unit := do
  let s ← get
  let n ← elemAt s.session.prices.lenCounter ps
  mapPrices fun p => { p with lenCounter := p.lenCounter.set ps (n - 1) }
  if n - 1 = 0 then updateLenTable ps

/-- After a LenEncode under `RepLenC` (R321). -/
def countRepLen (ps : Nat) : Act Unit := do
  let s ← get
  let n ← elemAt s.session.prices.repLenCounter ps
  mapPrices fun p => { p with repLenCounter := p.repLenCounter.set ps (n - 1) }
  if n - 1 = 0 then updateRepLenTable ps

/-- The least `n` from `start` with `dictSize ≤ 2^n`, at most `start + fuel` (R322). -/
def dictLogFrom (dictSize : Nat) : Nat → Nat → Nat
  | 0, n => n
  | fuel + 1, n => if dictSize ≤ 2 ^ n then n else dictLogFrom dictSize fuel (n + 1)

/-- `distTableSize = 2 · dictLog`, dictLog capped at 30 (R322). -/
def distTableSize (dictSize : Nat) : Nat := 2 * dictLogFrom dictSize 30 0

/-- The price of a pos-slot with its direct bits (R322). -/
def posSlotPrice (lps s : Nat) : Act Nat := do
  let c ← bitTreePrice .posSlot (64 * lps) 6 s
  pure (if 14 ≤ s then c + (slotFooterBits s - 4) <<< 6 else c)

/-- The price of the footer of a distance in 0..127, 0 below 4 (`temp` of R322). -/
def footerPrice (i : Nat) : Act Nat :=
  if i < 4 then pure 0
  else
    let s := posSlot i
    bitTreeReversePrice (footerNode s) (slotFooterBits s) (i - slotBase s)

/-- Row `lps` of `posSlotPrices`: 0 from `distTableSize` on (R57). -/
def posSlotRow (tableSize lps : Nat) : Act (List Nat) := do
  let row ← tabulate (posSlotPrice lps) 0 tableSize
  pure (row ++ List.replicate (64 - tableSize) 0)

/-- `FillDistancesPrices()` (R322). -/
def fillDistancesPrices : Act Unit := do
  let s ← get
  let temp ← tabulate footerPrice 0 128
  let rows ← tabulate (posSlotRow (distTableSize s.session.props.dictSize)) 0 4
  let distRows ← tabulate (fun lps => do
    let row ← elemAt rows lps
    tabulate (fun d => do
      let slotPrice ← elemAt row (posSlot d)
      let footer ← elemAt temp d
      pure (slotPrice + footer)) 0 128) 0 4
  mapPrices fun p => { p with posSlotPrices := rows, distancesPrices := distRows, matchPriceCount := 0 }

/-- `FillAlignPrices()` (R323). -/
def fillAlignPrices : Act Unit := do
  let row ← tabulate (bitTreeReversePrice alignNode 4) 0 16
  mapPrices fun p => { p with alignPrices := row, alignPriceCount := 0 }

/-! ### Decision cells (R43) -/

/-- `IsMatch[(state << 4) + ps]`. -/
def isMatchCell (st : CoderState) (ps : Nat) : Cell := ⟨.isMatch, st.val * 16 + ps⟩
/-- `IsRep0Long[(state << 4) + ps]`. -/
def isRep0LongCell (st : CoderState) (ps : Nat) : Cell := ⟨.isRep0Long, st.val * 16 + ps⟩
/-- `IsRep[state]`. -/
def isRepCell (st : CoderState) : Cell := ⟨.isRep, st.val⟩
/-- `IsRepG0[state]`. -/
def isRepG0Cell (st : CoderState) : Cell := ⟨.isRepG0, st.val⟩
/-- `IsRepG1[state]`. -/
def isRepG1Cell (st : CoderState) : Cell := ⟨.isRepG1, st.val⟩
/-- `IsRepG2[state]`. -/
def isRepG2Cell (st : CoderState) : Cell := ⟨.isRepG2, st.val⟩

/-! ### Price functions (R320, R324) -/

/-- `RepLen1Price(s, ps)`. -/
def repLen1Price (st : CoderState) (ps : Nat) : Act Nat := do
  let a ← cellPrice (isRepG0Cell st) false
  let b ← cellPrice (isRep0LongCell st ps) false
  pure (a + b)

/-- `PureRepPrice(k, s, ps)`. -/
def pureRepPrice (k : Nat) (st : CoderState) (ps : Nat) : Act Nat :=
  if k = 0 then do
    let a ← cellPrice (isRepG0Cell st) false
    let b ← cellPrice (isRep0LongCell st ps) true
    pure (a + b)
  else if k = 1 then do
    let a ← cellPrice (isRepG0Cell st) true
    let b ← cellPrice (isRepG1Cell st) false
    pure (a + b)
  else do
    let a ← cellPrice (isRepG0Cell st) true
    let b ← cellPrice (isRepG1Cell st) true
    let c ← cellPrice (isRepG2Cell st) (k = 3)
    pure (a + b + c)

/-- `lenPrices[ps][len − 2]`. -/
def lenTablePrice (len ps : Nat) : Act Nat := do
  let s ← get
  let row ← elemAt s.session.prices.lenPrices ps
  elemAt row (len - 2)

/-- `repLenPrices[ps][len − 2]`. -/
def repLenTablePrice (len ps : Nat) : Act Nat := do
  let s ← get
  let row ← elemAt s.session.prices.repLenPrices ps
  elemAt row (len - 2)

/-- `RepPrice(k, len, s, ps)`. -/
def repPrice (k len : Nat) (st : CoderState) (ps : Nat) : Act Nat := do
  let a ← repLenTablePrice len ps
  let b ← pureRepPrice k st ps
  pure (a + b)

/-- `PosLenPrice(d, len, ps)`. -/
def posLenPrice (d len ps : Nat) : Act Nat := do
  let s ← get
  let p := s.session.prices
  let l ← lenTablePrice len ps
  if d < 128 then
    let row ← elemAt p.distancesPrices (lenToPosState len)
    let c ← elemAt row d
    pure (l + c)
  else
    let row ← elemAt p.posSlotPrices (lenToPosState len)
    let c ← elemAt row (posSlot d)
    let a ← elemAt p.alignPrices (d % 16)
    pure (l + c + a)

/-- The price of the literal `v` at `pos` after `prev`, the state before it being `st` and the match byte `mb`
(R320). -/
def literalPrice (pos : Nat) (prev : Byte) (st : CoderState) (mb v : Byte) : Act Nat := do
  let s ← get
  litPrice (litBase s.session.props pos prev) (!isChar st) mb v

/-! ### Match-finder interface (R325 to R327) -/

/-- Count the positions the match finder has gone ahead (R62). -/
def addOffset (n : Nat) : Act Unit := mapEnc fun e => { e with additionalOffset := e.additionalOffset + n }

/-- `ReadMatchDistances()` (R326). -/
def readMatchDistances : Act (Nat × List MatchPair) := do
  let pairs ← getMatches
  let s ← get
  let lenMain ←
    match pairs.getLast? with
    | none => pure 0
    | some p =>
      if p.len = s.session.enc.numFastBytes then
        let more ← getMatchLen ((p.len : Int) - 1) p.dist.toNat (Config.kMatchMaxLen - p.len)
        pure (p.len + more)
      else pure p.len
  addOffset 1
  pure (lenMain, pairs)

/-- `MovePosEnc(n)` (R327). -/
def movePosEnc (n : Nat) : Act Unit := do
  skip n
  addOffset n

/-! ### Nodes (R328) -/

/-- A new step into a node. -/
structure Step where
  posPrev : Nat
  backPrev : Word
  prev1IsChar : Bool
deriving DecidableEq, Repr

/-- Write a step's fields into a node. -/
def OptNode.withStep (n : OptNode) (price : Nat) (st : Step) : OptNode :=
  { n with price := price, posPrev := st.posPrev, backPrev := st.backPrev, prev1IsChar := st.prev1IsChar }

/-- Relax `Opt[target]`: replace its step when the price is strictly lower (R342). `f` sets the fields a combination
adds. Answers whether it did. -/
def relax (target price : Nat) (st : Step) (f : OptNode → OptNode := id) : Act Bool := do
  let n ← readNode target
  if price < n.price then
    writeNode target (f (n.withStep price st))
    pure true
  else pure false

/-- `MakeAsChar(n)` on the node reached from `cur`. -/
def charStep (cur : Nat) : Step := { posPrev := cur, backPrev := backChar, prev1IsChar := false }

/-- `MakeAsShortRep(n)` on the node reached from `cur`. -/
def shortRepStep (cur : Nat) : Step := { posPrev := cur, backPrev := 0, prev1IsChar := false }

/-- Set `Opt[i].price` to the infinite price for `n` nodes from `i`. -/
def infinitePrices (i : Nat) : Nat → Act Unit
  | 0 => pure ()
  | n + 1 => do
    modifyNode i fun o => { o with price := Config.kInfinityPrice }
    infinitePrices (i + 1) n

/-- `Extend(last)`, giving the new `lenEnd` (R328). -/
def extend (lenEnd last : Nat) : Act Nat := do
  infinitePrices (lenEnd + 1) (last - lenEnd)
  pure (max lenEnd last)

/-- The reps after the step `b` from a node with reps `o` (R335). -/
def stepReps (b : Word) (o : Reps) : Reps :=
  if b.toNat < 4 then o.promote b.toNat else o.push (u32 (b.toNat - 4))

/-- The state after a step of more than one byte (R335). -/
def stepState (b : Word) (st : CoderState) : CoderState := if b.toNat < 4 then updateRep st else updateMatch st

/-! ### Node state (R335) -/

/-- The state and reps of node `cur` from its back-pointer. -/
def nodeState (cur : Nat) : Act (CoderState × Reps) := do
  let n ← readNode cur
  let pp := if n.prev1IsChar then n.posPrev - 1 else n.posPrev
  let st ←
    if n.prev1IsChar then
      if n.prev2 then do
        let o ← readNode n.posPrev2
        pure (updateChar (stepState n.backPrev2 o.state))
      else do
        let o ← readNode pp
        pure (updateChar o.state)
    else do
      let o ← readNode pp
      pure o.state
  if pp + 1 = cur then
    let o ← readNode (cur - 1)
    pure (if n.backPrev = 0 then updateShortRep st else updateChar st, o.backs)
  else if n.prev1IsChar && n.prev2 then
    let o ← readNode n.posPrev2
    pure (updateRep st, stepReps n.backPrev2 o.backs)
  else
    let o ← readNode pp
    pure (stepState n.backPrev st, stepReps n.backPrev o.backs)

/-! ### Backward (R341) -/

/-- The splitting of a combination node `n` whose last step starts at `posMem` (R341). -/
def splitCombination (n : OptNode) (posMem : Nat) : Act Unit :=
  if n.prev1IsChar then do
    modifyNode posMem fun o => { o with backPrev := backChar, prev1IsChar := false, posPrev := posMem - 1 }
    if n.prev2 then
      modifyNode (posMem - 1) fun o =>
        { o with prev1IsChar := false, posPrev := n.posPrev2, backPrev := n.backPrev2 }
  else pure ()

/-- The repeat of Backward from `cur`, over at most `fuel` links. A link that does not point below its node is
InternalInvariant(sub 2), so `fuel` at least `cur` is enough. -/
def backwardFrom : Nat → (cur posMem : Nat) → Word → Act Unit
  | 0, _, _, _ => raise .internalInvariant 2
  | fuel + 1, cur, posMem, backMem => do
    if cur ≤ posMem then raise .internalInvariant 2
    let n ← readNode cur
    splitCombination n posMem
    let o ← readNode posMem
    modifyNode posMem fun o => { o with backPrev := backMem, posPrev := cur }
    if posMem = 0 then pure () else backwardFrom fuel posMem o.posPrev o.backPrev

/-- `Backward(cur)` (R341). -/
def backward (cur : Nat) : Act (Nat × Word) := do
  mapOpt fun o => { o with optimumEndIndex := cur }
  let n ← readNode cur
  backwardFrom (cur + 1) cur n.posPrev n.backPrev
  let first ← readNode 0
  mapOpt fun o => { o with optimumCurrentIndex := first.posPrev }
  pure (first.posPrev, first.backPrev)

/-! ### Relaxations of the forward loop -/

/-- What the relaxations of one node share (R335 to R337). -/
structure NodeEnv where
  cur : Nat
  position : Nat
  st : CoderState
  reps : Reps
  ps : Nat
  curByte : Byte
  matchByte : Byte
  curAnd1Price : Nat
  matchPrice : Nat
  repMatchPrice : Nat
  numAvailFull : Nat
  numAvail : Nat
deriving DecidableEq, Repr

/-- `price1(IsMatch[(st << 4) + ps]) + price1(IsRep[st])` added to `base`: the start of every rep step. -/
def repStartPrice (base : Nat) (st : CoderState) (ps : Nat) : Act Nat := do
  let a ← cellPrice (isMatchCell st ps) true
  let b ← cellPrice (isRepCell st) true
  pure (base + a + b)

/-- The last two steps of a combination from node `e.cur`: after a step of `lenTest` bytes to state `st2` at the price
`price`, the literal at distance `d` and then rep0 (R339, R340). Gives the new `lenEnd`. -/
def literalThenRep0 (e : NodeEnv) (pb numFastBytes lenEnd lenTest : Nat) (d : Nat) (st2 : CoderState) (price : Nat)
    (back : Word) : Act Nat :=
  if lenTest < e.numAvailFull then do
    let t := min (e.numAvailFull - 1 - lenTest) numFastBytes
    let lenTest2 ← getMatchLen lenTest d t
    if 2 ≤ lenTest2 then
      let isLit ← cellPrice (isMatchCell st2 (posStateOf pb (e.position + lenTest))) false
      let prev ← getIndexByte ((lenTest : Int) - 2)
      let mb ← getIndexByte ((lenTest : Int) - d - 2)
      let v ← getIndexByte ((lenTest : Int) - 1)
      let lit ← literalPrice (e.position + lenTest) prev st2 mb v
      let st3 := updateChar st2
      let psN := posStateOf pb (e.position + lenTest + 1)
      let next ← repStartPrice (price + isLit + lit) st3 psN
      let target := e.cur + (lenTest + 1 + lenTest2)
      let lenEnd ← extend lenEnd target
      let rep ← repPrice 0 lenTest2 st3 psN
      let _ ← relax target (next + rep)
        { posPrev := e.cur + lenTest + 1, backPrev := 0, prev1IsChar := true }
        fun n => { n with prev2 := true, posPrev2 := e.cur, backPrev2 := back }
      pure lenEnd
    else pure lenEnd
  else pure lenEnd

/-- Literal then rep0 (R338). -/
def relaxLiteralRep0 (e : NodeEnv) (pb numFastBytes lenEnd : Nat) : Act Nat := do
  let lenTest2 ← getMatchLen 0 e.reps.r0.toNat (min (e.numAvailFull - 1) numFastBytes)
  if 2 ≤ lenTest2 then
    let st2 := updateChar e.st
    let psN := posStateOf pb (e.position + 1)
    let next ← repStartPrice e.curAnd1Price st2 psN
    let target := e.cur + 1 + lenTest2
    let lenEnd ← extend lenEnd target
    let rep ← repPrice 0 lenTest2 st2 psN
    let _ ← relax target (next + rep) { posPrev := e.cur + 1, backPrev := 0, prev1IsChar := true }
      fun n => { n with prev2 := false }
    pure lenEnd
  else pure lenEnd

/-- REPk at the lengths `l` down to 2 (R339). -/
def relaxRepLens (e : NodeEnv) (k : Nat) : Nat → Nat → Act Nat
  | 0, lenEnd => pure lenEnd
  | l + 1, lenEnd =>
    if l + 1 < 2 then pure lenEnd
    else do
      let lenEnd ← extend lenEnd (e.cur + (l + 1))
      let c ← repPrice k (l + 1) e.st e.ps
      let _ ← relax (e.cur + (l + 1)) (e.repMatchPrice + c)
        { posPrev := e.cur, backPrev := u32 k, prev1IsChar := false }
      relaxRepLens e k l lenEnd

/-- The rep relaxations for `n` indices from `k`, giving `startLen` and `lenEnd` (R339). -/
def relaxReps (e : NodeEnv) (pb numFastBytes : Nat) : Nat → (k startLen lenEnd : Nat) → Act (Nat × Nat)
  | 0, _, startLen, lenEnd => pure (startLen, lenEnd)
  | n + 1, k, startLen, lenEnd => do
    let d := (e.reps.get k).toNat
    let lenTest ← getMatchLen (-1) d e.numAvail
    if lenTest < 2 then relaxReps e pb numFastBytes n (k + 1) startLen lenEnd
    else
      let lenEnd ← relaxRepLens e k lenTest lenEnd
      let startLen := if k = 0 then lenTest + 1 else startLen
      let c ← repPrice k lenTest e.st e.ps
      let lenEnd ← literalThenRep0 e pb numFastBytes lenEnd lenTest d (updateRep e.st) (e.repMatchPrice + c) (u32 k)
      relaxReps e pb numFastBytes n (k + 1) startLen lenEnd

/-- The loop of R340 over the pairs still to price, from length `lenTest`, over at most `fuel` lengths. A length past
node 4095 raises before the fuel ends. -/
def relaxMatchLens (e : NodeEnv) (pb numFastBytes normalMatchPrice : Nat) :
    Nat → Nat → Nat → List MatchPair → Act Nat
  | 0, _, _, _ => raise .internalInvariant 3
  | _ + 1, _, lenEnd, [] => pure lenEnd
  | fuel + 1, lenTest, lenEnd, p :: pairs => do
    let d := p.dist.toNat
    let c ← posLenPrice d lenTest e.ps
    let price := normalMatchPrice + c
    let _ ← relax (e.cur + lenTest) price { posPrev := e.cur, backPrev := backMatch p.dist, prev1IsChar := false }
    if lenTest = p.len then
      let lenEnd ←
        literalThenRep0 e pb numFastBytes lenEnd lenTest d (updateMatch e.st) price (backMatch p.dist)
      relaxMatchLens e pb numFastBytes normalMatchPrice fuel (lenTest + 1) lenEnd pairs
    else relaxMatchLens e pb numFastBytes normalMatchPrice fuel (lenTest + 1) lenEnd (p :: pairs)

/-- The pairs of length at least `len`: "the least index with pairs[j].len ≥ len" and the ones after it. -/
def pairsFrom (len : Nat) (pairs : List MatchPair) : List MatchPair := pairs.dropWhile fun p => p.len < len

/-- The report cut to the lengths available (R340). -/
def clipPairs (numAvail newLen : Nat) (pairs : List MatchPair) : Act (Nat × List MatchPair) :=
  if numAvail < newLen then
    match pairsFrom numAvail pairs with
    | [] => raise .internalInvariant 3
    | p :: _ =>
      pure (numAvail, pairs.takeWhile (fun q => q.len < numAvail) ++ [{ len := numAvail, dist := p.dist }])
  else pure (newLen, pairs)

/-- The match relaxations (R340), giving `lenEnd`. -/
def relaxMatches (e : NodeEnv) (pb numFastBytes startLen newLen lenEnd : Nat) (pairs : List MatchPair) :
    Act Nat := do
  let (newLen, pairs) ← clipPairs e.numAvail newLen pairs
  if startLen ≤ newLen then
    let c ← cellPrice (isRepCell e.st) false
    let lenEnd ← extend lenEnd (e.cur + newLen)
    match pairsFrom startLen pairs with
    | [] => raise .internalInvariant 3
    | ps => relaxMatchLens e pb numFastBytes (e.matchPrice + c) Config.kNumOpts startLen lenEnd ps
  else pure lenEnd

/-- The literal and short-rep relaxations of node `cur` (R336): what later relaxations need, and whether a one-byte
step won node `cur + 1` (`nextIsChar`). -/
def relaxOneByte (cur position : Nat) (st : CoderState) (reps : Reps) : Act (NodeEnv × Bool) := do
  let s ← get
  let ps := posStateOf s.session.props.pb position
  let n ← readNode cur
  let curByte ← getIndexByte (-1)
  let matchByte ← getIndexByte (-(reps.r0.toNat : Int) - 2)
  let isLit ← cellPrice (isMatchCell st ps) false
  let prev ← getIndexByte (-2)
  let lit ← literalPrice position prev st matchByte curByte
  let curAnd1Price := n.price + isLit + lit
  let wonChar ← relax (cur + 1) curAnd1Price (charStep cur)
  let isM ← cellPrice (isMatchCell st ps) true
  let isR ← cellPrice (isRepCell st) true
  let matchPrice := n.price + isM
  let repMatchPrice := matchPrice + isR
  let next ← readNode (cur + 1)
  let wonShort ←
    if matchByte = curByte && !(next.posPrev < cur && next.backPrev = 0) then do
      let c ← repLen1Price st ps
      let price := repMatchPrice + c
      if price < next.price || (Config.shortRepTieWins && price = next.price) then
        writeNode (cur + 1) (next.withStep price (shortRepStep cur))
        pure true
      else pure false
    else pure false
  let avail ← getNumAvailableBytes
  let numAvailFull := min (4095 - cur) (avail + 1)
  pure
    ({ cur := cur, position := position, st := st, reps := reps, ps := ps, curByte := curByte, matchByte := matchByte,
       curAnd1Price := curAnd1Price, matchPrice := matchPrice, repMatchPrice := repMatchPrice,
       numAvailFull := numAvailFull, numAvail := min numAvailFull s.session.enc.numFastBytes },
     wonChar || wonShort)

/-- The work of node `cur` at `position` (R335 to R340), giving `lenEnd`. -/
def processNode (cur position newLen lenEnd : Nat) (pairs : List MatchPair) : Act Nat := do
  let (st, reps) ← nodeState cur
  modifyNode cur fun n => { n with state := st, backs := reps }
  let (e, nextIsChar) ← relaxOneByte cur position st reps
  let s ← get
  let pb := s.session.props.pb
  let numFastBytes := s.session.enc.numFastBytes
  if e.numAvailFull < 2 then pure lenEnd
  else
    let lenEnd ←
      if !nextIsChar && e.matchByte ≠ e.curByte then relaxLiteralRep0 e pb numFastBytes lenEnd else pure lenEnd
    let (startLen, lenEnd) ← relaxReps e pb numFastBytes 4 0 2 lenEnd
    relaxMatches e pb numFastBytes startLen newLen lenEnd pairs

/-- The forward loop (R334) after node `cur`, over at most `fuel` nodes. Node 4096 is outside `Opt`, so the fuel
`kNumOpts` is enough. -/
def forwardLoop : Nat → (cur position lenEnd : Nat) → Act (Nat × Word)
  | 0, _, _, _ => raise .internalInvariant 3
  | fuel + 1, cur, position, lenEnd => do
    let cur := cur + 1
    if cur = lenEnd then backward cur
    else
      let (newLen, pairs) ← readMatchDistances
      let s ← get
      if s.session.enc.numFastBytes ≤ newLen then
        mapOpt fun o =>
          { o with savedPairs := pairs, longestMatchLength := newLen, longestMatchWasFound := true }
        backward cur
      else
        let lenEnd ← processNode cur (position + 1) newLen lenEnd pairs
        forwardLoop fuel cur (position + 1) lenEnd

/-! ### Setup and seed -/

/-- The least index of the largest of four (R330). -/
def maxIndex (a b c d : Nat) : Nat :=
  let m := max (max a b) (max c d)
  if a = m then 0 else if b = m then 1 else if c = m then 2 else 3

/-- REPi from node 0 at the lengths `l` down to 2 (R333). -/
def seedRepLens (i price ps : Nat) : Nat → Act Unit
  | 0 => pure ()
  | l + 1 =>
    if l + 1 < 2 then pure ()
    else do
      let c ← repLenTablePrice (l + 1) ps
      let _ ← relax (l + 1) (price + c) { posPrev := 0, backPrev := u32 i, prev1IsChar := false }
      seedRepLens i price ps l

/-- The rep relaxations of the seed for the rep lengths from index `i` (R333). -/
def seedReps (repMatchPrice ps : Nat) (st : CoderState) : Nat → List Nat → Act Unit
  | _, [] => pure ()
  | i, l :: ls => do
    if 2 ≤ l then
      let c ← pureRepPrice i st ps
      seedRepLens i (repMatchPrice + c) ps l
    seedReps repMatchPrice ps st (i + 1) ls

/-- The match relaxations of the seed from length `len` (R333), over at most `fuel` lengths. -/
def seedMatchLens (normalMatchPrice ps : Nat) : Nat → Nat → List MatchPair → Act Unit
  | 0, _, _ => raise .internalInvariant 3
  | _ + 1, _, [] => pure ()
  | fuel + 1, len, p :: pairs => do
    let c ← posLenPrice p.dist.toNat len ps
    let _ ← relax len (normalMatchPrice + c) { posPrev := 0, backPrev := backMatch p.dist, prev1IsChar := false }
    seedMatchLens normalMatchPrice ps fuel (len + 1) (if len = p.len then pairs else p :: pairs)

/-- The seed's match relaxations (R333). -/
def seedMatches (normalMatchPrice ps len lenMain : Nat) (pairs : List MatchPair) : Act Unit :=
  if len ≤ lenMain then
    match pairsFrom len pairs with
    | [] => raise .internalInvariant 3
    | ps' => seedMatchLens normalMatchPrice ps Config.kNumOpts len ps'
  else pure ()

/-- Seeding and the forward loop (R332, R333, R334), once no greedy exit is taken. `repLens` are the four rep lengths
and `repMax` the longest of them. -/
def seedAndSearch (position lenMain : Nat) (pairs : List MatchPair) (l0 l1 l2 l3 repMax : Nat)
    (curByte matchByte : Byte) : Act (Nat × Word) := do
  let s ← get
  let ss := s.session
  let st := ss.state
  let ps := posStateOf ss.props.pb position
  modifyNode 0 fun n => { n with state := st }
  let isLit ← cellPrice (isMatchCell st ps) false
  let lit ← literalPrice position ss.enc.prevByte st matchByte curByte
  modifyNode 1 fun n =>
    { n with price := isLit + lit, backPrev := backChar, prev1IsChar := false }
  let matchPrice ← cellPrice (isMatchCell st ps) true
  let isR ← cellPrice (isRepCell st) true
  let repMatchPrice := matchPrice + isR
  if matchByte = curByte then
    let c ← repLen1Price st ps
    let n ← readNode 1
    if repMatchPrice + c < n.price then
      writeNode 1 { n with price := repMatchPrice + c, backPrev := 0, prev1IsChar := false }
  let lenEnd := if repMax ≤ lenMain then lenMain else repMax
  if lenEnd < 2 then
    let n ← readNode 1
    pure (1, n.backPrev)
  else
    modifyNode 1 fun n => { n with posPrev := 0 }
    modifyNode 0 fun n => { n with backs := ss.reps }
    infinitePrices 2 (lenEnd - 1)
    seedReps repMatchPrice ps st 0 [l0, l1, l2, l3]
    let isM ← cellPrice (isRepCell st) false
    seedMatches (matchPrice + isM) ps (if 2 ≤ l0 then l0 + 1 else 2) lenMain pairs
    forwardLoop Config.kNumOpts 0 position lenEnd

/-- The match finder's report for the current position, saved or read now (R330). -/
def currentReport : Act (Nat × List MatchPair) := do
  let s ← get
  let o := s.session.opt
  if o.longestMatchWasFound then
    mapOpt fun o => { o with longestMatchWasFound := false }
    pure (o.longestMatchLength, o.savedPairs)
  else readMatchDistances

/-- GetOptimum with no chain pending (R330, R331). -/
def startOptimum (position : Nat) : Act (Nat × Word) := do
  let (lenMain, pairs) ← currentReport
  let avail ← getNumAvailableBytes
  if avail + 1 < 2 then pure (1, backChar)
  else
    let s ← get
    let reps := s.session.reps
    let numFastBytes := s.session.enc.numFastBytes
    let l0 ← getMatchLen (-1) reps.r0.toNat Config.kMatchMaxLen
    let l1 ← getMatchLen (-1) reps.r1.toNat Config.kMatchMaxLen
    let l2 ← getMatchLen (-1) reps.r2.toNat Config.kMatchMaxLen
    let l3 ← getMatchLen (-1) reps.r3.toNat Config.kMatchMaxLen
    let repMaxIndex := maxIndex l0 l1 l2 l3
    let repMax := max (max l0 l1) (max l2 l3)
    if numFastBytes ≤ repMax then
      movePosEnc (repMax - 1)
      pure (repMax, u32 repMaxIndex)
    else if numFastBytes ≤ lenMain then
      match pairs.getLast? with
      | none => raise .internalInvariant 3
      | some p =>
        movePosEnc (lenMain - 1)
        pure (lenMain, backMatch p.dist)
    else
      let curByte ← getIndexByte (-1)
      let matchByte ← getIndexByte (-(reps.r0.toNat : Int) - 2)
      if lenMain < 2 && curByte ≠ matchByte && repMax < 2 then pure (1, backChar)
      else seedAndSearch position lenMain pairs l0 l1 l2 l3 repMax curByte matchByte

/-- `GetOptimum(position)` (R329): serve a pending chain, else start a new parse. -/
def getOptimum (position : Nat) : Act (Nat × Word) := do
  let s ← get
  let o := s.session.opt
  if o.optimumEndIndex ≠ o.optimumCurrentIndex then
    let n ← readNode o.optimumCurrentIndex
    mapOpt fun o => { o with optimumCurrentIndex := n.posPrev }
    pure (n.posPrev - o.optimumCurrentIndex, n.backPrev)
  else
    mapOpt fun o => { o with optimumCurrentIndex := 0, optimumEndIndex := 0 }
    startOptimum position

end Sys2Proof.Machine
end

