-- ==== Sys2Proof/Machine/Encoder.lean ====
section
/-!
DEFINITION. The encoder driver (`45_encoder_driver.md` R370 to R379): what ENC_STEP runs.
-/

namespace Sys2Proof.Machine

/-! ### Emitting one symbol -/

/-- `EncodeLiteral(ps)` (R374). -/
def encodeLiteral (ps : Nat) : Act Unit := do
  let s ← get
  let ss := s.session
  encodeBit (isMatchCell ss.state ps) false
  let cb ← getIndexByte (-(ss.enc.additionalOffset : Int))
  let base := litBase ss.props ss.enc.nowPos ss.enc.prevByte
  if isChar ss.state then litEncode base cb
  else
    let mb ← getIndexByte (-(ss.reps.r0.toNat : Int) - 1 - ss.enc.additionalOffset)
    litEncodeMatched base mb cb
  mapEnc fun e => { e with prevByte := cb }
  setCoderState (updateChar ss.state)

/-- The prefix bits of SHORTREP and REPk after `IsRep` (R123, R375); `long` is false for SHORTREP. -/
def encodeRepPrefix (k : Nat) (long : Bool) (st : CoderState) (ps : Nat) : Act Unit :=
  if k = 0 then do
    encodeBit (isRepG0Cell st) false
    encodeBit (isRep0LongCell st ps) long
  else if k = 1 then do
    encodeBit (isRepG0Cell st) true
    encodeBit (isRepG1Cell st) false
  else do
    encodeBit (isRepG0Cell st) true
    encodeBit (isRepG1Cell st) true
    encodeBit (isRepG2Cell st) (k = 3)

/-- `EncodeRep(len, k, ps)` (R375). A length above 273 is InternalInvariant(sub 1) (R452). -/
def encodeRep (len k ps : Nat) : Act Unit := do
  let s ← get
  let ss := s.session
  if Config.kMatchMaxLen < len then raise .internalInvariant 1
  encodeBit (isMatchCell ss.state ps) true
  encodeBit (isRepCell ss.state) true
  encodeRepPrefix k (len ≠ 1) ss.state ps
  if len = 1 then setCoderState (updateShortRep ss.state)
  else
    lenEncode .repLenC (len - 2) ps
    countRepLen ps
    setCoderState (updateRep ss.state)
  setReps (ss.reps.promote k)

/-- `EncodeMatch(len, d, ps)` (R376). A length above 273 is InternalInvariant(sub 1). -/
def encodeMatch (len : Nat) (d : Word) (ps : Nat) : Act Unit := do
  let s ← get
  let ss := s.session
  if Config.kMatchMaxLen < len then raise .internalInvariant 1
  encodeBit (isMatchCell ss.state ps) true
  encodeBit (isRepCell ss.state) false
  setCoderState (updateMatch ss.state)
  lenEncode .lenC (len - 2) ps
  countLen ps
  distEncode d.toNat len
  setReps (ss.reps.push d)
  mapPrices fun p => { p with matchPriceCount := p.matchPriceCount + 1 }

/-! ### End of stream (R379) -/

/-- The END marker as the encoder writes it: length 2, slot 63, 26 direct bits of 1, align 15 (R130, R379). -/
def encodeEndMarker : Act Unit := do
  let s ← get
  let ss := s.session
  let ps := posStateOf ss.props.pb ss.enc.nowPos
  encodeBit (isMatchCell ss.state ps) true
  encodeBit (isRepCell ss.state) false
  setCoderState (updateMatch ss.state)
  lenEncode .lenC 0 ps
  bitTreeEncode .posSlot (64 * lenToPosState 2) 6 63
  encodeDirectBits 0x3FFFFFF 26
  bitTreeReverseEncode alignNode 4 15

/-- `EncFlush()` (R379). -/
def encFlush : Act Unit := do
  let s ← get
  if s.session.enc.writeEndMarker then encodeEndMarker
  flushEncoder

/-! ### CodeOneBlock -/

/-- What CodeOneBlock and DecodeStep return. -/
inductive Progress where
  | more | done
deriving DecidableEq, Repr

/-- Emit the symbol of a step (R373). -/
def encodeStep (len : Nat) (back : Word) (ps : Nat) : Act Unit :=
  if len = 1 && back = backChar then encodeLiteral ps
  else if back.toNat < 4 then encodeRep len back.toNat ps
  else encodeMatch len (u32 (back.toNat - 4)) ps

/-- The post-step after a symbol of `len` bytes (R377). -/
def postStep (len : Nat) (isLit : Bool) : Act Unit := do
  let s ← get
  let e := s.session.enc
  if !isLit then
    let b ← getIndexByte ((len : Int) - 1 - e.additionalOffset)
    mapEnc fun e => { e with prevByte := b }
  mapEnc fun e => { e with additionalOffset := e.additionalOffset - len }
  setNowPos (e.nowPos + len)

/-- The price refreshes of the post-step, at `additionalOffset = 0` (R377). -/
def refreshPrices : Act Unit := do
  let s ← get
  if 128 ≤ s.session.prices.matchPriceCount then fillDistancesPrices
  if 16 ≤ s.session.prices.alignPriceCount then fillAlignPrices

/-- The main loop (R373) with its post-step, flush and yield (R377, R378), over at most `fuel` symbols. Every symbol
covers at least one byte of `In`, so `InLen + 1` symbols are enough; a step of length 0 stops the machine (log
entry 15). -/
def codeLoop : Nat → Act Progress
  | 0 => throw .stuck
  | fuel + 1 => do
    let s ← get
    let nowPos := s.session.enc.nowPos
    let (len, back) ← getOptimum nowPos
    if len = 0 then throw .stuck
    encodeStep len back (posStateOf s.session.props.pb nowPos)
    postStep len (len = 1 && back = backChar)
    let s ← get
    if s.session.enc.additionalOffset = 0 then
      refreshPrices
      let avail ← getNumAvailableBytes
      if avail = 0 then
        encFlush
        pure .done
      else if Config.progressChunk ≤ s.session.enc.nowPos - s.session.enc.progressStart then
        mapEnc fun e => { e with finished := false }
        pure .more
      else codeLoop fuel
    else codeLoop fuel

/-- The byte at position 0 is always a LIT (R372). -/
def codeFirstByte : Act Unit := do
  let _ ← readMatchDistances
  encodeLiteral 0
  mapEnc fun e => { e with additionalOffset := e.additionalOffset - 1 }
  setNowPos 1

/-- `CodeOneBlock()` (R371, R372). -/
def codeOneBlock : Act Progress := do
  let s ← get
  if s.session.enc.finished then pure .done
  else
    mapEnc fun e => { e with finished := true, progressStart := e.nowPos }
    let avail ← getNumAvailableBytes
    if s.session.enc.nowPos = 0 && avail = 0 then
      encFlush
      pure .done
    else
      if s.session.enc.nowPos = 0 then codeFirstByte
      let avail ← getNumAvailableBytes
      if avail = 0 then
        encFlush
        pure .done
      else codeLoop (s.inp.length + 1)

/-! ### Session start (R370) -/

/-- The price tables before they are filled: every entry 0 (R57; I27). -/
def Prices.cleared (numFastBytes : Nat) : Prices :=
  { posSlotPrices := List.replicate 4 (List.replicate 64 0)
    distancesPrices := List.replicate 4 (List.replicate 128 0)
    alignPrices := List.replicate 16 0
    lenPrices := List.replicate 16 (List.replicate (numFastBytes - 1) 0)
    repLenPrices := List.replicate 16 (List.replicate (numFastBytes - 1) 0)
    lenCounter := List.replicate 16 0
    repLenCounter := List.replicate 16 0
    lenTableSize := numFastBytes - 1
    matchPriceCount := 0
    alignPriceCount := 0 }

/-- The match finder at ENC_OPEN (R65 to R68). -/
def MatchFinder.opened (kind : MfKind) (dictSize numFastBytes : Nat) : MatchFinder :=
  { mfPos := 1
    mfBase := 0
    cyclicPos := 0
    cbs := dictSize + 1
    matchMaxLen := numFastBytes
    cutValue := 16 + numFastBytes >>> 1
    minMatchCheck := match kind with
      | .bt4 => 4
      | .bt2 => 3
    numHashDirectBytes := match kind with
      | .bt4 => 0
      | .bt2 => 2
    fixHashSize := match kind with
      | .bt4 => 66560
      | .bt2 => 0
    hashMask := match kind with
      | .bt4 => hashMaskFn dictSize
      | .bt2 => 0xFFFF
    son := []
    hash := [] }

/-- The session an ENC_OPEN opens with CFG and DICT, before the price tables are filled (R370, R484, R485). No rule sets
`progressStart`, the saved-longest-match registers or the decoder's registers at an ENC_OPEN, and nothing reads them
before they are written: they keep their values (DESIGN CHOICE, log entry 6). -/
def encoderSession (cfg dict : Word) (ss : Session) : Session :=
  { ss with
    props := { lc := cfgLc cfg, lp := cfgLp cfg, pb := cfgPb cfg, dictSize := dict.toNat }
    state := 0
    reps := Reps.zero
    cells := Cells.init
    renc := RangeEnc.init
    enc := { numFastBytes := cfgNumFastBytes cfg, mfKind := cfgMfKind cfg,
             writeEndMarker := cfgWriteEndMarker cfg, finished := false, prevByte := 0, nowPos := 0,
             progressStart := ss.enc.progressStart, additionalOffset := 0 }
    prices := Prices.cleared (cfgNumFastBytes cfg)
    opt := { ss.opt with nodes := [], optimumEndIndex := 0, optimumCurrentIndex := 0, longestMatchWasFound := false }
    mf := MatchFinder.opened (cfgMfKind cfg) dict.toNat (cfgNumFastBytes cfg) }

/-- `UpdateLenTable` of both length coders for `n` pos-states from `ps` (R321, R370). -/
def fillLenTables : Nat → Nat → Act Unit
  | _, 0 => pure ()
  | ps, n + 1 => do
    updateLenTable ps
    updateRepLenTable ps
    fillLenTables (ps + 1) n

/-- The price fills of the session start, in the order of R485. -/
def fillPrices : Act Unit := do
  fillDistancesPrices
  fillAlignPrices
  let s ← get
  fillLenTables 0 (2 ^ s.session.props.pb)

end Sys2Proof.Machine
end

