-- ==== Sys2Proof/Machine/Symbols.lean ====
section
/-!
DEFINITION. Executing the coded symbols (`46_decoder_driver.md` R402 to R405, R410, R411): what the decoder does with a symbol
once its decision bits are read from `Cin` (log entry 13). A meaning does not test the phase: symbols run inside
DEC_STEP only (log entry 20).
-/

namespace Sys2Proof.Machine

/-- `Copy(d, len)`, one byte at a time (R109, R411). -/
def copyBytes (d : Nat) : Nat → Act Unit
  | 0 => pure ()
  | n + 1 => do
    let s ← get
    let b ← winRead (s.outPos - d - 1)
    winAppend b
    copyBytes d n

/-- `CheckAndCopy(len, kind)` (R410); `isMatch` is kind = MATCH. END ends the session in phase DONE (R401, R412). -/
def checkAndCopy (len : Nat) (isMatch : Bool) : Act Unit := do
  let s ← get
  let d := s.session.reps.r0
  let outSize := s.session.dec.outSize
  if s.outPos ≤ d.toNat || s.session.dec.dictCheck ≤ d.toNat then
    if d = endDistance && isMatch then
      match outSize with
      | some n => if s.outPos = n then setPhase .done else raise .dataError 4
      | none => setPhase .done
    else raise .dataError 1
  else
    match outSize with
    | some n => if n < s.outPos + len then raise .dataError 3 else copyBytes d.toNat len
    | none => copyBytes d.toNat len

/-- LIT v (R402). -/
def actLit (v : Byte) : Act Unit := do
  winAppend v
  let s ← get
  setCoderState (updateChar s.session.state)

/-- SHORTREP (R403). -/
def actShortRep : Act Unit := do
  let s ← get
  let d := s.session.reps.r0.toNat
  if s.outPos ≤ d then raise .dataError 2
  else
    setCoderState (updateShortRep s.session.state)
    let b ← winRead (s.outPos - d - 1)
    winAppend b

/-- REPk of length `len` (R404). -/
def actRep (k len : Nat) : Act Unit := do
  let s ← get
  setReps (s.session.reps.promote k)
  setCoderState (updateRep s.session.state)
  checkAndCopy len false

/-- MATCH or END with the decoded length and distance (R405). -/
def actMatch (len : Nat) (d : Word) : Act Unit := do
  let s ← get
  setReps (s.session.reps.push d)
  setCoderState (updateMatch s.session.state)
  checkAndCopy len true

/-- The action of a symbol; a command is none. -/
def symbolAct : Instr → Act Unit
  | .lit v => actLit v
  | .matchSym len d => actMatch len d
  | .shortRep => actShortRep
  | .rep0 len => actRep 0 len
  | .rep1 len => actRep 1 len
  | .rep2 len => actRep 2 len
  | .rep3 len => actRep 3 len
  | .endMark len => actMatch len endDistance
  | .nop | .encOpen | .encStep | .decOpen | .decStep | .close => pure ()

/-! ### The meanings -/

/-- LIT (R402). -/
def execLit (v : Byte) (s : State) : Host.Outcome State Fault Refusal := outcome (actLit v) s

/-- MATCH (R405). -/
def execMatchSym (len : Nat) (d : Word) (s : State) : Host.Outcome State Fault Refusal := outcome (actMatch len d) s

/-- SHORTREP (R403). -/
def execShortRep (s : State) : Host.Outcome State Fault Refusal := outcome actShortRep s

/-- REP0 (R404). -/
def execRep0 (len : Nat) (s : State) : Host.Outcome State Fault Refusal := outcome (actRep 0 len) s

/-- REP1 (R404). -/
def execRep1 (len : Nat) (s : State) : Host.Outcome State Fault Refusal := outcome (actRep 1 len) s

/-- REP2 (R404). -/
def execRep2 (len : Nat) (s : State) : Host.Outcome State Fault Refusal := outcome (actRep 2 len) s

/-- REP3 (R404). -/
def execRep3 (len : Nat) (s : State) : Host.Outcome State Fault Refusal := outcome (actRep 3 len) s

/-- END (R130, R405): the MATCH whose distance is 0xFFFFFFFF. -/
def execEndMark (len : Nat) (s : State) : Host.Outcome State Fault Refusal := outcome (actMatch len endDistance) s

end Sys2Proof.Machine
end

