-- ==== Sys2Proof/Machine/Decoder.lean ====
section
/-!
DEFINITION. The decoder driver (`46_decoder_driver.md` R400, R401): fetching a symbol from `Cin` through the range decoder, and
the loop DEC_STEP runs. Fetching changes the cells, the range decoder and the `Cin` cursor; what the symbol does is
`Machine/Symbols.lean`. Where `Cin` ends inside a symbol, the registers the spec has already written at that point
(`reps`, `state`; R404, R405) are written before the fault is taken (log entry 13).
-/

namespace Sys2Proof.Machine

/-- The byte before the next one, 0 at position 0 (R402). -/
def prevOutByte : Act Byte := do
  let s ← get
  if s.outPos = 0 then pure 0 else winRead (s.outPos - 1)

/-- The literal field (R402). -/
def fetchLiteral : Act Instr := do
  let s ← get
  let prev ← prevOutByte
  let base := litBase s.session.props s.outPos prev
  if isChar s.session.state then
    let v ← litDecode base
    pure (.lit v)
  else
    let mb ← winRead (s.outPos - s.session.reps.r0.toNat - 1)
    let v ← litDecodeMatched base mb
    pure (.lit v)

/-- Set `reps` in a state. -/
def State.withReps (f : Reps → Reps) (s : State) : State := s.mapSession fun ss => { ss with reps := f ss.reps }

/-- Set `state` in a state. -/
def State.withCoderState (f : CoderState → CoderState) (s : State) : State :=
  s.mapSession fun ss => { ss with state := f ss.state }

/-- The length field of REPk, after its promotion (R404). -/
def fetchRep (k : Nat) (ps : Nat) (mk : Nat → Instr) : Act Instr := do
  let sym ← onStop (State.withReps fun r => r.promote k) (lenDecode .repLenC ps)
  pure (mk (2 + sym))

/-- The shift of R405 before the length is decoded: `reps[0]` is written only when the distance is known. -/
def Reps.shift (r : Reps) : Reps := { r0 := r.r0, r1 := r.r0, r2 := r.r1, r3 := r.r2 }

/-- The length and distance fields of MATCH and END (R405). -/
def fetchMatch (ps : Nat) : Act Instr := do
  let sym ← onStop (State.withReps Reps.shift) (lenDecode .lenC ps)
  let d ← onStop (fun s => (s.withReps Reps.shift).withCoderState updateMatch) (distDecode (2 + sym))
  pure (matchOrEnd (2 + sym) d)

/-- Decode the next symbol of `Cin` (R401). -/
def fetchSymbol : Act Instr := do
  let s ← get
  let st := s.session.state
  let ps := posStateOf s.session.props.pb s.outPos
  let isMatch ← decodeBit (isMatchCell st ps)
  if !isMatch then fetchLiteral
  else
    let isRep ← decodeBit (isRepCell st)
    if !isRep then fetchMatch ps
    else
      let g0 ← decodeBit (isRepG0Cell st)
      if !g0 then
        let long ← decodeBit (isRep0LongCell st ps)
        if long then fetchRep 0 ps .rep0 else pure .shortRep
      else
        let g1 ← decodeBit (isRepG1Cell st)
        if !g1 then fetchRep 1 ps .rep1
        else
          let g2 ← decodeBit (isRepG2Cell st)
          if g2 then fetchRep 3 ps .rep3 else fetchRep 2 ps .rep2

/-- The declared size is known and reached (R401). -/
def State.sizeReached (s : State) : Bool :=
  match s.session.dec.outSize with
  | some n => n ≤ s.outPos
  | none => false

/-- The loop of DecodeStep (R401) that began at `stepStart`, over at most `fuel` symbols. Each symbol appends a byte or
ends the session, so `progressChunk` symbols are enough: that many bytes end the step. -/
def decodeLoop (stepStart : Nat) : Nat → Act Progress
  | 0 => pure .more
  | fuel + 1 => do
    let s ← get
    if s.sizeReached then pure .done
    else
      let i ← fetchSymbol
      symbolAct i
      let s ← get
      if s.regs.phase = .done then pure .done
      else if Config.progressChunk ≤ s.outPos - stepStart then pure .more
      else decodeLoop stepStart fuel

/-- `DecodeStep()` (R401). -/
def decodeStep : Act Progress := do
  let s ← get
  decodeLoop s.outPos Config.progressChunk

/-- The decode session a DEC_OPEN sets up once the properties are decoded (R400 items 2 and 3). -/
def decoderSession (lc lp pb : Nat) (ss : Session) : Session :=
  { ss with
    props := { ss.props with lc := lc, lp := lp, pb := pb }
    dec := { ss.dec with dictCheck := max ss.props.dictSize 1 }
    state := 0
    reps := Reps.zero
    cells := Cells.init
    rdec := { ss.rdec with inPos := 0 } }

end Sys2Proof.Machine
end

