-- ==== Sys2Proof/Machine/Commands.lean ====
section
/-!
DEFINITION. The host commands (`47_host_commands.md` R430 to R436).
-/

namespace Sys2Proof.Machine

/-- A command that is legal only in the phases `ok` (R150, R458): elsewhere IllegalCommand(sub 3). -/
def inPhase (ok : Phase → Bool) (a : Act Unit) : Act Unit := do
  let s ← get
  if ok s.regs.phase then a else raise .illegalCommand 3

/-- The phases in which a session can be opened (R150). -/
def mayOpen : Phase → Bool
  | .idle | .done | .fault => true
  | .encReady | .decReady => false

/-- End a step (R433, R435): DONE ends the session. -/
def endStep : Progress → Act Unit
  | .more => pure ()
  | .done => setPhase .done

/-- The checks of ENC_OPEN in sub-code order (R453): the sub-code of the first that fails. -/
def configCheck (cfg dict : Word) : Option Nat :=
  if 8 < cfgLc cfg then some 1
  else if 4 < cfgLp cfg then some 2
  else if 4 < cfgPb cfg then some 3
  else if cfgNumFastBytes cfg < 5 || 273 < cfgNumFastBytes cfg then some 4
  else if dict.toNat < 2 ^ 12 || 2 ^ 30 < dict.toNat then some 5
  else if cfgReserved cfg ≠ 0 then some 6
  else none

/-- What ENC_OPEN writes in the host registers (R432 items 2 and 3). -/
def openEncRegs (r : HostRegs) : HostRegs :=
  { r with
    eprops0 := propsByte (cfgLc r.cfg) (cfgLp r.cfg) (cfgPb r.cfg)
    eprops1 := r.dict
    inCount := 0
    outCount := 0
    isEncoder := true
    faultClass := .none
    faultSub := 0 }

/-- ENC_OPEN (R432, R485). -/
def actEncOpen : Act Unit := inPhase mayOpen do
  let s ← get
  match configCheck s.regs.cfg s.regs.dict with
  | some k => raise .configError k
  | none =>
    modify (State.mapRegs openEncRegs)
    mapSession (encoderSession s.regs.cfg s.regs.dict)
    modify fun s => { s with out := [] }
    fillPrices
    setPhase .encReady

/-- ENC_STEP (R433). -/
def actEncStep : Act Unit := inPhase (· = .encReady) do
  let p ← codeOneBlock
  endStep p

/-- What DEC_OPEN writes in the host registers (R434 item 2). -/
def openDecRegs (r : HostRegs) : HostRegs :=
  { r with inCount := 0, outCount := 0, isEncoder := false, faultClass := .none, faultSub := 0 }

/-- DEC_OPEN (R400, R434, R486). -/
def actDecOpen : Act Unit := inPhase mayOpen do
  let s ← get
  let r := s.regs
  mapSession fun ss =>
    { ss with
      props := { ss.props with dictSize := r.dprops1.toNat }
      dec := { ss.dec with outSize := declaredSize r } }
  modify (State.mapRegs openDecRegs)
  match decodePropsByte r.dprops0 with
  | none => raise .configError 7
  | some (lc, lp, pb) =>
    mapSession (decoderSession lc lp pb)
    modify fun s => { s with win := [] }
    rcDecInit
    setPhase .decReady

/-- DEC_STEP (R435). -/
def actDecStep : Act Unit := inPhase (· = .decReady) do
  let p ← decodeStep
  endStep p

/-- CLOSE (R436). The session's internal state is a free value afterwards, its memories in the
model's canonical form (log entry 5). -/
def closeSession (s : State) : State :=
  { s with
    regs := { s.regs with phase := .idle, faultClass := .none, faultSub := 0 }
    session := (Config.freeSession s.freeCount).canonical
    freeCount := s.freeCount + 1 }

/-! ### The meanings -/

/-- NOP (R431). -/
def execNop (s : State) : Host.Outcome State Fault Refusal := .next s

/-- ENC_OPEN (R432). -/
def execEncOpen (s : State) : Host.Outcome State Fault Refusal := outcome actEncOpen s

/-- ENC_STEP (R433). -/
def execEncStep (s : State) : Host.Outcome State Fault Refusal := outcome actEncStep s

/-- DEC_OPEN (R434). -/
def execDecOpen (s : State) : Host.Outcome State Fault Refusal := outcome actDecOpen s

/-- DEC_STEP (R435). -/
def execDecStep (s : State) : Host.Outcome State Fault Refusal := outcome actDecStep s

/-- CLOSE (R436). -/
def execClose (s : State) : Host.Outcome State Fault Refusal := .next (closeSession s)

end Sys2Proof.Machine
end

