-- ==== Sys2Proof/Machine/Dispatch.lean ====
section
/-!
DEFINITION. The dispatch: one arm for each instruction.
-/

namespace Sys2Proof.Machine

def exec (i : Instr) (s : State) : Host.Outcome State Fault Refusal :=
  match i with
  | .lit v => Sys2Proof.Machine.execLit v s
  | .matchSym len d => Sys2Proof.Machine.execMatchSym len d s
  | .shortRep => Sys2Proof.Machine.execShortRep s
  | .rep0 len => Sys2Proof.Machine.execRep0 len s
  | .rep1 len => Sys2Proof.Machine.execRep1 len s
  | .rep2 len => Sys2Proof.Machine.execRep2 len s
  | .rep3 len => Sys2Proof.Machine.execRep3 len s
  | .endMark len => Sys2Proof.Machine.execEndMark len s
  | .nop => Sys2Proof.Machine.execNop s
  | .encOpen => Sys2Proof.Machine.execEncOpen s
  | .encStep => Sys2Proof.Machine.execEncStep s
  | .decOpen => Sys2Proof.Machine.execDecOpen s
  | .decStep => Sys2Proof.Machine.execDecStep s
  | .close => Sys2Proof.Machine.execClose s

end Sys2Proof.Machine
end

