-- ==== Sys2Proof/Machine/HostPort.lean ====
section
/-!
DEFINITION. The host's accesses to the core (`10_state.md` R30, R32; `20_memory.md` R101; `30_encoding.md` R150): the command
a write of CMD issues, and the host's moves on the byte spaces and on reset.
-/

namespace Sys2Proof.Machine

/-- The IllegalCommand sub-code of a word that is no command (R150, R458). -/
def rejectSub : Reject → Byte
  | .illegalOp => 1
  | .reservedBits => 2
  | .truncated | .trailing => 2

/-- A command word runs its command in full (R430), or is IllegalCommand (R458). -/
def issue (w : Word) (s : State) : Host.Outcome State Fault Refusal :=
  match decodeCommand w with
  | .ok i => exec i s
  | .error r => .next (enterFault .illegalCommand (rejectSub r) s)

/-- `RegWrite(n, v)` (R32): the store, and for CMD the command. -/
def regWrite (n : Fin 16) (v : Word) (s : State) : Host.Outcome State Fault Refusal :=
  if n = 0 then issue v (s.mapRegs (regStore n v)) else .next (s.mapRegs (regStore n v))

/-- Whether a reset in this phase is a reset "before DONE" of `93_implementation_defined.md` I33: a session is open and
not DONE, or a fault ended it (R37, R430). -/
def unfinished : Phase → Bool
  | .encReady | .decReady | .fault => true
  | .idle | .done => false

/-- Reset (R480, R481): every register at its reset value; `In`, `Cin` and the accesses still to make are the host's (log
entry 11). R480 empties `Out` and `Win`; of a session abandoned before DONE the bytes produced so far remain visible
(R481 "its output is incomplete", `93_implementation_defined.md` I33): `Out` of an encode session, `Win` of a decode
session. How R480 and I33 fit together is the model's reading (DESIGN CHOICE, log entry 25). -/
def resetCore (s : State) : State :=
  { State.reset with
    inp := s.inp, cin := s.cin, pending := s.pending, readData := s.readData, freeCount := s.freeCount
    out := if unfinished s.regs.phase && s.regs.isEncoder then s.out else []
    win := if unfinished s.regs.phase && !s.regs.isEncoder then s.win else [] }

/-- One access of the host. `In` may not change while an encode session is open (R106, R490; I29): that move is
refused. -/
def hostAccess (a : HostAccess) (s : State) : Host.Outcome State Fault Refusal :=
  match a with
  | .regWrite n v => regWrite n v s
  | .regRead n => .next { s with readData := regRead s n }
  | .placeIn bytes => if s.regs.phase = .encReady then .refused .inputChangedInSession else .next { s with inp := bytes }
  | .supplyCin bytes => .next { s with cin := bytes }
  | .reset => .next (resetCore s)

end Sys2Proof.Machine
end

