-- ==== Sys2Proof/Machine/Assembler.lean ====
section
/-!
DEFINITION. The assembler of symbol programs (`30_encoding.md` R134, R135) and the placing of one symbol in a decode session,
both by the emission rules of the encoder (`45_encoder_driver.md` R374 to R376, R379) with the position and the bytes
before it taken from `Win`.
-/

namespace Sys2Proof.Machine

/-! ### The context a program has -/

/-- The byte `d + 1` back from the end of `Win`. A program may name a distance that reaches before the start of the
output (R131 item 1), where there is no byte: there a free value (DESIGN CHOICE, log entry 24). -/
def backByte (d : Nat) : Act Byte := do
  let s ← get
  if d < s.outPos then winRead (s.outPos - d - 1)
  else
    set { s with freeCount := s.freeCount + 1 }
    pure (Config.freeByte s.freeCount)

/-- The bytes of a copy of `n` bytes from `d + 1` back (R109), with no test of the distance. -/
def followCopy (d : Nat) : Nat → Act Unit
  | 0 => pure ()
  | n + 1 => do
    let b ← backByte d
    winAppend b
    followCopy d n

/-- Move the rep set and the state, and copy `len` bytes from `reps[0]`. -/
def followWith (reps : Reps → Reps) (st : CoderState → CoderState) (len : Nat) : Act Unit := do
  let s ← get
  setReps (reps s.session.reps)
  setCoderState (st s.session.state)
  followCopy (reps s.session.reps).r0.toNat len

/-- Carry the contexts over a symbol (R134): `state` (R270), `reps` (R273) and the position and bytes of the output. It
tests no distance and no size, since assembling is no decoding: where `symbolAct` accepts the symbol the two agree
(Laws/Assembler.lean). No rule says which rep set the symbols after END are coded under: R134 and R273 have no END row,
R379 emits END without moving `reps`, and R405's decoder pushes 0xFFFFFFFF before it ends. The model pushes it and moves
`state` as for a MATCH, as the decoder, so the match byte of a LIT right after END is a free value (DESIGN CHOICE, log
entry 24). -/
def followSymbol : Instr → Act Unit
  | .lit v => actLit v
  | .matchSym len d => followWith (fun r => r.push d) updateMatch len
  | .shortRep => followWith id updateShortRep 1
  | .rep0 len => followWith (fun r => r.promote 0) updateRep len
  | .rep1 len => followWith (fun r => r.promote 1) updateRep len
  | .rep2 len => followWith (fun r => r.promote 2) updateRep len
  | .rep3 len => followWith (fun r => r.promote 3) updateRep len
  | .endMark _ => followWith (fun r => r.push endDistance) updateMatch 0
  | .nop | .encOpen | .encStep | .decOpen | .decStep | .close => pure ()

/-! ### Coding a program -/

/-- Code the literal `v` at the end of `Win` (R374 with the decoder's view of the position, R402). -/
def codeLiteral (v : Byte) : Act Unit := do
  let s ← get
  let prev ← prevOutByte
  let base := litBase s.session.props s.outPos prev
  if isChar s.session.state then litEncode base v
  else
    let mb ← backByte s.session.reps.r0.toNat
    litEncodeMatched base mb v

/-- Code the prefix and the fields of a symbol at the end of `Win` (R123 to R130). A command codes nothing. -/
def codeSymbol (i : Instr) : Act Unit := do
  let s ← get
  let st := s.session.state
  let ps := posStateOf s.session.props.pb s.outPos
  let rep (k : Nat) (long : Bool) (len : Nat) : Act Unit := do
    encodeBit (isMatchCell st ps) true
    encodeBit (isRepCell st) true
    encodeRepPrefix k long st ps
    if long then lenEncode .repLenC (len - 2) ps
  let matchField (len : Nat) (d : Word) : Act Unit := do
    encodeBit (isMatchCell st ps) true
    encodeBit (isRepCell st) false
    lenEncode .lenC (len - 2) ps
    distEncode d.toNat len
  match i with
  | .lit v => do
    encodeBit (isMatchCell st ps) false
    codeLiteral v
  | .matchSym len d => matchField len d
  | .shortRep => rep 0 false 1
  | .rep0 len => rep 0 true len
  | .rep1 len => rep 1 true len
  | .rep2 len => rep 2 true len
  | .rep3 len => rep 3 true len
  | .endMark len => matchField len endDistance
  | .nop | .encOpen | .encStep | .decOpen | .decStep | .close => pure ()

/-- Code a program's symbols in order, the contexts following each (R134). -/
def codeProgram : List Instr → Act Unit
  | [] => pure ()
  | i :: is => do
    codeSymbol i
    followSymbol i
    codeProgram is

/-- The session-open state for coding symbols under the properties (lc, lp, pb) (R484, R485). Its dictionary size is the
one of `State.reset` and plays no part: coding tests no distance (log entry 24). -/
def codingState (lc lp pb : Nat) : State :=
  State.reset.mapSession fun ss => { ss with props := { ss.props with lc := lc, lp := lp, pb := pb } }

/-- A symbol a program may hold, with the operands R134 gives it. -/
def isProgramSymbol (i : Instr) : Bool := i.wellFormed && !i.isCommand

/-- A program's encoding: the prefixes and fields of its symbols in order from the session-open state, then the flush
(R134), whether or not a decoder would accept them (R131). None for what is no program of symbols. -/
def assemble (lc lp pb : Nat) (prog : List Instr) : Option (List Byte) :=
  if prog.all isProgramSymbol then
    match (do codeProgram prog; flushEncoder) (codingState lc lp pb) with
    | .ok _ s => some s.out
    | .error _ _ => none
  else none

/-- The session-open state for executing a program, with a dictionary of `dictSize` bytes and no size declared (R400). -/
def executingState (dictSize : Nat) : State :=
  State.reset.mapSession fun ss => { ss with dec := { dictCheck := max dictSize 1, outSize := none } }

/-- The `REP0`s of a run of `n` more bytes (R135): as many `REP0 273` as fit, then the remainder, a SHORTREP where it is
one byte. -/
def runRest : Nat → Nat → List Instr
  | 0, _ => []
  | fuel + 1, n =>
    if n = 0 then []
    else if n = 1 then [.shortRep]
    else if n ≤ 273 then [.rep0 n]
    else .rep0 273 :: runRest fuel (n - 273)

/-- `RUN v, n`: byte `v` repeated `n` times when `reps[0] = 0` (R135). -/
def expandRun (v : Byte) (n : Nat) : List Instr := .lit v :: runRest n (n - 1)

/-- `COPY len, off`: `MATCH len, off − 1` (R135). -/
def expandCopy (len off : Nat) : List Instr := [.matchSym len (u32 (off - 1))]

/-- `LITS` with the bytes of a string: a LIT for each (the third pseudo-instruction of `92_eei_decisions.md` D13; log
entry 23). -/
def expandLits (bytes : List Byte) : List Instr := bytes.map .lit

/-- The bytes that code one symbol under the cells and the context of `s`, from a fresh range coder to its flush. -/
def symbolBytes (i : Instr) (s : State) : List Byte :=
  let s0 := { s.mapSession fun ss => { ss with renc := RangeEnc.init } with out := [] }
  match (do codeSymbol i; flushEncoder) s0 with
  | .ok _ s1 => s1.out
  | .error _ _ => []

/-- The bytes a symbol appends. -/
def symbolLength : Instr → Nat
  | .lit _ | .shortRep => 1
  | .matchSym len _ | .rep0 len | .rep1 len | .rep2 len | .rep3 len => len
  | .endMark _ | .nop | .encOpen | .encStep | .decOpen | .decStep | .close => 0

/-- The value of four bytes, the first most significant (R97). -/
def codeOf : List Byte → Word
  | [] => 0
  | bs => u32 (bs.foldl (fun acc b => acc * 2 ^ 8 + b.toNat) 0)

/-- `s` with an open decode session whose `Cin` codes exactly the symbol `i` next, and a DEC_STEP as the host's next
access. The declared size is the one the symbol reaches, UNKNOWN for END (log entry 2). -/
def placeSymbol (i : Instr) (s : State) : State :=
  let bytes := symbolBytes i s
  let consumed := s.cin.take s.session.rdec.inPos
  let n := consumed.length + 5
  { s with
    regs := { s.regs with phase := .decReady, isEncoder := false, inCount := u32 n }
    session := { s.session with
      rdec := { range := 0xFFFFFFFF, code := codeOf ((bytes.drop 1).take 4), inPos := n }
      dec := { s.session.dec with
        outSize := match i with
          | .endMark _ => none
          | _ => some (s.outPos + symbolLength i) } }
    cin := consumed ++ bytes
    pending := .regWrite 0 4 :: s.pending }

/-- `s` with the host's next access the write of the word `w` to CMD. -/
def placeCommand (w : Word) (s : State) : State := { s with pending := .regWrite 0 w :: s.pending }

end Sys2Proof.Machine
end

