-- ==== Sys2Proof/Machine/Step.lean ====
section
/-!
DEFINITION. The step: the host's next access to the core, made in full (`47_host_commands.md` R430; log entry 1).
-/

namespace Sys2Proof.Machine

/-- One step. With no access pending the core does nothing and all state survives (R467). -/
def step (s : State) : Host.Outcome State Fault Refusal :=
  match s.pending with
  | [] => .next s
  | a :: rest => hostAccess a { s with pending := rest }

/-- `s` with the instruction of the host's numbered word where the next step takes it (log entry 2): a command word as
the host's next write of CMD, a symbol coded in `Cin` of an open decode session with DEC_STEP as the host's next
command. -/
def State.withFetchWord (s : State) (nbits w : Nat) : State :=
  if nbits = 32 then placeCommand (u32 w) s
  else
    match decodeTableWord nbits w with
    | some i => placeSymbol i s
    | none => s

end Sys2Proof.Machine
end

