-- ==== Sys2Proof/Safety.lean ====
section
/-!
DEFINITION. What holds of every state a run can reach: the invariants the spec states or derives (`10_state.md` R42, R52, R62,
R65; `40_range_coder.md` R171, R178, R182; `46_decoder_driver.md` R401 to R410; `60_exceptions.md` R451), gathered in `State.Inv`.
-/

namespace Sys2Proof.Machine

/-- Every array is in canonical form (log entry 7). -/
def Cells.wf (c : Cells) : Bool :=
  c.isMatch.wf probInit && c.isRep.wf probInit && c.isRepG0.wf probInit && c.isRepG1.wf probInit &&
  c.isRepG2.wf probInit && c.isRep0Long.wf probInit && c.literal.wf probInit && c.posSlot.wf probInit &&
  c.posSpecial.wf probInit && c.align.wf probInit && c.lenC.wf probInit && c.repLenC.wf probInit

/-- Every internal memory is in canonical form (log entry 7). -/
def Session.wf (ss : Session) : Bool :=
  ss.cells.wf && ss.opt.nodes.wf optZero && ss.mf.son.wf 0 && ss.mf.hash.wf 0

/-- The values a cell can have: "from 1024 the values stay in [31, 2017]" (R171). -/
def probReachable (p : Prob) : Prop := 31 ≤ p.toNat ∧ p.toNat ≤ 2017

/-- Every cell has a reachable value (R42). -/
def Cells.reachable (c : Cells) : Prop := ∀ cell, probReachable (c.get cell)

/-- The range decoder between operations: `code < range` (R182), and `range ≥ 2^24`. -/
def RangeDec.valid (d : RangeDec) : Prop := 2 ^ 24 ≤ d.range.toNat ∧ d.code.toNat < d.range.toNat

/-- The range encoder between operations (R178): `range ≥ 2^24`, the interval ends below 2^33, and the byte held back
is counted. -/
def RangeEnc.valid (e : RangeEnc) : Prop :=
  2 ^ 24 ≤ e.range.toNat ∧ e.low.toNat + e.range.toNat < 2 ^ 33 ∧ 1 ≤ e.cacheSize

/-- A stored distance names a byte already produced and passes the dictionary check, or is the initial 0 (R403,
R410). -/
def repValid (s : State) (d : Word) : Prop :=
  d.toNat < s.session.dec.dictCheck ∧ (d.toNat < s.outPos ∨ d = 0)

/-- An open decode session. -/
structure DecInv (s : State) : Prop where
  isDecoder : s.regs.isEncoder = false
  cells : s.session.cells.reachable
  coder : s.session.rdec.valid
  /-- R39. -/
  inCount : s.regs.inCount = u32 s.session.rdec.inPos
  /-- R39. -/
  outCount : s.regs.outCount = u32 s.outPos
  /-- A known size is not passed (R401, R410). -/
  bounded : ∀ n, s.session.dec.outSize = some n → s.outPos ≤ n
  reps : repValid s s.session.reps.r0 ∧ repValid s s.session.reps.r1 ∧ repValid s s.session.reps.r2 ∧
    repValid s s.session.reps.r3
  /-- The match byte of a matched literal is in range (R402). -/
  matchByte : isChar s.session.state = false → s.session.reps.r0.toNat < s.outPos

/-- The match finder's constants of the session (R65, R68). -/
def constantsOk (ss : Session) : Prop :=
  ss.mf.cbs = ss.props.dictSize + 1 ∧ ss.props.dictSize ≤ 2 ^ 30 ∧ ss.mf.matchMaxLen = ss.enc.numFastBytes ∧
  5 ≤ ss.enc.numFastBytes ∧ ss.enc.numFastBytes ≤ 273 ∧
  (ss.enc.mfKind = .bt4 ∧ ss.mf.minMatchCheck = 4 ∧ ss.mf.numHashDirectBytes = 0 ∨
   ss.enc.mfKind = .bt2 ∧ ss.mf.minMatchCheck = 3 ∧ ss.mf.numHashDirectBytes = 2)

/-- An open encode session between two ENC_STEPs: the match finder stands at `nowPos`, and no parse is pending (R62,
R378). -/
structure EncInv (s : State) : Prop where
  isEncoder : s.regs.isEncoder = true
  /-- R371. -/
  notFinished : s.session.enc.finished = false
  cells : s.session.cells.reachable
  coder : s.session.renc.valid
  /-- R39. -/
  inCount : s.regs.inCount = u32 s.session.enc.nowPos
  /-- R39. -/
  outCount : s.regs.outCount = u32 s.out.length
  constants : constantsOk s.session
  /-- R249: `mfPos < 2^31 − 1` between operations. -/
  mfPos : 1 ≤ s.session.mf.mfPos.toNat ∧ s.session.mf.mfPos.toNat < 2 ^ 31 - 1
  /-- R62. -/
  noOffset : s.session.enc.additionalOffset = 0
  position : s.session.mf.mfAbs = s.session.enc.nowPos
  /-- R235. -/
  inInput : s.session.enc.nowPos ≤ s.inp.length
  noChain : s.session.opt.optimumEndIndex = s.session.opt.optimumCurrentIndex
  noSaved : s.session.opt.longestMatchWasFound = false

/-- The invariant of the machine. -/
structure State.Inv (s : State) : Prop where
  memories : s.session.wf = true
  /-- A fault is recorded exactly in phase FAULT (R37, R451). -/
  faultRecord : s.regs.phase = .fault ↔ s.regs.faultClass ≠ .none
  noFaultSub : s.regs.faultClass = .none → s.regs.faultSub = 0
  encode : s.regs.phase = .encReady → EncInv s
  decode : s.regs.phase = .decReady → DecInv s

/-! ### Coding a sequence of decisions (R183) -/

/-- One thing the range coder codes: a bit under a cell, or the low `n` bits of `v` as direct bits. -/
inductive Decision where
  | bit (cell : Cell) (b : Bool)
  | direct (v n : Nat)
deriving DecidableEq, Repr

/-- The value a decision carries. -/
def Decision.value : Decision → Nat
  | .bit _ b => b.toNat
  | .direct v n => v % 2 ^ n

/-- The cell of a decision is one of the session's. -/
def Decision.inArrays (p : Props) : Decision → Prop
  | .bit cell _ => cell.idx < cell.arr.size p
  | .direct _ _ => True

/-- Encode decisions in order. -/
def encodeDecisions : List Decision → Act Unit
  | [] => pure ()
  | .bit cell b :: ds => do
    encodeBit cell b
    encodeDecisions ds
  | .direct v n :: ds => do
    encodeDirectBits v n
    encodeDecisions ds

/-- Decode as many decisions of the same cells and widths, giving their values. -/
def decodeDecisions : List Decision → Act (List Nat)
  | [] => pure []
  | .bit cell _ :: ds => do
    let b ← decodeBit cell
    let rest ← decodeDecisions ds
    pure (b.toNat :: rest)
  | .direct _ n :: ds => do
    let v ← decodeDirectBits 0 n
    let rest ← decodeDecisions ds
    pure (v :: rest)

/-! ### Coding a step of the parse (R343, R373 to R377) -/

/-- `In` repeats at `nowPos`, for `len` bytes, the bytes from `d + 1` back. -/
def repeatsFrom (s : State) (d len : Nat) : Prop :=
  let n := s.session.enc.nowPos
  d < n ∧ ∀ j, j < len → s.inp[n + j]? = s.inp[n + j - (d + 1)]?

/-- The step (len, back) is a legal symbol at `nowPos` (R343 item 1): LIT always; SHORTREP, REPk and MATCH where `In` repeats
at their distance. -/
def stepLegal (s : State) (len : Nat) (back : Word) : Prop :=
  s.session.enc.nowPos + len ≤ s.inp.length ∧
  (len = 1 ∧ back = backChar ∨
   back.toNat < 4 ∧ (len = 1 ∧ back = 0 ∨ 2 ≤ len ∧ len ≤ 273) ∧
     repeatsFrom s (s.session.reps.get back.toNat).toNat len ∨
   4 ≤ back.toNat ∧ 2 ≤ len ∧ len ≤ 273 ∧ repeatsFrom s (back.toNat - 4) len)

/-- The symbol the step (len, back) stands for at the byte `v` (R373). -/
def stepSymbol (v : Byte) (len : Nat) (back : Word) : Instr :=
  if len = 1 ∧ back = backChar then .lit v
  else if back.toNat < 4 then
    if len = 1 then .shortRep
    else if back = 0 then .rep0 len
    else if back = 1 then .rep1 len
    else if back = 2 then .rep2 len
    else .rep3 len
  else .matchSym len (u32 (back.toNat - 4))

/-- The encoder `s` and the coder `c` of a symbol program stand at one point: the same cells, range encoder, `state`, `reps` and
`Out`, with the input up to `nowPos` as the program's output. -/
structure SameCoder (s c : State) : Prop where
  cells : c.session.cells = s.session.cells
  coder : c.session.renc = s.session.renc
  state : c.session.state = s.session.state
  reps : c.session.reps = s.session.reps
  lc : c.session.props.lc = s.session.props.lc
  lp : c.session.props.lp = s.session.props.lp
  pb : c.session.props.pb = s.session.props.pb
  out : c.out = s.out
  window : c.win = s.inp.take s.session.enc.nowPos
  inInput : s.session.enc.nowPos ≤ s.inp.length
  prevByte : s.session.enc.prevByte = (c.win.getLast?).getD 0
  matchByte : isChar s.session.state = false → s.session.reps.r0.toNat < s.session.enc.nowPos

/-- The range encoder, the cells and the length tables of an encode session allow every symbol to be coded. -/
structure CanCode (s : State) : Prop where
  coder : s.session.renc.valid
  cells : s.session.cells.reachable
  canonical : s.session.cells.wf = true
  lc : s.session.props.lc ≤ 8
  pb : s.session.props.pb ≤ 4
  lenCounter : s.session.prices.lenCounter.length = 16
  repLenCounter : s.session.prices.repLenCounter.length = 16
  lenTableSize : s.session.prices.lenTableSize ≤ 272

/-! ### Whole sessions (R380, R413) -/

/-- `n` ENC_STEPs in a row. -/
def encSteps : Nat → State → Option State
  | 0, s => some s
  | n + 1, s =>
    match exec .encStep s with
    | .next t => encSteps n t
    | .fault _ | .refused _ => none

/-- `n` DEC_STEPs in a row. -/
def decSteps : Nat → State → Option State
  | 0, s => some s
  | n + 1, s =>
    match exec .decStep s with
    | .next t => decSteps n t
    | .fault _ | .refused _ => none

/-! ### The index of the match finder (R246, R250) -/

/-- `Hash`, `Son` and the positions are what indexing every position before the current one, in order, leaves of the match
finder as ENC_OPEN opens it. -/
def Indexed (s : State) : Prop :=
  2 ^ 12 ≤ s.session.props.dictSize ∧
  ∃ (s0 t : State) (reports : List (List MatchPair)),
    s0.inp = s.inp ∧ s0.session.enc.mfKind = s.session.enc.mfKind ∧
    s0.session.mf = MatchFinder.opened s.session.enc.mfKind s.session.props.dictSize s.session.enc.numFastBytes ∧
    tabulate (fun _ => getMatches) 0 s.session.mf.mfAbs s0 = .ok reports t ∧ t.session.mf = s.session.mf

end Sys2Proof.Machine
end

