-- ==== Sys2Proof/Certificates/Slice0/Obligations.lean ====
section
/-!
DEFINITION. The statements about the core, for the provers. A docstring names the rules a statement formalises.
Where a statement rests on a choice of the model, it names the log entry.
-/

open Sys2Proof Sys2Proof.Machine

/-! ### Encodings -/

/-- Every well-formed instruction is read back from its code (R123 to R130, R150). -/
def Obligations.DecodeInvertsEncode : Prop :=
  ∀ i : Instr, i.wellFormed = true → decode (encode i) = .ok i

/-- Decoding drops no decision bit: whatever is decoded is a well-formed symbol whose bits are exactly the ones read,
and 48 bits are always enough for one (R123, R131, R133). -/
def Obligations.EncodeInvertsDecode : Prop :=
  (∀ (bs rest : List Bool) (i : Instr), decodeSymbol bs = .ok (i, rest) →
    i.wellFormed = true ∧ i.isCommand = false ∧ symbolBits i ++ rest = bs) ∧
  ∀ bs : List Bool, 48 ≤ bs.length → ∃ r, decodeSymbol bs = .ok r

/-- A command word is the word of one command, or is rejected for its op, or for its reserved bits (R150). -/
def Obligations.CommandWordsDecode : Prop :=
  (∀ (w : Word) (i : Instr), decodeCommand w = .ok i ↔ i.isCommand = true ∧ encode i = .word w) ∧
  (∀ w : Word, decodeCommand w = .error .illegalOp ↔ 6 ≤ w.toNat % 16) ∧
  ∀ w : Word, decodeCommand w = .error .reservedBits ↔ w.toNat % 16 < 6 ∧ w.toNat / 16 ≠ 0

/-- Codes written out from the tables of R123, R126, R127, R130 and R150 decode to their instructions. -/
def Obligations.SpecCodesDecode : Prop :=
  decode (.decisions [false, false, true, false, false, false, false, false, true]) = .ok (.lit 0x41) ∧
  decode (.decisions [true, false, false, true, false, false, false, false, false, false, true, false]) =
    .ok (.matchSym 6 2) ∧
  decode (.decisions [true, true, false, false]) = .ok .shortRep ∧
  decode (.decisions [true, true, false, true, false, false, false, true]) = .ok (.rep0 3) ∧
  decode (.decisions [true, true, true, false, true, false, false, false, false]) = .ok (.rep1 10) ∧
  decode (.decisions ([true, true, true, true, false, true, true] ++ List.replicate 8 true)) = .ok (.rep2 273) ∧
  decode (.decisions [true, true, true, true, true, false, false, false, false]) = .ok (.rep3 2) ∧
  decode (.decisions ([true, false, false, false, false, false] ++ List.replicate 36 true)) = .ok (.endMark 2) ∧
  decode (.word 0) = .ok .nop ∧ decode (.word 1) = .ok .encOpen ∧ decode (.word 2) = .ok .encStep ∧
  decode (.word 3) = .ok .decOpen ∧ decode (.word 4) = .ok .decStep ∧ decode (.word 5) = .ok .close

/-- The slots cover the 32-bit distances, each in its own range (R128, R310). -/
def Obligations.PosSlotCoversDistances : Prop :=
  (∀ d : Nat, d < 2 ^ 32 → posSlot d < 64 ∧ (d < 4 → posSlot d = d) ∧
    (4 ≤ d → 4 ≤ posSlot d ∧ slotBase (posSlot d) ≤ d ∧
      d < slotBase (posSlot d) + 2 ^ slotFooterBits (posSlot d))) ∧
  ∀ s r : Nat, 4 ≤ s → s < 64 → r < 2 ^ slotFooterBits s → posSlot (slotBase s + r) = s

/-- Byte 0 of the properties blob (R121): the test fails exactly from 225, and every other byte decodes to the one
triple that encodes it. -/
def Obligations.PropsByteDecodes : Prop :=
  (∀ b : Byte, decodePropsByte b = none ↔ 225 ≤ b.toNat) ∧
  (∀ (b : Byte) (lc lp pb : Nat), decodePropsByte b = some (lc, lp, pb) →
    lc ≤ 8 ∧ lp ≤ 4 ∧ pb ≤ 4 ∧ propsByte lc lp pb = b) ∧
  ∀ lc lp pb : Nat, lc ≤ 8 → lp ≤ 4 → pb ≤ 4 → decodePropsByte (propsByte lc lp pb) = some (lc, lp, pb)

/-! ### The step and the host port -/

/-- A step whose access writes a command word to CMD runs that command on the state with the access taken and the word
stored (R101, R150, R430); and so does a step after `withFetchWord` (log entries 1 and 2). -/
def Obligations.StepRunsDecodedCommand : Prop :=
  (∀ (s : State) (w : Word) (rest : List HostAccess) (i : Instr), s.pending = .regWrite 0 w :: rest →
    decodeCommand w = .ok i →
    step s = exec i { s with pending := rest, regs := { s.regs with cmd := w } }) ∧
  ∀ (s : State) (w : Word) (i : Instr), decodeCommand w = .ok i →
    step (s.withFetchWord 32 w.toNat) = exec i { s with regs := { s.regs with cmd := w } }

/-- DEC_STEP runs the symbols its range decoder reads (R401): where the next symbol of `Cin` is `i` and `exec i` takes
the state after reading it to `s2`, DEC_STEP ends in `s2` if `i` ended the session or faulted, in DONE if `i` reached
the declared size, and otherwise goes on from `s2`. (One symbol is shorter than the progress chunk.) -/
def Obligations.DecStepRunsFetchedSymbol : Prop :=
  ∀ (s s1 s2 : State) (i : Instr), s.regs.phase = .decReady → s.sizeReached = false →
    fetchSymbol s = .ok i s1 → exec i s1 = .next s2 →
    (s2.regs.phase = .done → exec .decStep s = .next s2) ∧
    (s2.regs.phase = .fault → exec .decStep s = .next s2) ∧
    (s2.regs.phase = .decReady → s2.sizeReached = true →
      exec .decStep s = .next { s2 with regs := { s2.regs with phase := .done } }) ∧
    (s2.regs.phase = .decReady → s2.sizeReached = false →
      exec .decStep s = outcome (decodeLoop s.outPos (Config.progressChunk - 1) >>= endStep) s2)

/-- Reset. What the host reads right after it and the rest of the reset state the spec gives (R32, R480), and that a reset
access in any state leaves them (R480, R481). A session abandoned before DONE keeps the bytes it produced visible
(`93_implementation_defined.md` I33): `Out` of an encode session and `Win` of a decode session, in the phases the model
counts as before DONE (the model's reading, log entry 25); otherwise both are empty. What a reset leaves of `In`, `Cin`
and of the model's own fields is log entry 11. -/
def Obligations.ResetState : Prop :=
  (∀ n : Fin 16, regRead State.reset n =
    ([0, 0x00088103, 0x00400000, 0x5D, 0x00400000, 0xFFFFFFFF, 0xFFFFFFFF, 0, 0, 0, 0, 0, 0, 0, 0, 0] : List Word)[n]) ∧
  State.reset.regs.phase = .idle ∧ State.reset.regs.isEncoder = false ∧ State.reset.regs.faultClass = .none ∧
  State.reset.regs.faultSub = 0 ∧ State.reset.session.enc.finished = false ∧ State.reset.out = [] ∧
  State.reset.win = [] ∧
  ∀ (s : State) (rest : List HostAccess), s.pending = .reset :: rest →
    ∃ t, step s = .next t ∧ t.regs = State.reset.regs ∧ t.session.enc.finished = false ∧
      t.out = (if s.regs.phase ≠ .idle ∧ s.regs.phase ≠ .done ∧ s.regs.isEncoder = true then s.out else []) ∧
      t.win = (if s.regs.phase ≠ .idle ∧ s.regs.phase ≠ .done ∧ s.regs.isEncoder = false then s.win else []) ∧
      t.inp = s.inp ∧ t.cin = s.cin ∧ t.pending = rest

/-- A write of a register other than CMD (R32, R33, R35): it is read back, DPROPS0 keeps bits 7:0 only, a write to a
read-only or reserved register is ignored, and nothing else changes. -/
def Obligations.RegWriteStores : Prop :=
  ∀ (s : State) (n : Fin 16) (v : Word) (rest : List HostAccess), s.pending = .regWrite n v :: rest → n ≠ 0 →
    ∃ t, step s = .next t ∧
      (n ∈ ([1, 2, 4, 5, 6] : List (Fin 16)) → regRead t n = v) ∧
      (n = 3 → regRead t n = u32 (v.toNat % 256)) ∧
      (7 ≤ n → regRead t n = regRead s n) ∧
      (∀ m, m ≠ n → regRead t m = regRead s m) ∧
      t = { s with pending := rest, regs := t.regs }

/-- A read of a register returns its value and has no side effect (R101); CMD and registers 12 to 15 read 0 (R32), and
STATUS reads as R37 lays it out. The value returned stands in `readData` (log entry 8). -/
def Obligations.RegReadReturns : Prop :=
  (∀ (s : State) (n : Fin 16) (rest : List HostAccess), s.pending = .regRead n :: rest →
    step s = .next { s with pending := rest, readData := regRead s n }) ∧
  (∀ s : State, regRead s 0 = 0 ∧ regRead s 12 = 0 ∧ regRead s 13 = 0 ∧ regRead s 14 = 0 ∧ regRead s 15 = 0) ∧
  ∀ s : State,
    (regRead s 7).toNat % 8 =
      (match s.regs.phase with | .idle => 0 | .encReady => 1 | .decReady => 2 | .done => 3 | .fault => 4) ∧
    ((regRead s 7).toNat / 2 ^ 3 % 2 = 1 ↔ s.regs.isEncoder = true) ∧
    (regRead s 7).toNat / 2 ^ 4 % 16 =
      (match s.regs.faultClass with
        | .none => 0 | .configError => 1 | .sourceExhausted => 2 | .dataError => 3 | .internalInvariant => 4
        | .illegalCommand => 5) ∧
    (regRead s 7).toNat / 2 ^ 8 % 256 = s.regs.faultSub.toNat ∧
    (regRead s 7).toNat / 2 ^ 16 = 0

/-- The host's other moves. With no access pending the core does nothing and all state survives (R467). Placing `In` outside
an encode session and supplying `Cin` change that space only (R487; log entries 9 and 10). While an encode session is open
no step changes `In`, and the move that would is refused (R92, R106, R490; log entry 9). -/
def Obligations.HostMovesKeepTheCore : Prop :=
  (∀ s : State, s.pending = [] → step s = .next s) ∧
  (∀ (s : State) (bytes : List Byte) (rest : List HostAccess), s.pending = .placeIn bytes :: rest →
    s.regs.phase ≠ .encReady → step s = .next { s with pending := rest, inp := bytes }) ∧
  (∀ (s : State) (bytes : List Byte) (rest : List HostAccess), s.pending = .supplyCin bytes :: rest →
    step s = .next { s with pending := rest, cin := bytes }) ∧
  ∀ s : State, s.regs.phase = .encReady →
    (∀ t, step s = .next t → t.inp = s.inp) ∧
    ∀ (bytes : List Byte) (rest : List HostAccess), s.pending = .placeIn bytes :: rest →
      step s = .refused .inputChangedInSession

/-! ### Commands -/

/-- NOP (R431): no effect in any phase; a NOP word with reserved bits set is IllegalCommand(sub 2). -/
def Obligations.NopCompletes : Prop :=
  (∀ s : State, exec .nop s = .next s) ∧
  ∀ (s : State) (w : Word) (rest : List HostAccess), s.pending = .regWrite 0 w :: rest → w.toNat % 16 = 0 → w ≠ 0 →
    step s = .next (enterFault .illegalCommand 2 { s with pending := rest, regs := { s.regs with cmd := w } })

/-- CLOSE in any phase (R436). The session's internal state afterwards is not stated (log entry 5). -/
def Obligations.CloseCompletes : Prop :=
  ∀ s : State, ∃ t, exec .close s = .next t ∧
    t.regs = { s.regs with phase := .idle, faultClass := .none, faultSub := 0 } ∧
    t.inp = s.inp ∧ t.out = s.out ∧ t.cin = s.cin ∧ t.win = s.win ∧ t.pending = s.pending ∧ t.readData = s.readData

/-- ENC_OPEN with a legal configuration (R432, R370, R485): the host registers, the datapath, and what is left alone. That
`rdec`, `dec` and `progressStart`, which no rule sets here, keep their values is the model's choice (log entry 6). -/
def Obligations.EncOpenCompletes : Prop :=
  ∀ s : State, mayOpen s.regs.phase = true →
    cfgLc s.regs.cfg ≤ 8 → cfgLp s.regs.cfg ≤ 4 → cfgPb s.regs.cfg ≤ 4 →
    5 ≤ cfgNumFastBytes s.regs.cfg → cfgNumFastBytes s.regs.cfg ≤ 273 →
    2 ^ 12 ≤ s.regs.dict.toNat → s.regs.dict.toNat ≤ 2 ^ 30 → cfgReserved s.regs.cfg = 0 →
    ∃ t, exec .encOpen s = .next t ∧
      t.regs = { s.regs with
        phase := .encReady, isEncoder := true, faultClass := .none, faultSub := 0
        eprops0 := u8 ((cfgPb s.regs.cfg * 5 + cfgLp s.regs.cfg) * 9 + cfgLc s.regs.cfg), eprops1 := s.regs.dict
        inCount := 0, outCount := 0 } ∧
      t.session.props =
        { lc := cfgLc s.regs.cfg, lp := cfgLp s.regs.cfg, pb := cfgPb s.regs.cfg, dictSize := s.regs.dict.toNat } ∧
      t.session.state = 0 ∧ t.session.reps = { r0 := 0, r1 := 0, r2 := 0, r3 := 0 } ∧
      (∀ cell, t.session.cells.get cell = 1024) ∧
      t.session.renc = { low := 0, range := 0xFFFFFFFF, cache := 0, cacheSize := 1 } ∧
      t.session.enc =
        { numFastBytes := cfgNumFastBytes s.regs.cfg, mfKind := cfgMfKind s.regs.cfg
          writeEndMarker := cfgWriteEndMarker s.regs.cfg, finished := false, prevByte := 0, nowPos := 0
          progressStart := s.session.enc.progressStart, additionalOffset := 0 } ∧
      t.session.opt.optimumEndIndex = 0 ∧ t.session.opt.optimumCurrentIndex = 0 ∧
      t.session.opt.longestMatchWasFound = false ∧
      t.session.mf.mfPos = 1 ∧ t.session.mf.mfBase = 0 ∧ t.session.mf.cyclicPos = 0 ∧
      t.session.mf.cbs = s.regs.dict.toNat + 1 ∧ t.session.mf.matchMaxLen = cfgNumFastBytes s.regs.cfg ∧
      t.session.mf.cutValue = 16 + cfgNumFastBytes s.regs.cfg / 2 ∧
      (cfgMfKind s.regs.cfg = .bt4 → t.session.mf.minMatchCheck = 4 ∧ t.session.mf.numHashDirectBytes = 0 ∧
        t.session.mf.fixHashSize = 66560 ∧ t.session.mf.hashMask = hashMaskFn s.regs.dict.toNat) ∧
      (cfgMfKind s.regs.cfg = .bt2 → t.session.mf.minMatchCheck = 3 ∧ t.session.mf.numHashDirectBytes = 2 ∧
        t.session.mf.fixHashSize = 0 ∧ t.session.mf.hashMask = 0xFFFF) ∧
      (∀ i, Memory.read 0 t.session.mf.hash i = 0) ∧
      t.session.rdec = s.session.rdec ∧ t.session.dec = s.session.dec ∧
      t.out = [] ∧ t.inp = s.inp ∧ t.cin = s.cin ∧ t.win = s.win ∧ t.pending = s.pending ∧ t.readData = s.readData ∧
      t.freeCount = s.freeCount

/-- The price tables ENC_OPEN fills from fresh cells (R321, R322, R323; the values are the examples of R303 and R322 and
of R209). -/
def Obligations.EncOpenFillsPrices : Prop :=
  ∀ s t : State, mayOpen s.regs.phase = true → exec .encOpen s = .next t → t.regs.phase = .encReady →
    (∀ lps d, lps < 4 → d < 128 →
      (t.session.prices.distancesPrices[lps]?.bind fun row => row[d]?) =
        some (if d < 4 then 384 else 384 + 64 * slotFooterBits (posSlot d))) ∧
    (∀ lps slot, lps < 4 → slot < distTableSize s.regs.dict.toNat →
      (t.session.prices.posSlotPrices[lps]?.bind fun row => row[slot]?) =
        some (if slot < 14 then 384 else 384 + 64 * (slotFooterBits slot - 4))) ∧
    (∀ i, i < 16 → t.session.prices.alignPrices[i]? = some 256) ∧
    (∀ ps len, ps < 2 ^ cfgPb s.regs.cfg → 2 ≤ len → len ≤ cfgNumFastBytes s.regs.cfg →
      (t.session.prices.lenPrices[ps]?.bind fun row => row[len - 2]?) =
        some (if len < 10 then 256 else if len < 18 then 320 else 640) ∧
      (t.session.prices.repLenPrices[ps]?.bind fun row => row[len - 2]?) =
        some (if len < 10 then 256 else if len < 18 then 320 else 640)) ∧
    (∀ ps, ps < 2 ^ cfgPb s.regs.cfg →
      t.session.prices.lenCounter[ps]? = some (cfgNumFastBytes s.regs.cfg - 1) ∧
      t.session.prices.repLenCounter[ps]? = some (cfgNumFastBytes s.regs.cfg - 1)) ∧
    t.session.prices.matchPriceCount = 0 ∧ t.session.prices.alignPriceCount = 0

/-- The configuration checks (R453): at ENC_OPEN the first that fails, in sub-code order, with nothing else changed; at
DEC_OPEN the one check, sub 7, after the counters and `isEncoder` are cleared (R434, R486). That a refused ENC_OPEN leaves
them is read from R432's order (log entry 12). -/
def Obligations.ConfigChecks : Prop :=
  (∀ s : State, mayOpen s.regs.phase = true →
    (8 < cfgLc s.regs.cfg → exec .encOpen s = .next (enterFault .configError 1 s)) ∧
    (cfgLc s.regs.cfg ≤ 8 → 4 < cfgLp s.regs.cfg → exec .encOpen s = .next (enterFault .configError 2 s)) ∧
    (cfgLc s.regs.cfg ≤ 8 → cfgLp s.regs.cfg ≤ 4 → 4 < cfgPb s.regs.cfg →
      exec .encOpen s = .next (enterFault .configError 3 s)) ∧
    (cfgLc s.regs.cfg ≤ 8 → cfgLp s.regs.cfg ≤ 4 → cfgPb s.regs.cfg ≤ 4 →
      (cfgNumFastBytes s.regs.cfg < 5 ∨ 273 < cfgNumFastBytes s.regs.cfg) →
      exec .encOpen s = .next (enterFault .configError 4 s)) ∧
    (cfgLc s.regs.cfg ≤ 8 → cfgLp s.regs.cfg ≤ 4 → cfgPb s.regs.cfg ≤ 4 → 5 ≤ cfgNumFastBytes s.regs.cfg →
      cfgNumFastBytes s.regs.cfg ≤ 273 → (s.regs.dict.toNat < 2 ^ 12 ∨ 2 ^ 30 < s.regs.dict.toNat) →
      exec .encOpen s = .next (enterFault .configError 5 s)) ∧
    (cfgLc s.regs.cfg ≤ 8 → cfgLp s.regs.cfg ≤ 4 → cfgPb s.regs.cfg ≤ 4 → 5 ≤ cfgNumFastBytes s.regs.cfg →
      cfgNumFastBytes s.regs.cfg ≤ 273 → 2 ^ 12 ≤ s.regs.dict.toNat → s.regs.dict.toNat ≤ 2 ^ 30 →
      cfgReserved s.regs.cfg ≠ 0 → exec .encOpen s = .next (enterFault .configError 6 s))) ∧
  ∀ s : State, mayOpen s.regs.phase = true → 225 ≤ s.regs.dprops0.toNat →
    ∃ t, exec .decOpen s = .next t ∧
      t.regs = { s.regs with
        phase := .fault, isEncoder := false, faultClass := .configError, faultSub := 7, inCount := 0
        outCount := 0 } ∧
      t.out = s.out ∧ t.win = s.win ∧ t.inp = s.inp ∧ t.cin = s.cin

/-- DEC_OPEN over a legal start of the stream (R400, R434, R486). That the encoder's registers `renc`, `enc`, `prices`, `opt`
and `mf`, which no rule gives a value outside an encode session, keep theirs is the model's choice (log entry 6). -/
def Obligations.DecOpenCompletes : Prop :=
  ∀ (s : State) (b1 b2 b3 b4 : Byte) (rest : List Byte), mayOpen s.regs.phase = true → s.regs.dprops0.toNat < 225 →
    s.cin = 0 :: b1 :: b2 :: b3 :: b4 :: rest → (b1, b2, b3, b4) ≠ (0xFF, 0xFF, 0xFF, 0xFF) →
    ∃ t, exec .decOpen s = .next t ∧
      t.regs = { s.regs with
        phase := .decReady, isEncoder := false, faultClass := .none, faultSub := 0, inCount := 5, outCount := 0 } ∧
      t.session.props =
        { lc := s.regs.dprops0.toNat % 9, lp := s.regs.dprops0.toNat / 9 % 5, pb := s.regs.dprops0.toNat / 9 / 5
          dictSize := s.regs.dprops1.toNat } ∧
      t.session.dec.dictCheck = max s.regs.dprops1.toNat 1 ∧
      t.session.dec.outSize =
        (if s.regs.outsizeHi = 0xFFFFFFFF ∧ s.regs.outsizeLo = 0xFFFFFFFF then none
         else some (s.regs.outsizeHi.toNat * 2 ^ 32 + s.regs.outsizeLo.toNat)) ∧
      t.session.state = 0 ∧ t.session.reps = { r0 := 0, r1 := 0, r2 := 0, r3 := 0 } ∧
      (∀ cell, t.session.cells.get cell = 1024) ∧
      t.session.rdec = { range := 0xFFFFFFFF, code := b1 ++ b2 ++ b3 ++ b4, inPos := 5 } ∧
      t.session.renc = s.session.renc ∧ t.session.enc = s.session.enc ∧ t.session.prices = s.session.prices ∧
      t.session.opt = s.session.opt ∧ t.session.mf = s.session.mf ∧
      t.win = [] ∧ t.out = s.out ∧ t.inp = s.inp ∧ t.cin = s.cin ∧ t.pending = s.pending ∧ t.readData = s.readData ∧
      t.freeCount = s.freeCount

/-- DEC_OPEN over an illegal start of the stream (R179, R434, R451, R454): too few bytes, a first byte other than 0, an
initial code of 0xFFFFFFFF. IN_COUNT shows the bytes consumed. -/
def Obligations.DecOpenFaults : Prop :=
  ∀ s : State, mayOpen s.regs.phase = true → s.regs.dprops0.toNat < 225 →
    (s.cin.length < 5 → (s.cin = [] ∨ s.cin.head? = some 0) →
      ∃ t, exec .decOpen s = .next t ∧ t.win = [] ∧ t.out = s.out ∧
        t.regs = { s.regs with
          phase := .fault, isEncoder := false, faultClass := .sourceExhausted, faultSub := 0
          inCount := u32 s.cin.length, outCount := 0 }) ∧
    (∀ b : Byte, s.cin.head? = some b → b ≠ 0 →
      ∃ t, exec .decOpen s = .next t ∧ t.win = [] ∧ t.out = s.out ∧
        t.regs = { s.regs with
          phase := .fault, isEncoder := false, faultClass := .dataError, faultSub := 5, inCount := 1
          outCount := 0 }) ∧
    (s.cin.take 5 = [0, 0xFF, 0xFF, 0xFF, 0xFF] →
      ∃ t, exec .decOpen s = .next t ∧ t.win = [] ∧ t.out = s.out ∧
        t.regs = { s.regs with
          phase := .fault, isEncoder := false, faultClass := .dataError, faultSub := 6, inCount := 5
          outCount := 0 })

/-- ENC_STEP with the input drained (R371, R372, R378, R379): the session is flushed and DONE. `Out` keeps what it held
and grows by the bytes the flush drains, `cacheSize + 4` of them where no END is written. Nothing else changes than the
registers the flush writes. -/
def Obligations.EncStepDrainedCompletes : Prop :=
  ∀ s : State, s.regs.phase = .encReady → EncInv s → s.session.wf = true → s.session.props.pb ≤ 4 →
    s.inp.length ≤ s.session.mf.mfAbs →
    ∃ t, exec .encStep s = .next t ∧
      t.regs = { s.regs with phase := .done, outCount := u32 t.out.length } ∧
      (∃ bytes, t.out = s.out ++ bytes ∧
        (s.session.enc.writeEndMarker = false → bytes.length = s.session.renc.cacheSize + 4)) ∧
      (s.session.enc.writeEndMarker = false →
        t.session.cells = s.session.cells ∧ t.session.state = s.session.state) ∧
      (s.session.enc.writeEndMarker = true → t.session.state = updateMatch s.session.state) ∧
      t.session =
        { s.session with
          cells := t.session.cells, state := t.session.state, renc := t.session.renc
          enc := { s.session.enc with finished := true, progressStart := s.session.enc.nowPos } } ∧
      t.inp = s.inp ∧ t.cin = s.cin ∧ t.win = s.win ∧ t.pending = s.pending ∧ t.readData = s.readData ∧
      t.freeCount = s.freeCount

/-- ENC_STEP on an input of one byte, from a session as ENC_OPEN leaves it and without END (R372, R374, R379): one LIT and
the flush, so `Out` is the encoding of the program LIT v (R134), and the session is DONE. -/
def Obligations.EncStepOneByteCompletes : Prop :=
  ∀ (s : State) (v : Byte), s.regs.phase = .encReady → EncInv s → s.session.wf = true → s.inp = [v] →
    s.session.enc.nowPos = 0 →
    s.session.props.lc ≤ 8 → s.session.props.lp ≤ 4 → s.session.props.pb ≤ 4 →
    s.session.state = 0 → s.session.enc.prevByte = 0 → (∀ cell, s.session.cells.get cell = 1024) →
    s.session.renc = RangeEnc.init → s.out = [] → s.session.enc.writeEndMarker = false →
    ∃ t, exec .encStep s = .next t ∧
      some t.out = assemble s.session.props.lc s.session.props.lp s.session.props.pb [.lit v] ∧
      t.regs = { s.regs with phase := .done, inCount := 1, outCount := u32 t.out.length } ∧
      t.session.enc.nowPos = 1 ∧ t.session.enc.prevByte = v ∧ t.session.state = 0 ∧
      t.session.reps = s.session.reps ∧ t.session.mf.mfAbs = 1 ∧ t.inp = s.inp ∧ t.cin = s.cin ∧ t.win = s.win

/-- Emitting a legal step (R373 to R377). The step codes exactly the symbol it stands for, as the assembler codes it (R134):
LIT, SHORTREP, REPk or MATCH, with the cells, the range encoder, `state` and `reps` of that symbol; `prevByte` becomes the last
byte covered, `nowPos` and `additionalOffset` move by the length, a MATCH is counted, and the match finder and the parse
stay. -/
def Obligations.EncodeStepEmitsSymbol : Prop :=
  ∀ (s c : State) (len : Nat) (back : Word) (v : Byte), CanCode s → SameCoder s c → stepLegal s len back →
    s.inp[s.session.enc.nowPos]? = some v →
    s.session.mf.mfAbs = s.session.enc.nowPos + s.session.enc.additionalOffset →
    len ≤ s.session.enc.additionalOffset →
    let st := s.session.state
    let i := stepSymbol v len back
    ∃ t u,
      (encodeStep len back (posStateOf s.session.props.pb s.session.enc.nowPos) >>= fun _ =>
        postStep len (len = 1 && back = backChar)) s = .ok () t ∧
      codeProgram [i] c = .ok () u ∧ SameCoder t u ∧ CanCode t ∧
      t.session.state =
        (match i with
          | .lit _ => updateChar st
          | .matchSym _ _ => updateMatch st
          | .shortRep => updateShortRep st
          | _ => updateRep st) ∧
      t.session.reps =
        (match i with
          | .lit _ => s.session.reps
          | .matchSym _ d => s.session.reps.push d
          | _ => s.session.reps.promote back.toNat) ∧
      t.session.prices.matchPriceCount =
        (match i with
          | .matchSym _ _ => s.session.prices.matchPriceCount + 1
          | _ => s.session.prices.matchPriceCount) ∧
      t.session.enc =
        { s.session.enc with
          prevByte := t.session.enc.prevByte, nowPos := s.session.enc.nowPos + len
          additionalOffset := s.session.enc.additionalOffset - len } ∧
      s.inp[s.session.enc.nowPos + len - 1]? = some t.session.enc.prevByte ∧
      t.session.mf = s.session.mf ∧ t.session.opt = s.session.opt ∧ t.inp = s.inp ∧
      t.regs.inCount = u32 (s.session.enc.nowPos + len)

/-- What ENC_STEP codes, on an input of any length (R371 to R379; R380 items 4 and 5). After any number of steps of a
session, the next ENC_STEP answers, and `Out` is the encoding of a program of legal symbols whose execution gives back the
input coded: either more is left and at least `progressChunk` bytes were coded, or the input is drained and `Out` is the
program's whole encoding, with END where it is enabled. The first symbol is a LIT, and `n` yields have coded `n` chunks. -/
def Obligations.EncStepCodesInput : Prop :=
  ∀ (r s0 s : State) (n : Nat), exec .encOpen r = .next s0 → s0.regs.phase = .encReady →
    encSteps n s0 = some s → s.regs.phase = .encReady →
    let p := s0.session.props
    n * Config.progressChunk ≤ s.session.enc.nowPos ∧
    ∃ (prog : List Instr) (c e t : State),
      (∀ i ∈ prog, isProgramSymbol i = true ∧ ∀ len, i ≠ .endMark len) ∧
      prog.head? = r.inp.head?.map Instr.lit ∧
      codeProgram prog (codingState p.lc p.lp p.pb) = .ok () c ∧
      prog.foldlM (fun _ i => symbolAct i) () (executingState p.dictSize) = .ok () e ∧ e.win = c.win ∧
      exec .encStep s = .next t ∧ t.inp = r.inp ∧
      (t.regs.phase = .encReady ∧ SameCoder t c ∧ s.session.enc.nowPos + Config.progressChunk ≤ t.session.enc.nowPos ∨
       t.regs.phase = .done ∧ c.win = r.inp ∧ t.regs.inCount = u32 r.inp.length ∧
         some t.out = assemble p.lc p.lp p.pb (prog ++ if s0.session.enc.writeEndMarker then [.endMark 2] else []))

/-- The round trip (R380 item 1): decoding a finished session's `Out` with its properties blob yields `In`, with the size
declared or, where END was written, UNKNOWN. -/
def Obligations.EncodedInputDecodes : Prop :=
  ∀ (r s0 s u : State) (n : Nat), exec .encOpen r = .next s0 → s0.regs.phase = .encReady →
    encSteps n s0 = some s → s.regs.phase = .done →
    mayOpen u.regs.phase = true → u.cin = s.out → u.regs.dprops0 = s.regs.eprops0 → u.regs.dprops1 = s.regs.eprops1 →
    (declaredSize u.regs = some r.inp.length ∨
      declaredSize u.regs = none ∧ s0.session.enc.writeEndMarker = true) →
    ∃ (v w : State) (m : Nat), exec .decOpen u = .next v ∧ decSteps m v = some w ∧ w.regs.phase = .done ∧ w.win = r.inp

/-- An ENC_STEP that leaves the session open has coded at least `progressChunk` bytes (R378, R433), and the match finder
stands at `nowPos` again. -/
def Obligations.EncStepYields : Prop :=
  ∀ s t : State, exec .encStep s = .next t → t.regs.phase = .encReady →
    s.regs.phase = .encReady ∧ s.session.enc.finished = false ∧ t.session.enc.finished = false ∧
    s.session.enc.nowPos + Config.progressChunk ≤ t.session.enc.nowPos ∧ t.session.enc.additionalOffset = 0 ∧
    t.session.mf.mfAbs < t.inp.length

/-- ENC_STEP changes only the encoder, `Out`, the counters and the phase and fault fields (R433), and a byte once emitted
is final (R93). -/
def Obligations.EncStepFrame : Prop :=
  ∀ s t : State, exec .encStep s = .next t →
    t.regs = { s.regs with
      phase := t.regs.phase, faultClass := t.regs.faultClass, faultSub := t.regs.faultSub
      inCount := t.regs.inCount, outCount := t.regs.outCount } ∧
    (∃ bytes, t.out = s.out ++ bytes) ∧
    t.inp = s.inp ∧ t.cin = s.cin ∧ t.win = s.win ∧ t.pending = s.pending ∧ t.readData = s.readData ∧
    t.freeCount = s.freeCount ∧ t.session.props = s.session.props ∧ t.session.rdec = s.session.rdec ∧
    t.session.dec = s.session.dec ∧ t.session.enc.numFastBytes = s.session.enc.numFastBytes ∧
    t.session.enc.mfKind = s.session.enc.mfKind ∧ t.session.enc.writeEndMarker = s.session.enc.writeEndMarker

/-- DEC_STEP changes only the decoder, `Win`, the counters and the phase and fault fields (R435), and keeps every byte
of `Win` (R104). -/
def Obligations.DecStepFrame : Prop :=
  ∀ s t : State, exec .decStep s = .next t →
    t.regs = { s.regs with
      phase := t.regs.phase, faultClass := t.regs.faultClass, faultSub := t.regs.faultSub
      inCount := t.regs.inCount, outCount := t.regs.outCount } ∧
    (∃ bytes, t.win = s.win ++ bytes) ∧
    t.inp = s.inp ∧ t.out = s.out ∧ t.cin = s.cin ∧ t.pending = s.pending ∧ t.readData = s.readData ∧
    t.freeCount = s.freeCount ∧
    t.session = { s.session with
      state := t.session.state, reps := t.session.reps, cells := t.session.cells, rdec := t.session.rdec }

/-- DEC_STEP with the declared size reached reads nothing and is DONE (R401). -/
def Obligations.DecStepAtSizeCompletes : Prop :=
  ∀ (s : State) (n : Nat), s.regs.phase = .decReady → s.session.dec.outSize = some n → n ≤ s.outPos →
    exec .decStep s = .next { s with regs := { s.regs with phase := .done } }

/-- DEC_STEP answers a next state from every state. Where it returns with more work it has produced at least the progress
chunk (R413), and never more than `progressChunk + 272` bytes (R497). -/
def Obligations.DecStepProgresses : Prop :=
  ∀ s : State, ∃ t, exec .decStep s = .next t ∧ t.outPos ≤ s.outPos + (Config.progressChunk + 272) ∧
    (s.regs.phase = .decReady → t.regs.phase = .decReady → s.outPos + Config.progressChunk ≤ t.outPos)

/-- IllegalCommand (R150, R458): the checks come before the command does anything, in sub-code order: the op, the
reserved bits, the phase. -/
def Obligations.IllegalCommands : Prop :=
  (∀ (s : State) (w : Word) (rest : List HostAccess), s.pending = .regWrite 0 w :: rest →
    (6 ≤ w.toNat % 16 →
      step s = .next (enterFault .illegalCommand 1 { s with pending := rest, regs := { s.regs with cmd := w } })) ∧
    (w.toNat % 16 < 6 → w.toNat / 16 ≠ 0 →
      step s = .next (enterFault .illegalCommand 2 { s with pending := rest, regs := { s.regs with cmd := w } }))) ∧
  ∀ s : State,
    (s.regs.phase = .encReady ∨ s.regs.phase = .decReady →
      exec .encOpen s = .next (enterFault .illegalCommand 3 s) ∧
      exec .decOpen s = .next (enterFault .illegalCommand 3 s)) ∧
    (s.regs.phase ≠ .encReady → exec .encStep s = .next (enterFault .illegalCommand 3 s)) ∧
    (s.regs.phase ≠ .decReady → exec .decStep s = .next (enterFault .illegalCommand 3 s))

/-- Taking a fault (R451): what an action raises is recorded on the state at the raise. STATUS alone changes, and
`isEncoder` and the counters stand. -/
def Obligations.FaultEntry : Prop :=
  ∀ (a : Act Unit) (s u : State) (c : FaultClass) (k : Byte), a s = .error (.raised c k) u →
    ∃ t, outcome a s = .next t ∧ t.regs.phase = .fault ∧ t.regs.faultClass = c ∧ t.regs.faultSub = k ∧
      t = { u with regs := { u.regs with phase := .fault, faultClass := c, faultSub := k } }

/-- The phase machine (R430): in every state, a step leaves the phase, or takes it to FAULT, or is reset, or is one of
the rows of the table. -/
def Obligations.PhaseMachine : Prop :=
  ∀ s t : State, step s = .next t →
    t.regs.phase = s.regs.phase ∨ t.regs.phase = .fault ∨
    (s.pending.head? = some .reset ∧ t.regs.phase = .idle) ∨
    (s.pending.head? = some (.regWrite 0 1) ∧ mayOpen s.regs.phase = true ∧ t.regs.phase = .encReady) ∨
    (s.pending.head? = some (.regWrite 0 2) ∧ s.regs.phase = .encReady ∧ t.regs.phase = .done) ∨
    (s.pending.head? = some (.regWrite 0 3) ∧ mayOpen s.regs.phase = true ∧ t.regs.phase = .decReady) ∨
    (s.pending.head? = some (.regWrite 0 4) ∧ s.regs.phase = .decReady ∧ t.regs.phase = .done) ∨
    (s.pending.head? = some (.regWrite 0 5) ∧ t.regs.phase = .idle)

/-- No step changes a configuration register (CFG to OUTSIZE_HI) unless it is a write of that register or a reset, or
EPROPS0 and EPROPS1 unless it is ENC_OPEN or a reset (R32, R38, R482). -/
def Obligations.ConfigurationRegistersKept : Prop :=
  ∀ s t : State, step s = .next t → s.pending.head? ≠ some .reset →
    (∀ n : Fin 16, n ∈ ([1, 2, 3, 4, 5, 6] : List (Fin 16)) → (∀ v, s.pending.head? ≠ some (.regWrite n v)) →
      regRead t n = regRead s n) ∧
    (s.pending.head? ≠ some (.regWrite 0 1) → regRead t 8 = regRead s 8 ∧ regRead t 9 = regRead s 9)

/-! ### Symbols -/

/-- LIT (R402): one byte is appended, the state moves, nothing else changes. -/
def Obligations.LitCompletes : Prop :=
  ∀ (s : State) (v : Byte),
    exec (.lit v) s = .next { s with
      win := s.win ++ [v]
      regs := { s.regs with outCount := u32 (s.outPos + 1) }
      session := { s.session with state := updateChar s.session.state } }

/-- SHORTREP (R403): one byte from distance `reps[0]`, or DataError(sub 2). -/
def Obligations.ShortRepCompletes : Prop :=
  ∀ s : State,
    (∀ b, s.session.reps.r0.toNat < s.outPos → s.win[s.outPos - s.session.reps.r0.toNat - 1]? = some b →
      exec .shortRep s = .next { s with
        win := s.win ++ [b]
        regs := { s.regs with outCount := u32 (s.outPos + 1) }
        session := { s.session with state := updateShortRep s.session.state } }) ∧
    (s.session.reps.r0.toNat < s.outPos → ∃ t, exec .shortRep s = .next t ∧ t.regs.phase = s.regs.phase ∧
      t.outPos = s.outPos + 1) ∧
    (s.outPos ≤ s.session.reps.r0.toNat → exec .shortRep s = .next (enterFault .dataError 2 s))

/-- REP0 to REP3 with an accepted distance (R404, R410, R411): `len` bytes are appended, each equal to the byte `d + 1`
before it, the rep set and the state move, nothing else changes. -/
def Obligations.RepCompletes : Prop :=
  ∀ (s : State) (k len : Nat) (i : Instr),
    (k, i) ∈ [(0, Instr.rep0 len), (1, Instr.rep1 len), (2, Instr.rep2 len), (3, Instr.rep3 len)] → i.wellFormed = true →
    (s.session.reps.get k).toNat < s.outPos → (s.session.reps.get k).toNat < s.session.dec.dictCheck →
    (∀ n, s.session.dec.outSize = some n → s.outPos + len ≤ n) →
    ∃ bytes : List Byte, bytes.length = len ∧
      exec i s = .next { s with
        win := s.win ++ bytes
        regs := { s.regs with outCount := u32 (s.outPos + len) }
        session := { s.session with reps := s.session.reps.promote k, state := updateRep s.session.state } } ∧
      ∀ j, j < len →
        (s.win ++ bytes)[s.outPos + j]? = (s.win ++ bytes)[s.outPos + j - ((s.session.reps.get k).toNat + 1)]?

/-- MATCH with an accepted distance (R405, R410, R411). -/
def Obligations.MatchCompletes : Prop :=
  ∀ (s : State) (len : Nat) (d : Word), (Instr.matchSym len d).wellFormed = true → d.toNat < s.outPos →
    d.toNat < s.session.dec.dictCheck →
    (∀ n, s.session.dec.outSize = some n → s.outPos + len ≤ n) →
    ∃ bytes : List Byte, bytes.length = len ∧
      exec (.matchSym len d) s = .next { s with
        win := s.win ++ bytes
        regs := { s.regs with outCount := u32 (s.outPos + len) }
        session := { s.session with
          reps := { r0 := d, r1 := s.session.reps.r0, r2 := s.session.reps.r1, r3 := s.session.reps.r2 }
          state := updateMatch s.session.state } } ∧
      ∀ j, j < len → (s.win ++ bytes)[s.outPos + j]? = (s.win ++ bytes)[s.outPos + j - (d.toNat + 1)]?

/-- END, of any length (R405, R410, R412): the session is DONE where the declared size is UNKNOWN or reached, else
DataError(sub 4). The rep set and the state move in both. Its distance is never accepted: the declared dictionary is at most
2^32 − 1. -/
def Obligations.EndCompletes : Prop :=
  ∀ (s : State) (len : Nat), s.session.dec.dictCheck < 2 ^ 32 →
    ((s.session.dec.outSize = none ∨ s.session.dec.outSize = some s.outPos) →
      exec (.endMark len) s = .next { s with
        regs := { s.regs with phase := .done }
        session := { s.session with
          reps := { r0 := 0xFFFFFFFF, r1 := s.session.reps.r0, r2 := s.session.reps.r1, r3 := s.session.reps.r2 }
          state := updateMatch s.session.state } }) ∧
    (∀ n, s.session.dec.outSize = some n → s.outPos ≠ n →
      exec (.endMark len) s = .next { s with
        regs := { s.regs with phase := .fault, faultClass := .dataError, faultSub := 4 }
        session := { s.session with
          reps := { r0 := 0xFFFFFFFF, r1 := s.session.reps.r0, r2 := s.session.reps.r1, r3 := s.session.reps.r2 }
          state := updateMatch s.session.state } })

/-- The distance and length tests of MATCH and REPk (R410, R459): a distance at or past `outPos` or `dictCheck` is
DataError(sub 1), whatever the length; else a length past the declared size is DataError(sub 3). No byte is written, and
the rep set and the state have moved. -/
def Obligations.CopyFaults : Prop :=
  ∀ (s : State) (len : Nat) (i : Instr) (reps : Reps) (st : CoderState),
    (i, reps, st) ∈
      [(Instr.rep0 len, s.session.reps.promote 0, updateRep s.session.state),
       (Instr.rep1 len, s.session.reps.promote 1, updateRep s.session.state),
       (Instr.rep2 len, s.session.reps.promote 2, updateRep s.session.state),
       (Instr.rep3 len, s.session.reps.promote 3, updateRep s.session.state)] ∨
    (∃ d, d ≠ 0xFFFFFFFF ∧ i = .matchSym len d ∧
      reps = { r0 := d, r1 := s.session.reps.r0, r2 := s.session.reps.r1, r3 := s.session.reps.r2 } ∧
      st = updateMatch s.session.state) →
    (s.outPos ≤ reps.r0.toNat ∨ s.session.dec.dictCheck ≤ reps.r0.toNat →
      exec i s = .next (enterFault .dataError 1
        { s with session := { s.session with reps := reps, state := st } })) ∧
    (reps.r0.toNat < s.outPos → reps.r0.toNat < s.session.dec.dictCheck →
      ∀ n, s.session.dec.outSize = some n → n < s.outPos + len →
        exec i s = .next (enterFault .dataError 3
          { s with session := { s.session with reps := reps, state := st } }))

/-- The rep-distance set after each symbol (R273), whether the symbol completes or faults. -/
def Obligations.RepSetUpdates : Prop :=
  ∀ s t : State,
    let r := s.session.reps
    (∀ v, exec (.lit v) s = .next t → t.session.reps = r) ∧
    (∀ len d, exec (.matchSym len d) s = .next t → t.session.reps = { r0 := d, r1 := r.r0, r2 := r.r1, r3 := r.r2 }) ∧
    (∀ len, exec (.endMark len) s = .next t →
      t.session.reps = { r0 := 0xFFFFFFFF, r1 := r.r0, r2 := r.r1, r3 := r.r2 }) ∧
    (exec .shortRep s = .next t → t.session.reps = r) ∧
    (∀ len, exec (.rep0 len) s = .next t → t.session.reps = r) ∧
    (∀ len, exec (.rep1 len) s = .next t → t.session.reps = { r0 := r.r1, r1 := r.r0, r2 := r.r2, r3 := r.r3 }) ∧
    (∀ len, exec (.rep2 len) s = .next t → t.session.reps = { r0 := r.r2, r1 := r.r0, r2 := r.r1, r3 := r.r3 }) ∧
    ∀ len, exec (.rep3 len) s = .next t → t.session.reps = { r0 := r.r3, r1 := r.r0, r2 := r.r1, r3 := r.r2 }

/-- The state automaton (R270). -/
def Obligations.StateTable : Prop :=
  (List.finRange 12).map (fun s => (updateChar s, updateMatch s, updateRep s, updateShortRep s)) =
    [(0, 7, 8, 9), (0, 7, 8, 9), (0, 7, 8, 9), (0, 7, 8, 9), (1, 7, 8, 9), (2, 7, 8, 9), (3, 7, 8, 9),
     (4, 10, 11, 11), (5, 10, 11, 11), (6, 10, 11, 11), (4, 10, 11, 11), (5, 10, 11, 11)]

/-- `RUN v, n` repeats byte `v` `n` times when `reps[0] = 0` (R135): its expansion, executed in order in a session of
undeclared size, appends `n` bytes `v`. -/
def Obligations.RunRepeatsByte : Prop :=
  ∀ (s : State) (v : Byte) (n : Nat), 2 ≤ n → s.session.reps.r0 = 0 → 1 ≤ s.session.dec.dictCheck →
    s.session.dec.outSize = none →
    ∃ t, (expandRun v n).foldlM (fun _ i => symbolAct i) () s = .ok () t ∧ t.win = s.win ++ List.replicate n v ∧
      t.session.reps = s.session.reps ∧ t.regs.phase = s.regs.phase

/-! ### Cells and the range coder -/

/-- The cell update (R171): its value for every cell; from 1024 the values stay in [31, 2017], where repeated 0s move a
cell up until it is 2017 and repeated 1s down until it is 31. -/
def Obligations.CellUpdate : Prop :=
  (∀ p : Prob, (updateProb p false).toNat = p.toNat + (2048 - p.toNat) / 2 ^ 5 ∧
    (updateProb p true).toNat = p.toNat - p.toNat / 2 ^ 5) ∧
  probReachable 1024 ∧
  ∀ p : Prob, probReachable p →
    (∀ b, probReachable (updateProb p b)) ∧
    (p ≠ 2017 → p.toNat < (updateProb p false).toNat) ∧ updateProb 2017 false = 2017 ∧
    (p ≠ 31 → (updateProb p true).toNat < p.toNat) ∧ updateProb 31 true = 31

/-- EncodeBit where no normalisation follows, and where one does (R174): `low`, `range`, the cell, and that `Out` grows only
through ShiftLow. -/
def Obligations.EncodeBitEffect : Prop :=
  ∀ (s : State) (cell : Cell) (b : Bool), s.session.renc.valid → probReachable (s.session.cells.get cell) →
    cell.idx < cell.arr.size s.session.props →
    let e := s.session.renc
    let p := s.session.cells.get cell
    let bound := e.range.toNat / 2 ^ 11 * p.toNat
    let range := if b then e.range.toNat - bound else bound
    let low := if b then e.low.toNat + bound else e.low.toNat
    0 < bound ∧ bound < e.range.toNat ∧
    (2 ^ 24 ≤ range →
      encodeBit cell b s = .ok () (s.mapSession fun ss => { ss with
        cells := ss.cells.put cell (updateProb p b)
        renc := { e with low := BitVec.ofNat 33 low, range := u32 range } })) ∧
    (range < 2 ^ 24 →
      encodeBit cell b s = shiftLow (s.mapSession fun ss => { ss with
        cells := ss.cells.put cell (updateProb p b)
        renc := { e with low := BitVec.ofNat 33 low, range := u32 (range * 2 ^ 8) } }))

/-- ShiftLow (R175) as the host and the next operation see it: what it emits, `cache`, `cacheSize` and `low`. FlushEncoder
(R177), five of them: it emits `cacheSize + 4` bytes, and one byte, 0, is left in `cache`. -/
def Obligations.ShiftLowEffect : Prop :=
  (∀ s : State, 1 ≤ s.session.renc.cacheSize →
    let e := s.session.renc
    let low := BitVec.ofNat 33 (e.low.toNat % 2 ^ 24 * 2 ^ 8)
    ∃ t, shiftLow s = .ok () t ∧ t = { s with
        out := t.out, regs := { s.regs with outCount := t.regs.outCount }
        session := { s.session with renc := t.session.renc } } ∧
      (0xFF000000 ≤ e.low.toNat → e.low.toNat < 2 ^ 32 →
        t.out = s.out ∧ t.session.renc = { e with cacheSize := e.cacheSize + 1, low := low }) ∧
      (e.low.toNat < 0xFF000000 →
        t.out = s.out ++ e.cache :: List.replicate (e.cacheSize - 1) 0xFF ∧
        t.session.renc = { e with cache := u8 (e.low.toNat / 2 ^ 24), cacheSize := 1, low := low }) ∧
      (2 ^ 32 ≤ e.low.toNat →
        t.out = s.out ++ u8 (e.cache.toNat + 1) :: List.replicate (e.cacheSize - 1) 0x00 ∧
        t.session.renc = { e with cache := u8 (e.low.toNat / 2 ^ 24), cacheSize := 1, low := low })) ∧
  ∀ s : State, 1 ≤ s.session.renc.cacheSize →
    ∃ t, flushEncoder s = .ok () t ∧ (∃ bytes, t.out = s.out ++ bytes ∧ bytes.length = s.session.renc.cacheSize + 4) ∧
      t.session.renc = { s.session.renc with low := 0, cache := 0, cacheSize := 1 }

/-- The encoder's invariants (R178): `low` fits 33 bits with `low + range < 2^33`, and `range ≥ 2^24`, after every coded bit;
after every ShiftLow, `low < 2^32 − 255`. -/
def Obligations.EncoderInvariantKept : Prop :=
  RangeEnc.init.valid ∧
  (∀ (s t : State) (cell : Cell) (b : Bool), s.session.renc.valid → s.session.cells.reachable → s.session.cells.wf = true →
    encodeBit cell b s = .ok () t →
    t.session.renc.valid ∧ t.session.cells.reachable ∧ t.session.cells.wf = true) ∧
  (∀ (s t : State) (v n : Nat), s.session.renc.valid → encodeDirectBits v n s = .ok () t → t.session.renc.valid) ∧
  ∀ s t : State, shiftLow s = .ok () t → t.session.renc.low.toNat < 2 ^ 32 - 255

/-- DecodeBit (R180): the bit, `range`, `code`, the cell, and the byte its normalisation takes, or SourceExhausted where
`Cin` has none. -/
def Obligations.DecodeBitEffect : Prop :=
  ∀ (s : State) (cell : Cell), s.session.rdec.valid → probReachable (s.session.cells.get cell) →
    cell.idx < cell.arr.size s.session.props →
    let d := s.session.rdec
    let p := s.session.cells.get cell
    let bound := d.range.toNat / 2 ^ 11 * p.toNat
    let b := decide (bound ≤ d.code.toNat)
    let range := if b then d.range.toNat - bound else bound
    let code := if b then d.code.toNat - bound else d.code.toNat
    let cells := s.session.cells.put cell (updateProb p b)
    (2 ^ 24 ≤ range →
      decodeBit cell s = .ok b { s with session := { s.session with
        cells := cells, rdec := { d with range := u32 range, code := u32 code } } }) ∧
    (range < 2 ^ 24 → ∀ x, s.cin[d.inPos]? = some x →
      decodeBit cell s = .ok b { s with
        regs := { s.regs with inCount := u32 (d.inPos + 1) }
        session := { s.session with
          cells := cells
          rdec := { range := u32 (range * 2 ^ 8), code := u32 (code * 2 ^ 8 + x.toNat), inPos := d.inPos + 1 } } }) ∧
    (range < 2 ^ 24 → s.cin[d.inPos]? = none →
      ∃ t, decodeBit cell s = .error (.raised .sourceExhausted 0) t ∧ t.win = s.win ∧
        t.session.rdec.inPos = d.inPos)

/-- The decoder's invariant (R182): `code < range` after RcDecInit and after every DecodeBit and DecodeDirectBits. -/
def Obligations.DecoderInvariantKept : Prop :=
  (∀ s t : State, rcDecInit s = .ok () t → t.session.rdec.valid) ∧
  (∀ (s t : State) (cell : Cell) (b : Bool), s.session.rdec.valid → s.session.cells.reachable →
    s.session.cells.wf = true → decodeBit cell s = .ok b t →
    t.session.rdec.valid ∧ t.session.cells.reachable ∧ t.session.cells.wf = true) ∧
  ∀ (s t : State) (n v v' : Nat), s.session.rdec.valid → decodeDirectBits v n s = .ok v' t → t.session.rdec.valid

/-- The replay law (R183): where the decoder's cells are the encoder's and `Cin` is the complete output of coding some
decisions from the start of a session to the flush, the decoder decodes exactly those decisions, reaches the encoder's
cells, and has read the whole of the stream. -/
def Obligations.ReplayLaw : Prop :=
  ∀ (ds : List Decision) (s t u : State),
    s.session.renc = RangeEnc.init → s.out = [] → s.session.cells.reachable → s.session.cells.wf = true →
    (∀ d ∈ ds, d.inArrays s.session.props) →
    (encodeDecisions ds >>= fun _ => flushEncoder) s = .ok () t →
    u.session.cells = s.session.cells → u.session.props = s.session.props → u.cin = t.out →
    u.session.rdec.inPos = 0 →
    ∃ v, (rcDecInit >>= fun _ => decodeDecisions ds) u = .ok (ds.map Decision.value) v ∧
      v.session.cells = t.session.cells ∧ v.session.rdec.inPos = t.out.length

/-- What the assembler codes, the decoder runs (R134, R315, R413): for a program of symbols without END that a decoder with the
dictionary DPROPS1 gives executes to less than the progress chunk, DEC_OPEN and one DEC_STEP over its encoding, with that
size declared, end in DONE with the output, `state`, `reps` and cells of the program. -/
def Obligations.AssembledProgramDecodes : Prop :=
  ∀ (lc lp pb : Nat) (prog : List Instr) (bytes : List Byte) (c e u : State),
    lc ≤ 8 → lp ≤ 4 → pb ≤ 4 →
    (∀ i ∈ prog, isProgramSymbol i = true ∧ ∀ len, i ≠ .endMark len) →
    codeProgram prog (codingState lc lp pb) = .ok () c → assemble lc lp pb prog = some bytes →
    prog.foldlM (fun _ i => symbolAct i) () (executingState u.regs.dprops1.toNat) = .ok () e →
    e.outPos < Config.progressChunk →
    mayOpen u.regs.phase = true → u.cin = bytes → u.regs.dprops0 = propsByte lc lp pb →
    u.regs.outsizeHi = 0 → u.regs.outsizeLo = u32 e.outPos →
    ∃ v w, exec .decOpen u = .next v ∧ exec .decStep v = .next w ∧ w.regs.phase = .done ∧ w.win = e.win ∧
      w.session.state = e.session.state ∧ w.session.reps = e.session.reps ∧ w.session.cells = c.session.cells ∧
      w.regs.inCount = u32 bytes.length

/-! ### The encoder's parts -/

/-- The price table (R200, R203): entries 0 to 576, the values listed, and non-increasing over 1 to 511. -/
def Obligations.PriceTable : Prop :=
  (∀ i j : Nat, 1 ≤ i → i ≤ j → j ≤ 511 → probPrice j ≤ probPrice i) ∧ (∀ j : Nat, j ≤ 511 → probPrice j ≤ 576) ∧
  ([0, 1, 2, 3, 4, 7, 8, 16, 32, 64, 128, 256, 257, 384, 504, 509, 511] : List Nat).map probPrice =
    [0, 576, 512, 480, 448, 400, 384, 320, 256, 192, 128, 64, 63, 32, 2, 0, 0]

/-- The head cells of the hashes (R233, R234): the 2-byte and 3-byte heads are exact given the first byte, the BT2 head is
exact, and each lies in its part of `Hash`. -/
def Obligations.HashHeads : Prop :=
  (∀ (mask : Nat) (b0 b1 b2 b3 c1 c2 c3 : Byte),
    ((bt4Heads mask b0 b1 b2 b3).1 = (bt4Heads mask b0 c1 c2 c3).1 ↔ b1 = c1) ∧
    ((bt4Heads mask b0 b1 b2 b3).2.1 = (bt4Heads mask b0 c1 c2 c3).2.1 ↔ b1 = c1 ∧ b2 = c2) ∧
    (bt4Heads mask b0 b1 b2 b3).1 < 1024 ∧
    1024 ≤ (bt4Heads mask b0 b1 b2 b3).2.1 ∧ (bt4Heads mask b0 b1 b2 b3).2.1 < 66560 ∧
    66560 ≤ (bt4Heads mask b0 b1 b2 b3).2.2 ∧ (bt4Heads mask b0 b1 b2 b3).2.2 ≤ 66560 + mask) ∧
  ∀ b0 b1 c0 c1 : Byte, bt2Head b0 b1 < 65536 ∧ (bt2Head b0 b1 = bt2Head c0 c1 ↔ b0 = c0 ∧ b1 = c1)

/-- GetMatchLen (R245): it answers the number of equal bytes, at most `limit` and cut at the end of `In`, or
InternalInvariant(sub 4) outside `In`; it changes nothing. -/
def Obligations.MatchLenMeasures : Prop :=
  ∀ (s : State) (idx : Int) (d limit : Nat),
    let a := (s.session.mf.mfAbs : Int) + idx
    (a - d - 1 < 0 ∨ (s.inp.length : Int) < a →
      getMatchLen idx d limit s = .error (.raised .internalInvariant 4) s) ∧
    (0 ≤ a - d - 1 → a ≤ (s.inp.length : Int) →
      ∃ n, getMatchLen idx d limit s = .ok n s ∧ n ≤ limit ∧ a.toNat + n ≤ s.inp.length ∧
        (∀ i, i < n → s.inp[a.toNat + i]? = s.inp[a.toNat + i - (d + 1)]?) ∧
        (n < limit → a.toNat + n < s.inp.length → s.inp[a.toNat + n]? ≠ s.inp[a.toNat + n - (d + 1)]?))

/-- MovePos (R249): the cyclic position, the absolute position, which rises by exactly 1, and `mfPos`, which stays below
2^31 − 1. Where it normalises (R248), every cell of `Son` and of `Hash` is rebased, and 0 if it is at or below the horizon; a
stored position that is still live names the same byte in both cases. Only the match finder changes. -/
def Obligations.MovePosAdvances : Prop :=
  ∀ s : State, constantsOk s.session → s.session.wf = true → 1 ≤ s.session.mf.mfPos.toNat →
    s.session.mf.mfPos.toNat < 2 ^ 31 - 1 →
    let m := s.session.mf
    let sub := m.mfPos.toNat + 1 - m.cbs
    ∃ t, movePos s = .ok () t ∧ t = { s with session := { s.session with mf := t.session.mf } } ∧
      t.session.mf.mfAbs = m.mfAbs + 1 ∧
      1 ≤ t.session.mf.mfPos.toNat ∧ t.session.mf.mfPos.toNat < 2 ^ 31 - 1 ∧ t.session.wf = true ∧
      t.session.mf.cyclicPos = (if m.cyclicPos + 1 = m.cbs then 0 else m.cyclicPos + 1) ∧
      (m.mfPos.toNat + 1 < 2 ^ 31 - 1 → t.session.mf =
        { m with cyclicPos := t.session.mf.cyclicPos, mfPos := m.mfPos + 1 }) ∧
      (m.mfPos.toNat + 1 = 2 ^ 31 - 1 →
        t.session.mf.mfPos.toNat = m.cbs ∧
        t.session.mf = { m with
          cyclicPos := t.session.mf.cyclicPos, mfPos := t.session.mf.mfPos, mfBase := m.mfBase + sub
          son := t.session.mf.son, hash := t.session.mf.hash } ∧
        (∀ i, (t.session.mf.son.read 0 i).toNat =
          if (m.son.read 0 i).toNat ≤ sub then 0 else (m.son.read 0 i).toNat - sub) ∧
        ∀ i, (t.session.mf.hash.read 0 i).toNat =
          if (m.hash.read 0 i).toNat ≤ sub then 0 else (m.hash.read 0 i).toNat - sub) ∧
      (∀ i, m.mfPos.toNat + 1 < (m.son.read 0 i).toNat + m.cbs →
        (t.session.mf.son.read 0 i).toNat + t.session.mf.mfBase = (m.son.read 0 i).toNat + m.mfBase) ∧
      ∀ i, m.mfPos.toNat + 1 < (m.hash.read 0 i).toNat + m.cbs →
        (t.session.mf.hash.read 0 i).toNat + t.session.mf.mfBase = (m.hash.read 0 i).toNat + m.mfBase

/-- The lengths GetMatches reports (R250 item 2), on whatever `Hash` and `Son` hold. -/
def Obligations.ReportedLengths : Prop :=
  ∀ (s t : State) (pairs : List MatchPair), constantsOk s.session → getMatches s = .ok pairs t →
    ∀ p ∈ pairs, 2 ≤ p.len ∧ p.len ≤ s.session.mf.matchMaxLen ∧ s.session.mf.mfAbs + p.len ≤ s.inp.length

/-- What GetMatches reports (R250, all four items), where `Hash` and `Son` are the index of the positions before the current
one: it answers, the index stays one, the bytes of every pair match, its length and distance are in their bounds, and along the
list the lengths rise strictly and the distances do not fall. -/
def Obligations.ReportedPairs : Prop :=
  ∀ s : State, constantsOk s.session → Indexed s →
    let p := s.session.mf.mfAbs
    ∃ pairs t, getMatches s = .ok pairs t ∧ Indexed t ∧
      (∀ m ∈ pairs,
        (∀ j, j < m.len → s.inp[p + j]? = s.inp[p + j - (m.dist.toNat + 1)]?) ∧
        2 ≤ m.len ∧ m.len ≤ s.session.mf.matchMaxLen ∧ p + m.len ≤ s.inp.length ∧
        m.dist.toNat < p ∧ m.dist.toNat < s.session.props.dictSize) ∧
      pairs.Pairwise fun a b => a.len < b.len ∧ a.dist.toNat ≤ b.dist.toNat

/-- Skip leaves the index exactly as GetMatches whose results are discarded (R241). -/
def Obligations.SkipIndexesLikeGetMatches : Prop :=
  ∀ (n : Nat) (s t : State) (reports : List (List MatchPair)), constantsOk s.session →
    s.session.wf = true → tabulate (fun _ => getMatches) 0 n s = .ok reports t → skip n s = .ok () t

/-- A pending chain is served one link at a time (R329). -/
def Obligations.PendingChainServed : Prop :=
  ∀ (s : State) (position : Nat), s.session.opt.optimumEndIndex ≠ s.session.opt.optimumCurrentIndex →
    s.session.opt.optimumCurrentIndex < 4096 →
    let n := s.session.opt.nodes.read optZero s.session.opt.optimumCurrentIndex
    getOptimum position s = .ok (n.posPrev - s.session.opt.optimumCurrentIndex, n.backPrev)
      { s with session := { s.session with opt := { s.session.opt with optimumCurrentIndex := n.posPrev } } }

/-! ### Invariants of the machine -/

/-- The invariant holds at reset. The session's values there are log entry 4. -/
def Obligations.InvariantAtReset : Prop := State.reset.Inv

/-- From every state that meets the invariant, a step answers a next state that meets it, unless it is the move the
model refuses (log entry 9). In particular no step is stuck (log entry 15). -/
def Obligations.InvariantKept : Prop :=
  ∀ s : State, s.Inv →
    (∃ t, step s = .next t ∧ t.Inv) ∨
    (step s = .refused .inputChangedInSession ∧ s.regs.phase = .encReady ∧
      ∃ bytes rest, s.pending = .placeIn bytes :: rest)
end

