-- ==== Sys2Proof/Laws/Act.lean ====
section
/-!
SUPPORT. How an action runs, and what it may change: the rules by which a proof about a meaning goes through its steps
without unfolding the operations it calls.
-/

namespace Sys2Proof.Machine

/-! ### Running an action -/

@[simp] theorem act_bind {α β : Type} (a : Act α) (f : α → Act β) (s : State) :
    (a >>= f) s = match a s with
      | .ok x t => f x t
      | .error e t => .error e t := by
  show EStateM.bind a f s = _
  unfold EStateM.bind
  cases a s <;> rfl

@[simp] theorem act_pure {α : Type} (x : α) (s : State) : (pure x : Act α) s = .ok x s := rfl

@[simp] theorem act_get (s : State) : (get : Act State) s = .ok s s := rfl

@[simp] theorem act_set (t s : State) : (set t : Act PUnit) s = .ok ⟨⟩ t := rfl

@[simp] theorem act_modify (f : State → State) (s : State) : (modify f : Act PUnit) s = .ok ⟨⟩ (f s) := rfl

@[simp] theorem act_throw {α : Type} (e : Abort) (s : State) : (throw e : Act α) s = .error e s := rfl

@[simp] theorem act_raise {α : Type} (c : FaultClass) (k : Nat) (s : State) :
    (raise c k : Act α) s = .error (.raised c (u8 k)) s := rfl

@[simp] theorem act_map {α β : Type} (f : α → β) (a : Act α) (s : State) :
    (f <$> a) s = match a s with
      | .ok x t => .ok (f x) t
      | .error e t => .error e t := by
  show EStateM.map f a s = _
  unfold EStateM.map
  cases a s <;> rfl

theorem act_ite {α : Type} (c : Prop) [Decidable c] (a b : Act α) (s : State) :
    (if c then a else b) s = if c then a s else b s := by
  split <;> rfl

@[simp] theorem act_onStop {α : Type} (f : State → State) (a : Act α) (s : State) :
    onStop f a s = match a s with
      | .ok x t => .ok x t
      | .error e t => .error e (f t) := rfl

/-- The outcome of an action that ends. -/
theorem outcome_ok {a : Act Unit} {s t : State} (h : a s = .ok () t) : outcome a s = .next t := by
  simp only [outcome, h]

/-- The outcome of an action that raises a fault: the fault is taken. -/
theorem outcome_raised {a : Act Unit} {s t : State} {c : FaultClass} {k : Byte} (h : a s = .error (.raised c k) t) :
    outcome a s = .next (enterFault c k t) := by
  simp only [outcome, h]

/-- An outcome is a next state unless the action is stuck: the state the action ends in, or that state with the fault
it raised taken. -/
theorem outcome_next {a : Act Unit} {s t : State} (h : outcome a s = .next t) :
    a s = .ok () t ∨ ∃ c k u, a s = .error (.raised c k) u ∧ t = enterFault c k u := by
  unfold outcome at h
  split at h
  · next heq => cases h; exact .inl heq
  · next heq => cases h; exact .inr ⟨_, _, _, heq, rfl⟩
  · cases h

/-! ### Pre- and postconditions -/

/-- From a state meeting `P`, `a` ends with `Q` of its value and the state, or stops with `E` of the reason and the
state. -/
def Act.Sat {α : Type} (P : State → Prop) (a : Act α) (Q : α → State → Prop) (E : Abort → State → Prop) : Prop :=
  ∀ s, P s → match a s with
    | .ok x t => Q x t
    | .error e t => E e t

theorem Act.Sat.ok {α : Type} {P : State → Prop} {a : Act α} {Q : α → State → Prop} {E : Abort → State → Prop}
    (h : Act.Sat P a Q E) {s t : State} {x : α} (hP : P s) (ha : a s = .ok x t) : Q x t := by
  have := h s hP
  rw [ha] at this
  exact this

theorem Act.Sat.error {α : Type} {P : State → Prop} {a : Act α} {Q : α → State → Prop} {E : Abort → State → Prop}
    (h : Act.Sat P a Q E) {s t : State} {e : Abort} (hP : P s) (ha : a s = .error e t) : E e t := by
  have := h s hP
  rw [ha] at this
  exact this

theorem Act.Sat.bind {α β : Type} {P : State → Prop} {a : Act α} {f : α → Act β} {R : α → State → Prop}
    {Q : β → State → Prop} {E : Abort → State → Prop} (ha : Act.Sat P a R E) (hf : ∀ x, Act.Sat (R x) (f x) Q E) :
    Act.Sat P (a >>= f) Q E := by
  intro s hP
  have h := ha s hP
  rw [act_bind]
  cases hs : a s with
  | ok x t => rw [hs] at h; exact hf x t h
  | error e t => rw [hs] at h; exact h

theorem Act.Sat.pure {α : Type} {P : State → Prop} {x : α} {Q : α → State → Prop} {E : Abort → State → Prop}
    (h : ∀ s, P s → Q x s) : Act.Sat P (Pure.pure x : Act α) Q E := h

theorem Act.Sat.get {P : State → Prop} {Q : State → State → Prop} {E : Abort → State → Prop}
    (h : ∀ s, P s → Q s s) : Act.Sat P (MonadState.get : Act State) Q E := h

theorem Act.Sat.ofModify {P : State → Prop} {f : State → State} {Q : PUnit → State → Prop} {E : Abort → State → Prop}
    (h : ∀ s, P s → Q ⟨⟩ (f s)) : Act.Sat P (modify f : Act PUnit) Q E := h

theorem Act.Sat.raise {α : Type} {P : State → Prop} {c : FaultClass} {k : Nat} {Q : α → State → Prop}
    {E : Abort → State → Prop} (h : ∀ s, P s → E (.raised c (u8 k)) s) :
    Act.Sat P (Machine.raise c k : Act α) Q E := h

theorem Act.Sat.ite {α : Type} {P : State → Prop} {c : Prop} [Decidable c] {a b : Act α} {Q : α → State → Prop}
    {E : Abort → State → Prop} (ha : c → Act.Sat P a Q E) (hb : ¬c → Act.Sat P b Q E) :
    Act.Sat P (if c then a else b) Q E := by
  by_cases hc : c
  · simpa [hc] using ha hc
  · simpa [hc] using hb hc

theorem Act.Sat.mono {α : Type} {P P' : State → Prop} {a : Act α} {Q Q' : α → State → Prop}
    {E E' : Abort → State → Prop} (h : Act.Sat P a Q E) (hP : ∀ s, P' s → P s) (hQ : ∀ x s, Q x s → Q' x s)
    (hE : ∀ e s, E e s → E' e s) : Act.Sat P' a Q' E' := by
  intro s hs
  have := h s (hP s hs)
  cases ha : a s with
  | ok x t => rw [ha] at this; exact hQ x t this
  | error e t => rw [ha] at this; exact hE e t this

/-! ### What an action may change -/

/-- The state an action ends or stops in. -/
def finalState {α : Type} : EStateM.Result Abort State α → State
  | .ok _ t => t
  | .error _ t => t

@[simp] theorem finalState_ok {α : Type} (x : α) (t : State) :
    finalState (.ok x t : EStateM.Result Abort State α) = t := rfl

@[simp] theorem finalState_error {α : Type} (e : Abort) (t : State) :
    finalState (.error e t : EStateM.Result Abort State α) = t := rfl

/-- Whatever state `s` the action `a` starts in, the state it ends or stops in is related to `s` by `R`. -/
def Act.Within {α : Type} (R : State → State → Prop) (a : Act α) : Prop := ∀ s, R s (finalState (a s))

/-- A relation that a sequence of actions keeps when each of them does. -/
structure Act.Preorder (R : State → State → Prop) : Prop where
  refl : ∀ s, R s s
  trans : ∀ s t u, R s t → R t u → R s u

theorem Act.Within.ok {α : Type} {R : State → State → Prop} {a : Act α} (h : Act.Within R a) {s t : State} {x : α}
    (ha : a s = .ok x t) : R s t := by
  have := h s
  rwa [ha] at this

theorem Act.Within.error {α : Type} {R : State → State → Prop} {a : Act α} (h : Act.Within R a) {s t : State}
    {e : Abort} (ha : a s = .error e t) : R s t := by
  have := h s
  rwa [ha] at this

theorem Act.Within.bind {α β : Type} {R : State → State → Prop} (hR : Act.Preorder R) {a : Act α} {f : α → Act β}
    (ha : Act.Within R a) (hf : ∀ x, Act.Within R (f x)) : Act.Within R (a >>= f) := by
  intro s
  rw [act_bind]
  have h := ha s
  cases hs : a s with
  | error e t => rw [hs] at h; exact h
  | ok x t => rw [hs] at h; exact hR.trans _ _ _ h (hf x t)

theorem Act.Within.pure {α : Type} {R : State → State → Prop} (hR : Act.Preorder R) (x : α) :
    Act.Within R (Pure.pure x : Act α) := fun s => hR.refl s

theorem Act.Within.get {R : State → State → Prop} (hR : Act.Preorder R) :
    Act.Within R (MonadState.get : Act State) := fun s => hR.refl s

theorem Act.Within.raise {α : Type} {R : State → State → Prop} (hR : Act.Preorder R) (c : FaultClass) (k : Nat) :
    Act.Within R (Machine.raise c k : Act α) := fun s => hR.refl s

theorem Act.Within.throw {α : Type} {R : State → State → Prop} (hR : Act.Preorder R) (e : Abort) :
    Act.Within R (MonadExcept.throw e : Act α) := fun s => hR.refl s

theorem Act.Within.ofModify {R : State → State → Prop} {f : State → State} (h : ∀ s, R s (f s)) :
    Act.Within R (modify f : Act PUnit) := h

theorem Act.Within.ite {α : Type} {R : State → State → Prop} {c : Prop} [Decidable c] {a b : Act α}
    (ha : Act.Within R a) (hb : Act.Within R b) : Act.Within R (if c then a else b) := by
  split
  · exact ha
  · exact hb

theorem Act.Within.mono {α : Type} {R R' : State → State → Prop} {a : Act α} (h : Act.Within R a)
    (hR : ∀ s t, R s t → R' s t) : Act.Within R' a := fun s => hR _ _ (h s)

/-- `tabulate` keeps what each of its elements keeps. -/
theorem Act.Within.tabulate {α : Type} {R : State → State → Prop} (hR : Act.Preorder R) {f : Nat → Act α}
    (hf : ∀ i, Act.Within R (f i)) (i n : Nat) : Act.Within R (tabulate f i n) := by
  induction n generalizing i with
  | zero => exact Act.Within.pure hR _
  | succ n ih =>
    exact Act.Within.bind hR (hf i) fun _ => Act.Within.bind hR (ih (i + 1)) fun _ => Act.Within.pure hR _

theorem Act.Within.elemAt {α : Type} {R : State → State → Prop} (hR : Act.Preorder R) (xs : List α) (i : Nat) :
    Act.Within R (elemAt xs i) := by
  unfold Machine.elemAt
  split
  · exact Act.Within.pure hR _
  · exact Act.Within.raise hR _ _

/-- The outcome of an action within `R` and then a fault entry. -/
theorem Act.Within.outcome {R : State → State → Prop} {a : Act Unit} (h : Act.Within R a) {s t : State}
    (ht : Machine.outcome a s = .next t) : R s t ∨ ∃ c k u, R s u ∧ t = enterFault c k u := by
  rcases outcome_next ht with ha | ⟨c, k, u, ha, rfl⟩
  · exact .inl (h.ok ha)
  · exact .inr ⟨c, k, u, h.error ha, rfl⟩

end Sys2Proof.Machine
end

