-- ==== Sys2Proof/Laws/State.lean ====
section
/-!
SUPPORT. One lemma for each field after each update of the state, so that no later proof unfolds a record update.
-/

namespace Sys2Proof.Machine

/-! ### mapRegs and mapSession -/

@[simp] theorem mapRegs_regs (f : HostRegs → HostRegs) (s : State) : (s.mapRegs f).regs = f s.regs := rfl
@[simp] theorem mapRegs_session (f : HostRegs → HostRegs) (s : State) : (s.mapRegs f).session = s.session := rfl
@[simp] theorem mapRegs_inp (f : HostRegs → HostRegs) (s : State) : (s.mapRegs f).inp = s.inp := rfl
@[simp] theorem mapRegs_out (f : HostRegs → HostRegs) (s : State) : (s.mapRegs f).out = s.out := rfl
@[simp] theorem mapRegs_cin (f : HostRegs → HostRegs) (s : State) : (s.mapRegs f).cin = s.cin := rfl
@[simp] theorem mapRegs_win (f : HostRegs → HostRegs) (s : State) : (s.mapRegs f).win = s.win := rfl
@[simp] theorem mapRegs_pending (f : HostRegs → HostRegs) (s : State) : (s.mapRegs f).pending = s.pending := rfl
@[simp] theorem mapRegs_readData (f : HostRegs → HostRegs) (s : State) : (s.mapRegs f).readData = s.readData := rfl
@[simp] theorem mapRegs_freeCount (f : HostRegs → HostRegs) (s : State) : (s.mapRegs f).freeCount = s.freeCount := rfl

@[simp] theorem mapSession_regs (f : Session → Session) (s : State) : (s.mapSession f).regs = s.regs := rfl
@[simp] theorem mapSession_session (f : Session → Session) (s : State) : (s.mapSession f).session = f s.session := rfl
@[simp] theorem mapSession_inp (f : Session → Session) (s : State) : (s.mapSession f).inp = s.inp := rfl
@[simp] theorem mapSession_out (f : Session → Session) (s : State) : (s.mapSession f).out = s.out := rfl
@[simp] theorem mapSession_cin (f : Session → Session) (s : State) : (s.mapSession f).cin = s.cin := rfl
@[simp] theorem mapSession_win (f : Session → Session) (s : State) : (s.mapSession f).win = s.win := rfl
@[simp] theorem mapSession_pending (f : Session → Session) (s : State) : (s.mapSession f).pending = s.pending := rfl
@[simp] theorem mapSession_readData (f : Session → Session) (s : State) : (s.mapSession f).readData = s.readData := rfl
@[simp] theorem mapSession_freeCount (f : Session → Session) (s : State) : (s.mapSession f).freeCount = s.freeCount := rfl

/-! ### Taking a fault (R451) -/

@[simp] theorem enterFault_session (c : FaultClass) (k : Byte) (s : State) : (enterFault c k s).session = s.session := rfl
@[simp] theorem enterFault_inp (c : FaultClass) (k : Byte) (s : State) : (enterFault c k s).inp = s.inp := rfl
@[simp] theorem enterFault_out (c : FaultClass) (k : Byte) (s : State) : (enterFault c k s).out = s.out := rfl
@[simp] theorem enterFault_cin (c : FaultClass) (k : Byte) (s : State) : (enterFault c k s).cin = s.cin := rfl
@[simp] theorem enterFault_win (c : FaultClass) (k : Byte) (s : State) : (enterFault c k s).win = s.win := rfl
@[simp] theorem enterFault_pending (c : FaultClass) (k : Byte) (s : State) : (enterFault c k s).pending = s.pending := rfl
@[simp] theorem enterFault_readData (c : FaultClass) (k : Byte) (s : State) : (enterFault c k s).readData = s.readData := rfl
@[simp] theorem enterFault_freeCount (c : FaultClass) (k : Byte) (s : State) : (enterFault c k s).freeCount = s.freeCount := rfl
@[simp] theorem enterFault_regs_cmd (c : FaultClass) (k : Byte) (s : State) :
    (enterFault c k s).regs.cmd = s.regs.cmd := rfl
@[simp] theorem enterFault_regs_cfg (c : FaultClass) (k : Byte) (s : State) :
    (enterFault c k s).regs.cfg = s.regs.cfg := rfl
@[simp] theorem enterFault_regs_dict (c : FaultClass) (k : Byte) (s : State) :
    (enterFault c k s).regs.dict = s.regs.dict := rfl
@[simp] theorem enterFault_regs_dprops0 (c : FaultClass) (k : Byte) (s : State) :
    (enterFault c k s).regs.dprops0 = s.regs.dprops0 := rfl
@[simp] theorem enterFault_regs_dprops1 (c : FaultClass) (k : Byte) (s : State) :
    (enterFault c k s).regs.dprops1 = s.regs.dprops1 := rfl
@[simp] theorem enterFault_regs_outsizeLo (c : FaultClass) (k : Byte) (s : State) :
    (enterFault c k s).regs.outsizeLo = s.regs.outsizeLo := rfl
@[simp] theorem enterFault_regs_outsizeHi (c : FaultClass) (k : Byte) (s : State) :
    (enterFault c k s).regs.outsizeHi = s.regs.outsizeHi := rfl
@[simp] theorem enterFault_regs_phase (c : FaultClass) (k : Byte) (s : State) :
    (enterFault c k s).regs.phase = .fault := rfl
@[simp] theorem enterFault_regs_isEncoder (c : FaultClass) (k : Byte) (s : State) :
    (enterFault c k s).regs.isEncoder = s.regs.isEncoder := rfl
@[simp] theorem enterFault_regs_faultClass (c : FaultClass) (k : Byte) (s : State) :
    (enterFault c k s).regs.faultClass = c := rfl
@[simp] theorem enterFault_regs_faultSub (c : FaultClass) (k : Byte) (s : State) :
    (enterFault c k s).regs.faultSub = k := rfl
@[simp] theorem enterFault_regs_eprops0 (c : FaultClass) (k : Byte) (s : State) :
    (enterFault c k s).regs.eprops0 = s.regs.eprops0 := rfl
@[simp] theorem enterFault_regs_eprops1 (c : FaultClass) (k : Byte) (s : State) :
    (enterFault c k s).regs.eprops1 = s.regs.eprops1 := rfl
@[simp] theorem enterFault_regs_inCount (c : FaultClass) (k : Byte) (s : State) :
    (enterFault c k s).regs.inCount = s.regs.inCount := rfl
@[simp] theorem enterFault_regs_outCount (c : FaultClass) (k : Byte) (s : State) :
    (enterFault c k s).regs.outCount = s.regs.outCount := rfl

/-! ### CLOSE (R436) -/

@[simp] theorem closeSession_session (s : State) : (closeSession s).session = (Config.freeSession s.freeCount).canonical := rfl
@[simp] theorem closeSession_inp (s : State) : (closeSession s).inp = s.inp := rfl
@[simp] theorem closeSession_out (s : State) : (closeSession s).out = s.out := rfl
@[simp] theorem closeSession_cin (s : State) : (closeSession s).cin = s.cin := rfl
@[simp] theorem closeSession_win (s : State) : (closeSession s).win = s.win := rfl
@[simp] theorem closeSession_pending (s : State) : (closeSession s).pending = s.pending := rfl
@[simp] theorem closeSession_readData (s : State) : (closeSession s).readData = s.readData := rfl
@[simp] theorem closeSession_freeCount (s : State) : (closeSession s).freeCount = s.freeCount + 1 := rfl
@[simp] theorem closeSession_regs_cmd (s : State) : (closeSession s).regs.cmd = s.regs.cmd := rfl
@[simp] theorem closeSession_regs_cfg (s : State) : (closeSession s).regs.cfg = s.regs.cfg := rfl
@[simp] theorem closeSession_regs_dict (s : State) : (closeSession s).regs.dict = s.regs.dict := rfl
@[simp] theorem closeSession_regs_dprops0 (s : State) : (closeSession s).regs.dprops0 = s.regs.dprops0 := rfl
@[simp] theorem closeSession_regs_dprops1 (s : State) : (closeSession s).regs.dprops1 = s.regs.dprops1 := rfl
@[simp] theorem closeSession_regs_outsizeLo (s : State) : (closeSession s).regs.outsizeLo = s.regs.outsizeLo := rfl
@[simp] theorem closeSession_regs_outsizeHi (s : State) : (closeSession s).regs.outsizeHi = s.regs.outsizeHi := rfl
@[simp] theorem closeSession_regs_phase (s : State) : (closeSession s).regs.phase = .idle := rfl
@[simp] theorem closeSession_regs_isEncoder (s : State) : (closeSession s).regs.isEncoder = s.regs.isEncoder := rfl
@[simp] theorem closeSession_regs_faultClass (s : State) : (closeSession s).regs.faultClass = .none := rfl
@[simp] theorem closeSession_regs_faultSub (s : State) : (closeSession s).regs.faultSub = 0 := rfl
@[simp] theorem closeSession_regs_eprops0 (s : State) : (closeSession s).regs.eprops0 = s.regs.eprops0 := rfl
@[simp] theorem closeSession_regs_eprops1 (s : State) : (closeSession s).regs.eprops1 = s.regs.eprops1 := rfl
@[simp] theorem closeSession_regs_inCount (s : State) : (closeSession s).regs.inCount = s.regs.inCount := rfl
@[simp] theorem closeSession_regs_outCount (s : State) : (closeSession s).regs.outCount = s.regs.outCount := rfl

/-! ### Reset (R480, R481) -/

@[simp] theorem resetCore_regs (s : State) : (resetCore s).regs = HostRegs.reset := rfl
@[simp] theorem resetCore_session (s : State) : (resetCore s).session = Session.reset := rfl
@[simp] theorem resetCore_inp (s : State) : (resetCore s).inp = s.inp := rfl
@[simp] theorem resetCore_out (s : State) :
    (resetCore s).out = if unfinished s.regs.phase && s.regs.isEncoder then s.out else [] := rfl
@[simp] theorem resetCore_cin (s : State) : (resetCore s).cin = s.cin := rfl
@[simp] theorem resetCore_win (s : State) :
    (resetCore s).win = if unfinished s.regs.phase && !s.regs.isEncoder then s.win else [] := rfl
@[simp] theorem resetCore_pending (s : State) : (resetCore s).pending = s.pending := rfl
@[simp] theorem resetCore_readData (s : State) : (resetCore s).readData = s.readData := rfl
@[simp] theorem resetCore_freeCount (s : State) : (resetCore s).freeCount = s.freeCount := rfl

/-! ### The opens (R432, R434) -/

@[simp] theorem openEncRegs_cmd (r : HostRegs) :
    (openEncRegs r).cmd = r.cmd := rfl
@[simp] theorem openEncRegs_cfg (r : HostRegs) :
    (openEncRegs r).cfg = r.cfg := rfl
@[simp] theorem openEncRegs_dict (r : HostRegs) :
    (openEncRegs r).dict = r.dict := rfl
@[simp] theorem openEncRegs_dprops0 (r : HostRegs) :
    (openEncRegs r).dprops0 = r.dprops0 := rfl
@[simp] theorem openEncRegs_dprops1 (r : HostRegs) :
    (openEncRegs r).dprops1 = r.dprops1 := rfl
@[simp] theorem openEncRegs_outsizeLo (r : HostRegs) :
    (openEncRegs r).outsizeLo = r.outsizeLo := rfl
@[simp] theorem openEncRegs_outsizeHi (r : HostRegs) :
    (openEncRegs r).outsizeHi = r.outsizeHi := rfl
@[simp] theorem openEncRegs_phase (r : HostRegs) :
    (openEncRegs r).phase = r.phase := rfl
@[simp] theorem openEncRegs_isEncoder (r : HostRegs) :
    (openEncRegs r).isEncoder = true := rfl
@[simp] theorem openEncRegs_faultClass (r : HostRegs) :
    (openEncRegs r).faultClass = .none := rfl
@[simp] theorem openEncRegs_faultSub (r : HostRegs) :
    (openEncRegs r).faultSub = 0 := rfl
@[simp] theorem openEncRegs_eprops0 (r : HostRegs) :
    (openEncRegs r).eprops0 = propsByte (cfgLc r.cfg) (cfgLp r.cfg) (cfgPb r.cfg) := rfl
@[simp] theorem openEncRegs_eprops1 (r : HostRegs) :
    (openEncRegs r).eprops1 = r.dict := rfl
@[simp] theorem openEncRegs_inCount (r : HostRegs) :
    (openEncRegs r).inCount = 0 := rfl
@[simp] theorem openEncRegs_outCount (r : HostRegs) :
    (openEncRegs r).outCount = 0 := rfl
@[simp] theorem openDecRegs_cmd (r : HostRegs) : (openDecRegs r).cmd = r.cmd := rfl
@[simp] theorem openDecRegs_cfg (r : HostRegs) : (openDecRegs r).cfg = r.cfg := rfl
@[simp] theorem openDecRegs_dict (r : HostRegs) : (openDecRegs r).dict = r.dict := rfl
@[simp] theorem openDecRegs_dprops0 (r : HostRegs) : (openDecRegs r).dprops0 = r.dprops0 := rfl
@[simp] theorem openDecRegs_dprops1 (r : HostRegs) : (openDecRegs r).dprops1 = r.dprops1 := rfl
@[simp] theorem openDecRegs_outsizeLo (r : HostRegs) : (openDecRegs r).outsizeLo = r.outsizeLo := rfl
@[simp] theorem openDecRegs_outsizeHi (r : HostRegs) : (openDecRegs r).outsizeHi = r.outsizeHi := rfl
@[simp] theorem openDecRegs_phase (r : HostRegs) : (openDecRegs r).phase = r.phase := rfl
@[simp] theorem openDecRegs_isEncoder (r : HostRegs) : (openDecRegs r).isEncoder = false := rfl
@[simp] theorem openDecRegs_faultClass (r : HostRegs) : (openDecRegs r).faultClass = .none := rfl
@[simp] theorem openDecRegs_faultSub (r : HostRegs) : (openDecRegs r).faultSub = 0 := rfl
@[simp] theorem openDecRegs_eprops0 (r : HostRegs) : (openDecRegs r).eprops0 = r.eprops0 := rfl
@[simp] theorem openDecRegs_eprops1 (r : HostRegs) : (openDecRegs r).eprops1 = r.eprops1 := rfl
@[simp] theorem openDecRegs_inCount (r : HostRegs) : (openDecRegs r).inCount = 0 := rfl
@[simp] theorem openDecRegs_outCount (r : HostRegs) : (openDecRegs r).outCount = 0 := rfl

/-! ### Parts of the session -/

@[simp] theorem withReps_regs (f : Reps → Reps) (s : State) : (s.withReps f).regs = s.regs := rfl
@[simp] theorem withReps_inp (f : Reps → Reps) (s : State) : (s.withReps f).inp = s.inp := rfl
@[simp] theorem withReps_out (f : Reps → Reps) (s : State) : (s.withReps f).out = s.out := rfl
@[simp] theorem withReps_cin (f : Reps → Reps) (s : State) : (s.withReps f).cin = s.cin := rfl
@[simp] theorem withReps_win (f : Reps → Reps) (s : State) : (s.withReps f).win = s.win := rfl
@[simp] theorem withReps_pending (f : Reps → Reps) (s : State) : (s.withReps f).pending = s.pending := rfl
@[simp] theorem withReps_readData (f : Reps → Reps) (s : State) : (s.withReps f).readData = s.readData := rfl
@[simp] theorem withReps_freeCount (f : Reps → Reps) (s : State) : (s.withReps f).freeCount = s.freeCount := rfl
@[simp] theorem withReps_session_props (f : Reps → Reps) (s : State) : (s.withReps f).session.props = s.session.props := rfl
@[simp] theorem withReps_session_state (f : Reps → Reps) (s : State) : (s.withReps f).session.state = s.session.state := rfl
@[simp] theorem withReps_session_reps (f : Reps → Reps) (s : State) : (s.withReps f).session.reps = f s.session.reps := rfl
@[simp] theorem withReps_session_cells (f : Reps → Reps) (s : State) : (s.withReps f).session.cells = s.session.cells := rfl
@[simp] theorem withReps_session_renc (f : Reps → Reps) (s : State) : (s.withReps f).session.renc = s.session.renc := rfl
@[simp] theorem withReps_session_rdec (f : Reps → Reps) (s : State) : (s.withReps f).session.rdec = s.session.rdec := rfl
@[simp] theorem withReps_session_dec (f : Reps → Reps) (s : State) : (s.withReps f).session.dec = s.session.dec := rfl
@[simp] theorem withReps_session_enc (f : Reps → Reps) (s : State) : (s.withReps f).session.enc = s.session.enc := rfl
@[simp] theorem withReps_session_prices (f : Reps → Reps) (s : State) : (s.withReps f).session.prices = s.session.prices := rfl
@[simp] theorem withReps_session_opt (f : Reps → Reps) (s : State) : (s.withReps f).session.opt = s.session.opt := rfl
@[simp] theorem withReps_session_mf (f : Reps → Reps) (s : State) : (s.withReps f).session.mf = s.session.mf := rfl
@[simp] theorem withCoderState_regs (f : CoderState → CoderState) (s : State) :
    (s.withCoderState f).regs = s.regs := rfl
@[simp] theorem withCoderState_inp (f : CoderState → CoderState) (s : State) :
    (s.withCoderState f).inp = s.inp := rfl
@[simp] theorem withCoderState_out (f : CoderState → CoderState) (s : State) :
    (s.withCoderState f).out = s.out := rfl
@[simp] theorem withCoderState_cin (f : CoderState → CoderState) (s : State) :
    (s.withCoderState f).cin = s.cin := rfl
@[simp] theorem withCoderState_win (f : CoderState → CoderState) (s : State) :
    (s.withCoderState f).win = s.win := rfl
@[simp] theorem withCoderState_pending (f : CoderState → CoderState) (s : State) :
    (s.withCoderState f).pending = s.pending := rfl
@[simp] theorem withCoderState_readData (f : CoderState → CoderState) (s : State) :
    (s.withCoderState f).readData = s.readData := rfl
@[simp] theorem withCoderState_freeCount (f : CoderState → CoderState) (s : State) :
    (s.withCoderState f).freeCount = s.freeCount := rfl
@[simp] theorem withCoderState_session_props (f : CoderState → CoderState) (s : State) :
    (s.withCoderState f).session.props = s.session.props := rfl
@[simp] theorem withCoderState_session_state (f : CoderState → CoderState) (s : State) :
    (s.withCoderState f).session.state = f s.session.state := rfl
@[simp] theorem withCoderState_session_reps (f : CoderState → CoderState) (s : State) :
    (s.withCoderState f).session.reps = s.session.reps := rfl
@[simp] theorem withCoderState_session_cells (f : CoderState → CoderState) (s : State) :
    (s.withCoderState f).session.cells = s.session.cells := rfl
@[simp] theorem withCoderState_session_renc (f : CoderState → CoderState) (s : State) :
    (s.withCoderState f).session.renc = s.session.renc := rfl
@[simp] theorem withCoderState_session_rdec (f : CoderState → CoderState) (s : State) :
    (s.withCoderState f).session.rdec = s.session.rdec := rfl
@[simp] theorem withCoderState_session_dec (f : CoderState → CoderState) (s : State) :
    (s.withCoderState f).session.dec = s.session.dec := rfl
@[simp] theorem withCoderState_session_enc (f : CoderState → CoderState) (s : State) :
    (s.withCoderState f).session.enc = s.session.enc := rfl
@[simp] theorem withCoderState_session_prices (f : CoderState → CoderState) (s : State) :
    (s.withCoderState f).session.prices = s.session.prices := rfl
@[simp] theorem withCoderState_session_opt (f : CoderState → CoderState) (s : State) :
    (s.withCoderState f).session.opt = s.session.opt := rfl
@[simp] theorem withCoderState_session_mf (f : CoderState → CoderState) (s : State) :
    (s.withCoderState f).session.mf = s.session.mf := rfl

/-! ### Placing an instruction (log entry 2) -/

@[simp] theorem placeCommand_regs (w : Word) (s : State) : (placeCommand w s).regs = s.regs := rfl
@[simp] theorem placeCommand_session (w : Word) (s : State) : (placeCommand w s).session = s.session := rfl
@[simp] theorem placeCommand_inp (w : Word) (s : State) : (placeCommand w s).inp = s.inp := rfl
@[simp] theorem placeCommand_out (w : Word) (s : State) : (placeCommand w s).out = s.out := rfl
@[simp] theorem placeCommand_cin (w : Word) (s : State) : (placeCommand w s).cin = s.cin := rfl
@[simp] theorem placeCommand_win (w : Word) (s : State) : (placeCommand w s).win = s.win := rfl
@[simp] theorem placeCommand_pending (w : Word) (s : State) :
    (placeCommand w s).pending = .regWrite 0 w :: s.pending := rfl
@[simp] theorem placeCommand_readData (w : Word) (s : State) : (placeCommand w s).readData = s.readData := rfl
@[simp] theorem placeCommand_freeCount (w : Word) (s : State) : (placeCommand w s).freeCount = s.freeCount := rfl

/-! ### Cells -/

@[simp] theorem cells_memory_setMemory_same (c : Cells) (a : CellArray) (m : Memory Prob) :
    (c.setMemory a m).memory a = m := by
  cases a <;> rfl

theorem cells_memory_setMemory_other (c : Cells) {a b : CellArray} (h : b ≠ a) (m : Memory Prob) :
    (c.setMemory a m).memory b = c.memory b := by
  cases a <;> cases b <;> first | rfl | exact absurd rfl h

@[simp] theorem cells_init_memory (a : CellArray) : Cells.init.memory a = [] := by
  cases a <;> rfl

@[simp] theorem cells_init_get (c : Cell) : Cells.init.get c = probInit := by
  simp only [Cells.get, cells_init_memory]
  rfl

@[simp] theorem cells_canonical_memory (c : Cells) (a : CellArray) :
    c.canonical.memory a = (c.memory a).canonical probInit := by
  cases a <;> rfl

end Sys2Proof.Machine
end

