-- ==== Sys2Proof/Laws/Assembler.lean ====
section
/-!
SUPPORT. The assembler's contexts are the decoder's: where the decoder executes a symbol, `followSymbol` does the same.
-/

namespace Sys2Proof.Machine

theorem backByte_inside {d : Nat} {s : State} (h : d < s.outPos) : backByte d s = winRead (s.outPos - d - 1) s := by
  simp only [backByte, act_bind, act_get, if_pos h]

/-- Inside the output the assembler copies what the decoder copies. -/
theorem followCopy_eq_copyBytes {d n : Nat} {s : State} (h : d < s.outPos) : followCopy d n s = copyBytes d n s := by
  induction n generalizing s with
  | zero => rfl
  | succ n ih =>
    simp only [followCopy, copyBytes, act_bind, act_get, backByte_inside h]
    cases hb : winRead (s.outPos - d - 1) s with
    | error e t => rfl
    | ok b t =>
      have ht : t = s := by
        unfold winRead at hb
        simp only [act_bind, act_get] at hb
        cases hw : s.win[s.outPos - d - 1]? with
        | none => rw [hw] at hb; cases hb
        | some x => rw [hw] at hb; cases hb; rfl
      subst ht
      simp only [winAppend, act_modify]
      exact ih (by show d < (t.win ++ [b]).length; rw [List.length_append]; exact Nat.lt_add_right 1 h)

/-- The distance a completed check accepts, and the copy it then makes; END aside. -/
theorem checkAndCopy_ok {len : Nat} {isMatch : Bool} {s t : State} (h : checkAndCopy len isMatch s = .ok () t)
    (hend : s.session.reps.r0 ≠ endDistance ∨ isMatch = false) :
    s.session.reps.r0.toNat < s.outPos ∧ copyBytes s.session.reps.r0.toNat len s = .ok () t := by
  unfold checkAndCopy at h
  simp only [act_bind, act_get, act_ite] at h
  split at h
  · have hno : ¬((decide (s.session.reps.r0 = endDistance) && isMatch) = true) := by
      intro hc
      simp only [Bool.and_eq_true, decide_eq_true_eq] at hc
      rcases hend with hd | hm
      · exact hd hc.1
      · rw [hm] at hc; cases hc.2
    rw [if_neg hno] at h
    cases h
  · next hd =>
    simp only [Bool.or_eq_true, decide_eq_true_eq, not_or, Nat.not_le] at hd
    refine ⟨hd.1, ?_⟩
    cases ho : s.session.dec.outSize with
    | none => rw [ho] at h; exact h
    | some n =>
      rw [ho] at h
      simp only [act_ite] at h
      split at h
      · cases h
      · exact h

/-- Where a symbol other than END executes, following it gives the same state. -/
theorem followSymbol_of_symbolAct {i : Instr} {s t : State} (hi : i.wellFormed = true) (hend : ∀ len, i ≠ .endMark len)
    (h : symbolAct i s = .ok () t) : followSymbol i s = .ok () t := by
  have rep (k len : Nat) (h : actRep k len s = .ok () t) :
      followWith (fun r => r.promote k) updateRep len s = .ok () t := by
    simp only [actRep, followWith, act_bind, act_get, setReps, setCoderState, mapSession, act_modify] at h ⊢
    obtain ⟨hd, hc⟩ := checkAndCopy_ok h (.inr rfl)
    exact (followCopy_eq_copyBytes hd).trans hc
  cases i with
  | lit v => exact h
  | matchSym len d =>
    simp only [symbolAct, followSymbol, actMatch, followWith, act_bind, act_get, setReps, setCoderState, mapSession,
      act_modify] at h ⊢
    have hd : d ≠ endDistance := by
      simp only [Instr.wellFormed, Bool.and_eq_true, bne_iff_ne] at hi
      exact hi.2
    obtain ⟨hlt, hc⟩ := checkAndCopy_ok h (.inl hd)
    exact (followCopy_eq_copyBytes hlt).trans hc
  | shortRep =>
    simp only [symbolAct, followSymbol, actShortRep, followWith, act_bind, act_get, setReps, setCoderState, mapSession,
      act_modify, act_ite, id_eq] at h ⊢
    split at h
    · cases h
    · next hd =>
      refine (followCopy_eq_copyBytes (s := s.mapSession fun ss => { ss with state := updateShortRep s.session.state })
        (Nat.not_le.mp hd)).trans ?_
      simp only [copyBytes, winAppend, act_bind, act_get, act_modify, act_pure] at h ⊢
      exact h
  | rep0 len => exact rep 0 len h
  | rep1 len => exact rep 1 len h
  | rep2 len => exact rep 2 len h
  | rep3 len => exact rep 3 len h
  | endMark len => exact absurd rfl (hend len)
  | nop | encOpen | encStep | decOpen | decStep | close => exact h

end Sys2Proof.Machine
end

