-- ==== Sys2Proof/Laws/Memory.lean ====
section
/-!
SUPPORT. The laws of the sparse memories: reading after writing, and that every operation keeps the canonical form.
-/

namespace Sys2Proof.Machine

variable {α : Type} [DecidableEq α] {d : α}

omit [DecidableEq α] in
@[simp] theorem memory_read_nil (k : Nat) : Memory.read d ([] : Memory α) k = d := rfl

@[simp] theorem memory_wf_nil : Memory.wf d ([] : Memory α) = true := rfl

theorem memory_wf_cons {k : Nat} {v : α} {m : Memory α} :
    Memory.wf d ((k, v) :: m) = true ↔ v ≠ d ∧ Memory.above k m = true ∧ Memory.wf d m = true := by
  simp [Memory.wf, and_assoc]

omit [DecidableEq α] in
theorem memory_above_mono {j k : Nat} {m : Memory α} (h : Memory.above k m = true) (hj : j ≤ k) :
    Memory.above j m = true := by
  induction m with
  | nil => rfl
  | cons e m ih =>
    obtain ⟨k', v⟩ := e
    simp only [Memory.above, Bool.and_eq_true, decide_eq_true_eq] at h ⊢
    exact ⟨by omega, ih h.2⟩

omit [DecidableEq α] in
/-- An index below every listed one is unlisted. -/
theorem memory_read_above {k i : Nat} {m : Memory α} (h : Memory.above k m = true) (hi : i ≤ k) :
    Memory.read d m i = d := by
  cases m with
  | nil => rfl
  | cons e m =>
    obtain ⟨k', v⟩ := e
    simp only [Memory.above, Bool.and_eq_true, decide_eq_true_eq] at h
    simp only [Memory.read]
    rw [if_pos (by omega)]

theorem memory_write_above {j k : Nat} {v : α} {m : Memory α} (h : Memory.above j m = true) (hk : j < k) :
    Memory.above j (Memory.write d m k v) = true := by
  induction m with
  | nil =>
    unfold Memory.write
    split <;> simp [Memory.above, hk]
  | cons e m ih =>
    obtain ⟨k', v'⟩ := e
    simp only [Memory.above, Bool.and_eq_true, decide_eq_true_eq] at h
    unfold Memory.write
    split
    · split <;> simp [Memory.above, h, hk]
    · split
      · split
        · exact h.2
        · simp [Memory.above, h.2, hk]
      · simp [Memory.above, h.1, ih h.2]

/-- A write keeps the canonical form. -/
theorem memory_write_wf {k : Nat} {v : α} {m : Memory α} (h : Memory.wf d m = true) :
    Memory.wf d (Memory.write d m k v) = true := by
  induction m with
  | nil =>
    unfold Memory.write
    split
    · rfl
    · next hv => simp [Memory.wf, Memory.above, hv]
  | cons e m ih =>
    obtain ⟨k', v'⟩ := e
    have h' := memory_wf_cons.1 h
    unfold Memory.write
    split
    · next hk =>
      split
      · exact h
      · next hv =>
        refine memory_wf_cons.2 ⟨hv, ?_, h⟩
        simp only [Memory.above, Bool.and_eq_true, decide_eq_true_eq]
        exact ⟨hk, memory_above_mono h'.2.1 (by omega)⟩
    · split
      · next _ hk =>
        split
        · exact h'.2.2
        · next hv => exact memory_wf_cons.2 ⟨hv, hk ▸ h'.2.1, h'.2.2⟩
      · exact memory_wf_cons.2 ⟨h'.1, memory_write_above h'.2.1 (by omega), ih h'.2.2⟩

/-- Reading the index just written gives the value written. -/
theorem memory_read_write_same {k : Nat} {v : α} {m : Memory α} (h : Memory.wf d m = true) :
    Memory.read d (Memory.write d m k v) k = v := by
  induction m with
  | nil =>
    unfold Memory.write
    split
    · next hv => simp [Memory.read, hv]
    · simp [Memory.read]
  | cons e m ih =>
    obtain ⟨k', v'⟩ := e
    have h' := memory_wf_cons.1 h
    unfold Memory.write
    split
    · next hk =>
      split
      · next hv => simp [Memory.read, hk, hv]
      · simp [Memory.read]
    · split
      · next _ hk =>
        split
        · next hv => rw [memory_read_above h'.2.1 (by omega), hv]
        · simp [Memory.read]
      · next h1 h2 =>
        simp only [Memory.read, if_neg h1, if_neg h2]
        exact ih h'.2.2

/-- A write leaves every other index alone. -/
theorem memory_read_write_other {k i : Nat} {v : α} {m : Memory α} (h : Memory.wf d m = true) (hi : i ≠ k) :
    Memory.read d (Memory.write d m k v) i = Memory.read d m i := by
  induction m with
  | nil =>
    unfold Memory.write
    split
    · rfl
    · simp [Memory.read, hi]
  | cons e m ih =>
    obtain ⟨k', v'⟩ := e
    have h' := memory_wf_cons.1 h
    unfold Memory.write
    split
    · next hk =>
      split
      · rfl
      · simp only [Memory.read, if_neg hi]
        split
        · next hik => rw [if_pos (by omega)]
        · rfl
    · split
      · next _ hk =>
        subst hk
        have hr : Memory.read d ((k, v') :: m) i = if i < k then d else Memory.read d m i := by
          simp [Memory.read, hi]
        rw [hr]
        split
        · split
          · next hik => exact memory_read_above h'.2.1 (by omega)
          · rfl
        · simp [Memory.read, hi]
      · next h1 h2 =>
        simp only [Memory.read]
        split
        · rfl
        · split
          · rfl
          · exact ih h'.2.2

theorem memory_mapValues_above {f : α → α} {k : Nat} {m : Memory α} (h : Memory.above k m = true) :
    Memory.above k (Memory.mapValues d f m) = true := by
  induction m with
  | nil => rfl
  | cons e m ih =>
    obtain ⟨k', v⟩ := e
    simp only [Memory.above, Bool.and_eq_true, decide_eq_true_eq] at h
    unfold Memory.mapValues
    split
    · exact ih h.2
    · simp [Memory.above, h.1, ih h.2]

/-- Changing every element keeps the canonical form. -/
theorem memory_mapValues_wf {f : α → α} {m : Memory α} (h : Memory.wf d m = true) :
    Memory.wf d (Memory.mapValues d f m) = true := by
  induction m with
  | nil => rfl
  | cons e m ih =>
    obtain ⟨k', v⟩ := e
    have h' := memory_wf_cons.1 h
    unfold Memory.mapValues
    split
    · exact ih h'.2.2
    · next hv => exact memory_wf_cons.2 ⟨hv, memory_mapValues_above h'.2.1, ih h'.2.2⟩

/-- `mapValues` changes each element by `f`, where `f` keeps the unlisted value. -/
theorem memory_read_mapValues {f : α → α} {k : Nat} {m : Memory α} (h : Memory.wf d m = true) (hf : f d = d) :
    Memory.read d (Memory.mapValues d f m) k = f (Memory.read d m k) := by
  induction m with
  | nil => simp [Memory.mapValues, hf]
  | cons e m ih =>
    obtain ⟨k', v⟩ := e
    have h' := memory_wf_cons.1 h
    unfold Memory.mapValues
    split
    · next hv =>
      rw [ih h'.2.2]
      simp only [Memory.read]
      split
      · next hk => rw [memory_read_above h'.2.1 (by omega)]
      · split
        · next _ hk => rw [hk, memory_read_above h'.2.1 (by omega), hf, hv]
        · rfl
    · simp only [Memory.read]
      split
      · exact hf.symm
      · split
        · rfl
        · exact ih h'.2.2

theorem memory_canonical_wf (m : Memory α) : Memory.wf d (Memory.canonical d m) = true := by
  unfold Memory.canonical
  split
  · assumption
  · rfl

/-- A memory in canonical form is what it lists. -/
theorem memory_canonical_of_wf {m : Memory α} (h : Memory.wf d m = true) : Memory.canonical d m = m := by
  simp [Memory.canonical, h]

end Sys2Proof.Machine
end

