-- ==== Sys2Proof/Laws/Coder.lean ====
section
/-!
SUPPORT. The operations of the range coder in closed form: what each does to the whole state, under the invariants that hold
between operations.
-/

namespace Sys2Proof.Machine

/-! ### Cells -/

/-- A cell inside its array with a reachable value is read without a fault. -/
theorem readCell_ok {s : State} {cell : Cell} (hi : cell.idx < cell.arr.size s.session.props)
    (hp : probReachable (s.session.cells.get cell)) : readCell cell s = .ok (s.session.cells.get cell) s := by
  have h0 : s.session.cells.get cell ≠ 0 := by
    intro h
    unfold probReachable at hp
    rw [h] at hp
    exact absurd hp.1 (by decide)
  unfold readCell
  simp only [act_bind, act_get, hi, if_true, h0, if_false, act_pure]

/-- Reading a cell changes nothing; a read that gives a value gives the cell's, inside its array. -/
theorem readCell_cases {s t : State} {cell : Cell} {p : Prob} (h : readCell cell s = .ok p t) :
    t = s ∧ p = s.session.cells.get cell ∧ cell.idx < cell.arr.size s.session.props ∧ p ≠ 0 := by
  unfold readCell at h
  simp only [act_bind, act_get] at h
  split at h
  · next hi =>
    split at h
    · cases h
    · next h0 =>
      cases h
      exact ⟨rfl, rfl, hi, h0⟩
  · cases h

theorem cells_memory_wf {c : Cells} (h : c.wf = true) (a : CellArray) : (c.memory a).wf probInit = true := by
  simp only [Cells.wf, Bool.and_eq_true] at h
  obtain ⟨⟨⟨⟨⟨⟨⟨⟨⟨⟨⟨h1, h2⟩, h3⟩, h4⟩, h5⟩, h6⟩, h7⟩, h8⟩, h9⟩, h10⟩, h11⟩, h12⟩ := h
  cases a <;> assumption

theorem cells_wf_of_memory {c : Cells} (h : ∀ a, (c.memory a).wf probInit = true) : c.wf = true := by
  simp only [Cells.wf, Bool.and_eq_true]
  exact ⟨⟨⟨⟨⟨⟨⟨⟨⟨⟨⟨h .isMatch, h .isRep⟩, h .isRepG0⟩, h .isRepG1⟩, h .isRepG2⟩, h .isRep0Long⟩, h .literal⟩,
    h .posSlot⟩, h .posSpecial⟩, h .align⟩, h .lenC⟩, h .repLenC⟩

theorem cells_memory_setMemory_eq (c : Cells) (a b : CellArray) (m : Memory Prob) :
    (c.setMemory a m).memory b = if b = a then m else c.memory b := by
  cases a <;> cases b <;> rfl

theorem cells_put_wf {c : Cells} (h : c.wf = true) (cell : Cell) (p : Prob) : (c.put cell p).wf = true := by
  refine cells_wf_of_memory fun a => ?_
  rw [Cells.put, cells_memory_setMemory_eq]
  split
  · exact memory_write_wf (cells_memory_wf h _)
  · exact cells_memory_wf h a

/-- Reading after a write of a cell. -/
theorem cells_get_put {c : Cells} (h : c.wf = true) (cell cell' : Cell) (p : Prob) :
    (c.put cell p).get cell' = if cell' = cell then p else c.get cell' := by
  obtain ⟨a, i⟩ := cell
  obtain ⟨a', i'⟩ := cell'
  simp only [Cells.get, Cells.put, cells_memory_setMemory_eq, Cell.mk.injEq]
  by_cases ha : a' = a
  · subst ha
    by_cases hi : i' = i
    · subst hi
      simp only [if_true, and_self]
      exact memory_read_write_same (cells_memory_wf h _)
    · simp only [if_true, hi, and_false, if_false]
      exact memory_read_write_other (cells_memory_wf h _) hi
  · simp [ha]

/-! ### The cell update -/

theorem updateProb_false (p : Prob) : (updateProb p false).toNat = p.toNat + (2048 - p.toNat) / 2 ^ 5 := by
  have := p.isLt
  simp only [updateProb, Bool.false_eq_true, if_false, BitVec.toNat_ofNat, Nat.shiftRight_eq_div_pow]
  omega

theorem updateProb_true (p : Prob) : (updateProb p true).toNat = p.toNat - p.toNat / 2 ^ 5 := by
  have := p.isLt
  simp only [updateProb, if_true, BitVec.toNat_ofNat, Nat.shiftRight_eq_div_pow]
  omega

theorem updateProb_reachable {p : Prob} (h : probReachable p) (b : Bool) : probReachable (updateProb p b) := by
  unfold probReachable at *
  cases b
  · rw [updateProb_false]; omega
  · rw [updateProb_true]; omega

theorem cells_put_reachable {c : Cells} (hw : c.wf = true) (h : c.reachable) {cell : Cell} (b : Bool) :
    (c.put cell (updateProb (c.get cell) b)).reachable := by
  intro cell'
  rw [cells_get_put hw]
  split
  · exact updateProb_reachable (h cell) b
  · exact h cell'

/-! ### ShiftLow -/

/-- The bytes ShiftLow emits from `e`. -/
def shiftLowBytes (e : RangeEnc) : List Byte :=
  if 0xFF000000 ≤ e.low.toNat ∧ e.low.toNat < 2 ^ 32 then []
  else u8 (e.cache.toNat + e.low.toNat / 2 ^ 32) ::
    List.replicate (e.cacheSize - 1) (u8 (0xFF + e.low.toNat / 2 ^ 32))

/-- The range encoder after ShiftLow from `e`. -/
def shiftLowEnc (e : RangeEnc) : RangeEnc :=
  if 0xFF000000 ≤ e.low.toNat ∧ e.low.toNat < 2 ^ 32 then
    { e with cacheSize := e.cacheSize + 1, low := BitVec.ofNat 33 (e.low.toNat % 2 ^ 24 * 2 ^ 8) }
  else
    { e with cache := u8 (e.low.toNat / 2 ^ 24), cacheSize := 1, low := BitVec.ofNat 33 (e.low.toNat % 2 ^ 24 * 2 ^ 8) }

/-- `Out` and its count after `bytes` are emitted. -/
def State.withEmitted (s : State) (bytes : List Byte) : State :=
  if bytes = [] then s
  else { s with out := s.out ++ bytes, regs := { s.regs with outCount := u32 (s.out.length + bytes.length) } }

@[simp] theorem withEmitted_out (s : State) (bytes : List Byte) : (s.withEmitted bytes).out = s.out ++ bytes := by
  unfold State.withEmitted
  split
  · next h => simp [h]
  · rfl

@[simp] theorem withEmitted_session (s : State) (bytes : List Byte) : (s.withEmitted bytes).session = s.session := by
  unfold State.withEmitted
  split <;> rfl

theorem withEmitted_frame (s : State) (bytes : List Byte) :
    s.withEmitted bytes = { s with
      out := (s.withEmitted bytes).out, regs := { s.regs with outCount := (s.withEmitted bytes).regs.outCount } } := by
  unfold State.withEmitted
  split <;> rfl

theorem emitRun_succ (carry : Nat) (b : Byte) (n : Nat) (s : State) :
    emitRun carry b (n + 1) s =
      .ok () (s.withEmitted (u8 (b.toNat + carry) :: List.replicate n (u8 (0xFF + carry)))) := by
  induction n generalizing b s with
  | zero => simp [emitRun, emitByte, State.withEmitted]
  | succ n ih =>
    rw [emitRun, act_bind]
    simp only [emitByte, act_modify]
    rw [ih]
    have h : (0xFF : Byte).toNat = 0xFF := rfl
    simp only [State.withEmitted, List.replicate_succ, h]
    simp only [reduceCtorEq, if_false, List.append_assoc, List.cons_append, List.nil_append, List.length_append,
      List.length_cons, List.length_nil, List.length_replicate]
    congr 4
    omega

/-- ShiftLow (R175) in closed form. -/
theorem shiftLow_eq {s : State} (h : 1 ≤ s.session.renc.cacheSize) :
    shiftLow s = .ok () ((s.withEmitted (shiftLowBytes s.session.renc)).mapSession fun ss =>
      { ss with renc := shiftLowEnc s.session.renc }) := by
  unfold shiftLow shiftLowBytes shiftLowEnc
  obtain ⟨n, hn⟩ : ∃ n, s.session.renc.cacheSize = n + 1 := ⟨s.session.renc.cacheSize - 1, by omega⟩
  simp only [act_bind, act_get, Bool.or_eq_true, decide_eq_true_eq]
  by_cases hc : 0xFF000000 ≤ s.session.renc.low.toNat ∧ s.session.renc.low.toNat < 2 ^ 32
  · rw [if_neg (by omega), if_pos hc, if_pos hc]
    rfl
  · rw [if_pos (by omega), if_neg hc, if_neg hc, hn]
    simp only [act_bind, emitRun_succ, Nat.add_sub_cancel]
    simp [mapRenc, mapSession, State.mapSession]

/-- ShiftLow keeps at least the byte held back. -/
theorem shiftLowEnc_cacheSize (e : RangeEnc) : 1 ≤ (shiftLowEnc e).cacheSize := by
  unfold shiftLowEnc
  split
  · simp
  · simp

theorem shiftLowEnc_range (e : RangeEnc) : (shiftLowEnc e).range = e.range := by
  unfold shiftLowEnc
  split <;> rfl

theorem shiftLowEnc_low (e : RangeEnc) : (shiftLowEnc e).low.toNat = e.low.toNat % 2 ^ 24 * 2 ^ 8 := by
  have : (BitVec.ofNat 33 (e.low.toNat % 2 ^ 24 * 2 ^ 8)).toNat = e.low.toNat % 2 ^ 24 * 2 ^ 8 := by
    rw [BitVec.toNat_ofNat]
    omega
  unfold shiftLowEnc
  split <;> exact this

/-- Every ShiftLow adds one to the bytes emitted and held back. -/
theorem shiftLow_length (e : RangeEnc) (h : 1 ≤ e.cacheSize) :
    (shiftLowBytes e).length + (shiftLowEnc e).cacheSize = e.cacheSize + 1 := by
  unfold shiftLowBytes shiftLowEnc
  split
  · simp
  · simp; omega

/-- `n` calls of ShiftLow answer. -/
theorem shiftLows_ok (n : Nat) {s : State} (h : 1 ≤ s.session.renc.cacheSize) : ∃ t, shiftLows n s = .ok () t ∧
    1 ≤ t.session.renc.cacheSize := by
  induction n generalizing s with
  | zero => exact ⟨s, rfl, h⟩
  | succ n ih =>
    rw [shiftLows, act_bind, shiftLow_eq h]
    exact ih (by simpa [State.mapSession] using shiftLowEnc_cacheSize _)

/-! ### EncodeBit and EncodeDirectBits -/

/-- The bound of a cell in a range. -/
theorem bound_bounds {r p : Nat} (hr : 2 ^ 24 ≤ r) (hr2 : r < 2 ^ 32) (hp : 31 ≤ p) (hp2 : p ≤ 2017) :
    2 ^ 17 ≤ r / 2 ^ 11 * p ∧ r / 2 ^ 11 * p + 2 ^ 17 ≤ r := by
  have h1 : 2 ^ 13 ≤ r / 2 ^ 11 := by omega
  constructor
  · calc 2 ^ 17 ≤ 2 ^ 13 * 31 := by norm_num
      _ ≤ r / 2 ^ 11 * p := Nat.mul_le_mul h1 hp
  · have h2 : r / 2 ^ 11 * p ≤ r / 2 ^ 11 * 2017 := Nat.mul_le_mul_left _ hp2
    omega

/-- The state after a coded bit of cell `cell` and before the normalisation. -/
def encodedBit (s : State) (cell : Cell) (b : Bool) : State :=
  s.mapSession fun ss =>
    let bound := ss.renc.range.toNat / 2 ^ 11 * (ss.cells.get cell).toNat
    { ss with
      cells := ss.cells.put cell (updateProb (ss.cells.get cell) b)
      renc := { ss.renc with
        low := BitVec.ofNat 33 (if b then ss.renc.low.toNat + bound else ss.renc.low.toNat)
        range := u32 (if b then ss.renc.range.toNat - bound else bound) } }

theorem encodeBit_eq {s : State} {cell : Cell} (b : Bool) (hi : cell.idx < cell.arr.size s.session.props)
    (hp : probReachable (s.session.cells.get cell)) :
    encodeBit cell b s = encNormalize (encodedBit s cell b) := by
  unfold encodeBit
  rw [act_bind, readCell_ok hi hp]
  cases b <;> simp [mapRenc, mapSession, writeCell, State.mapSession, encodedBit]

/-- The state with the range encoder's `range` shifted left 8. -/
def encRescaled (s : State) : State :=
  s.mapSession fun ss => { ss with renc := { ss.renc with range := u32 (ss.renc.range.toNat * 2 ^ 8) } }

/-- The encoder's normalisation in closed form. -/
theorem encNormalize_eq (s : State) :
    encNormalize s = if s.session.renc.range.toNat < 2 ^ 24 then shiftLow (encRescaled s) else .ok () s := by
  unfold encNormalize
  simp only [act_bind, act_get, act_ite]
  by_cases h : s.session.renc.range.toNat < 2 ^ 24
  · rw [if_pos h, if_pos (show s.session.renc.range.toNat < kTop from h)]
    simp only [mapRenc, mapSession, act_modify, State.mapSession, encRescaled]
  · rw [if_neg h, if_neg (show ¬s.session.renc.range.toNat < kTop from h)]
    rfl

/-- A normalisation restores the encoder's invariant. -/
theorem encNormalize_ok {s : State} (h1 : 2 ^ 16 ≤ s.session.renc.range.toNat)
    (h2 : s.session.renc.low.toNat + s.session.renc.range.toNat < 2 ^ 33) (h3 : 1 ≤ s.session.renc.cacheSize) :
    ∃ t, encNormalize s = .ok () t ∧ t.session.renc.valid ∧
      t.session = { s.session with renc := t.session.renc } ∧
      t = { s with out := t.out, regs := { s.regs with outCount := t.regs.outCount }, session := t.session } := by
  rw [encNormalize_eq]
  by_cases hr : s.session.renc.range.toNat < 2 ^ 24
  · have h3' : 1 ≤ (encRescaled s).session.renc.cacheSize := h3
    rw [if_pos hr, shiftLow_eq h3']
    refine ⟨_, rfl, ?_, ?_, ?_⟩
    · have hl := shiftLowEnc_low (encRescaled s).session.renc
      have hg := shiftLowEnc_range (encRescaled s).session.renc
      have hc := shiftLowEnc_cacheSize (encRescaled s).session.renc
      have hr' : (encRescaled s).session.renc.range.toNat = s.session.renc.range.toNat * 2 ^ 8 := by
        show (u32 _).toNat = _
        rw [BitVec.toNat_ofNat]; omega
      have hw : (encRescaled s).session.renc.low = s.session.renc.low := rfl
      unfold RangeEnc.valid
      simp only [State.mapSession, withEmitted_session, hl, hg, hr', hw]
      exact ⟨by omega, by omega, hc⟩
    · simp only [State.mapSession, withEmitted_session, encRescaled]
    · have hf := withEmitted_frame (encRescaled s) (shiftLowBytes (encRescaled s).session.renc)
      generalize (encRescaled s).withEmitted (shiftLowBytes (encRescaled s).session.renc) = w at hf ⊢
      rw [hf]
      rfl
  · rw [if_neg hr]
    exact ⟨s, rfl, ⟨by omega, h2, h3⟩, rfl, rfl⟩

/-- EncodeBit under the invariant: it answers, updates its cell, keeps the invariant, and changes the range encoder, `Out`
and its count besides. -/
theorem encodeBit_ok {s : State} {cell : Cell} (b : Bool) (hi : cell.idx < cell.arr.size s.session.props)
    (hp : probReachable (s.session.cells.get cell)) (hv : s.session.renc.valid) :
    ∃ t, encodeBit cell b s = .ok () t ∧ t.session.renc.valid ∧
      t.session = { s.session with
        cells := s.session.cells.put cell (updateProb (s.session.cells.get cell) b), renc := t.session.renc } ∧
      t = { s with out := t.out, regs := { s.regs with outCount := t.regs.outCount }, session := t.session } := by
  rw [encodeBit_eq b hi hp]
  obtain ⟨hr, hl, hc⟩ := hv
  have hlt := s.session.renc.range.isLt
  have hb := bound_bounds hr hlt hp.1 hp.2
  have h1 : 2 ^ 16 ≤ (encodedBit s cell b).session.renc.range.toNat := by
    simp only [encodedBit, State.mapSession, BitVec.toNat_ofNat]
    split <;> omega
  have h2 : (encodedBit s cell b).session.renc.low.toNat + (encodedBit s cell b).session.renc.range.toNat < 2 ^ 33 := by
    simp only [encodedBit, State.mapSession, BitVec.toNat_ofNat]
    split <;> omega
  obtain ⟨t, ht, hv, hs, hf⟩ := encNormalize_ok h1 h2 hc
  refine ⟨t, ht, hv, ?_, ?_⟩
  · rw [hs]; rfl
  · rw [hf]; rfl

/-- EncodeDirectBits under the invariant. -/
theorem encodeDirectBits_ok (v n : Nat) {s : State} (hv : s.session.renc.valid) :
    ∃ t, encodeDirectBits v n s = .ok () t ∧ t.session.renc.valid ∧
      t.session = { s.session with renc := t.session.renc } ∧
      t = { s with out := t.out, regs := { s.regs with outCount := t.regs.outCount }, session := t.session } := by
  induction n generalizing s with
  | zero => exact ⟨s, rfl, hv, rfl, rfl⟩
  | succ n ih =>
    obtain ⟨hr, hl, hc⟩ := hv
    rw [encodeDirectBits]
    simp only [act_bind, act_get, mapRenc, mapSession, act_modify]
    have hlt := s.session.renc.range.isLt
    set u := State.mapSession (fun ss : Session => { ss with
        renc := { ss.renc with
          range := u32 (s.session.renc.range.toNat / 2)
          low := if v.testBit n = true then BitVec.ofNat 33 (ss.renc.low.toNat + s.session.renc.range.toNat / 2)
            else ss.renc.low } }) s with hu
    have h1 : 2 ^ 16 ≤ u.session.renc.range.toNat := by
      simp only [hu, State.mapSession, BitVec.toNat_ofNat]; omega
    have h2 : u.session.renc.low.toNat + u.session.renc.range.toNat < 2 ^ 33 := by
      simp only [hu, State.mapSession, BitVec.toNat_ofNat]
      split
      · rw [BitVec.toNat_ofNat]; omega
      · omega
    obtain ⟨t, ht, hv, hs, hf⟩ := encNormalize_ok h1 h2 hc
    rw [ht]
    obtain ⟨w, hw, hv', hs', hf'⟩ := ih hv
    refine ⟨w, hw, hv', ?_, ?_⟩
    · rw [hs', hs]; rfl
    · rw [hf', hf]; rfl

/-! ### DecodeBit and DecodeDirectBits -/

/-- The state after `Cin` gives its next byte `b` to `code`. -/
def shiftedIn (s : State) (b : Byte) : State :=
  { s with
    regs := { s.regs with inCount := u32 (s.session.rdec.inPos + 1) }
    session := { s.session with
      rdec := { s.session.rdec with
        code := u32 (s.session.rdec.code.toNat * 2 ^ 8 + b.toNat), inPos := s.session.rdec.inPos + 1 } } }

theorem shiftInCode_some {s : State} {b : Byte} (h : s.cin[s.session.rdec.inPos]? = some b) :
    shiftInCode s = .ok () (shiftedIn s b) := by
  unfold shiftInCode readIn
  simp only [act_bind, act_get, h]
  simp [mapRdec, mapSession, State.mapSession, shiftedIn]

theorem shiftInCode_none {s : State} (h : s.cin[s.session.rdec.inPos]? = none) :
    shiftInCode s = .error (.raised .sourceExhausted 0) s := by
  unfold shiftInCode readIn
  simp only [act_bind, act_get, h]
  rfl

/-- The state with the range decoder's `range` shifted left 8. -/
def decRescaled (s : State) : State :=
  s.mapSession fun ss => { ss with rdec := { ss.rdec with range := u32 (ss.rdec.range.toNat * 2 ^ 8) } }

/-- The decoder's normalisation in closed form. -/
theorem decNormalize_eq (s : State) :
    decNormalize s = if s.session.rdec.range.toNat < 2 ^ 24 then shiftInCode (decRescaled s) else .ok () s := by
  unfold decNormalize
  simp only [act_bind, act_get, act_ite]
  by_cases h : s.session.rdec.range.toNat < 2 ^ 24
  · rw [if_pos h, if_pos (show s.session.rdec.range.toNat < kTop from h)]
    simp only [mapRdec, mapSession, act_modify, State.mapSession, decRescaled]
  · rw [if_neg h, if_neg (show ¬s.session.rdec.range.toNat < kTop from h)]
    rfl

/-- The bit DecodeBit answers. -/
def decodedValue (s : State) (cell : Cell) : Bool :=
  decide (s.session.rdec.range.toNat / 2 ^ 11 * (s.session.cells.get cell).toNat ≤ s.session.rdec.code.toNat)

/-- The state after a decoded bit of cell `cell` and before the normalisation. -/
def decodedBit (s : State) (cell : Cell) : State :=
  s.mapSession fun ss =>
    let bound := ss.rdec.range.toNat / 2 ^ 11 * (ss.cells.get cell).toNat
    let b := decodedValue s cell
    { ss with
      cells := ss.cells.put cell (updateProb (ss.cells.get cell) b)
      rdec := { ss.rdec with
        range := u32 (if b then ss.rdec.range.toNat - bound else bound)
        code := if b then u32 (ss.rdec.code.toNat - bound) else ss.rdec.code } }

theorem decodeBit_eq {s : State} {cell : Cell} (hi : cell.idx < cell.arr.size s.session.props)
    (hp : probReachable (s.session.cells.get cell)) :
    decodeBit cell s = (decNormalize >>= fun _ => pure (decodedValue s cell)) (decodedBit s cell) := by
  unfold decodeBit
  rw [act_bind, readCell_ok hi hp]
  simp only [act_bind, act_get, decide_eq_true_eq]
  by_cases h : s.session.rdec.range.toNat / 2 ^ 11 * (s.session.cells.get cell).toNat ≤ s.session.rdec.code.toNat
  · simp only [h, if_true, act_bind, mapRdec, mapSession, writeCell, act_modify, State.mapSession, decodedBit,
      decodedValue, act_pure, decide_true]
  · simp only [h, if_false, act_bind, mapRdec, mapSession, writeCell, act_modify, State.mapSession, decodedBit,
      decodedValue, act_pure, decide_false, Bool.false_eq_true]

/-- What the decoder's normalisation does where it answers. -/
theorem decNormalize_ok {s t : State} (h : decNormalize s = .ok () t) (h1 : 2 ^ 16 ≤ s.session.rdec.range.toNat)
    (h2 : s.session.rdec.code.toNat < s.session.rdec.range.toNat) :
    t.session.rdec.valid ∧ t.session = { s.session with rdec := t.session.rdec } ∧
      t = { s with regs := { s.regs with inCount := t.regs.inCount }, session := t.session } ∧
      (s.regs.inCount = u32 s.session.rdec.inPos → t.regs.inCount = u32 t.session.rdec.inPos) := by
  rw [decNormalize_eq] at h
  by_cases hr : s.session.rdec.range.toNat < 2 ^ 24
  · rw [if_pos hr] at h
    cases hb : s.cin[s.session.rdec.inPos]? with
    | none =>
      rw [shiftInCode_none (s := decRescaled s) hb] at h
      cases h
    | some b =>
      rw [shiftInCode_some (s := decRescaled s) hb] at h
      cases h
      have := b.isLt
      have h3 : (decRescaled s).session.rdec.code = s.session.rdec.code := rfl
      have h4 : (decRescaled s).session.rdec.range.toNat = s.session.rdec.range.toNat * 2 ^ 8 := by
        show (u32 _).toNat = _
        rw [BitVec.toNat_ofNat]; omega
      refine ⟨?_, rfl, rfl, fun _ => rfl⟩
      simp only [shiftedIn, RangeDec.valid, BitVec.toNat_ofNat, h3, h4]
      omega
  · rw [if_neg hr] at h
    cases h
    exact ⟨⟨by omega, h2⟩, rfl, rfl, id⟩

/-- DecodeBit under the invariant, where it answers. -/
theorem decodeBit_ok {s t : State} {cell : Cell} {b : Bool} (h : decodeBit cell s = .ok b t)
    (hp : probReachable (s.session.cells.get cell)) (hv : s.session.rdec.valid) :
    cell.idx < cell.arr.size s.session.props ∧ t.session.rdec.valid ∧
      t.session = { s.session with
        cells := s.session.cells.put cell (updateProb (s.session.cells.get cell) b), rdec := t.session.rdec } ∧
      t = { s with regs := { s.regs with inCount := t.regs.inCount }, session := t.session } ∧
      (s.regs.inCount = u32 s.session.rdec.inPos → t.regs.inCount = u32 t.session.rdec.inPos) := by
  by_cases hi : cell.idx < cell.arr.size s.session.props
  · rw [decodeBit_eq hi hp, act_bind] at h
    cases hn : decNormalize (decodedBit s cell) with
    | error e u => rw [hn] at h; cases h
    | ok x u =>
      rw [hn] at h
      cases h
      obtain ⟨hr, hc⟩ := hv
      have hlt := s.session.rdec.range.isLt
      have hb := bound_bounds hr hlt hp.1 hp.2
      obtain ⟨h1, h2, h3, h4⟩ := decNormalize_ok hn
        (by
          simp only [decodedBit, State.mapSession, BitVec.toNat_ofNat]
          split <;> omega)
        (by
          simp only [decodedBit, State.mapSession, decodedValue, decide_eq_true_eq]
          split <;> simp only [BitVec.toNat_ofNat] <;> omega)
      refine ⟨hi, h1, ?_, ?_, h4⟩
      · rw [h2]; rfl
      · rw [h3]; rfl
  · unfold decodeBit readCell at h
    simp only [act_bind, act_get, hi, if_false] at h
    cases h

end Sys2Proof.Machine
end

