-- ==== Sys2Proof/Laws/Frame.lean ====
section
/-!
SUPPORT. What each layer of the core may change: the decoder's bits, the decoder, the match finder, the parse and the
encoder. Each frame says of a start `s` and an end `t` that `t` is `s` with only the named parts replaced.
-/

namespace Sys2Proof.Machine

/-! ### The frames -/

/-- Decoding bits changes the cells, the range decoder and IN_COUNT. -/
def bitFrame (s t : State) : Prop :=
  t = { s with
    regs := { s.regs with inCount := t.regs.inCount }
    session := { s.session with cells := t.session.cells, rdec := t.session.rdec } }

/-- A decode step changes what decoding bits does, and `state`, `reps`, `Win`, OUT_COUNT and the phase. -/
def decodeFrame (s t : State) : Prop :=
  t = { s with
    regs := { s.regs with inCount := t.regs.inCount, outCount := t.regs.outCount, phase := t.regs.phase }
    session := { s.session with
      cells := t.session.cells, rdec := t.session.rdec, state := t.session.state, reps := t.session.reps }
    win := t.win }

/-- The match finder changes itself only. -/
def mfFrame (s t : State) : Prop := t = { s with session := { s.session with mf := t.session.mf } }

/-- GetOptimum changes the match finder, the optimal-parse store and `additionalOffset`. -/
def parseFrame (s t : State) : Prop :=
  t = { s with session := { s.session with
    mf := t.session.mf, opt := t.session.opt,
    enc := { s.session.enc with additionalOffset := t.session.enc.additionalOffset } } }

/-- Encoding bits changes the cells, the range encoder, `Out` and OUT_COUNT. -/
def codeFrame (s t : State) : Prop :=
  t = { s with
    regs := { s.regs with outCount := t.regs.outCount }
    session := { s.session with cells := t.session.cells, renc := t.session.renc }
    out := t.out }

/-- The price refreshes change the price tables. -/
def priceFrame (s t : State) : Prop := t = { s with session := { s.session with prices := t.session.prices } }

/-- An encode step. -/
def encodeFrame (s t : State) : Prop :=
  t = { s with
    regs := { s.regs with inCount := t.regs.inCount, outCount := t.regs.outCount }
    session := { s.session with
      state := t.session.state, reps := t.session.reps, cells := t.session.cells, renc := t.session.renc
      prices := t.session.prices, opt := t.session.opt, mf := t.session.mf
      enc := { s.session.enc with
        finished := t.session.enc.finished, prevByte := t.session.enc.prevByte, nowPos := t.session.enc.nowPos
        progressStart := t.session.enc.progressStart, additionalOffset := t.session.enc.additionalOffset } }
    out := t.out }

/-! ### Each frame is kept by a sequence -/

theorem bitFrame_preorder : Act.Preorder bitFrame where
  refl _ := rfl
  trans s t u h1 h2 := by
    unfold bitFrame at h1 h2 ⊢
    generalize t.regs.inCount = a, t.session.cells = b, t.session.rdec = c at h1
    subst h1
    exact h2

theorem decodeFrame_preorder : Act.Preorder decodeFrame where
  refl _ := rfl
  trans s t u h1 h2 := by
    unfold decodeFrame at h1 h2 ⊢
    generalize t.regs.inCount = a, t.regs.outCount = a', t.regs.phase = a'', t.session.cells = b, t.session.rdec = c,
      t.session.state = e, t.session.reps = g, t.win = w at h1
    subst h1
    exact h2

theorem mfFrame_preorder : Act.Preorder mfFrame where
  refl _ := rfl
  trans s t u h1 h2 := by
    unfold mfFrame at h1 h2 ⊢
    generalize t.session.mf = a at h1
    subst h1
    exact h2

theorem parseFrame_preorder : Act.Preorder parseFrame where
  refl _ := rfl
  trans s t u h1 h2 := by
    unfold parseFrame at h1 h2 ⊢
    generalize t.session.mf = a, t.session.opt = b, t.session.enc.additionalOffset = c at h1
    subst h1
    exact h2

theorem codeFrame_preorder : Act.Preorder codeFrame where
  refl _ := rfl
  trans s t u h1 h2 := by
    unfold codeFrame at h1 h2 ⊢
    generalize t.regs.outCount = a, t.session.cells = b, t.session.renc = c, t.out = o at h1
    subst h1
    exact h2

theorem priceFrame_preorder : Act.Preorder priceFrame where
  refl _ := rfl
  trans s t u h1 h2 := by
    unfold priceFrame at h1 h2 ⊢
    generalize t.session.prices = a at h1
    subst h1
    exact h2

theorem encodeFrame_preorder : Act.Preorder encodeFrame where
  refl _ := rfl
  trans s t u h1 h2 := by
    unfold encodeFrame at h1 h2 ⊢
    generalize t.regs.inCount = a, t.regs.outCount = a', t.session.state = b, t.session.reps = c, t.session.cells = d,
      t.session.renc = e, t.session.prices = f, t.session.opt = g, t.session.mf = i, t.session.enc.finished = j,
      t.session.enc.prevByte = k, t.session.enc.nowPos = l, t.session.enc.progressStart = m,
      t.session.enc.additionalOffset = n, t.out = o at h1
    subst h1
    exact h2

/-! ### A smaller frame lies within a larger one -/

theorem bitFrame_decode {s t : State} (h : bitFrame s t) : decodeFrame s t := by
  unfold bitFrame at h
  unfold decodeFrame
  generalize t.regs.inCount = a, t.session.cells = b, t.session.rdec = c at h
  subst h
  rfl

theorem mfFrame_parse {s t : State} (h : mfFrame s t) : parseFrame s t := by
  unfold mfFrame at h
  unfold parseFrame
  generalize t.session.mf = a at h
  subst h
  rfl

theorem parseFrame_encode {s t : State} (h : parseFrame s t) : encodeFrame s t := by
  unfold parseFrame at h
  unfold encodeFrame
  generalize t.session.mf = a, t.session.opt = b, t.session.enc.additionalOffset = c at h
  subst h
  rfl

theorem codeFrame_encode {s t : State} (h : codeFrame s t) : encodeFrame s t := by
  unfold codeFrame at h
  unfold encodeFrame
  generalize t.regs.outCount = a, t.session.cells = b, t.session.renc = c, t.out = o at h
  subst h
  rfl

theorem priceFrame_encode {s t : State} (h : priceFrame s t) : encodeFrame s t := by
  unfold priceFrame at h
  unfold encodeFrame
  generalize t.session.prices = a at h
  subst h
  rfl

/-! ### The decoder -/

theorem readCell_within {R : State → State → Prop} (hR : Act.Preorder R) (c : Cell) : Act.Within R (readCell c) := by
  refine Act.Within.bind hR (Act.Within.get hR) fun s => Act.Within.ite ?_ (Act.Within.raise hR _ _)
  exact Act.Within.ite (Act.Within.raise hR _ _) (Act.Within.pure hR _)

theorem winRead_within {R : State → State → Prop} (hR : Act.Preorder R) (a : Nat) : Act.Within R (winRead a) := by
  refine Act.Within.bind hR (Act.Within.get hR) fun s => ?_
  split
  · exact Act.Within.pure hR _
  · exact Act.Within.raise hR _ _

theorem inByte_within {R : State → State → Prop} (hR : Act.Preorder R) (a : Nat) : Act.Within R (inByte a) := by
  refine Act.Within.bind hR (Act.Within.get hR) fun s => ?_
  split
  · exact Act.Within.pure hR _
  · exact Act.Within.raise hR _ _

theorem readIn_frame : Act.Within bitFrame readIn := by
  intro s
  unfold readIn
  simp only [act_bind, act_get]
  cases s.cin[s.session.rdec.inPos]? <;> rfl

theorem mapRdec_frame (f : RangeDec → RangeDec) : Act.Within bitFrame (mapRdec f) := fun _ => rfl

theorem writeCell_frame (c : Cell) (p : Prob) : Act.Within bitFrame (writeCell c p) := fun _ => rfl

theorem shiftInCode_frame : Act.Within bitFrame shiftInCode :=
  Act.Within.bind bitFrame_preorder readIn_frame fun _ => mapRdec_frame _

theorem decNormalize_frame : Act.Within bitFrame decNormalize := by
  refine Act.Within.bind bitFrame_preorder (Act.Within.get bitFrame_preorder) fun s => ?_
  refine Act.Within.ite ?_ (Act.Within.pure bitFrame_preorder _)
  exact Act.Within.bind bitFrame_preorder (mapRdec_frame _) fun _ => shiftInCode_frame

theorem decodeBit_frame (c : Cell) : Act.Within bitFrame (decodeBit c) := by
  refine Act.Within.bind bitFrame_preorder (readCell_within bitFrame_preorder c) fun p => ?_
  refine Act.Within.bind bitFrame_preorder (Act.Within.get bitFrame_preorder) fun s => ?_
  have tail : Act.Within bitFrame (do
      writeCell c (updateProb p (decide (s.session.rdec.range.toNat / 2 ^ 11 * p.toNat ≤ s.session.rdec.code.toNat)))
      decNormalize
      pure (decide (s.session.rdec.range.toNat / 2 ^ 11 * p.toNat ≤ s.session.rdec.code.toNat))) :=
    Act.Within.bind bitFrame_preorder (writeCell_frame _ _) fun _ =>
      Act.Within.bind bitFrame_preorder decNormalize_frame fun _ => Act.Within.pure bitFrame_preorder _
  exact Act.Within.ite (Act.Within.bind bitFrame_preorder (mapRdec_frame _) fun _ => tail)
    (Act.Within.bind bitFrame_preorder (mapRdec_frame _) fun _ => tail)

theorem decodeDirectBits_frame (v n : Nat) : Act.Within bitFrame (decodeDirectBits v n) := by
  induction n generalizing v with
  | zero => exact Act.Within.pure bitFrame_preorder _
  | succ n ih =>
    refine Act.Within.bind bitFrame_preorder (Act.Within.get bitFrame_preorder) fun s => ?_
    refine Act.Within.bind bitFrame_preorder (mapRdec_frame _) fun _ => ?_
    exact Act.Within.bind bitFrame_preorder decNormalize_frame fun _ => ih _

theorem treeDecodeFrom_frame (A : CellArray) (b n m : Nat) : Act.Within bitFrame (treeDecodeFrom A b n m) := by
  induction n generalizing m with
  | zero => exact Act.Within.pure bitFrame_preorder _
  | succ n ih => exact Act.Within.bind bitFrame_preorder (decodeBit_frame _) fun _ => ih _

theorem bitTreeDecode_frame (A : CellArray) (b k : Nat) : Act.Within bitFrame (bitTreeDecode A b k) :=
  Act.Within.bind bitFrame_preorder (treeDecodeFrom_frame _ _ _ _) fun _ => Act.Within.pure bitFrame_preorder _

theorem treeReverseDecodeFrom_frame (node : Nat → Cell) (n m : Nat) :
    Act.Within bitFrame (treeReverseDecodeFrom node n m) := by
  induction n generalizing m with
  | zero => exact Act.Within.pure bitFrame_preorder _
  | succ n ih =>
    exact Act.Within.bind bitFrame_preorder (decodeBit_frame _) fun _ =>
      Act.Within.bind bitFrame_preorder (ih _) fun _ => Act.Within.pure bitFrame_preorder _

theorem litDecode_frame (base : Nat) : Act.Within bitFrame (litDecode base) :=
  Act.Within.bind bitFrame_preorder (treeDecodeFrom_frame _ _ _ _) fun _ => Act.Within.pure bitFrame_preorder _

theorem litDecodeMatchedFrom_frame (base : Nat) (mb : Byte) (n m : Nat) :
    Act.Within bitFrame (litDecodeMatchedFrom base mb n m) := by
  induction n generalizing m with
  | zero => exact Act.Within.pure bitFrame_preorder _
  | succ n ih =>
    refine Act.Within.bind bitFrame_preorder (decodeBit_frame _) fun _ => ?_
    exact Act.Within.ite (ih _) (treeDecodeFrom_frame _ _ _ _)

theorem litDecodeMatched_frame (base : Nat) (mb : Byte) : Act.Within bitFrame (litDecodeMatched base mb) :=
  Act.Within.bind bitFrame_preorder (litDecodeMatchedFrom_frame _ _ _ _) fun _ =>
    Act.Within.pure bitFrame_preorder _

theorem lenDecode_frame (L : CellArray) (ps : Nat) : Act.Within bitFrame (lenDecode L ps) := by
  refine Act.Within.bind bitFrame_preorder (decodeBit_frame _) fun _ => ?_
  refine Act.Within.ite ?_ (bitTreeDecode_frame _ _ _)
  refine Act.Within.bind bitFrame_preorder (decodeBit_frame _) fun _ => ?_
  exact Act.Within.ite
    (Act.Within.bind bitFrame_preorder (bitTreeDecode_frame _ _ _) fun _ => Act.Within.pure bitFrame_preorder _)
    (Act.Within.bind bitFrame_preorder (bitTreeDecode_frame _ _ _) fun _ => Act.Within.pure bitFrame_preorder _)

theorem distDecode_frame (len : Nat) : Act.Within bitFrame (distDecode len) := by
  refine Act.Within.bind bitFrame_preorder (bitTreeDecode_frame _ _ _) fun _ => ?_
  refine Act.Within.ite (Act.Within.pure bitFrame_preorder _) ?_
  refine Act.Within.ite ?_ ?_
  · exact Act.Within.bind bitFrame_preorder (treeReverseDecodeFrom_frame _ _ _) fun _ =>
      Act.Within.pure bitFrame_preorder _
  · exact Act.Within.bind bitFrame_preorder (decodeDirectBits_frame _ _) fun _ =>
      Act.Within.bind bitFrame_preorder (treeReverseDecodeFrom_frame _ _ _) fun _ =>
        Act.Within.pure bitFrame_preorder _

theorem bits_decode {α : Type} {a : Act α} (h : Act.Within bitFrame a) : Act.Within decodeFrame a :=
  h.mono fun _ _ => bitFrame_decode

theorem onStop_within {α : Type} {R : State → State → Prop} (hR : Act.Preorder R) {f : State → State} {a : Act α}
    (hf : ∀ s, R s (f s)) (ha : Act.Within R a) : Act.Within R (onStop f a) := by
  intro s
  rw [act_onStop]
  have h := ha s
  cases hs : a s with
  | ok x t => rw [hs] at h; exact h
  | error e t => rw [hs] at h; exact hR.trans _ _ _ h (hf t)

theorem fetchLiteral_frame : Act.Within decodeFrame fetchLiteral := by
  refine Act.Within.bind decodeFrame_preorder (Act.Within.get decodeFrame_preorder) fun s => ?_
  refine Act.Within.bind decodeFrame_preorder ?_ fun prev => Act.Within.ite ?_ ?_
  · refine Act.Within.bind decodeFrame_preorder (Act.Within.get decodeFrame_preorder) fun s => ?_
    exact Act.Within.ite (Act.Within.pure decodeFrame_preorder _) (winRead_within decodeFrame_preorder _)
  · exact Act.Within.bind decodeFrame_preorder (bits_decode (litDecode_frame _)) fun _ =>
      Act.Within.pure decodeFrame_preorder _
  · exact Act.Within.bind decodeFrame_preorder (winRead_within decodeFrame_preorder _) fun _ =>
      Act.Within.bind decodeFrame_preorder (bits_decode (litDecodeMatched_frame _ _)) fun _ =>
        Act.Within.pure decodeFrame_preorder _

theorem fetchRep_frame (k ps : Nat) (mk : Nat → Instr) : Act.Within decodeFrame (fetchRep k ps mk) :=
  Act.Within.bind decodeFrame_preorder
    (onStop_within decodeFrame_preorder (fun _ => rfl) (bits_decode (lenDecode_frame _ _))) fun _ =>
      Act.Within.pure decodeFrame_preorder _

theorem fetchMatch_frame (ps : Nat) : Act.Within decodeFrame (fetchMatch ps) :=
  Act.Within.bind decodeFrame_preorder
    (onStop_within decodeFrame_preorder (fun _ => rfl) (bits_decode (lenDecode_frame _ _))) fun _ =>
      Act.Within.bind decodeFrame_preorder
        (onStop_within decodeFrame_preorder (fun _ => rfl) (bits_decode (distDecode_frame _))) fun _ =>
          Act.Within.pure decodeFrame_preorder _

/-- Fetching a symbol. -/
theorem fetchSymbol_frame : Act.Within decodeFrame fetchSymbol := by
  have bit (c : Cell) : Act.Within decodeFrame (decodeBit c) := bits_decode (decodeBit_frame c)
  refine Act.Within.bind decodeFrame_preorder (Act.Within.get decodeFrame_preorder) fun s => ?_
  refine Act.Within.bind decodeFrame_preorder (bit _) fun _ => Act.Within.ite fetchLiteral_frame ?_
  refine Act.Within.bind decodeFrame_preorder (bit _) fun _ => Act.Within.ite (fetchMatch_frame _) ?_
  refine Act.Within.bind decodeFrame_preorder (bit _) fun _ => Act.Within.ite ?_ ?_
  · refine Act.Within.bind decodeFrame_preorder (bit _) fun _ => ?_
    exact Act.Within.ite (fetchRep_frame _ _ _) (Act.Within.pure decodeFrame_preorder _)
  refine Act.Within.bind decodeFrame_preorder (bit _) fun _ => Act.Within.ite (fetchRep_frame _ _ _) ?_
  refine Act.Within.bind decodeFrame_preorder (bit _) fun _ => ?_
  exact Act.Within.ite (fetchRep_frame _ _ _) (fetchRep_frame _ _ _)

theorem copyBytes_frame (d n : Nat) : Act.Within decodeFrame (copyBytes d n) := by
  induction n with
  | zero => exact Act.Within.pure decodeFrame_preorder _
  | succ n ih =>
    refine Act.Within.bind decodeFrame_preorder (Act.Within.get decodeFrame_preorder) fun s => ?_
    refine Act.Within.bind decodeFrame_preorder (winRead_within decodeFrame_preorder _) fun b => ?_
    exact Act.Within.bind decodeFrame_preorder (Act.Within.ofModify fun _ => rfl) fun _ => ih

theorem checkAndCopy_frame (len : Nat) (isMatch : Bool) : Act.Within decodeFrame (checkAndCopy len isMatch) := by
  have done : Act.Within decodeFrame (setPhase .done) := fun _ => rfl
  refine Act.Within.bind decodeFrame_preorder (Act.Within.get decodeFrame_preorder) fun s => Act.Within.ite ?_ ?_
  · refine Act.Within.ite ?_ (Act.Within.raise decodeFrame_preorder _ _)
    split
    · exact Act.Within.ite done (Act.Within.raise decodeFrame_preorder _ _)
    · exact done
  · split
    · exact Act.Within.ite (Act.Within.raise decodeFrame_preorder _ _) (copyBytes_frame _ _)
    · exact copyBytes_frame _ _

theorem actRep_frame (k len : Nat) : Act.Within decodeFrame (actRep k len) := by
  refine Act.Within.bind decodeFrame_preorder (Act.Within.get decodeFrame_preorder) fun s => ?_
  refine Act.Within.bind decodeFrame_preorder (fun _ => rfl) fun _ => ?_
  exact Act.Within.bind decodeFrame_preorder (fun _ => rfl) fun _ => checkAndCopy_frame _ _

theorem actMatch_frame (len : Nat) (d : Word) : Act.Within decodeFrame (actMatch len d) := by
  refine Act.Within.bind decodeFrame_preorder (Act.Within.get decodeFrame_preorder) fun s => ?_
  refine Act.Within.bind decodeFrame_preorder (fun _ => rfl) fun _ => ?_
  exact Act.Within.bind decodeFrame_preorder (fun _ => rfl) fun _ => checkAndCopy_frame _ _

/-- Executing a symbol. -/
theorem symbolAct_frame (i : Instr) : Act.Within decodeFrame (symbolAct i) := by
  cases i with
  | lit v =>
    refine Act.Within.bind decodeFrame_preorder (Act.Within.ofModify fun _ => rfl) fun _ => ?_
    exact Act.Within.bind decodeFrame_preorder (Act.Within.get decodeFrame_preorder) fun _ _ => rfl
  | shortRep =>
    refine Act.Within.bind decodeFrame_preorder (Act.Within.get decodeFrame_preorder) fun s => ?_
    refine Act.Within.ite (Act.Within.raise decodeFrame_preorder _ _) ?_
    refine Act.Within.bind decodeFrame_preorder (fun _ => rfl) fun _ => ?_
    exact Act.Within.bind decodeFrame_preorder (winRead_within decodeFrame_preorder _) fun _ _ => rfl
  | matchSym len d => exact actMatch_frame _ _
  | rep0 len => exact actRep_frame _ _
  | rep1 len => exact actRep_frame _ _
  | rep2 len => exact actRep_frame _ _
  | rep3 len => exact actRep_frame _ _
  | endMark len => exact actMatch_frame _ _
  | nop | encOpen | encStep | decOpen | decStep | close => exact Act.Within.pure decodeFrame_preorder _

theorem decodeLoop_frame (start fuel : Nat) : Act.Within decodeFrame (decodeLoop start fuel) := by
  induction fuel with
  | zero => exact Act.Within.pure decodeFrame_preorder _
  | succ n ih =>
    refine Act.Within.bind decodeFrame_preorder (Act.Within.get decodeFrame_preorder) fun s => ?_
    refine Act.Within.ite (Act.Within.pure decodeFrame_preorder _) ?_
    refine Act.Within.bind decodeFrame_preorder fetchSymbol_frame fun i => ?_
    refine Act.Within.bind decodeFrame_preorder (symbolAct_frame i) fun _ => ?_
    refine Act.Within.bind decodeFrame_preorder (Act.Within.get decodeFrame_preorder) fun s => ?_
    refine Act.Within.ite (Act.Within.pure decodeFrame_preorder _) ?_
    exact Act.Within.ite (Act.Within.pure decodeFrame_preorder _) ih

/-- DEC_STEP. -/
theorem actDecStep_frame : Act.Within decodeFrame actDecStep := by
  refine Act.Within.bind decodeFrame_preorder (Act.Within.get decodeFrame_preorder) fun s => ?_
  refine Act.Within.ite ?_ (Act.Within.raise decodeFrame_preorder _ _)
  refine Act.Within.bind decodeFrame_preorder
    (Act.Within.bind decodeFrame_preorder (Act.Within.get decodeFrame_preorder) fun _ => decodeLoop_frame _ _)
    fun p => ?_
  cases p
  · exact Act.Within.pure decodeFrame_preorder _
  · exact fun _ => rfl

end Sys2Proof.Machine
end

