-- ==== Sys2Proof/Laws/Decode.lean ====
section
/-!
SUPPORT. What the decoder reads: the range of each field, and the loop of DEC_STEP one symbol at a time.
-/

namespace Sys2Proof.Machine

/-! ### Values an action can give -/

/-- Every value `a` gives satisfies `p`. -/
def Act.Gives {α : Type} (a : Act α) (p : α → Prop) : Prop := ∀ s x t, a s = .ok x t → p x

theorem Act.Gives.bind {α β : Type} {a : Act α} {f : α → Act β} {p : α → Prop} {q : β → Prop} (ha : a.Gives p)
    (hf : ∀ x, p x → (f x).Gives q) : Act.Gives (a >>= f) q := by
  intro s y u h
  rw [act_bind] at h
  cases hs : a s with
  | ok x t => rw [hs] at h; exact hf x (ha s x t hs) t y u h
  | error e t => rw [hs] at h; cases h

theorem Act.Gives.pure {α : Type} {x : α} {p : α → Prop} (h : p x) : Act.Gives (Pure.pure x : Act α) p := by
  intro s y t hy
  cases hy
  exact h

theorem Act.Gives.ite {α : Type} {c : Prop} [Decidable c] {a b : Act α} {p : α → Prop} (ha : c → a.Gives p)
    (hb : ¬c → b.Gives p) : Act.Gives (if c then a else b) p := by
  by_cases hc : c
  · simpa [hc] using ha hc
  · simpa [hc] using hb hc

theorem Act.Gives.mono {α : Type} {a : Act α} {p q : α → Prop} (h : a.Gives p) (hq : ∀ x, p x → q x) : a.Gives q :=
  fun s x t hx => hq x (h s x t hx)

theorem Act.Gives.any {α : Type} (a : Act α) : a.Gives fun _ => True := fun _ _ _ _ => trivial

theorem Act.Gives.onStop {α : Type} {f : State → State} {a : Act α} {p : α → Prop} (h : a.Gives p) :
    (onStop f a).Gives p := by
  intro s x t hx
  rw [act_onStop] at hx
  cases hs : a s with
  | ok y u => rw [hs] at hx; cases hx; exact h s _ _ hs
  | error e u => rw [hs] at hx; cases hx

/-! ### The fields -/

theorem treeDecodeFrom_gives (A : CellArray) (b n m : Nat) :
    (treeDecodeFrom A b n m).Gives fun r => 2 ^ n * m ≤ r ∧ r < 2 ^ n * (m + 1) := by
  induction n generalizing m with
  | zero => exact Act.Gives.pure (by omega)
  | succ n ih =>
    refine Act.Gives.bind (Act.Gives.any _) fun bit _ => (ih (2 * m + bit.toNat)).mono fun r hr => ?_
    have hb := bit.toNat_le
    have h1 : 2 ^ n * (2 * m) ≤ 2 ^ n * (2 * m + bit.toNat) := Nat.mul_le_mul_left _ (by omega)
    have h2 : 2 ^ n * (2 * m + bit.toNat + 1) ≤ 2 ^ n * (2 * m + 2) := Nat.mul_le_mul_left _ (by omega)
    constructor
    · calc 2 ^ (n + 1) * m = 2 ^ n * (2 * m) := by ring
        _ ≤ r := by omega
    · calc r < 2 ^ n * (2 * m + 2) := by omega
        _ = 2 ^ (n + 1) * (m + 1) := by ring

theorem bitTreeDecode_gives (A : CellArray) (b k : Nat) : (bitTreeDecode A b k).Gives fun v => v < 2 ^ k := by
  refine Act.Gives.bind (treeDecodeFrom_gives A b k 1) fun m hm => Act.Gives.pure ?_
  have := Nat.two_pow_pos k
  omega

/-- A decoded length symbol is 0..271 (R302). -/
theorem lenDecode_gives (L : CellArray) (ps : Nat) : (lenDecode L ps).Gives fun v => v ≤ 271 := by
  refine Act.Gives.bind (Act.Gives.any _) fun c _ => Act.Gives.ite (fun _ => ?_) fun _ => ?_
  · refine Act.Gives.bind (Act.Gives.any _) fun c2 _ => Act.Gives.ite (fun _ => ?_) fun _ => ?_
    · exact Act.Gives.bind (bitTreeDecode_gives _ _ _) fun v hv => Act.Gives.pure (by omega)
    · exact Act.Gives.bind (bitTreeDecode_gives _ _ _) fun v hv => Act.Gives.pure (by omega)
  · exact (bitTreeDecode_gives _ _ _).mono fun v hv => by omega

/-- What is fetched is a well-formed symbol, no command. -/
theorem fetchSymbol_gives : fetchSymbol.Gives fun i => i.wellFormed = true ∧ i.isCommand = false := by
  have hlen (n : Nat) (h : n ≤ 271) : lenOk (2 + n) = true := by
    simp only [lenOk, Config.kMatchMinLen, Config.kMatchMaxLen, Bool.and_eq_true, decide_eq_true_eq]
    omega
  have rep (k ps : Nat) (mk : Nat → Instr)
      (hmk : ∀ l, lenOk l = true → (mk l).wellFormed = true ∧ (mk l).isCommand = false) :
      (fetchRep k ps mk).Gives fun i => i.wellFormed = true ∧ i.isCommand = false :=
    Act.Gives.bind (lenDecode_gives _ _).onStop fun n hn => Act.Gives.pure (hmk _ (hlen n hn))
  refine Act.Gives.bind (Act.Gives.any _) fun s _ => ?_
  refine Act.Gives.bind (Act.Gives.any _) fun b0 _ => Act.Gives.ite (fun _ => ?_) fun _ => ?_
  · refine Act.Gives.bind (Act.Gives.any _) fun s _ => ?_
    refine Act.Gives.bind (Act.Gives.any _) fun prev _ => Act.Gives.ite (fun _ => ?_) fun _ => ?_
    · exact Act.Gives.bind (Act.Gives.any _) fun v _ => Act.Gives.pure ⟨rfl, rfl⟩
    · exact Act.Gives.bind (Act.Gives.any _) fun mb _ =>
        Act.Gives.bind (Act.Gives.any _) fun v _ => Act.Gives.pure ⟨rfl, rfl⟩
  refine Act.Gives.bind (Act.Gives.any _) fun b1 _ => Act.Gives.ite (fun _ => ?_) fun _ => ?_
  · refine Act.Gives.bind (lenDecode_gives _ _).onStop fun n hn => ?_
    refine Act.Gives.bind (Act.Gives.any _) fun d _ => Act.Gives.pure ?_
    unfold matchOrEnd
    split
    · exact ⟨hlen n hn, rfl⟩
    · next hd => exact ⟨by rw [Instr.wellFormed, hlen n hn]; simpa using hd, rfl⟩
  refine Act.Gives.bind (Act.Gives.any _) fun b2 _ => Act.Gives.ite (fun _ => ?_) fun _ => ?_
  · refine Act.Gives.bind (Act.Gives.any _) fun b3 _ => Act.Gives.ite (fun _ => ?_) fun _ => ?_
    · exact rep _ _ _ fun l hl => ⟨hl, rfl⟩
    · exact Act.Gives.pure ⟨rfl, rfl⟩
  refine Act.Gives.bind (Act.Gives.any _) fun b3 _ => Act.Gives.ite (fun _ => ?_) fun _ => ?_
  · exact rep _ _ _ fun l hl => ⟨hl, rfl⟩
  refine Act.Gives.bind (Act.Gives.any _) fun b4 _ => Act.Gives.ite (fun _ => ?_) fun _ => ?_
  · exact rep _ _ _ fun l hl => ⟨hl, rfl⟩
  · exact rep _ _ _ fun l hl => ⟨hl, rfl⟩

/-! ### The loop of DEC_STEP -/

/-- A symbol's meaning is its action. -/
theorem exec_symbol {i : Instr} (h : i.isCommand = false) (s : State) : exec i s = outcome (symbolAct i) s := by
  cases i <;> first | rfl | cases h

/-- The loop of R401, one symbol at a time. -/
theorem decodeLoop_succ (start n : Nat) (s : State) :
    decodeLoop start (n + 1) s =
      if s.sizeReached then .ok .done s
      else match fetchSymbol s with
        | .error e t => .error e t
        | .ok i t =>
          match symbolAct i t with
          | .error e u => .error e u
          | .ok _ u =>
            if u.regs.phase = .done then .ok .done u
            else if Config.progressChunk ≤ u.outPos - start then .ok .more u
            else decodeLoop start n u := by
  rw [decodeLoop, act_bind, act_get]
  simp only
  split
  · rfl
  · rw [act_bind]
    cases fetchSymbol s with
    | error e t => rfl
    | ok i t =>
      simp only [act_bind]
      cases symbolAct i t with
      | error e u => rfl
      | ok x u =>
        simp only [act_get]
        split
        · rfl
        · split <;> rfl

/-- DEC_STEP in phase DEC_READY is one DecodeStep. -/
theorem execDecStep_ready {s : State} (h : s.regs.phase = .decReady) :
    exec .decStep s = outcome (decodeLoop s.outPos (4095 + 1) >>= endStep) s := by
  show outcome actDecStep s = _
  unfold outcome actDecStep inPhase
  simp only [act_bind, act_get, h, decide_true, if_true, decodeStep]
  rfl

end Sys2Proof.Machine
end

