-- ==== Sys2Proof/Laws/EncodeFrame.lean ====
section
/-!
SUPPORT. What the encoder's layers may change: the match finder, the parse, the coded bits, and an encode step as a whole.
-/

namespace Sys2Proof.Machine

/-! ### The match finder (R240, R241) -/

theorem mapMf_frame (f : MatchFinder → MatchFinder) : Act.Within mfFrame (mapMf f) := fun _ => rfl

theorem readSon_within {R : State → State → Prop} (hR : Act.Preorder R) (i : Nat) : Act.Within R (readSon i) :=
  Act.Within.bind hR (Act.Within.get hR) fun _ => Act.Within.ite (Act.Within.pure hR _) (Act.Within.raise hR _ _)

theorem readHash_within {R : State → State → Prop} (hR : Act.Preorder R) (i : Nat) : Act.Within R (readHash i) :=
  Act.Within.bind hR (Act.Within.get hR) fun _ => Act.Within.ite (Act.Within.pure hR _) (Act.Within.raise hR _ _)

theorem writeSon_frame (i v : Nat) : Act.Within mfFrame (writeSon i v) :=
  Act.Within.bind mfFrame_preorder (Act.Within.get mfFrame_preorder) fun _ =>
    Act.Within.ite (mapMf_frame _) (Act.Within.raise mfFrame_preorder _ _)

theorem writeHash_frame (i v : Nat) : Act.Within mfFrame (writeHash i v) :=
  Act.Within.bind mfFrame_preorder (Act.Within.get mfFrame_preorder) fun _ =>
    Act.Within.ite (mapMf_frame _) (Act.Within.raise mfFrame_preorder _ _)

theorem movePos_frame : Act.Within mfFrame movePos :=
  Act.Within.bind mfFrame_preorder (mapMf_frame _) fun _ =>
    Act.Within.bind mfFrame_preorder (Act.Within.get mfFrame_preorder) fun _ =>
      Act.Within.ite (mapMf_frame _) (Act.Within.pure mfFrame_preorder _)

theorem storedByte_within {R : State → State → Prop} (hR : Act.Preorder R) (q k : Nat) :
    Act.Within R (storedByte q k) :=
  Act.Within.bind hR (Act.Within.get hR) fun _ => inByte_within hR _

theorem getNumAvailableBytes_within {R : State → State → Prop} (hR : Act.Preorder R) :
    Act.Within R getNumAvailableBytes :=
  Act.Within.bind hR (Act.Within.get hR) fun _ => Act.Within.pure hR _

theorem getIndexByte_within {R : State → State → Prop} (hR : Act.Preorder R) (i : Int) :
    Act.Within R (getIndexByte i) :=
  Act.Within.bind hR (Act.Within.get hR) fun _ => Act.Within.ite (Act.Within.raise hR _ _) (inByte_within hR _)

theorem getMatchLen_within {R : State → State → Prop} (hR : Act.Preorder R) (i : Int) (d limit : Nat) :
    Act.Within R (getMatchLen i d limit) :=
  Act.Within.bind hR (Act.Within.get hR) fun _ => Act.Within.ite (Act.Within.raise hR _ _) (Act.Within.pure hR _)

theorem reportPair_within {R : State → State → Prop} (hR : Act.Preorder R) (ps : List MatchPair) (l d : Nat) :
    Act.Within R (reportPair ps l d) :=
  Act.Within.bind hR (Act.Within.get hR) fun _ => Act.Within.ite (Act.Within.raise hR _ _) (Act.Within.pure hR _)

theorem extendMatch_within {R : State → State → Prop} (hR : Act.Preorder R) (q l limit : Nat) :
    Act.Within R (extendMatch q l limit) :=
  Act.Within.bind hR (Act.Within.get hR) fun _ => Act.Within.pure hR _

theorem closeWalk_frame (a b : Nat) : Act.Within mfFrame (closeWalk a b) :=
  Act.Within.bind mfFrame_preorder (writeSon_frame _ _) fun _ => writeSon_frame _ _

theorem graft_frame (a b c : Nat) : Act.Within mfFrame (graft a b c) :=
  Act.Within.bind mfFrame_preorder (readSon_within mfFrame_preorder _) fun _ =>
    Act.Within.bind mfFrame_preorder (writeSon_frame _ _) fun _ =>
      Act.Within.bind mfFrame_preorder (readSon_within mfFrame_preorder _) fun _ => writeSon_frame _ _

theorem treeWalk_frame (lim low : Nat) (report : Bool) (count : Nat) (q p0 p1 l0 l1 m : Nat) (ps : List MatchPair) :
    Act.Within mfFrame (treeWalk lim low report count q p0 p1 l0 l1 m ps) := by
  have hR := mfFrame_preorder
  induction count generalizing q p0 p1 l0 l1 m ps with
  | zero => exact Act.Within.bind hR (closeWalk_frame _ _) fun _ => Act.Within.pure hR _
  | succ n ih =>
    unfold treeWalk
    dsimp only
    repeat' first
      | with_reducible exact ih _ _ _ _ _ _ _
      | with_reducible exact Act.Within.pure hR _
      | with_reducible exact Act.Within.get hR
      | with_reducible exact closeWalk_frame _ _
      | with_reducible exact graft_frame _ _ _
      | with_reducible exact storedByte_within hR _ _
      | with_reducible exact inByte_within hR _
      | with_reducible exact extendMatch_within hR _ _ _
      | with_reducible exact reportPair_within hR _ _ _
      | with_reducible exact writeSon_frame _ _
      | with_reducible exact readSon_within hR _
      | with_reducible refine Act.Within.ite ?_ ?_
      | with_reducible refine Act.Within.bind hR ?_ fun _ => ?_

theorem walkFrom_frame (lim : Nat) (report : Bool) (q m : Nat) (ps : List MatchPair) :
    Act.Within mfFrame (walkFrom lim report q m ps) :=
  Act.Within.bind mfFrame_preorder (Act.Within.get mfFrame_preorder) fun _ => treeWalk_frame _ _ _ _ _ _ _ _ _ _ _

theorem currentHeads_within {R : State → State → Prop} (hR : Act.Preorder R) : Act.Within R currentHeads :=
  Act.Within.bind hR (Act.Within.get hR) fun _ => Act.Within.bind hR (inByte_within hR _) fun _ =>
    Act.Within.bind hR (inByte_within hR _) fun _ => Act.Within.bind hR (inByte_within hR _) fun _ =>
      Act.Within.bind hR (inByte_within hR _) fun _ => Act.Within.pure hR _

theorem currentHead2_within {R : State → State → Prop} (hR : Act.Preorder R) : Act.Within R currentHead2 :=
  Act.Within.bind hR (Act.Within.get hR) fun _ => Act.Within.bind hR (inByte_within hR _) fun _ =>
    Act.Within.bind hR (inByte_within hR _) fun _ => Act.Within.pure hR _

theorem liveShort_within {R : State → State → Prop} (hR : Act.Preorder R) (q : Nat) : Act.Within R (liveShort q) :=
  Act.Within.bind hR (Act.Within.get hR) fun _ => Act.Within.ite
    (Act.Within.bind hR (storedByte_within hR _ _) fun _ => Act.Within.bind hR (inByte_within hR _) fun _ =>
      Act.Within.pure hR _)
    (Act.Within.pure hR _)

theorem bt4Short_frame : Act.Within mfFrame bt4Short := by
  have hR := mfFrame_preorder
  unfold bt4Short
  dsimp only
  repeat' first
    | with_reducible exact Act.Within.pure hR _
    | with_reducible exact Act.Within.get hR
    | with_reducible exact currentHeads_within hR
    | with_reducible exact readHash_within hR _
    | with_reducible exact writeHash_frame _ _
    | with_reducible exact liveShort_within hR _
    | with_reducible exact reportPair_within hR _ _ _
    | with_reducible refine Act.Within.ite ?_ ?_
    | with_reducible refine Act.Within.bind hR ?_ fun _ => ?_

theorem bt2Direct_frame : Act.Within mfFrame bt2Direct := by
  have hR := mfFrame_preorder
  refine Act.Within.bind hR (currentHead2_within hR) fun hv => ?_
  refine Act.Within.bind hR (Act.Within.get hR) fun s => ?_
  refine Act.Within.bind hR (readHash_within hR _) fun cur => ?_
  refine Act.Within.bind hR (writeHash_frame _ _) fun _ => ?_
  refine Act.Within.ite ?_ (Act.Within.pure hR _)
  refine Act.Within.bind hR (storedByte_within hR _ _) fun x => ?_
  refine Act.Within.bind hR (inByte_within hR _) fun y => Act.Within.ite (Act.Within.pure hR _) ?_
  exact Act.Within.bind hR (reportPair_within hR _ _ _) fun _ => Act.Within.pure hR _

/-- GetMatches. -/
theorem getMatches_frame : Act.Within mfFrame getMatches := by
  have hR := mfFrame_preorder
  refine Act.Within.bind hR (Act.Within.get hR) fun s => ?_
  split
  · exact Act.Within.bind hR movePos_frame fun _ => Act.Within.pure hR _
  · dsimp only
    split
    · exact Act.Within.bind hR bt4Short_frame fun _ => Act.Within.bind hR (walkFrom_frame _ _ _ _ _) fun _ =>
        Act.Within.bind hR movePos_frame fun _ => Act.Within.pure hR _
    · exact Act.Within.bind hR bt2Direct_frame fun _ => Act.Within.bind hR (walkFrom_frame _ _ _ _ _) fun _ =>
        Act.Within.bind hR movePos_frame fun _ => Act.Within.pure hR _

theorem skipHeads_frame : Act.Within mfFrame skipHeads := by
  have hR := mfFrame_preorder
  refine Act.Within.bind hR (Act.Within.get hR) fun s => ?_
  split
  · refine Act.Within.bind hR (currentHeads_within hR) fun i => ?_
    exact Act.Within.bind hR (writeHash_frame _ _) fun _ => Act.Within.bind hR (writeHash_frame _ _) fun _ =>
      Act.Within.bind hR (readHash_within hR _) fun _ => Act.Within.bind hR (writeHash_frame _ _) fun _ =>
        Act.Within.pure hR _
  · exact Act.Within.bind hR (currentHead2_within hR) fun _ => Act.Within.bind hR (readHash_within hR _) fun _ =>
      Act.Within.bind hR (writeHash_frame _ _) fun _ => Act.Within.pure hR _

theorem skipOne_frame : Act.Within mfFrame skipOne := by
  have hR := mfFrame_preorder
  refine Act.Within.bind hR (Act.Within.get hR) fun s => ?_
  split
  · exact movePos_frame
  · exact Act.Within.bind hR skipHeads_frame fun _ =>
      Act.Within.bind hR (walkFrom_frame _ _ _ _ _) fun _ => movePos_frame

/-- Skip. -/
theorem skip_frame (n : Nat) : Act.Within mfFrame (skip n) := by
  induction n with
  | zero => exact Act.Within.pure mfFrame_preorder _
  | succ n ih => exact Act.Within.bind mfFrame_preorder skipOne_frame fun _ => ih

/-! ### Prices -/

theorem cellPrice_within {R : State → State → Prop} (hR : Act.Preorder R) (c : Cell) (b : Bool) :
    Act.Within R (cellPrice c b) :=
  Act.Within.bind hR (readCell_within hR _) fun _ => Act.Within.pure hR _

theorem treePriceFrom_within {R : State → State → Prop} (hR : Act.Preorder R) (A : CellArray) (b sym n m : Nat) :
    Act.Within R (treePriceFrom A b sym n m) := by
  induction n generalizing m with
  | zero => exact Act.Within.pure hR _
  | succ n ih =>
    exact Act.Within.bind hR (cellPrice_within hR _ _) fun _ =>
      Act.Within.bind hR (ih _) fun _ => Act.Within.pure hR _

theorem treeReversePriceFrom_within {R : State → State → Prop} (hR : Act.Preorder R) (node : Nat → Cell)
    (n m sym : Nat) : Act.Within R (treeReversePriceFrom node n m sym) := by
  induction n generalizing m sym with
  | zero => exact Act.Within.pure hR _
  | succ n ih =>
    exact Act.Within.bind hR (cellPrice_within hR _ _) fun _ =>
      Act.Within.bind hR (ih _ _) fun _ => Act.Within.pure hR _

theorem litPriceMatchedFrom_within {R : State → State → Prop} (hR : Act.Preorder R) (base : Nat) (mb v : Byte)
    (n m : Nat) : Act.Within R (litPriceMatchedFrom base mb v n m) := by
  induction n generalizing m with
  | zero => exact Act.Within.pure hR _
  | succ n ih =>
    refine Act.Within.bind hR (cellPrice_within hR _ _) fun _ => ?_
    dsimp only
    refine Act.Within.ite ?_ ?_
    · exact Act.Within.bind hR (ih _) fun _ => Act.Within.pure hR _
    · exact Act.Within.bind hR (treePriceFrom_within hR _ _ _ _ _) fun _ => Act.Within.pure hR _

theorem literalPrice_within {R : State → State → Prop} (hR : Act.Preorder R) (pos : Nat) (prev : Byte)
    (st : CoderState) (mb v : Byte) : Act.Within R (literalPrice pos prev st mb v) :=
  Act.Within.bind hR (Act.Within.get hR) fun _ =>
    Act.Within.ite (litPriceMatchedFrom_within hR _ _ _ _ _) (treePriceFrom_within hR _ _ _ _ _)

theorem lenPrice_within {R : State → State → Prop} (hR : Act.Preorder R) (L : CellArray) (sym ps : Nat) :
    Act.Within R (lenPrice L sym ps) := by
  have c (x : Cell) (b : Bool) := cellPrice_within hR x b
  refine Act.Within.ite ?_ (Act.Within.ite ?_ ?_)
  · exact Act.Within.bind hR (c _ _) fun _ =>
      Act.Within.bind hR (treePriceFrom_within hR _ _ _ _ _) fun _ => Act.Within.pure hR _
  · exact Act.Within.bind hR (c _ _) fun _ => Act.Within.bind hR (c _ _) fun _ =>
      Act.Within.bind hR (treePriceFrom_within hR _ _ _ _ _) fun _ => Act.Within.pure hR _
  · exact Act.Within.bind hR (c _ _) fun _ => Act.Within.bind hR (c _ _) fun _ =>
      Act.Within.bind hR (treePriceFrom_within hR _ _ _ _ _) fun _ => Act.Within.pure hR _

theorem repLen1Price_within {R : State → State → Prop} (hR : Act.Preorder R) (st : CoderState) (ps : Nat) :
    Act.Within R (repLen1Price st ps) :=
  Act.Within.bind hR (cellPrice_within hR _ _) fun _ =>
    Act.Within.bind hR (cellPrice_within hR _ _) fun _ => Act.Within.pure hR _

theorem pureRepPrice_within {R : State → State → Prop} (hR : Act.Preorder R) (k : Nat) (st : CoderState) (ps : Nat) :
    Act.Within R (pureRepPrice k st ps) := by
  have c (x : Cell) (b : Bool) := cellPrice_within hR x b
  refine Act.Within.ite ?_ (Act.Within.ite ?_ ?_)
  · exact Act.Within.bind hR (c _ _) fun _ => Act.Within.bind hR (c _ _) fun _ => Act.Within.pure hR _
  · exact Act.Within.bind hR (c _ _) fun _ => Act.Within.bind hR (c _ _) fun _ => Act.Within.pure hR _
  · exact Act.Within.bind hR (c _ _) fun _ => Act.Within.bind hR (c _ _) fun _ =>
      Act.Within.bind hR (c _ _) fun _ => Act.Within.pure hR _

theorem lenTablePrice_within {R : State → State → Prop} (hR : Act.Preorder R) (len ps : Nat) :
    Act.Within R (lenTablePrice len ps) :=
  Act.Within.bind hR (Act.Within.get hR) fun _ =>
    Act.Within.bind hR (Act.Within.elemAt hR _ _) fun _ => Act.Within.elemAt hR _ _

theorem repLenTablePrice_within {R : State → State → Prop} (hR : Act.Preorder R) (len ps : Nat) :
    Act.Within R (repLenTablePrice len ps) :=
  Act.Within.bind hR (Act.Within.get hR) fun _ =>
    Act.Within.bind hR (Act.Within.elemAt hR _ _) fun _ => Act.Within.elemAt hR _ _

theorem repPrice_within {R : State → State → Prop} (hR : Act.Preorder R) (k len : Nat) (st : CoderState) (ps : Nat) :
    Act.Within R (repPrice k len st ps) :=
  Act.Within.bind hR (repLenTablePrice_within hR _ _) fun _ =>
    Act.Within.bind hR (pureRepPrice_within hR _ _ _) fun _ => Act.Within.pure hR _

theorem posLenPrice_within {R : State → State → Prop} (hR : Act.Preorder R) (d len ps : Nat) :
    Act.Within R (posLenPrice d len ps) := by
  have e (xs : List Nat) (i : Nat) := Act.Within.elemAt hR xs i
  refine Act.Within.bind hR (Act.Within.get hR) fun s => ?_
  refine Act.Within.bind hR (lenTablePrice_within hR _ _) fun l => Act.Within.ite ?_ ?_
  · exact Act.Within.bind hR (Act.Within.elemAt hR _ _) fun _ =>
      Act.Within.bind hR (e _ _) fun _ => Act.Within.pure hR _
  · exact Act.Within.bind hR (Act.Within.elemAt hR _ _) fun _ => Act.Within.bind hR (e _ _) fun _ =>
      Act.Within.bind hR (e _ _) fun _ => Act.Within.pure hR _

theorem mapPrices_frame (f : Prices → Prices) : Act.Within priceFrame (mapPrices f) := fun _ => rfl

theorem updateLenTable_frame (ps : Nat) : Act.Within priceFrame (updateLenTable ps) := by
  have hR := priceFrame_preorder
  exact Act.Within.bind hR (Act.Within.get hR) fun _ =>
    Act.Within.bind hR (Act.Within.tabulate hR (fun _ => lenPrice_within hR _ _ _) _ _) fun _ => mapPrices_frame _

theorem updateRepLenTable_frame (ps : Nat) : Act.Within priceFrame (updateRepLenTable ps) := by
  have hR := priceFrame_preorder
  exact Act.Within.bind hR (Act.Within.get hR) fun _ =>
    Act.Within.bind hR (Act.Within.tabulate hR (fun _ => lenPrice_within hR _ _ _) _ _) fun _ => mapPrices_frame _

theorem countLen_frame (ps : Nat) : Act.Within priceFrame (countLen ps) := by
  have hR := priceFrame_preorder
  exact Act.Within.bind hR (Act.Within.get hR) fun _ => Act.Within.bind hR (Act.Within.elemAt hR _ _) fun _ =>
    Act.Within.bind hR (mapPrices_frame _) fun _ =>
      Act.Within.ite (updateLenTable_frame _) (Act.Within.pure hR _)

theorem countRepLen_frame (ps : Nat) : Act.Within priceFrame (countRepLen ps) := by
  have hR := priceFrame_preorder
  exact Act.Within.bind hR (Act.Within.get hR) fun _ => Act.Within.bind hR (Act.Within.elemAt hR _ _) fun _ =>
    Act.Within.bind hR (mapPrices_frame _) fun _ =>
      Act.Within.ite (updateRepLenTable_frame _) (Act.Within.pure hR _)

theorem fillDistancesPrices_frame : Act.Within priceFrame fillDistancesPrices := by
  have hR := priceFrame_preorder
  refine Act.Within.bind hR (Act.Within.get hR) fun s => ?_
  refine Act.Within.bind hR (Act.Within.tabulate hR (fun i => ?_) _ _) fun temp => ?_
  · exact Act.Within.ite (Act.Within.pure hR _) (treeReversePriceFrom_within hR _ _ _ _)
  refine Act.Within.bind hR (Act.Within.tabulate hR (fun i => ?_) _ _) fun rows => ?_
  · refine Act.Within.bind hR (Act.Within.tabulate hR (fun j => ?_) _ _) fun _ => Act.Within.pure hR _
    exact Act.Within.bind hR (treePriceFrom_within hR _ _ _ _ _) fun _ => Act.Within.pure hR _
  refine Act.Within.bind hR (Act.Within.tabulate hR (fun i => ?_) _ _) fun _ => mapPrices_frame _
  refine Act.Within.bind hR (Act.Within.elemAt hR _ _) fun row => Act.Within.tabulate hR (fun j => ?_) _ _
  exact Act.Within.bind hR (Act.Within.elemAt hR _ _) fun _ =>
    Act.Within.bind hR (Act.Within.elemAt hR _ _) fun _ => Act.Within.pure hR _

theorem fillAlignPrices_frame : Act.Within priceFrame fillAlignPrices := by
  have hR := priceFrame_preorder
  exact Act.Within.bind hR (Act.Within.tabulate hR (fun _ => treeReversePriceFrom_within hR _ _ _ _) _ _) fun _ =>
    mapPrices_frame _

theorem refreshPrices_frame : Act.Within priceFrame refreshPrices := by
  have hR := priceFrame_preorder
  refine Act.Within.bind hR (Act.Within.get hR) fun s => ?_
  dsimp only
  repeat' first
    | with_reducible exact Act.Within.pure hR _
    | with_reducible exact fillDistancesPrices_frame
    | with_reducible exact fillAlignPrices_frame
    | with_reducible refine Act.Within.ite ?_ ?_
    | with_reducible refine Act.Within.bind hR ?_ fun _ => ?_

end Sys2Proof.Machine
end

