-- ==== Sys2Proof/Laws/ParseFrame.lean ====
section
/-!
SUPPORT. What GetOptimum, the coded bits and an encode step may change.
-/

namespace Sys2Proof.Machine

/-! ### Nodes and the match finder's interface -/

theorem mapOpt_frame (f : OptStore → OptStore) : Act.Within parseFrame (mapOpt f) := fun _ => rfl

theorem mf_parse {α : Type} {a : Act α} (h : Act.Within mfFrame a) : Act.Within parseFrame a :=
  h.mono fun _ _ => mfFrame_parse

theorem readNode_within {R : State → State → Prop} (hR : Act.Preorder R) (i : Nat) : Act.Within R (readNode i) :=
  Act.Within.bind hR (Act.Within.get hR) fun _ => Act.Within.ite (Act.Within.pure hR _) (Act.Within.raise hR _ _)

theorem writeNode_frame (i : Nat) (n : OptNode) : Act.Within parseFrame (writeNode i n) :=
  Act.Within.ite (mapOpt_frame _) (Act.Within.raise parseFrame_preorder _ _)

theorem modifyNode_frame (i : Nat) (f : OptNode → OptNode) : Act.Within parseFrame (modifyNode i f) :=
  Act.Within.bind parseFrame_preorder (readNode_within parseFrame_preorder _) fun _ => writeNode_frame _ _

theorem relax_frame (i p : Nat) (st : Step) (f : OptNode → OptNode) : Act.Within parseFrame (relax i p st f) := by
  have hR := parseFrame_preorder
  exact Act.Within.bind hR (readNode_within hR _) fun _ => Act.Within.ite
    (Act.Within.bind hR (writeNode_frame _ _) fun _ => Act.Within.pure hR _) (Act.Within.pure hR _)

theorem infinitePrices_frame (i n : Nat) : Act.Within parseFrame (infinitePrices i n) := by
  induction n generalizing i with
  | zero => exact Act.Within.pure parseFrame_preorder _
  | succ n ih => exact Act.Within.bind parseFrame_preorder (modifyNode_frame _ _) fun _ => ih _

theorem extend_frame (a b : Nat) : Act.Within parseFrame (extend a b) :=
  Act.Within.bind parseFrame_preorder (infinitePrices_frame _ _) fun _ => Act.Within.pure parseFrame_preorder _

theorem addOffset_frame (n : Nat) : Act.Within parseFrame (addOffset n) := fun _ => rfl

theorem readMatchDistances_frame : Act.Within parseFrame readMatchDistances := by
  have hR := parseFrame_preorder
  refine Act.Within.bind hR (mf_parse getMatches_frame) fun pairs => ?_
  refine Act.Within.bind hR (Act.Within.get hR) fun s => ?_
  try dsimp only
  split
  · exact Act.Within.bind hR (Act.Within.pure hR _) fun _ =>
      Act.Within.bind hR (addOffset_frame _) fun _ => Act.Within.pure hR _
  · refine Act.Within.ite ?_ ?_
    · exact Act.Within.bind hR (getMatchLen_within hR _ _ _) fun _ =>
        Act.Within.bind hR (Act.Within.pure hR _) fun _ =>
        Act.Within.bind hR (addOffset_frame _) fun _ => Act.Within.pure hR _
    · exact Act.Within.bind hR (Act.Within.pure hR _) fun _ =>
        Act.Within.bind hR (addOffset_frame _) fun _ => Act.Within.pure hR _

theorem movePosEnc_frame (n : Nat) : Act.Within parseFrame (movePosEnc n) :=
  Act.Within.bind parseFrame_preorder (mf_parse (skip_frame _)) fun _ => addOffset_frame _

theorem nodeState_within {R : State → State → Prop} (hR : Act.Preorder R) (cur : Nat) :
    Act.Within R (nodeState cur) := by
  unfold nodeState
  try dsimp only
  repeat' first
    | with_reducible exact Act.Within.pure hR _
    | with_reducible exact readNode_within hR _
    | with_reducible refine Act.Within.ite ?_ ?_
    | with_reducible refine Act.Within.bind hR ?_ fun _ => ?_

theorem splitCombination_frame (n : OptNode) (p : Nat) : Act.Within parseFrame (splitCombination n p) := by
  have hR := parseFrame_preorder
  unfold splitCombination
  try dsimp only
  repeat' first
    | with_reducible exact Act.Within.pure hR _
    | with_reducible exact modifyNode_frame _ _
    | with_reducible refine Act.Within.ite ?_ ?_
    | with_reducible refine Act.Within.bind hR ?_ fun _ => ?_

theorem backwardFrom_frame (fuel cur p : Nat) (b : Word) : Act.Within parseFrame (backwardFrom fuel cur p b) := by
  have hR := parseFrame_preorder
  induction fuel generalizing cur p b with
  | zero => exact Act.Within.raise hR _ _
  | succ n ih =>
    unfold backwardFrom
    try dsimp only
    repeat' first
      | with_reducible exact Act.Within.pure hR _
      | with_reducible exact Act.Within.raise hR _ _
      | with_reducible exact ih _ _ _
      | with_reducible exact modifyNode_frame _ _
      | with_reducible exact readNode_within hR _
      | with_reducible exact splitCombination_frame _ _
      | with_reducible refine Act.Within.ite ?_ ?_
      | with_reducible refine Act.Within.bind hR ?_ fun _ => ?_

theorem backward_frame (cur : Nat) : Act.Within parseFrame (backward cur) := by
  have hR := parseFrame_preorder
  unfold backward
  repeat' first
    | with_reducible exact Act.Within.pure hR _
    | with_reducible exact mapOpt_frame _
    | with_reducible exact readNode_within hR _
    | with_reducible exact backwardFrom_frame _ _ _ _
    | with_reducible refine Act.Within.bind hR ?_ fun _ => ?_

/-! ### The relaxations (R333 to R340) -/

theorem repStartPrice_within {R : State → State → Prop} (hR : Act.Preorder R) (b : Nat) (st : CoderState) (ps : Nat) :
    Act.Within R (repStartPrice b st ps) :=
  Act.Within.bind hR (cellPrice_within hR _ _) fun _ =>
    Act.Within.bind hR (cellPrice_within hR _ _) fun _ => Act.Within.pure hR _

theorem literalThenRep0_frame (e : NodeEnv) (pb nfb lenEnd lenTest d : Nat) (st : CoderState) (price : Nat)
    (back : Word) : Act.Within parseFrame (literalThenRep0 e pb nfb lenEnd lenTest d st price back) := by
  have hR := parseFrame_preorder
  unfold literalThenRep0
  try dsimp only
  repeat' first
    | with_reducible exact Act.Within.pure hR _
    | with_reducible exact getMatchLen_within hR _ _ _
    | with_reducible exact cellPrice_within hR _ _
    | with_reducible exact getIndexByte_within hR _
    | with_reducible exact literalPrice_within hR _ _ _ _ _
    | with_reducible exact repStartPrice_within hR _ _ _
    | with_reducible exact extend_frame _ _
    | with_reducible exact repPrice_within hR _ _ _ _
    | with_reducible exact relax_frame _ _ _ _
    | with_reducible refine Act.Within.ite ?_ ?_
    | with_reducible refine Act.Within.bind hR ?_ fun _ => ?_

theorem relaxLiteralRep0_frame (e : NodeEnv) (pb nfb lenEnd : Nat) :
    Act.Within parseFrame (relaxLiteralRep0 e pb nfb lenEnd) := by
  have hR := parseFrame_preorder
  unfold relaxLiteralRep0
  try dsimp only
  repeat' first
    | with_reducible exact Act.Within.pure hR _
    | with_reducible exact getMatchLen_within hR _ _ _
    | with_reducible exact repStartPrice_within hR _ _ _
    | with_reducible exact extend_frame _ _
    | with_reducible exact repPrice_within hR _ _ _ _
    | with_reducible exact relax_frame _ _ _ _
    | with_reducible refine Act.Within.ite ?_ ?_
    | with_reducible refine Act.Within.bind hR ?_ fun _ => ?_

theorem relaxRepLens_frame (e : NodeEnv) (k l lenEnd : Nat) : Act.Within parseFrame (relaxRepLens e k l lenEnd) := by
  have hR := parseFrame_preorder
  induction l generalizing lenEnd with
  | zero => exact Act.Within.pure hR _
  | succ l ih =>
    unfold relaxRepLens
    refine Act.Within.ite (Act.Within.pure hR _) ?_
    exact Act.Within.bind hR (extend_frame _ _) fun _ => Act.Within.bind hR (repPrice_within hR _ _ _ _) fun _ =>
      Act.Within.bind hR (relax_frame _ _ _ _) fun _ => ih _

theorem relaxReps_frame (e : NodeEnv) (pb nfb n k start lenEnd : Nat) :
    Act.Within parseFrame (relaxReps e pb nfb n k start lenEnd) := by
  have hR := parseFrame_preorder
  induction n generalizing k start lenEnd with
  | zero => exact Act.Within.pure hR _
  | succ n ih =>
    unfold relaxReps
    refine Act.Within.bind hR (getMatchLen_within hR _ _ _) fun _ => Act.Within.ite (ih _ _ _) ?_
    exact Act.Within.bind hR (relaxRepLens_frame _ _ _ _) fun _ =>
      Act.Within.bind hR (repPrice_within hR _ _ _ _) fun _ =>
        Act.Within.bind hR (literalThenRep0_frame _ _ _ _ _ _ _ _ _) fun _ => ih _ _ _

theorem relaxMatchLens_frame (e : NodeEnv) (pb nfb price fuel lenTest lenEnd : Nat) (pairs : List MatchPair) :
    Act.Within parseFrame (relaxMatchLens e pb nfb price fuel lenTest lenEnd pairs) := by
  have hR := parseFrame_preorder
  induction fuel generalizing lenTest lenEnd pairs with
  | zero => exact Act.Within.raise hR _ _
  | succ n ih =>
    cases pairs with
    | nil => exact Act.Within.pure hR _
    | cons p ps =>
      unfold relaxMatchLens
      refine Act.Within.bind hR (posLenPrice_within hR _ _ _) fun _ => ?_
      refine Act.Within.bind hR (relax_frame _ _ _ _) fun _ => Act.Within.ite ?_ (ih _ _ _)
      exact Act.Within.bind hR (literalThenRep0_frame _ _ _ _ _ _ _ _ _) fun _ => ih _ _ _

theorem clipPairs_within {R : State → State → Prop} (hR : Act.Preorder R) (a b : Nat) (pairs : List MatchPair) :
    Act.Within R (clipPairs a b pairs) := by
  refine Act.Within.ite ?_ (Act.Within.pure hR _)
  split
  · exact Act.Within.raise hR _ _
  · exact Act.Within.pure hR _

theorem relaxMatches_frame (e : NodeEnv) (pb nfb start newLen lenEnd : Nat) (pairs : List MatchPair) :
    Act.Within parseFrame (relaxMatches e pb nfb start newLen lenEnd pairs) := by
  have hR := parseFrame_preorder
  refine Act.Within.bind hR (clipPairs_within hR _ _ _) fun r => Act.Within.ite ?_ (Act.Within.pure hR _)
  refine Act.Within.bind hR (cellPrice_within hR _ _) fun _ => ?_
  refine Act.Within.bind hR (extend_frame _ _) fun _ => ?_
  split
  · exact Act.Within.raise hR _ _
  · exact relaxMatchLens_frame _ _ _ _ _ _ _ _

theorem relaxOneByte_frame (cur pos : Nat) (st : CoderState) (reps : Reps) :
    Act.Within parseFrame (relaxOneByte cur pos st reps) := by
  have hR := parseFrame_preorder
  unfold relaxOneByte
  try dsimp only
  repeat' first
    | with_reducible exact Act.Within.pure hR _
    | with_reducible exact Act.Within.get hR
    | with_reducible exact readNode_within hR _
    | with_reducible exact getIndexByte_within hR _
    | with_reducible exact cellPrice_within hR _ _
    | with_reducible exact literalPrice_within hR _ _ _ _ _
    | with_reducible exact relax_frame _ _ _ _
    | with_reducible exact repLen1Price_within hR _ _
    | with_reducible exact writeNode_frame _ _
    | with_reducible exact getNumAvailableBytes_within hR
    | with_reducible refine Act.Within.ite ?_ ?_
    | with_reducible refine Act.Within.bind hR ?_ fun _ => ?_

theorem processNode_frame (cur pos newLen lenEnd : Nat) (pairs : List MatchPair) :
    Act.Within parseFrame (processNode cur pos newLen lenEnd pairs) := by
  have hR := parseFrame_preorder
  unfold processNode
  try dsimp only
  repeat' first
    | with_reducible exact Act.Within.pure hR _
    | with_reducible exact Act.Within.get hR
    | with_reducible exact nodeState_within hR _
    | with_reducible exact modifyNode_frame _ _
    | with_reducible exact relaxOneByte_frame _ _ _ _
    | with_reducible exact relaxLiteralRep0_frame _ _ _ _
    | with_reducible exact relaxReps_frame _ _ _ _ _ _ _
    | with_reducible exact relaxMatches_frame _ _ _ _ _ _ _
    | with_reducible refine Act.Within.ite ?_ ?_
    | with_reducible refine Act.Within.bind hR ?_ fun _ => ?_

theorem forwardLoop_frame (fuel cur pos lenEnd : Nat) : Act.Within parseFrame (forwardLoop fuel cur pos lenEnd) := by
  have hR := parseFrame_preorder
  induction fuel generalizing cur pos lenEnd with
  | zero => exact Act.Within.raise hR _ _
  | succ n ih =>
    unfold forwardLoop
    refine Act.Within.ite (backward_frame _) ?_
    refine Act.Within.bind hR readMatchDistances_frame fun r => ?_
    refine Act.Within.bind hR (Act.Within.get hR) fun s => Act.Within.ite ?_ ?_
    · exact Act.Within.bind hR (mapOpt_frame _) fun _ => backward_frame _
    · exact Act.Within.bind hR (processNode_frame _ _ _ _ _) fun _ => ih _ _ _

theorem seedRepLens_frame (i price ps l : Nat) : Act.Within parseFrame (seedRepLens i price ps l) := by
  have hR := parseFrame_preorder
  induction l with
  | zero => exact Act.Within.pure hR _
  | succ l ih =>
    unfold seedRepLens
    refine Act.Within.ite (Act.Within.pure hR _) ?_
    exact Act.Within.bind hR (repLenTablePrice_within hR _ _) fun _ =>
      Act.Within.bind hR (relax_frame _ _ _ _) fun _ => ih

theorem seedReps_frame (price ps : Nat) (st : CoderState) (i : Nat) (ls : List Nat) :
    Act.Within parseFrame (seedReps price ps st i ls) := by
  have hR := parseFrame_preorder
  induction ls generalizing i with
  | nil => exact Act.Within.pure hR _
  | cons l ls ih =>
    unfold seedReps
    try dsimp only
    repeat' first
      | with_reducible exact ih _
      | with_reducible exact pureRepPrice_within hR _ _ _
      | with_reducible exact seedRepLens_frame _ _ _ _
      | with_reducible refine Act.Within.ite ?_ ?_
      | with_reducible refine Act.Within.bind hR ?_ fun _ => ?_

theorem seedMatchLens_frame (price ps fuel len : Nat) (pairs : List MatchPair) :
    Act.Within parseFrame (seedMatchLens price ps fuel len pairs) := by
  have hR := parseFrame_preorder
  induction fuel generalizing len pairs with
  | zero => exact Act.Within.raise hR _ _
  | succ n ih =>
    cases pairs with
    | nil => exact Act.Within.pure hR _
    | cons p ps =>
      exact Act.Within.bind hR (posLenPrice_within hR _ _ _) fun _ =>
        Act.Within.bind hR (relax_frame _ _ _ _) fun _ => ih _ _

theorem seedMatches_frame (price ps len lenMain : Nat) (pairs : List MatchPair) :
    Act.Within parseFrame (seedMatches price ps len lenMain pairs) := by
  have hR := parseFrame_preorder
  refine Act.Within.ite ?_ (Act.Within.pure hR _)
  split
  · exact Act.Within.raise hR _ _
  · exact seedMatchLens_frame _ _ _ _ _

theorem seedAndSearch_frame (pos lenMain : Nat) (pairs : List MatchPair) (l0 l1 l2 l3 m : Nat) (a b : Byte) :
    Act.Within parseFrame (seedAndSearch pos lenMain pairs l0 l1 l2 l3 m a b) := by
  have hR := parseFrame_preorder
  unfold seedAndSearch
  try dsimp only
  repeat' first
    | with_reducible exact Act.Within.pure hR _
    | with_reducible exact Act.Within.get hR
    | with_reducible exact readNode_within hR _
    | with_reducible exact writeNode_frame _ _
    | with_reducible exact modifyNode_frame _ _
    | with_reducible exact cellPrice_within hR _ _
    | with_reducible exact literalPrice_within hR _ _ _ _ _
    | with_reducible exact repLen1Price_within hR _ _
    | with_reducible exact infinitePrices_frame _ _
    | with_reducible exact seedReps_frame _ _ _ _ _
    | with_reducible exact seedMatches_frame _ _ _ _ _
    | with_reducible exact forwardLoop_frame _ _ _ _
    | with_reducible refine Act.Within.ite ?_ ?_
    | with_reducible refine Act.Within.bind hR ?_ fun _ => ?_

theorem currentReport_frame : Act.Within parseFrame currentReport := by
  have hR := parseFrame_preorder
  refine Act.Within.bind hR (Act.Within.get hR) fun s => Act.Within.ite ?_ readMatchDistances_frame
  exact Act.Within.bind hR (mapOpt_frame _) fun _ => Act.Within.pure hR _

theorem startOptimum_frame (pos : Nat) : Act.Within parseFrame (startOptimum pos) := by
  have hR := parseFrame_preorder
  unfold startOptimum
  try dsimp only
  repeat' first
    | with_reducible exact Act.Within.pure hR _
    | with_reducible exact Act.Within.get hR
    | with_reducible exact Act.Within.raise hR _ _
    | with_reducible exact currentReport_frame
    | with_reducible exact getNumAvailableBytes_within hR
    | with_reducible exact getMatchLen_within hR _ _ _
    | with_reducible exact movePosEnc_frame _
    | with_reducible exact getIndexByte_within hR _
    | with_reducible exact seedAndSearch_frame _ _ _ _ _ _ _ _ _ _
    | with_reducible refine Act.Within.ite ?_ ?_
    | with_reducible refine Act.Within.bind hR ?_ fun _ => ?_
    | split

/-- GetOptimum. -/
theorem getOptimum_frame (pos : Nat) : Act.Within parseFrame (getOptimum pos) := by
  have hR := parseFrame_preorder
  refine Act.Within.bind hR (Act.Within.get hR) fun s => Act.Within.ite ?_ ?_
  · exact Act.Within.bind hR (readNode_within hR _) fun _ =>
      Act.Within.bind hR (mapOpt_frame _) fun _ => Act.Within.pure hR _
  · exact Act.Within.bind hR (mapOpt_frame _) fun _ => startOptimum_frame _

/-! ### The range encoder -/

theorem emitByte_frame (b : Byte) : Act.Within codeFrame (emitByte b) := fun _ => rfl

theorem mapRenc_frame (f : RangeEnc → RangeEnc) : Act.Within codeFrame (mapRenc f) := fun _ => rfl

theorem writeCell_codeFrame (c : Cell) (p : Prob) : Act.Within codeFrame (writeCell c p) := fun _ => rfl

theorem emitRun_frame (carry n : Nat) (b : Byte) : Act.Within codeFrame (emitRun carry b n) := by
  induction n generalizing b with
  | zero => exact Act.Within.pure codeFrame_preorder _
  | succ n ih => exact Act.Within.bind codeFrame_preorder (emitByte_frame _) fun _ => ih _

theorem shiftLow_frame : Act.Within codeFrame shiftLow := by
  have hR := codeFrame_preorder
  refine Act.Within.bind hR (Act.Within.get hR) fun s => Act.Within.ite ?_ (mapRenc_frame _)
  exact Act.Within.bind hR (emitRun_frame _ _ _) fun _ => mapRenc_frame _

theorem encNormalize_frame : Act.Within codeFrame encNormalize := by
  have hR := codeFrame_preorder
  refine Act.Within.bind hR (Act.Within.get hR) fun s => Act.Within.ite ?_ (Act.Within.pure hR _)
  exact Act.Within.bind hR (mapRenc_frame _) fun _ => shiftLow_frame

theorem encodeBit_frame (c : Cell) (b : Bool) : Act.Within codeFrame (encodeBit c b) := by
  have hR := codeFrame_preorder
  unfold encodeBit
  try dsimp only
  repeat' first
    | with_reducible exact readCell_within hR _
    | with_reducible exact Act.Within.get hR
    | with_reducible exact mapRenc_frame _
    | with_reducible exact writeCell_codeFrame _ _
    | with_reducible exact encNormalize_frame
    | with_reducible refine Act.Within.ite ?_ ?_
    | with_reducible refine Act.Within.bind hR ?_ fun _ => ?_

theorem encodeDirectBits_frame (v n : Nat) : Act.Within codeFrame (encodeDirectBits v n) := by
  have hR := codeFrame_preorder
  induction n with
  | zero => exact Act.Within.pure hR _
  | succ n ih =>
    exact Act.Within.bind hR (Act.Within.get hR) fun _ => Act.Within.bind hR (mapRenc_frame _) fun _ =>
      Act.Within.bind hR encNormalize_frame fun _ => ih

theorem shiftLows_frame (n : Nat) : Act.Within codeFrame (shiftLows n) := by
  induction n with
  | zero => exact Act.Within.pure codeFrame_preorder _
  | succ n ih => exact Act.Within.bind codeFrame_preorder shiftLow_frame fun _ => ih

theorem treeEncodeFrom_frame (A : CellArray) (b sym n m : Nat) :
    Act.Within codeFrame (treeEncodeFrom A b sym n m) := by
  induction n generalizing m with
  | zero => exact Act.Within.pure codeFrame_preorder _
  | succ n ih => exact Act.Within.bind codeFrame_preorder (encodeBit_frame _ _) fun _ => ih _

theorem treeReverseEncodeFrom_frame (node : Nat → Cell) (n m sym : Nat) :
    Act.Within codeFrame (treeReverseEncodeFrom node n m sym) := by
  induction n generalizing m sym with
  | zero => exact Act.Within.pure codeFrame_preorder _
  | succ n ih => exact Act.Within.bind codeFrame_preorder (encodeBit_frame _ _) fun _ => ih _ _

theorem litEncodeMatchedFrom_frame (base : Nat) (mb v : Byte) (n m : Nat) (same : Bool) :
    Act.Within codeFrame (litEncodeMatchedFrom base mb v n m same) := by
  induction n generalizing m same with
  | zero => exact Act.Within.pure codeFrame_preorder _
  | succ n ih => exact Act.Within.bind codeFrame_preorder (encodeBit_frame _ _) fun _ => ih _ _

theorem lenEncode_frame (L : CellArray) (sym ps : Nat) : Act.Within codeFrame (lenEncode L sym ps) := by
  have hR := codeFrame_preorder
  unfold lenEncode bitTreeEncode
  repeat' first
    | with_reducible exact encodeBit_frame _ _
    | with_reducible exact treeEncodeFrom_frame _ _ _ _ _
    | with_reducible refine Act.Within.ite ?_ ?_
    | with_reducible refine Act.Within.bind hR ?_ fun _ => ?_

theorem encodeRepPrefix_frame (k : Nat) (long : Bool) (st : CoderState) (ps : Nat) :
    Act.Within codeFrame (encodeRepPrefix k long st ps) := by
  have hR := codeFrame_preorder
  unfold encodeRepPrefix
  repeat' first
    | with_reducible exact encodeBit_frame _ _
    | with_reducible refine Act.Within.ite ?_ ?_
    | with_reducible refine Act.Within.bind hR ?_ fun _ => ?_

/-! ### An encode step -/

theorem code_encode {α : Type} {a : Act α} (h : Act.Within codeFrame a) : Act.Within encodeFrame a :=
  h.mono fun _ _ => codeFrame_encode

theorem parse_encode {α : Type} {a : Act α} (h : Act.Within parseFrame a) : Act.Within encodeFrame a :=
  h.mono fun _ _ => parseFrame_encode

theorem price_encode {α : Type} {a : Act α} (h : Act.Within priceFrame a) : Act.Within encodeFrame a :=
  h.mono fun _ _ => priceFrame_encode

theorem distEncode_frame (d len : Nat) : Act.Within encodeFrame (distEncode d len) := by
  have hR := encodeFrame_preorder
  unfold distEncode bitTreeEncode bitTreeReverseEncode
  try dsimp only
  repeat' first
    | with_reducible exact Act.Within.pure hR _
    | with_reducible exact code_encode (treeEncodeFrom_frame _ _ _ _ _)
    | with_reducible exact code_encode (treeReverseEncodeFrom_frame _ _ _ _)
    | with_reducible exact code_encode (encodeDirectBits_frame _ _)
    | with_reducible exact price_encode (mapPrices_frame _)
    | with_reducible refine Act.Within.ite ?_ ?_
    | with_reducible refine Act.Within.bind hR ?_ fun _ => ?_

theorem setCoderState_frame (st : CoderState) : Act.Within encodeFrame (setCoderState st) := fun _ => rfl

theorem setReps_frame (r : Reps) : Act.Within encodeFrame (setReps r) := fun _ => rfl

theorem encodeLiteral_frame (ps : Nat) : Act.Within encodeFrame (encodeLiteral ps) := by
  have hR := encodeFrame_preorder
  unfold encodeLiteral litEncode litEncodeMatched bitTreeEncode
  try dsimp only
  repeat' first
    | with_reducible exact Act.Within.get hR
    | with_reducible exact code_encode (encodeBit_frame _ _)
    | with_reducible exact getIndexByte_within hR _
    | with_reducible exact code_encode (treeEncodeFrom_frame _ _ _ _ _)
    | with_reducible exact code_encode (litEncodeMatchedFrom_frame _ _ _ _ _ _)
    | with_reducible exact setCoderState_frame _
    | with_reducible refine Act.Within.ite ?_ ?_
    | with_reducible refine Act.Within.bind hR ?_ fun _ => ?_
    | exact fun _ => rfl

theorem encodeRep_frame (len k ps : Nat) : Act.Within encodeFrame (encodeRep len k ps) := by
  have hR := encodeFrame_preorder
  unfold encodeRep
  try dsimp only
  repeat' first
    | with_reducible exact Act.Within.get hR
    | with_reducible exact Act.Within.pure hR _
    | with_reducible exact Act.Within.raise hR _ _
    | with_reducible exact code_encode (encodeBit_frame _ _)
    | with_reducible exact code_encode (encodeRepPrefix_frame _ _ _ _)
    | with_reducible exact code_encode (lenEncode_frame _ _ _)
    | with_reducible exact price_encode (countRepLen_frame _)
    | with_reducible exact setCoderState_frame _
    | with_reducible exact setReps_frame _
    | with_reducible refine Act.Within.ite ?_ ?_
    | with_reducible refine Act.Within.bind hR ?_ fun _ => ?_

theorem encodeMatch_frame (len : Nat) (d : Word) (ps : Nat) : Act.Within encodeFrame (encodeMatch len d ps) := by
  have hR := encodeFrame_preorder
  unfold encodeMatch
  try dsimp only
  repeat' first
    | with_reducible exact Act.Within.get hR
    | with_reducible exact Act.Within.pure hR _
    | with_reducible exact Act.Within.raise hR _ _
    | with_reducible exact code_encode (encodeBit_frame _ _)
    | with_reducible exact code_encode (lenEncode_frame _ _ _)
    | with_reducible exact price_encode (countLen_frame _)
    | with_reducible exact distEncode_frame _ _
    | with_reducible exact setCoderState_frame _
    | with_reducible exact setReps_frame _
    | with_reducible exact price_encode (mapPrices_frame _)
    | with_reducible refine Act.Within.ite ?_ ?_
    | with_reducible refine Act.Within.bind hR ?_ fun _ => ?_

theorem encodeStep_frame (len : Nat) (back : Word) (ps : Nat) : Act.Within encodeFrame (encodeStep len back ps) :=
  Act.Within.ite (encodeLiteral_frame _) (Act.Within.ite (encodeRep_frame _ _ _) (encodeMatch_frame _ _ _))

theorem encFlush_frame : Act.Within encodeFrame encFlush := by
  have hR := encodeFrame_preorder
  unfold encFlush encodeEndMarker bitTreeEncode bitTreeReverseEncode
  try dsimp only
  repeat' first
    | with_reducible exact Act.Within.get hR
    | with_reducible exact code_encode (encodeBit_frame _ _)
    | with_reducible exact code_encode (lenEncode_frame _ _ _)
    | with_reducible exact code_encode (treeEncodeFrom_frame _ _ _ _ _)
    | with_reducible exact code_encode (treeReverseEncodeFrom_frame _ _ _ _)
    | with_reducible exact code_encode (encodeDirectBits_frame _ _)
    | with_reducible exact setCoderState_frame _
    | with_reducible exact code_encode (shiftLows_frame 5)
    | with_reducible refine Act.Within.ite ?_ ?_
    | with_reducible refine Act.Within.bind hR ?_ fun _ => ?_
    | exact code_encode (shiftLows_frame 5)

theorem setNowPos_frame (n : Nat) : Act.Within encodeFrame (setNowPos n) := fun _ => rfl

theorem postStep_frame (len : Nat) (isLit : Bool) : Act.Within encodeFrame (postStep len isLit) := by
  have hR := encodeFrame_preorder
  unfold postStep
  try dsimp only
  repeat' first
    | with_reducible exact Act.Within.get hR
    | with_reducible exact getIndexByte_within hR _
    | with_reducible exact setNowPos_frame _
    | with_reducible refine Act.Within.ite ?_ ?_
    | with_reducible refine Act.Within.bind hR ?_ fun _ => ?_
    | exact fun _ => rfl

theorem codeLoop_frame (fuel : Nat) : Act.Within encodeFrame (codeLoop fuel) := by
  have hR := encodeFrame_preorder
  induction fuel with
  | zero => exact Act.Within.throw hR _
  | succ n ih =>
    unfold codeLoop
    try dsimp only
    repeat' first
      | with_reducible exact ih
      | with_reducible exact Act.Within.get hR
      | with_reducible exact Act.Within.pure hR _
      | with_reducible exact Act.Within.throw hR _
      | with_reducible exact parse_encode (getOptimum_frame _)
      | with_reducible exact encodeStep_frame _ _ _
      | with_reducible exact postStep_frame _ _
      | with_reducible exact price_encode refreshPrices_frame
      | with_reducible exact getNumAvailableBytes_within hR
      | with_reducible exact encFlush_frame
      | with_reducible refine Act.Within.ite ?_ ?_
      | with_reducible refine Act.Within.bind hR ?_ fun _ => ?_
      | exact fun _ => rfl

theorem codeFirstByte_frame : Act.Within encodeFrame codeFirstByte := by
  have hR := encodeFrame_preorder
  exact Act.Within.bind hR (parse_encode readMatchDistances_frame) fun _ =>
    Act.Within.bind hR (encodeLiteral_frame _) fun _ =>
      Act.Within.bind hR (fun _ => rfl) fun _ => setNowPos_frame _

theorem codeOneBlock_frame : Act.Within encodeFrame codeOneBlock := by
  have hR := encodeFrame_preorder
  unfold codeOneBlock
  try dsimp only
  repeat' first
    | with_reducible exact Act.Within.get hR
    | with_reducible exact Act.Within.pure hR _
    | with_reducible exact getNumAvailableBytes_within hR
    | with_reducible exact encFlush_frame
    | with_reducible exact codeFirstByte_frame
    | with_reducible exact codeLoop_frame _
    | with_reducible refine Act.Within.ite ?_ ?_
    | with_reducible refine Act.Within.bind hR ?_ fun _ => ?_
    | exact fun _ => rfl

end Sys2Proof.Machine
end

