-- ==== Sys2Proof/Tests/Slice0.lean ====
section
/-!
SUPPORT. Tests against values of the spec (`95_test_vectors.md` and the encodings of `30_encoding.md`), and the witnesses of the
hypotheses of the statements. A comment names a test's source.
-/

namespace Sys2Proof.Tests

open Sys2Proof Sys2Proof.Machine

/-! ### Helpers -/

/-- A property of the next state. -/
def nextIs (o : Host.Outcome State Fault Refusal) (f : State → Bool) : Bool :=
  match o with
  | .next t => f t
  | _ => false

/-- The next state, where there is one. -/
def nextOf (o : Host.Outcome State Fault Refusal) : State :=
  match o with
  | .next t => t
  | _ => State.reset

/-- Reset, with CFG and DICT written. -/
def configured (cfg dict : Word) : State := State.reset.mapRegs fun r => { r with cfg := cfg, dict := dict }

/-- The fault recorded in STATUS. -/
def faultIs (c : FaultClass) (k : Byte) (t : State) : Bool :=
  t.regs.phase == .fault && t.regs.faultClass == c && t.regs.faultSub == k

/-- An open decode session, dictionary 2^16, of which `win` is produced, with 9 bytes declared. -/
def decoding (win : List Byte) (reps : Reps) (state : CoderState) (cin : List Byte) : State :=
  { State.reset with
    regs := { HostRegs.reset with phase := .decReady, inCount := 5, outCount := u32 win.length }
    session := { Session.reset with
      reps := reps, state := state
      dec := { dictCheck := 65536, outSize := some 9 }
      rdec := { range := 0xFFFFFFFF, code := 0, inPos := 5 } }
    win := win, cin := cin }

/-- A decode session after `xyz`, with the four distances 1, 2, 0, 3. -/
def midStream : State := decoding [0x78, 0x79, 0x7A] { r0 := 1, r1 := 2, r2 := 0, r3 := 3 } 0 []

/-- A decode session in mid-stream that meets the invariant, its next symbol LIT 0. -/
def midStreamOpen : State :=
  decoding [0x78, 0x79, 0x7A] { r0 := 1, r1 := 2, r2 := 0, r3 := 0 } 0 [0, 0, 0, 0, 0, 0, 0]

/-- An open encode session over `inp`, CFG and DICT at reset, before the price fills. -/
def encoding (inp : List Byte) : State :=
  { State.reset with
    regs := { HostRegs.reset with phase := .encReady, isEncoder := true }
    session := encoderSession 0x00088103 0x00400000 Session.reset
    inp := inp }

/-- An encode session as ENC_OPEN leaves it. -/
def encOpened (inp : List Byte) : State := nextOf (exec .encOpen { State.reset with inp := inp })

/-- A range encoder at the start of a session. -/
def coding : State := State.reset

/-- A range encoder with a pending 0xFF behind its cache, and `low` given. -/
def pendingByte (low : BitVec 33) : State :=
  State.reset.mapSession fun ss => { ss with renc := { low := low, range := 0x1000000, cache := 0xA2, cacheSize := 2 } }

/-- A range decoder that reads from the third byte of `cin`. -/
def readingBits (range code : Word) (cin : List Byte) : State :=
  { State.reset with
    cin := cin, session := { Session.reset with rdec := { range := range, code := code, inPos := 2 } } }

/-- `s` with the host's next access `a`. -/
def asking (a : HostAccess) (s : State) : State := { s with pending := [a] }

/-- The memories' canonical form and the unchanged cells. -/
theorem reset_cells (cell : Cell) : Cells.init.get cell = 1024 := by
  obtain ⟨a, i⟩ := cell
  cases a <;> rfl

theorem init_reachable : Cells.init.reachable := fun cell => by rw [reset_cells]; unfold probReachable; decide

/-! ### WellFormed refuses -/

theorem test_wellFormed_refuses_short_match : (Instr.matchSym 1 0).wellFormed = false := by decide
theorem test_wellFormed_refuses_end_distance : (Instr.matchSym 2 0xFFFFFFFF).wellFormed = false := by decide
theorem test_wellFormed_refuses_long_rep :
    (Instr.rep0 274).wellFormed = false ∧ (Instr.rep1 274).wellFormed = false ∧ (Instr.rep2 274).wellFormed = false ∧
    (Instr.rep3 274).wellFormed = false := by decide
theorem test_wellFormed_refuses_zero_end : (Instr.endMark 0).wellFormed = false := by decide

/-! ### Decoding, the bits written out from R123, R126, R127, R130 and R150 -/

theorem test_decode_lit : decode (.decisions [false, true, true, true, true, false, false, false, true]) =
    .ok (.lit 0xF1) := by decide
/-- Length 10 is 10 000; distance 199 is slot 15 (001111), direct 000 after base 192, align 7 as 1110 (V-T4). -/
theorem test_decode_match : decode (.decisions
    [true, false, true, false, false, false, false, false, false, true, true, true, true,
     false, false, true, true, true, false]) = .ok (.matchSym 10 199) := by decide
theorem test_decode_match_footer_tree : decode (.decisions
    [true, false, false, false, false, true, false, false, false, true, false, false, true]) =
    .ok (.matchSym 3 5) := by decide
theorem test_decode_shortRep : decode (.decisions [true, true, false, false]) = .ok .shortRep := by decide
theorem test_decode_rep0 : decode (.decisions [true, true, false, true, false, true, true, true]) =
    .ok (.rep0 9) := by decide
theorem test_decode_rep1 : decode (.decisions [true, true, true, false, true, false, true, true, true]) =
    .ok (.rep1 17) := by decide
theorem test_decode_rep2 : decode (.decisions
    [true, true, true, true, false, true, true, false, false, false, false, false, false, false, true]) =
    .ok (.rep2 19) := by decide
theorem test_decode_rep3 : decode (.decisions [true, true, true, true, true, false, false, false, true]) =
    .ok (.rep3 3) := by decide
theorem test_decode_end : decode (.decisions
    ([true, false, false, false, false, false] ++ List.replicate 6 true ++ List.replicate 26 true ++
     List.replicate 4 true)) = .ok (.endMark 2) := by decide
theorem test_decode_commands :
    [0, 1, 2, 3, 4, 5].map decodeCommand =
      [.ok .nop, .ok .encOpen, .ok .encStep, .ok .decOpen, .ok .decStep, .ok .close] := by decide
theorem test_decode_rejects :
    decode (.word 6) = .error .illegalOp ∧ decode (.word 0x11) = .error .reservedBits ∧
    decode (.word 0x16) = .error .illegalOp ∧ decode (.decisions [true, true, false]) = .error .truncated ∧
    decode (.decisions [true, true, false, false, false]) = .error .trailing := by decide
/-- V-T4. -/
theorem test_posSlot :
    [0, 3, 4, 5, 6, 11, 12, 127, 128, 199, 4095, 4096, 65535, 0x3FFFFFFF, 0xFFFFFFFF].map posSlot =
      [0, 3, 4, 4, 5, 6, 7, 13, 14, 15, 23, 24, 31, 59, 63] := by decide

/-! ### The host's numbered words -/

theorem test_fetch_lit : nextIs (step (State.reset.withFetchWord 9 0b100000100)) (fun t => t.win == [0x41]) = true := by
  decide +kernel
/-- A SHORTREP, MATCH or REPk as the first symbol has no source (V-D5, V-D6). -/
theorem test_fetch_first_copies :
    nextIs (step (State.reset.withFetchWord 4 0b0011)) (faultIs .dataError 2) = true ∧
    nextIs (step (State.reset.withFetchWord 12 1)) (faultIs .dataError 1) = true ∧
    nextIs (step (State.reset.withFetchWord 8 0b1011)) (faultIs .dataError 1) = true ∧
    nextIs (step (State.reset.withFetchWord 8 0b0111)) (faultIs .dataError 1) = true ∧
    nextIs (step (State.reset.withFetchWord 9 0b001111)) (faultIs .dataError 1) = true ∧
    nextIs (step (State.reset.withFetchWord 9 0b011111)) (faultIs .dataError 1) = true := by decide +kernel
/-- END ends a session of UNKNOWN size (V-D2, P3). -/
theorem test_fetch_end :
    nextIs (step (State.reset.withFetchWord 42 (0x3FFFFFFFFFF - 0b111110)))
      (fun t => t.regs.phase == .done && t.session.state == 7 && t.session.reps.r0 == 0xFFFFFFFF) = true := by
  decide +kernel

/-! ### Commands -/

/-- V-C1. -/
theorem test_encOpen : nextIs (exec .encOpen State.reset)
    (fun t => t.regs.phase == .encReady && regRead t 8 == 0x5D && regRead t 9 == 0x00400000) = true := by decide +kernel
/-- V-C11: EPROPS0 of CFG 0x00088184. -/
theorem test_encOpen_props :
    (openEncRegs { HostRegs.reset with cfg := 0x00088184 }).eprops0 = 0x8B := by decide
/-- V-E3. -/
theorem test_encStep_one_byte : nextIs (exec .encStep (encOpened [0x41]))
    (fun t => t.regs.phase == .done && t.out == [0x00, 0x20, 0x7F, 0xFC, 0x00, 0x00] && t.regs.inCount == 1) = true := by
  decide +kernel
/-- V-E9 (P1). -/
theorem test_encStep_match :
    nextIs (exec .encStep (encOpened [0x61, 0x62, 0x63, 0x61, 0x62, 0x63, 0x61, 0x62, 0x63]))
      (fun t => t.out == [0x00, 0x30, 0x98, 0x88, 0xA6, 0x1C, 0xC1, 0x00, 0x00] && t.session.state == 7 &&
        t.session.reps == { r0 := 2, r1 := 0, r2 := 0, r3 := 0 }) = true := by decide +kernel
/-- V-R9 and V-C20. -/
theorem test_decOpen : nextIs (exec .decOpen { State.reset with
      regs := { HostRegs.reset with dprops0 := 0xE0 }, cin := [0x00, 0x20, 0x7F, 0xFC, 0x00, 0x00] })
    (fun t => t.regs.phase == .decReady && t.session.rdec == { range := 0xFFFFFFFF, code := 0x207FFC00, inPos := 5 } &&
      t.session.props == { lc := 8, lp := 4, pb := 4, dictSize := 0x00400000 }) = true := by decide +kernel
/-- V-D9. -/
theorem test_decOpen_first_byte :
    nextIs (exec .decOpen { State.reset with cin := [0x01, 0x00, 0x00, 0x00, 0x00] })
      (fun t => faultIs .dataError 5 t && t.regs.inCount == 1) = true := by decide
/-- V-D8: LIT 'A', REP0 3. -/
theorem test_decStep :
    nextIs (exec .decStep (nextOf (exec .decOpen { State.reset with
        regs := { HostRegs.reset with outsizeLo := 4, outsizeHi := 0 }
        cin := [0x00, 0x20, 0xE8, 0x7C, 0x00, 0x00, 0x00] })))
      (fun t => t.regs.phase == .done && t.win == [0x41, 0x41, 0x41, 0x41] && t.regs.inCount == 7) = true := by
  decide +kernel
/-- V-D7. -/
theorem test_decStep_past_size :
    nextIs (exec .decStep (nextOf (exec .decOpen { State.reset with
        regs := { HostRegs.reset with outsizeLo := 2, outsizeHi := 0 }
        cin := [0x00, 0x20, 0xE8, 0x7C, 0x00, 0x00, 0x00] })))
      (fun t => faultIs .dataError 3 t && t.regs.inCount == 7 && t.regs.outCount == 1) = true := by decide +kernel
/-- V-C18. -/
theorem test_close : nextIs (exec .close (enterFault .dataError 3 midStream))
    (fun t => t.regs.phase == .idle && regRead t 7 == 0 && t.regs.outCount == 3) = true := by decide
/-- V-C17. -/
theorem test_nop : exec .nop midStream = .next midStream := rfl

/-! ### Symbols and the stream -/

theorem test_lit : nextIs (exec (.lit 0x41) midStream) (fun t => t.win == [0x78, 0x79, 0x7A, 0x41]) = true := by
  decide
/-- A copy that overlaps its own output (R411). -/
theorem test_match_overlap : nextIs (exec (.matchSym 5 1) midStream)
    (fun t => t.win == [0x78, 0x79, 0x7A, 0x79, 0x7A, 0x79, 0x7A, 0x79] &&
      t.session.reps == { r0 := 1, r1 := 1, r2 := 2, r3 := 0 } && t.session.state == 7) = true := by decide
theorem test_shortRep : nextIs (exec .shortRep midStream)
    (fun t => t.win == [0x78, 0x79, 0x7A, 0x79] && t.session.state == 9) = true := by decide
theorem test_rep1 : nextIs (exec (.rep1 2) midStream)
    (fun t => t.win == [0x78, 0x79, 0x7A, 0x78, 0x79] &&
      t.session.reps == { r0 := 2, r1 := 1, r2 := 0, r3 := 3 }) = true := by decide
theorem test_rep3_no_source : nextIs (exec (.rep3 2) midStream) (faultIs .dataError 1) = true := by decide
/-- V-D4. -/
theorem test_end_early : nextIs (exec (.endMark 2) midStream) (faultIs .dataError 4) = true := by decide
/-- P4: every kind of rep, matched literals. -/
theorem test_assemble_p4 :
    assemble 3 0 2 [.lit 0x78, .lit 0x79, .matchSym 2 1, .rep0 4, .lit 0x7A, .matchSym 5 8, .shortRep, .rep1 3,
        .lit 0x78, .rep2 2, .rep3 2] =
      some [0x00, 0x3C, 0x1E, 0x5C, 0x07, 0x48, 0xF5, 0x19, 0x8C, 0x9B, 0x07, 0xBE, 0x89, 0x25, 0x6C, 0x00, 0x00] := by
  decide +kernel
/-- P3. -/
theorem test_assemble_end : assemble 3 0 2 [.endMark 2] =
    some [0x00, 0x83, 0xFF, 0xFB, 0xFF, 0xFF, 0xC0, 0x00, 0x00, 0x00] := by decide +kernel
/-- V-D5 and V-D6: the assembler codes what a decoder refuses. -/
theorem test_assemble_illegal :
    assemble 3 0 2 [.matchSym 2 0] = some [0x00, 0x7F, 0xFF, 0xFC, 0x00, 0x00] ∧
    assemble 3 0 2 [.shortRep] = some [0x00, 0xBF, 0xFF, 0xFC, 0x00] ∧
    assemble 3 0 2 [.matchSym 1 0] = none ∧ assemble 3 0 2 [.nop] = none := by decide +kernel
/-- V-R8: the carry of the direct bits. -/
theorem test_direct_bits : (match (do encodeDirectBits 0x3FFFFFF 26; flushEncoder : Act Unit) coding with
    | .ok _ t => some t.out
    | .error _ _ => none) = some [0x00, 0xFF, 0xFF, 0xFF, 0xB7, 0x00, 0x00, 0x40] := by decide +kernel
/-- V-M: `abXabYab` under BT4, position 3. -/
theorem test_getMatches :
    (match (do skip 3; getMatches : Act (List MatchPair)) (encoding [0x61, 0x62, 0x58, 0x61, 0x62, 0x59, 0x61, 0x62]) with
    | .ok pairs _ => some pairs
    | .error _ _ => none) = some [{ len := 2, dist := 2 }] := by decide

/-! ### Witnesses: states and operands that meet the hypotheses of the statements -/

theorem witness_DecodeInvertsEncode :
    (Instr.matchSym 2 0).wellFormed = true ∧ (Instr.matchSym 273 0xFFFFFFFE).wellFormed = true ∧
    (Instr.endMark 273).wellFormed = true ∧ Instr.close.wellFormed = true := by decide

/-- A symbol with bits after it; the longest symbol takes all of 48 bits, and 47 of them are too few. -/
theorem witness_EncodeInvertsDecode :
    decodeSymbol [true, true, false, false, true] = .ok (.shortRep, [true]) ∧
    (List.replicate 48 false).length = 48 ∧
    decodeSymbol (true :: false :: List.replicate 45 true) = .error .truncated ∧
    decodeSymbol (true :: false :: List.replicate 46 true) = .ok (.endMark 273, []) := by decide

/-- Each clause has a word, at the bounds 5 and 6 of the op and 16 of the reserved bits. -/
theorem witness_CommandWordsDecode :
    decodeCommand 5 = .ok .close ∧ encode .close = .word 5 ∧ decodeCommand 6 = .error .illegalOp ∧
    decodeCommand 0x10 = .error .reservedBits ∧ decodeCommand 0xFFFFFFF6 = .error .illegalOp := by decide

theorem witness_PosSlotCoversDistances :
    posSlot 3 = 3 ∧ posSlot 4 = 4 ∧ posSlot (2 ^ 32 - 1) = 63 ∧ 2 ^ 30 - 1 < 2 ^ slotFooterBits 63 ∧
    0 < 2 ^ slotFooterBits 4 ∧ posSlot (slotBase 63 + (2 ^ 30 - 1)) = 63 := by decide

theorem witness_PropsByteDecodes :
    decodePropsByte 224 = some (8, 4, 4) ∧ decodePropsByte 225 = none ∧ decodePropsByte 0 = some (0, 0, 0) := by decide

theorem witness_StepRunsDecodedCommand :
    (asking (.regWrite 0 5) State.reset).pending = .regWrite 0 5 :: [] ∧ decodeCommand 5 = .ok .close := by decide

/-- A session, 2^16 of dictionary, at the stream that codes the symbol `i` next. -/
def nextSymbol (i : Instr) (s : State) : State := { placeSymbol i s with pending := [] }

/-- What the next symbol of a session does. -/
def runsSymbol (s : State) (f : Instr → State → State → Bool) : Bool :=
  match fetchSymbol s with
  | .ok i s1 => nextIs (exec i s1) (f i s1)
  | .error _ _ => false

/-- The four ways a symbol leaves DEC_STEP. -/
theorem witness_DecStepRunsFetchedSymbol :
    runsSymbol (nextSymbol (.endMark 2) midStream)
      (fun i _ t => i == .endMark 2 && !(nextSymbol (.endMark 2) midStream).sizeReached && t.regs.phase == .done) = true ∧
    runsSymbol (nextSymbol (.rep3 2) midStream)
      (fun i _ t => i == .rep3 2 && !(nextSymbol (.rep3 2) midStream).sizeReached && t.regs.phase == .fault) = true ∧
    runsSymbol (nextSymbol .shortRep midStream)
      (fun i _ t => i == .shortRep && !(nextSymbol .shortRep midStream).sizeReached && t.regs.phase == .decReady &&
        t.sizeReached) = true ∧
    runsSymbol midStreamOpen (fun _ _ t => !midStreamOpen.sizeReached && t.regs.phase == .decReady && !t.sizeReached) =
      true := by decide +kernel

/-- A reset before DONE in each kind of session, one after a fault, and one that abandons no session. -/
theorem witness_ResetState :
    (asking .reset midStream).pending = .reset :: [] ∧
    (let s := { asking .reset midStream with out := [9] }
     nextIs (step s) (fun t => t.win == [0x78, 0x79, 0x7A] && t.out == []) = true) ∧
    (let s := { asking .reset (encoding []) with out := [1, 2], win := [9] }
     nextIs (step s) (fun t => t.out == [1, 2] && t.win == []) = true) ∧
    nextIs (step (asking .reset (enterFault .dataError 3 midStream))) (fun t => t.win == [0x78, 0x79, 0x7A]) = true ∧
    nextIs (step { asking .reset State.reset with out := [1], win := [2] }) (fun t => t.out == [] && t.win == []) = true ∧
    nextIs (step { asking .reset State.reset with regs := { HostRegs.reset with phase := .done }, win := [2] })
      (fun t => t.out == [] && t.win == []) = true := by
  decide

theorem witness_RegWriteStores :
    (asking (.regWrite 3 0x1FF) State.reset).pending = .regWrite 3 0x1FF :: [] ∧ (3 : Fin 16) ≠ 0 ∧
    (1 : Fin 16) ∈ ([1, 2, 4, 5, 6] : List (Fin 16)) ∧ (7 : Fin 16) ≤ 7 ∧ (7 : Fin 16) ≤ 15 ∧ (7 : Fin 16) ≠ 6 := by
  decide

theorem witness_RegReadReturns : (asking (.regRead 7) State.reset).pending = .regRead 7 :: [] := rfl

theorem witness_HostMovesKeepTheCore :
    State.reset.pending = [] ∧ (asking (.placeIn [1]) State.reset).pending = .placeIn [1] :: [] ∧
    (asking (.placeIn [1]) State.reset).regs.phase ≠ .encReady ∧
    (asking (.supplyCin [1]) (encoding [])).pending = .supplyCin [1] :: [] ∧
    (asking (.placeIn [1]) (encoding [])).regs.phase = .encReady ∧
    (asking (.placeIn [1]) (encoding [])).pending = .placeIn [1] :: [] ∧
    nextIs (step (asking (.regRead 1) (encoding []))) (fun _ => true) = true := by decide

theorem witness_NopCompletes :
    (asking (.regWrite 0 0x10) State.reset).pending = .regWrite 0 0x10 :: [] ∧ (0x10 : Word).toNat % 16 = 0 ∧
    (0x10 : Word) ≠ 0 := by decide

/-- A configuration ENC_OPEN accepts. -/
def configOk (s : State) : Bool :=
  mayOpen s.regs.phase && decide (cfgLc s.regs.cfg ≤ 8 ∧ cfgLp s.regs.cfg ≤ 4 ∧ cfgPb s.regs.cfg ≤ 4 ∧
    5 ≤ cfgNumFastBytes s.regs.cfg ∧ cfgNumFastBytes s.regs.cfg ≤ 273 ∧ 2 ^ 12 ≤ s.regs.dict.toNat ∧
    s.regs.dict.toNat ≤ 2 ^ 30 ∧ cfgReserved s.regs.cfg = 0)

/-- At reset, and at both ends of every range, under each match finder. -/
theorem witness_EncOpenCompletes :
    configOk State.reset = true ∧ configOk (configured 0x00001400 0x1000) = true ∧
    configOk (configured 0x001C4648 0x40000000) = true ∧ cfgMfKind 0x00001400 = .bt2 ∧ cfgMfKind 0x001C4648 = .bt4 ∧
    (cfgLc 0x001C4648, cfgLp 0x001C4648, cfgPb 0x001C4648, cfgNumFastBytes 0x001C4648) = (8, 4, 4, 273) ∧
    cfgNumFastBytes 0x00001400 = 5 := by decide

theorem witness_EncOpenFillsPrices :
    mayOpen State.reset.regs.phase = true ∧
    nextIs (exec .encOpen State.reset)
      (fun t => t.regs.phase == .encReady && regRead t 8 == 0x5D && regRead t 9 == 0x00400000) = true ∧
    127 < 128 ∧ 43 < distTableSize 0x00400000 ∧ 32 ≤ cfgNumFastBytes State.reset.regs.cfg :=
  ⟨rfl, test_encOpen, by decide, by decide, by decide⟩

/-- V-C2 to V-C9 and V-C19. -/
theorem witness_ConfigChecks :
    8 < cfgLc 0x00088109 ∧ (cfgLc 0x00088153 ≤ 8 ∧ 4 < cfgLp 0x00088153) ∧
    (cfgLc 0x00088283 ≤ 8 ∧ cfgLp 0x00088283 ≤ 4 ∧ 4 < cfgPb 0x00088283) ∧
    (cfgPb 0x00081103 ≤ 4 ∧ cfgNumFastBytes 0x00081103 = 4) ∧ (cfgPb 0x000C4903 ≤ 4 ∧ cfgNumFastBytes 0x000C4903 = 274) ∧
    (5 ≤ cfgNumFastBytes 0x00088103 ∧ cfgNumFastBytes 0x00088103 ≤ 273 ∧ (0xFFF : Word).toNat < 2 ^ 12 ∧
      2 ^ 30 < (0x40000001 : Word).toNat) ∧
    (cfgLc 0x00288103 ≤ 8 ∧ cfgLp 0x00288103 ≤ 4 ∧ cfgPb 0x00288103 ≤ 4 ∧ 5 ≤ cfgNumFastBytes 0x00288103 ∧
      cfgNumFastBytes 0x00288103 ≤ 273 ∧ cfgReserved 0x00288103 ≠ 0) ∧
    mayOpen State.reset.regs.phase = true ∧ 225 ≤ (0xE1 : Byte).toNat := by decide

theorem witness_DecOpenCompletes :
    mayOpen State.reset.regs.phase = true ∧ State.reset.regs.dprops0.toNat < 225 ∧
    (0xFF, 0xFF, 0xFF, 0xFE) ≠ ((0xFF, 0xFF, 0xFF, 0xFF) : Byte × Byte × Byte × Byte) ∧
    ({ State.reset with cin := [0, 0xFF, 0xFF, 0xFF, 0xFE] } : State).cin = 0 :: 0xFF :: 0xFF :: 0xFF :: 0xFE :: [] := by
  decide

/-- V-D11 and the empty `Cin`, V-D9, V-D10. -/
theorem witness_DecOpenFaults :
    ([0, 0, 0] : List Byte).length < 5 ∧ ([0, 0, 0] : List Byte).head? = some 0 ∧
    ([0, 0xFF, 0xFF, 0xFF] : List Byte).length < 5 ∧
    ([1, 0] : List Byte).head? = some 1 ∧ (1 : Byte) ≠ 0 ∧
    ([0, 0xFF, 0xFF, 0xFF, 0xFF, 0] : List Byte).take 5 = [0, 0xFF, 0xFF, 0xFF, 0xFF] := by decide

/-- A fresh encode session meets the invariant. -/
theorem encoding_inv (inp : List Byte) : EncInv (encoding inp) where
  isEncoder := rfl
  notFinished := rfl
  cells := init_reachable
  coder := by
    show RangeEnc.init.valid
    unfold RangeEnc.valid
    decide
  inCount := rfl
  outCount := rfl
  constants := by
    have h1 : (encoding inp).session = encoderSession 0x00088103 0x00400000 Session.reset := rfl
    rw [h1]
    unfold constantsOk
    decide
  mfPos := by
    show 1 ≤ (1 : Word).toNat ∧ (1 : Word).toNat < 2 ^ 31 - 1
    decide
  noOffset := rfl
  position := rfl
  inInput := Nat.zero_le _
  noChain := rfl
  noSaved := rfl

theorem witness_EncStepDrainedCompletes :
    (encoding []).regs.phase = .encReady ∧ EncInv (encoding []) ∧ (encoding []).session.wf = true ∧
    (encoding []).session.props.pb ≤ 4 ∧ (encoding []).inp.length ≤ (encoding []).session.mf.mfAbs ∧
    (encoding []).session.enc.writeEndMarker = false :=
  ⟨rfl, encoding_inv _, by decide, by decide, by decide, rfl⟩

theorem witness_EncStepOneByteCompletes :
    (encoding [7]).regs.phase = .encReady ∧ EncInv (encoding [7]) ∧ (encoding [7]).session.wf = true ∧
    (encoding [7]).inp = [7] ∧ (encoding [7]).session.enc.nowPos = 0 ∧ (encoding [7]).session.props.lc ≤ 8 ∧
    (encoding [7]).session.props.lp ≤ 4 ∧ (encoding [7]).session.props.pb ≤ 4 ∧ (encoding [7]).session.state = 0 ∧
    (encoding [7]).session.enc.prevByte = 0 ∧ (∀ cell, (encoding [7]).session.cells.get cell = 1024) ∧
    (encoding [7]).session.renc = RangeEnc.init ∧ (encoding [7]).out = [] ∧
    (encoding [7]).session.enc.writeEndMarker = false :=
  ⟨rfl, encoding_inv _, by decide, rfl, rfl, by decide, by decide, by decide, rfl, rfl, reset_cells, rfl, rfl, rfl⟩

/-- `[7, 7, 7, 7, 7]` with the first byte coded and the match finder at its end. -/
def atSecondByte : State :=
  (encoding [7, 7, 7, 7, 7]).mapSession fun ss =>
    { ss with
      enc := { ss.enc with nowPos := 1, prevByte := 7, additionalOffset := 4 }
      mf := { ss.mf with mfPos := 6 } }

/-- A coder at the same point: a LIT, then the kinds of copy the byte before allows, at their length bounds. -/
theorem witness_EncodeStepEmitsSymbol :
    CanCode atSecondByte ∧ SameCoder atSecondByte { codingState 3 0 2 with win := [7] } ∧
    stepLegal atSecondByte 1 backChar ∧ stepLegal atSecondByte 1 0 ∧ stepLegal atSecondByte 2 0 ∧
    stepLegal atSecondByte 4 3 ∧ stepLegal atSecondByte 2 4 ∧ stepLegal atSecondByte 4 4 ∧
    atSecondByte.inp[atSecondByte.session.enc.nowPos]? = some 7 ∧
    atSecondByte.session.mf.mfAbs =
      atSecondByte.session.enc.nowPos + atSecondByte.session.enc.additionalOffset ∧
    4 ≤ atSecondByte.session.enc.additionalOffset ∧
    [stepSymbol 7 1 backChar, stepSymbol 7 1 0, stepSymbol 7 2 0, stepSymbol 7 4 3, stepSymbol 7 2 4] =
      [.lit 7, .shortRep, .rep0 2, .rep3 4, .matchSym 2 0] := by
  refine ⟨⟨by unfold RangeEnc.valid; decide, init_reachable, by decide, by decide, by decide, rfl, rfl, by decide⟩,
    ⟨rfl, rfl, rfl, rfl, rfl, rfl, rfl, rfl, rfl, by decide, rfl, by decide⟩, ?_, ?_, ?_, ?_, ?_, ?_, rfl, rfl, by decide,
    by decide⟩ <;> unfold stepLegal repeatsFrom <;> decide

/-- An opened session after no yields; over the empty input too the first symbol is the rule's. -/
theorem witness_EncStepCodesInput :
    nextIs (exec .encOpen State.reset)
      (fun t => t.regs.phase == .encReady && regRead t 8 == 0x5D && regRead t 9 == 0x00400000) = true ∧
    encSteps 0 (encOpened [0x61]) = some (encOpened [0x61]) ∧ State.reset.inp.head?.map Instr.lit = none :=
  ⟨test_encOpen, rfl, rfl⟩

/-- One ENC_STEP ends the session (V-E3), and a decoder is ready for its stream: of known size, and of UNKNOWN size with
END. -/
theorem witness_EncodedInputDecodes :
    nextIs (exec .encStep (encOpened [0x41]))
      (fun t => t.regs.phase == .done && t.out == [0x00, 0x20, 0x7F, 0xFC, 0x00, 0x00] && t.regs.inCount == 1) = true ∧
    (∀ s t : State, exec .encStep s = .next t → encSteps 1 s = some t) ∧
    mayOpen State.reset.regs.phase = true ∧ declaredSize State.reset.regs = none ∧
    declaredSize { State.reset.regs with outsizeLo := 1, outsizeHi := 0 } = some [(0x41 : Byte)].length ∧
    cfgWriteEndMarker 0x00188103 = true ∧ configOk (configured 0x00188103 0x1000) = true :=
  ⟨test_encStep_one_byte, fun s t h => by simp only [encSteps, h], rfl, by decide, by decide, by decide, by decide⟩

/-- A session with a chain of fifteen REP0s of 273 bytes to emit, after the first byte: one chunk in all. -/
def chainPending : State :=
  (encoding (List.replicate 4097 0)).mapSession fun ss =>
    { ss with
      enc := { ss.enc with additionalOffset := 4095 }
      mf := { ss.mf with mfPos := 4096 }
      opt := { ss.opt with
        nodes := (List.range 15).map fun k => (273 * k, { optZero with posPrev := 273 * (k + 1) })
        optimumEndIndex := 4095 } }

/-- An ENC_STEP that yields at the end of the chunk, with one byte left. -/
theorem witness_EncStepYields :
    nextIs (exec .encStep chainPending) (fun t => t.regs.phase == .encReady && t.session.enc.nowPos == 4096 &&
      t.session.mf.mfAbs == 4096) = true := by decide +kernel

/-- The session of V-E3. -/
theorem witness_EncStepFrame :
    nextIs (exec .encStep (encOpened [0x41]))
      (fun t => t.regs.phase == .done && t.out == [0x00, 0x20, 0x7F, 0xFC, 0x00, 0x00] && t.regs.inCount == 1) = true :=
  test_encStep_one_byte

theorem witness_DecStepFrame :
    nextIs (exec .decStep midStream) (fun t => faultIs .sourceExhausted 0 t || t.regs.phase == .done) = true := by
  decide +kernel

/-- At the declared size, and past it. -/
theorem witness_DecStepAtSizeCompletes :
    midStream.regs.phase = .decReady ∧ midStream.session.dec.outSize = some 9 ∧
    9 ≤ (decoding (List.replicate 9 0) Reps.zero 0 []).outPos ∧
    9 ≤ (decoding (List.replicate 10 0) Reps.zero 0 []).outPos := by decide

theorem witness_IllegalCommands :
    6 ≤ (0xFFFFFFF6 : Word).toNat % 16 ∧ (0x15 : Word).toNat % 16 < 6 ∧ (0x15 : Word).toNat / 16 ≠ 0 ∧
    (asking (.regWrite 0 6) State.reset).pending = .regWrite 0 6 :: [] ∧
    (encoding []).regs.phase = .encReady ∧ midStream.regs.phase = .decReady ∧ midStream.regs.phase ≠ .encReady := by
  decide

theorem witness_FaultEntry :
    (raise .dataError 5 : Act Unit) State.reset = .error (.raised .dataError 5) State.reset := rfl

/-- A reset, and a command that opens a session; a command in the wrong phase. -/
theorem witness_PhaseMachine :
    nextIs (step (asking .reset midStream)) (fun t => t.regs.phase == .idle) = true ∧
    nextIs (step (asking (.regWrite 0 3) { State.reset with cin := [0, 0, 0, 0, 0] }))
      (fun t => t.regs.phase == .decReady) = true ∧
    nextIs (step (asking (.regWrite 0 2) State.reset)) (fun t => t.regs.phase == .fault) = true ∧
    nextIs (step (asking (.regWrite 0 5) midStream)) (fun t => t.regs.phase == .idle) = true := by decide +kernel

theorem witness_ConfigurationRegistersKept :
    nextIs (step (asking (.regWrite 1 7) State.reset)) (fun t => regRead t 2 == 0x00400000) = true ∧
    (asking (.regWrite 1 7) State.reset).pending.head? ≠ some .reset ∧
    (asking (.regWrite 1 7) State.reset).pending.head? ≠ some (.regWrite 0 1) := by decide

theorem witness_ShortRepCompletes :
    midStream.session.reps.r0.toNat < midStream.outPos ∧
    midStream.win[midStream.outPos - midStream.session.reps.r0.toNat - 1]? = some 0x79 ∧
    State.reset.outPos ≤ State.reset.session.reps.r0.toNat := by decide

/-- REP1 reaches the first byte of `Win`, and its length the declared size. -/
theorem witness_RepCompletes :
    (1, Instr.rep1 6) ∈ [(0, Instr.rep0 6), (1, Instr.rep1 6), (2, Instr.rep2 6), (3, Instr.rep3 6)] ∧
    (Instr.rep1 6).wellFormed = true ∧ (midStream.session.reps.get 1).toNat < midStream.outPos ∧
    (midStream.session.reps.get 1).toNat < midStream.session.dec.dictCheck ∧
    midStream.session.dec.outSize = some 9 ∧ midStream.outPos + 6 ≤ 9 := by decide

theorem witness_MatchCompletes :
    (Instr.matchSym 6 2).wellFormed = true ∧ (2 : Word).toNat < midStream.outPos ∧
    (2 : Word).toNat < midStream.session.dec.dictCheck ∧ midStream.session.dec.outSize = some 9 ∧
    midStream.outPos + 6 ≤ 9 := by decide

theorem witness_EndCompletes :
    midStream.session.dec.dictCheck < 2 ^ 32 ∧ midStream.session.dec.outSize = some 9 ∧ midStream.outPos ≠ 9 ∧
    (decoding (List.replicate 9 0) Reps.zero 0 []).session.dec.outSize =
      some (decoding (List.replicate 9 0) Reps.zero 0 []).outPos ∧
    State.reset.session.dec.outSize = none := by decide

/-- The distance 3 is the first that is refused after three bytes, and 7 the first length past the size. -/
theorem witness_CopyFaults :
    midStream.outPos ≤ (midStream.session.reps.promote 3).r0.toNat ∧
    (midStream.session.reps.promote 1).r0.toNat < midStream.outPos ∧
    (midStream.session.reps.promote 1).r0.toNat < midStream.session.dec.dictCheck ∧ 9 < midStream.outPos + 7 ∧
    (3 : Word) ≠ 0xFFFFFFFF ∧ midStream.session.dec.dictCheck ≤ (0x10000 : Word).toNat := by decide

theorem witness_RunRepeatsByte :
    State.reset.session.reps.r0 = 0 ∧ 1 ≤ State.reset.session.dec.dictCheck ∧ State.reset.session.dec.outSize = none ∧
    (match (expandRun 7 275).foldlM (fun _ i => symbolAct i) () State.reset with
      | .ok _ t => t.win == List.replicate 275 7
      | .error _ _ => false) = true := by decide +kernel

theorem witness_CellUpdate : 31 ≤ (31 : Prob).toNat ∧ (2017 : Prob).toNat ≤ 2017 ∧
    (updateProb 31 true).toNat = 31 ∧ (updateProb 2017 false).toNat = 2017 := by decide

/-- From the session start no normalisation follows (V-R2), from the least range one does. -/
theorem witness_EncodeBitEffect :
    (RangeEnc.init.valid ∧ probReachable (Cells.init.get ⟨.isMatch, 191⟩) ∧
      191 < CellArray.isMatch.size Session.reset.props ∧ 2 ^ 24 ≤ 0xFFFFFFFF / 2 ^ 11 * 1024) ∧
    (pendingByte 0).session.renc.valid ∧ 2 ^ 24 / 2 ^ 11 * 1024 < 2 ^ 24 :=
  ⟨⟨by unfold RangeEnc.valid; decide, init_reachable _, by decide, by decide⟩, by unfold RangeEnc.valid; decide, by decide⟩

/-- Each case of ShiftLow at its bound. -/
theorem witness_ShiftLowEffect :
    1 ≤ (pendingByte 0xFF000000).session.renc.cacheSize ∧
    (0xFF000000 ≤ (pendingByte 0xFF000000).session.renc.low.toNat ∧
      (pendingByte 0xFFFFFFFF).session.renc.low.toNat < 2 ^ 32) ∧
    (pendingByte 0xFEFFFFFF).session.renc.low.toNat < 0xFF000000 ∧
    2 ^ 32 ≤ (pendingByte 0x100000000).session.renc.low.toNat := by decide

theorem witness_EncoderInvariantKept :
    (coding.session.renc.valid ∧ coding.session.cells.reachable ∧ coding.session.cells.wf = true) ∧
    (match encodeBit ⟨.isMatch, 0⟩ true coding with | .ok _ _ => true | .error _ _ => false) = true ∧
    (match encodeDirectBits 5 3 coding with | .ok _ _ => true | .error _ _ => false) = true ∧
    (match shiftLow coding with | .ok _ _ => true | .error _ _ => false) = true :=
  ⟨⟨by unfold RangeEnc.valid; decide, init_reachable, by decide⟩, by decide, by decide,
    by decide⟩

/-- With no normalisation, with one, and with `Cin` at its end. -/
theorem witness_DecodeBitEffect :
    ((readingBits 0xFFFFFFFF 0 []).session.rdec.valid ∧
      probReachable ((readingBits 0xFFFFFFFF 0 []).session.cells.get ⟨.isMatch, 0⟩) ∧
      0 < CellArray.isMatch.size Session.reset.props ∧ 2 ^ 24 ≤ 0xFFFFFFFF / 2 ^ 11 * 1024) ∧
    ((readingBits 0x1000000 0 [1, 2, 3]).session.rdec.valid ∧ 2 ^ 24 / 2 ^ 11 * 1024 < 2 ^ 24 ∧
      (readingBits 0x1000000 0 [1, 2, 3]).cin[2]? = some 3) ∧
    (readingBits 0x1000000 0 [1, 2]).cin[2]? = none :=
  ⟨⟨by unfold RangeDec.valid; decide, init_reachable _, by decide, by decide⟩,
    ⟨by unfold RangeDec.valid; decide, by decide, rfl⟩, rfl⟩

theorem witness_DecoderInvariantKept :
    ((readingBits 0x1000000 0 [1, 2, 3]).session.rdec.valid ∧
      (readingBits 0x1000000 0 [1, 2, 3]).session.cells.reachable ∧
      (readingBits 0x1000000 0 [1, 2, 3]).session.cells.wf = true) ∧
    (match rcDecInit { State.reset with cin := [0, 1, 2, 3, 4] } with | .ok _ _ => true | .error _ _ => false) = true ∧
    (match decodeBit ⟨.isMatch, 0⟩ (readingBits 0x1000000 0 [1, 2, 3]) with
      | .ok _ _ => true | .error _ _ => false) = true ∧
    (match decodeDirectBits 0 2 (readingBits 0x4000000 0 [1, 2, 3]) with
      | .ok _ _ => true | .error _ _ => false) = true :=
  ⟨⟨by unfold RangeDec.valid; decide, init_reachable, by decide⟩, by decide, by decide,
    by decide⟩

/-- Some decisions to code. -/
def someDecisions : List Decision := [.bit ⟨.isMatch, 0⟩ true, .direct 0x3FFFFFF 26, .bit ⟨.isMatch, 0⟩ false]

/-- Their output. -/
def someOutput : List Byte :=
  match (encodeDecisions someDecisions >>= fun _ => flushEncoder) coding with
  | .ok _ t => t.out
  | .error _ _ => []

theorem witness_ReplayLaw :
    coding.session.renc = RangeEnc.init ∧ coding.out = [] ∧ coding.session.cells.reachable ∧
    coding.session.cells.wf = true ∧ (∀ d ∈ someDecisions, d.inArrays coding.session.props) ∧
    (match (encodeDecisions someDecisions >>= fun _ => flushEncoder) coding with
      | .ok _ t => decide (5 < t.out.length)
      | .error _ _ => false) = true ∧
    (match (rcDecInit >>= fun _ => decodeDecisions someDecisions) { State.reset with cin := someOutput } with
      | .ok vs v => vs == [1, 0x3FFFFFF, 0] && v.session.rdec.inPos == someOutput.length
      | .error _ _ => false) = true :=
  ⟨rfl, rfl, init_reachable, by decide, by intro d hd; fin_cases hd <;> simp [Decision.inArrays, CellArray.size], by decide +kernel,
    by decide +kernel⟩

/-- LIT 'A', REP0 3 (V-D8), with the dictionary DPROPS1 has at reset and with one of 0 bytes. -/
theorem witness_AssembledProgramDecodes :
    (∀ i ∈ [Instr.lit 0x41, .rep0 3], isProgramSymbol i = true ∧ ∀ len, i ≠ .endMark len) ∧
    (match codeProgram [.lit 0x41, .rep0 3] (codingState 3 0 2) with
      | .ok _ _ => true
      | .error _ _ => false) = true ∧
    assemble 3 0 2 [.lit 0x41, .rep0 3] = some [0x00, 0x20, 0xE8, 0x7C, 0x00, 0x00, 0x00] ∧
    ([State.reset.regs.dprops1.toNat, 0].all fun dict =>
      match [Instr.lit 0x41, .rep0 3].foldlM (fun _ i => symbolAct i) () (executingState dict) with
        | .ok _ e => decide (e.outPos = 4)
        | .error _ _ => false) = true ∧
    State.reset.regs.dprops0 = propsByte 3 0 2 :=
  ⟨by intro i hi; fin_cases hi <;> simp [isProgramSymbol, Instr.wellFormed, Instr.isCommand, lenOk, Config.kMatchMinLen, Config.kMatchMaxLen],
    by decide +kernel, by decide +kernel, by decide, rfl⟩

/-- Inside `In`, at its two ends, and one past each. -/
theorem witness_MatchLenMeasures :
    (0 ≤ ((encoding [1, 2]).session.mf.mfAbs : Int) + 1 - 0 - 1 ∧
      ((encoding [1, 2]).session.mf.mfAbs : Int) + 2 ≤ ((encoding [1, 2]).inp.length : Int)) ∧
    ((encoding [1, 2]).session.mf.mfAbs : Int) + 0 - 0 - 1 < 0 ∧
    ((encoding [1, 2]).inp.length : Int) < ((encoding [1, 2]).session.mf.mfAbs : Int) + 3 := by decide

/-- Where no normalisation follows and where one does, with a stored position live and one dead in each memory. -/
theorem witness_MovePosAdvances :
    let s := encoding [1, 2]
    let u := s.mapSession fun ss =>
      { ss with
        mf := { ss.mf with
          mfPos := 0x7FFFFFFE
          son := [(0, 0x7FFFFFFD), (1, 5)]
          hash := [(0, 5), (1, 0x7FFFFFFD)] } }
    constantsOk s.session ∧ constantsOk u.session ∧ s.session.wf = true ∧ u.session.wf = true ∧
    1 ≤ s.session.mf.mfPos.toNat ∧ u.session.mf.mfPos.toNat < 2 ^ 31 - 1 ∧
    u.session.mf.mfPos.toNat + 1 = 2 ^ 31 - 1 ∧
    u.session.mf.mfPos.toNat + 1 < (u.session.mf.son.read 0 0).toNat + u.session.mf.cbs ∧
    u.session.mf.mfPos.toNat + 1 < (u.session.mf.hash.read 0 1).toNat + u.session.mf.cbs ∧
    (u.session.mf.son.read 0 1).toNat ≤ u.session.mf.mfPos.toNat + 1 - u.session.mf.cbs :=
  ⟨(encoding_inv [1, 2]).constants, (encoding_inv [1, 2]).constants, by decide, by decide, by decide, by decide,
    by decide, by decide, by decide, by decide⟩

/-- A search that reports a pair, and a skip of as many positions. -/
theorem witness_ReportedLengths :
    constantsOk (encoding [1, 1, 1, 1, 1, 1]).session ∧ (encoding [1, 1, 1, 1, 1, 1]).session.wf = true ∧
    (match tabulate (fun _ => getMatches) 0 2 (encoding [1, 1, 1, 1, 1, 1]) with
      | .ok reports _ => reports == [[], [{ len := 5, dist := 0 }]]
      | .error _ _ => false) = true :=
  ⟨(encoding_inv _).constants, by decide, by decide⟩

/-- The match finder after indexing the first three bytes of `abcabc…`. -/
def afterThree : State :=
  match tabulate (fun _ => getMatches) 0 3 (encoding [0x61, 0x62, 0x63, 0x61, 0x62, 0x63, 0x61, 0x62, 0x63]) with
  | .ok _ t => t
  | .error _ _ => State.reset

/-- An index of three positions, and the report of V-M on it. -/
theorem witness_ReportedPairs :
    constantsOk afterThree.session ∧ Indexed afterThree ∧
    (match getMatches afterThree with
      | .ok pairs _ => pairs == [{ len := 6, dist := 2 }]
      | .error _ _ => false) = true := by
  refine ⟨by unfold constantsOk; decide, ⟨by decide, ?_⟩, by decide⟩
  have hm : afterThree.session.mf.mfAbs = 3 := by decide
  have hk : afterThree.session.enc.mfKind = .bt4 ∧ afterThree.session.props.dictSize = 0x00400000 ∧
      afterThree.session.enc.numFastBytes = 32 := by decide
  rw [hm, hk.1, hk.2.1, hk.2.2]
  cases h : tabulate (fun _ => getMatches) 0 3 (encoding [0x61, 0x62, 0x63, 0x61, 0x62, 0x63, 0x61, 0x62, 0x63]) with
  | ok reports t =>
    have ht : afterThree = t := by unfold afterThree; rw [h]
    exact ⟨_, t, reports, by decide, rfl, by decide, h, by rw [ht]⟩
  | error e t =>
    have hok : (match tabulate (fun _ => getMatches) 0 3
        (encoding [0x61, 0x62, 0x63, 0x61, 0x62, 0x63, 0x61, 0x62, 0x63]) with
      | .ok _ _ => true
      | .error _ _ => false) = true := by decide
    rw [h] at hok
    cases hok

theorem witness_PendingChainServed :
    let s := State.reset.mapSession fun ss => { ss with opt := { ss.opt with optimumEndIndex := 4095 } }
    s.session.opt.optimumEndIndex ≠ s.session.opt.optimumCurrentIndex ∧ s.session.opt.optimumCurrentIndex < 4096 := by
  decide

/-- The invariant in an encode session, and in a decode session. -/
theorem witness_InvariantKept : (encoding [1, 2, 3]).Inv ∧ midStreamOpen.Inv := by
  constructor
  · exact ⟨by decide, by decide, fun _ => rfl, fun _ => encoding_inv _, fun h => by cases h⟩
  · refine ⟨by decide, by decide, fun _ => rfl, (fun h => by cases h), fun _ => ?_⟩
    exact
      { isDecoder := rfl
        cells := init_reachable
        coder := by unfold RangeDec.valid; decide
        inCount := rfl
        outCount := rfl
        bounded := by intro n hn; cases hn; decide
        reps := by unfold repValid; decide
        matchByte := by intro h; revert h; decide }

end Sys2Proof.Tests
end

section
/-!
PROOFS. The host port and the register file: a step as its access, the command a write of CMD runs, reset, register
reads and writes, and the steps that keep the configuration registers (`10_state.md` R32 to R41).
-/

namespace Sys2Proof.Machine

/-! ### The step and its access -/

/-- A step with an access pending is that access. -/
theorem step_cons {s : State} {a : HostAccess} {rest : List HostAccess} (h : s.pending = a :: rest) :
    step s = hostAccess a { s with pending := rest } := by
  simp only [step, h]

theorem regWrite_cmd {w : Word} {i : Instr} (h : decodeCommand w = .ok i) (s : State) :
    regWrite 0 w s = exec i { s with regs := { s.regs with cmd := w } } := by
  simp only [regWrite, issue, h, if_true]
  rfl

theorem regWrite_of_ne {n : Fin 16} (h : n ≠ 0) (v : Word) (s : State) :
    regWrite n v s = .next (s.mapRegs (regStore n v)) := if_neg h

/-- A step on a write of CMD runs the command. -/
theorem step_regWrite_cmd {s : State} {w : Word} {rest : List HostAccess} {i : Instr}
    (hp : s.pending = .regWrite 0 w :: rest) (hi : decodeCommand w = .ok i) :
    step s = exec i { s with pending := rest, regs := { s.regs with cmd := w } } :=
  (step_cons hp).trans (regWrite_cmd hi _)

theorem withFetchWord_command (w : Word) (s : State) : s.withFetchWord 32 w.toNat = placeCommand w s := by
  simp [State.withFetchWord]

/-- Settles O7: the step is the access, and the access the command; `withFetchWord` of 32 bits places that access. -/
theorem stepRunsDecodedCommand : Obligations.StepRunsDecodedCommand := by
  unfold Obligations.StepRunsDecodedCommand
  refine ⟨fun s w rest i hp hi => step_regWrite_cmd hp hi, fun s w i hi => ?_⟩
  rw [withFetchWord_command]
  exact step_regWrite_cmd (placeCommand_pending w s) hi

/-! ### Reset (R480, R481) -/

theorem unfinished_iff (p : Phase) : unfinished p = true ↔ p ≠ .idle ∧ p ≠ .done := by
  cases p <;> decide

/-- Settles O9: the table by evaluation, the access by `resetCore`. -/
theorem resetState : Obligations.ResetState := by
  unfold Obligations.ResetState
  refine ⟨by decide, rfl, rfl, rfl, rfl, rfl, rfl, rfl, fun s rest hp => ?_⟩
  refine ⟨resetCore { s with pending := rest }, step_cons hp, rfl, rfl, ?_, ?_, rfl, rfl, rfl⟩
  · simp only [resetCore_out, Bool.and_eq_true, unfinished_iff, and_assoc]
  · simp only [resetCore_win, Bool.and_eq_true, unfinished_iff, Bool.not_eq_true', and_assoc]

/-! ### Register writes (R32, R33, R35) -/

/-- What a register reads after a store: a stored register the value written, every other one what it read. -/
theorem regRead_regStore (s : State) (m n : Fin 16) (v : Word) :
    regRead (s.mapRegs (regStore n v)) m =
      if m = n ∧ n ≠ 0 ∧ n < 7 then (if n = 3 then u32 (v.toNat % 256) else v) else regRead s m := by
  fin_cases n <;> fin_cases m <;> rfl

/-- A register reads the same in two states with the same register file. -/
theorem regRead_congr {s t : State} (h : t.regs = s.regs) (n : Fin 16) : regRead t n = regRead s n := by
  simp only [regRead, h]

/-- Settles O10, by what each register reads after a store. -/
theorem regWriteStores : Obligations.RegWriteStores := by
  unfold Obligations.RegWriteStores
  intro s n v rest hp hn
  have read (m : Fin 16) := regRead_regStore { s with pending := rest } m n v
  have kept (m : Fin 16) : regRead { s with pending := rest } m = regRead s m := regRead_congr rfl m
  refine ⟨_, (step_cons hp).trans (regWrite_of_ne hn v _), fun hmem => ?_, ?_, fun h7 => ?_, fun m hm => ?_, rfl⟩
  · rw [read]
    fin_cases hmem <;> rfl
  · rintro rfl
    exact read 3
  · rw [read, if_neg (by omega), kept]
  · rw [read, if_neg (fun h => hm h.1), kept]

/-! ### Register reads (R32, R37) -/

theorem phase_code_le (p : Phase) : p.code ≤ 4 := by
  cases p <;> decide

theorem faultClass_code_le (c : FaultClass) : c.code ≤ 5 := by
  cases c <;> decide

/-- STATUS as the number its fields make up: no field reaches into the next. -/
theorem status_toNat (r : HostRegs) :
    r.status.toNat = r.phase.code + 8 * r.isEncoder.toNat + 16 * r.faultClass.code + 256 * r.faultSub.toNat := by
  have hp := phase_code_le r.phase
  have he := r.isEncoder.toNat_le
  have hc := faultClass_code_le r.faultClass
  have hk := r.faultSub.isLt
  rw [HostRegs.status, BitVec.toNat_ofNat]
  omega

/-- Settles O11: STATUS by the widths of its fields. -/
theorem regReadReturns : Obligations.RegReadReturns := by
  unfold Obligations.RegReadReturns
  refine ⟨fun s n rest hp => step_cons hp, fun s => ⟨rfl, rfl, rfl, rfl, rfl⟩, fun s => ?_⟩
  have hstatus : (regRead s 7).toNat = _ := status_toNat s.regs
  have hp := phase_code_le s.regs.phase
  have he := s.regs.isEncoder.toNat_le
  have hc := faultClass_code_le s.regs.faultClass
  have hk := s.regs.faultSub.isLt
  rw [hstatus]
  refine ⟨?_, ?_, ?_, by omega, by omega⟩
  · trans s.regs.phase.code
    · omega
    · cases s.regs.phase <;> rfl
  · rw [← Bool.toNat_eq_one]
    omega
  · trans s.regs.faultClass.code
    · omega
    · cases s.regs.faultClass <;> rfl

/-! ### The configuration registers (R32, R38, R482) -/

/-- The registers the host configures, CFG to OUTSIZE_HI, are the same in `t` as in `s`. -/
structure ConfigKept (s t : State) : Prop where
  cfg : t.regs.cfg = s.regs.cfg
  dict : t.regs.dict = s.regs.dict
  dprops0 : t.regs.dprops0 = s.regs.dprops0
  dprops1 : t.regs.dprops1 = s.regs.dprops1
  outsizeLo : t.regs.outsizeLo = s.regs.outsizeLo
  outsizeHi : t.regs.outsizeHi = s.regs.outsizeHi

/-- So are EPROPS0 and EPROPS1. -/
structure PropsKept (s t : State) : Prop extends ConfigKept s t where
  eprops0 : t.regs.eprops0 = s.regs.eprops0
  eprops1 : t.regs.eprops1 = s.regs.eprops1

theorem configKept_preorder : Act.Preorder ConfigKept where
  refl _ := ⟨rfl, rfl, rfl, rfl, rfl, rfl⟩
  trans _ _ _ h1 h2 := ⟨h2.cfg.trans h1.cfg, h2.dict.trans h1.dict, h2.dprops0.trans h1.dprops0,
    h2.dprops1.trans h1.dprops1, h2.outsizeLo.trans h1.outsizeLo, h2.outsizeHi.trans h1.outsizeHi⟩

theorem propsKept_preorder : Act.Preorder PropsKept where
  refl s := ⟨configKept_preorder.refl s, rfl, rfl⟩
  trans _ _ _ h1 h2 := ⟨configKept_preorder.trans _ _ _ h1.toConfigKept h2.toConfigKept,
    h2.eprops0.trans h1.eprops0, h2.eprops1.trans h1.eprops1⟩

theorem ConfigKept.regRead_eq {s t : State} (h : ConfigKept s t) {n : Fin 16}
    (hn : n ∈ ([1, 2, 3, 4, 5, 6] : List (Fin 16))) : regRead t n = regRead s n := by
  fin_cases hn
  · exact h.cfg
  · exact h.dict
  · exact congrArg (fun b : Byte => u32 b.toNat) h.dprops0
  · exact h.dprops1
  · exact h.outsizeLo
  · exact h.outsizeHi

theorem PropsKept.regRead_eprops {s t : State} (h : PropsKept s t) :
    regRead t 8 = regRead s 8 ∧ regRead t 9 = regRead s 9 :=
  ⟨congrArg (fun b : Byte => u32 b.toNat) h.eprops0, h.eprops1⟩

/-- Where the register file changes in its STATUS fields and counters only, the configuration is kept. -/
theorem propsKept_of_regs {s t : State}
    (h : t.regs = { s.regs with
      cmd := t.regs.cmd, phase := t.regs.phase, isEncoder := t.regs.isEncoder, faultClass := t.regs.faultClass
      faultSub := t.regs.faultSub, inCount := t.regs.inCount, outCount := t.regs.outCount }) : PropsKept s t := by
  refine ⟨⟨?_, ?_, ?_, ?_, ?_, ?_⟩, ?_, ?_⟩ <;> rw [h]

theorem decodeFrame_propsKept {s t : State} (h : decodeFrame s t) : PropsKept s t := by
  refine propsKept_of_regs ?_
  rw [h]

theorem encodeFrame_propsKept {s t : State} (h : encodeFrame s t) : PropsKept s t := by
  refine propsKept_of_regs ?_
  rw [h]

theorem enterFault_propsKept (c : FaultClass) (k : Byte) (s : State) : PropsKept s (enterFault c k s) :=
  propsKept_of_regs rfl

/-! ### The commands keep the configuration -/

theorem inPhase_within {R : State → State → Prop} (hR : Act.Preorder R) (ok : Phase → Bool) {a : Act Unit}
    (h : Act.Within R a) : Act.Within R (inPhase ok a) :=
  Act.Within.bind hR (Act.Within.get hR) fun _ => Act.Within.ite h (Act.Within.raise hR _ _)

theorem setPhase_propsKept (p : Phase) : Act.Within PropsKept (setPhase p) := fun _ => propsKept_of_regs rfl

theorem endStep_propsKept (p : Progress) : Act.Within PropsKept (endStep p) := by
  cases p with
  | more => exact Act.Within.pure propsKept_preorder _
  | done => exact setPhase_propsKept .done

theorem actEncStep_propsKept : Act.Within PropsKept actEncStep :=
  inPhase_within propsKept_preorder _ <|
    Act.Within.bind propsKept_preorder (codeOneBlock_frame.mono fun _ _ => encodeFrame_propsKept) endStep_propsKept

theorem fillLenTables_frame (ps n : Nat) : Act.Within priceFrame (fillLenTables ps n) := by
  induction n generalizing ps with
  | zero => exact Act.Within.pure priceFrame_preorder _
  | succ n ih =>
    exact Act.Within.bind priceFrame_preorder (updateLenTable_frame _) fun _ =>
      Act.Within.bind priceFrame_preorder (updateRepLenTable_frame _) fun _ => ih _

theorem fillPrices_frame : Act.Within priceFrame fillPrices :=
  Act.Within.bind priceFrame_preorder fillDistancesPrices_frame fun _ =>
    Act.Within.bind priceFrame_preorder fillAlignPrices_frame fun _ =>
      Act.Within.bind priceFrame_preorder (Act.Within.get priceFrame_preorder) fun _ => fillLenTables_frame _ _

/-- ENC_OPEN writes EPROPS0 and EPROPS1, and keeps what the host configured. -/
theorem actEncOpen_configKept : Act.Within ConfigKept actEncOpen := by
  have hR := configKept_preorder
  refine inPhase_within hR _ (Act.Within.bind hR (Act.Within.get hR) fun s => ?_)
  split
  · exact Act.Within.raise hR _ _
  · refine Act.Within.bind hR (fun _ => ⟨rfl, rfl, rfl, rfl, rfl, rfl⟩) fun _ => ?_
    refine Act.Within.bind hR (fun _ => ⟨rfl, rfl, rfl, rfl, rfl, rfl⟩) fun _ => ?_
    refine Act.Within.bind hR (fun _ => ⟨rfl, rfl, rfl, rfl, rfl, rfl⟩) fun _ => ?_
    refine Act.Within.bind hR ?_ fun _ => fun _ => ⟨rfl, rfl, rfl, rfl, rfl, rfl⟩
    exact fillPrices_frame.mono fun _ _ h => (encodeFrame_propsKept (priceFrame_encode h)).toConfigKept

theorem shiftInCodes_frame (n : Nat) : Act.Within bitFrame (shiftInCodes n) := by
  induction n with
  | zero => exact Act.Within.pure bitFrame_preorder _
  | succ n ih => exact Act.Within.bind bitFrame_preorder shiftInCode_frame fun _ => ih

theorem rcDecInit_frame : Act.Within bitFrame rcDecInit := by
  have hR := bitFrame_preorder
  have tail : Act.Within bitFrame (do
      shiftInCodes 4
      let s ← get
      if s.session.rdec.code = 0xFFFFFFFF then raise .dataError 6) :=
    Act.Within.bind hR (shiftInCodes_frame 4) fun _ => Act.Within.bind hR (Act.Within.get hR) fun _ =>
      Act.Within.ite (Act.Within.raise hR _ _) (Act.Within.pure hR _)
  refine Act.Within.bind hR (mapRdec_frame _) fun _ => Act.Within.bind hR readIn_frame fun b0 => ?_
  exact Act.Within.ite (Act.Within.bind hR (Act.Within.raise hR _ _) fun _ => tail)
    tail

theorem actDecOpen_propsKept : Act.Within PropsKept actDecOpen := by
  have hR := propsKept_preorder
  refine inPhase_within hR _ (Act.Within.bind hR (Act.Within.get hR) fun s => ?_)
  refine Act.Within.bind hR (fun _ => propsKept_of_regs rfl) fun _ => ?_
  refine Act.Within.bind hR (fun _ => propsKept_of_regs rfl) fun _ => ?_
  split
  · exact Act.Within.raise hR _ _
  · refine Act.Within.bind hR (fun _ => propsKept_of_regs rfl) fun _ => ?_
    refine Act.Within.bind hR (fun _ => propsKept_of_regs rfl) fun _ => ?_
    refine Act.Within.bind hR ?_ fun _ => setPhase_propsKept .decReady
    exact rcDecInit_frame.mono fun _ _ h => decodeFrame_propsKept (bitFrame_decode h)

/-- Where an action keeps what the fault entry keeps, so does its outcome. -/
theorem outcome_within {R : State → State → Prop} (hR : Act.Preorder R) (hf : ∀ c k s, R s (enterFault c k s))
    {a : Act Unit} (h : Act.Within R a) {s t : State} (ht : outcome a s = .next t) : R s t := by
  rcases h.outcome ht with h | ⟨c, k, u, h, rfl⟩
  · exact h
  · exact hR.trans _ _ _ h (hf c k u)

theorem outcome_propsKept {a : Act Unit} (h : Act.Within PropsKept a) {s t : State} (ht : outcome a s = .next t) :
    PropsKept s t := outcome_within propsKept_preorder enterFault_propsKept h ht

/-- Every instruction but ENC_OPEN keeps the configuration and the properties. -/
theorem exec_propsKept {i : Instr} (hi : i ≠ .encOpen) {s t : State} (h : exec i s = .next t) : PropsKept s t := by
  have symbol (hc : i.isCommand = false) : PropsKept s t :=
    outcome_propsKept ((symbolAct_frame i).mono fun _ _ => decodeFrame_propsKept) (exec_symbol hc s ▸ h)
  cases i with
  | encOpen => exact absurd rfl hi
  | nop =>
    cases h
    exact propsKept_preorder.refl s
  | encStep => exact outcome_propsKept actEncStep_propsKept h
  | decOpen => exact outcome_propsKept actDecOpen_propsKept h
  | decStep => exact outcome_propsKept (actDecStep_frame.mono fun _ _ => decodeFrame_propsKept) h
  | close =>
    cases h
    exact propsKept_of_regs rfl
  | lit | matchSym | shortRep | rep0 | rep1 | rep2 | rep3 | endMark => exact symbol rfl

theorem exec_configKept {i : Instr} {s t : State} (h : exec i s = .next t) : ConfigKept s t := by
  by_cases hi : i = .encOpen
  · subst hi
    exact outcome_within configKept_preorder (fun c k s => (enterFault_propsKept c k s).toConfigKept)
      actEncOpen_configKept h
  · exact (exec_propsKept hi h).toConfigKept

/-- The word of ENC_OPEN (R150). -/
theorem decodeCommand_encOpen {w : Word} (h : decodeCommand w = .ok .encOpen) : w = 1 := by
  unfold decodeCommand at h
  dsimp only at h
  split at h
  · cases h
  · split at h
    · cases h
    · next hz =>
      refine BitVec.eq_of_toNat_eq (show w.toNat = 1 from ?_)
      split at h
      · cases h
      · omega
      · cases h
      · cases h
      · cases h
      · cases h

/-! ### The host's accesses keep the configuration -/

/-- A write of CMD keeps what the host configured, and the properties unless it is ENC_OPEN. -/
theorem issue_kept {w : Word} {s t : State} (h : issue w s = .next t) :
    ConfigKept s t ∧ (w ≠ 1 → PropsKept s t) := by
  unfold issue at h
  split at h
  · next i hi =>
    exact ⟨exec_configKept h, fun hw => exec_propsKept (fun he => hw (decodeCommand_encOpen (he ▸ hi))) h⟩
  · cases h
    exact ⟨(enterFault_propsKept _ _ s).toConfigKept, fun _ => enterFault_propsKept _ _ s⟩

/-- What the access `a` keeps of the register file: the configuration registers it does not write, and the properties
unless it is ENC_OPEN. -/
def AccessKept (a : HostAccess) (s t : State) : Prop :=
  (∀ n : Fin 16, n ∈ ([1, 2, 3, 4, 5, 6] : List (Fin 16)) → (∀ v, a ≠ .regWrite n v) → regRead t n = regRead s n) ∧
  (a ≠ .regWrite 0 1 → regRead t 8 = regRead s 8 ∧ regRead t 9 = regRead s 9)

theorem PropsKept.access {a : HostAccess} {s t : State} (h : PropsKept s t) : AccessKept a s t :=
  ⟨fun _ hn _ => h.toConfigKept.regRead_eq hn, fun _ => h.regRead_eprops⟩

theorem regWrite_kept {n : Fin 16} {v : Word} {s t : State} (h : regWrite n v s = .next t) :
    AccessKept (.regWrite n v) s t := by
  by_cases hn : n = 0
  · subst hn
    have stored : PropsKept s (s.mapRegs (regStore 0 v)) := propsKept_of_regs rfl
    obtain ⟨hc, hp⟩ := issue_kept (show issue v (s.mapRegs (regStore 0 v)) = .next t from h)
    refine ⟨fun m hm _ => ?_, fun hv => ?_⟩
    · exact (configKept_preorder.trans _ _ _ stored.toConfigKept hc).regRead_eq hm
    · exact (propsKept_preorder.trans _ _ _ stored (hp fun h1 => hv (h1 ▸ rfl))).regRead_eprops
  · obtain rfl : s.mapRegs (regStore n v) = t := by simpa [regWrite_of_ne hn] using h
    refine ⟨fun m _ hm => ?_, fun _ => ⟨?_, ?_⟩⟩
    · have hmn : m ≠ n := fun he => hm v (he ▸ rfl)
      rw [regRead_regStore, if_neg (fun h => hmn h.1)]
    · rw [regRead_regStore, if_neg (by omega)]
    · rw [regRead_regStore, if_neg (by omega)]

theorem hostAccess_kept {a : HostAccess} {s t : State} (h : hostAccess a s = .next t) (hr : a ≠ .reset) :
    AccessKept a s t := by
  cases a with
  | reset => exact absurd rfl hr
  | regWrite n v => exact regWrite_kept h
  | regRead n =>
    cases h
    exact (propsKept_of_regs rfl).access
  | supplyCin bytes =>
    cases h
    exact (propsKept_of_regs rfl).access
  | placeIn bytes =>
    simp only [hostAccess] at h
    split at h
    · cases h
    · cases h
      exact (propsKept_of_regs rfl).access

/-- Settles O33, by the frames of the commands and what a store leaves alone. -/
theorem configurationRegistersKept : Obligations.ConfigurationRegistersKept := by
  unfold Obligations.ConfigurationRegistersKept
  intro s t h hr
  cases hp : s.pending with
  | nil =>
    have ht : s = t := by simpa only [step, hp, Host.Outcome.next.injEq] using h
    subst ht
    exact ⟨fun _ _ _ => rfl, fun _ => ⟨rfl, rfl⟩⟩
  | cons a rest =>
    rw [step_cons hp] at h
    rw [hp] at hr
    have hne : a ≠ .reset := fun he => hr (he ▸ rfl)
    have kept : AccessKept a { s with pending := rest } t := hostAccess_kept h hne
    change AccessKept a s t at kept
    simpa only [AccessKept, List.head?_cons, ne_eq, Option.some.injEq] using kept

end Sys2Proof.Machine
end

section
/-!
PROOFS. The refutation of the machine invariant: `code < range` (`40_range_coder.md` R182) is lost at a direct bit whose
`range` is odd and whose `code` is `range - 1`: then `code - range / 2 = range / 2` (R181), so `code = range`. From
there every bit decodes to 1 and `code` stays equal to `range` as long as `Cin` gives bytes 0, so every later symbol is REP3
of 273 bytes, and DEC_STEP yields with the session open and its decoder out of the invariant.
-/

namespace Sys2Proof.Machine

/-! ### A decoder whose code has reached its range -/

/-- `code = range`, with `range` at least `least`, and at least `n` bytes 0 next in `Cin`; the cells are in order. -/
structure Overrun (least n : Nat) (s : State) : Prop where
  range : least ≤ s.session.rdec.range.toNat
  code : s.session.rdec.code = s.session.rdec.range
  zeros : ∀ j < n, s.cin[s.session.rdec.inPos + j]? = some 0
  canonical : s.session.cells.wf = true
  reachable : s.session.cells.reachable
  pb : s.session.props.pb ≤ 4

theorem Overrun.mono {least n m : Nat} {s : State} (h : Overrun least n s) (hm : m ≤ n) : Overrun least m s :=
  ⟨h.range, h.code, fun j hj => h.zeros j (by omega), h.canonical, h.reachable, h.pb⟩

/-- The normalisation takes at most one byte, and keeps `code = range` where that byte is 0. -/
theorem decNormalize_overrun {n : Nat} {s : State} (h : Overrun (2 ^ 16) (n + 1) s) :
    ∃ t, decNormalize s = .ok () t ∧ Overrun (2 ^ 24) n t := by
  rw [decNormalize_eq]
  by_cases hr : s.session.rdec.range.toNat < 2 ^ 24
  · have hz : (decRescaled s).cin[(decRescaled s).session.rdec.inPos]? = some 0 := h.zeros 0 (by omega)
    rw [if_pos hr, shiftInCode_some hz]
    refine ⟨_, rfl, ?_, ?_, fun j hj => ?_, h.canonical, h.reachable, h.pb⟩
    · have := h.range
      show 2 ^ 24 ≤ (u32 (s.session.rdec.range.toNat * 2 ^ 8)).toNat
      rw [BitVec.toNat_ofNat]
      omega
    · show u32 (s.session.rdec.code.toNat * 2 ^ 8 + (0 : Byte).toNat) = u32 (s.session.rdec.range.toNat * 2 ^ 8)
      rw [h.code, show (0 : Byte).toNat = 0 from rfl, Nat.add_zero]
    · show s.cin[s.session.rdec.inPos + 1 + j]? = some 0
      rw [Nat.add_assoc, Nat.add_comm 1 j]
      exact h.zeros (j + 1) (by omega)
  · rw [if_neg hr]
    exact ⟨s, rfl, Nat.not_lt.mp hr, h.code, (h.mono (Nat.le_succ n)).zeros, h.canonical, h.reachable, h.pb⟩

/-- An overrun decoder reads 1 under every cell, and stays overrun. -/
theorem decodeBit_overrun {n : Nat} {s : State} {cell : Cell} (h : Overrun (2 ^ 24) (n + 1) s)
    (hi : cell.idx < cell.arr.size s.session.props) :
    ∃ t, decodeBit cell s = .ok true t ∧ Overrun (2 ^ 24) n t := by
  have hp := h.reachable cell
  have hb := bound_bounds h.range s.session.rdec.range.isLt hp.1 hp.2
  have hv : decodedValue s cell = true := by
    rw [decodedValue, h.code, decide_eq_true_eq]
    omega
  have hd : Overrun (2 ^ 16) (n + 1) (decodedBit s cell) := by
    refine ⟨?_, ?_, h.zeros, cells_put_wf h.canonical _ _, cells_put_reachable h.canonical h.reachable _, h.pb⟩
    · simp only [decodedBit, mapSession_session, hv, if_true, BitVec.toNat_ofNat]
      have := s.session.rdec.range.isLt
      omega
    · simp only [decodedBit, mapSession_session, hv, if_true, h.code]
  obtain ⟨t, ht, ho⟩ := decNormalize_overrun hd
  refine ⟨t, ?_, ho⟩
  rw [decodeBit_eq hi hp, act_bind, ht, hv]
  rfl

/-! ### Actions that read ones only -/

/-- On an overrun decoder with bytes to spare the action `a`, which takes at most `k` of them, gives `x` and leaves the
decoder overrun. -/
def ReadsOnes {α : Type} (a : Act α) (k : Nat) (x : α) : Prop :=
  ∀ n s, Overrun (2 ^ 24) (n + k) s → ∃ t, a s = .ok x t ∧ Overrun (2 ^ 24) n t ∧ bitFrame s t

theorem ReadsOnes.pure {α : Type} (x : α) : ReadsOnes (Pure.pure x) 0 x := fun _ s h => ⟨s, rfl, h, rfl⟩

theorem ReadsOnes.bind {α β : Type} {a : Act α} {f : α → Act β} {k m : Nat} {x : α} {y : β} (ha : ReadsOnes a k x)
    (hf : ReadsOnes (f x) m y) : ReadsOnes (a >>= f) (m + k) y := by
  intro n s h
  obtain ⟨t, ht, hot, hft⟩ := ha (n + m) s (by rwa [Nat.add_assoc])
  obtain ⟨u, hu, hou, hfu⟩ := hf n t hot
  exact ⟨u, by rw [act_bind, ht]; exact hu, hou, bitFrame_preorder.trans _ _ _ hft hfu⟩

/-- Reading the state: what follows may use that a pos-state is below 16. -/
theorem ReadsOnes.get {β : Type} {f : State → Act β} {k : Nat} {y : β}
    (hf : ∀ s, s.session.props.pb ≤ 4 → ReadsOnes (f s) k y) : ReadsOnes (MonadState.get >>= f) k y :=
  fun n s h => hf s h.pb n s h

theorem ReadsOnes.onStop {α : Type} {a : Act α} {k : Nat} {x : α} (g : State → State) (ha : ReadsOnes a k x) :
    ReadsOnes (onStop g a) k x := by
  intro n s h
  obtain ⟨t, ht, hot, hft⟩ := ha n s h
  exact ⟨t, by rw [act_onStop, ht], hot, hft⟩

theorem decodeBit_readsOnes {cell : Cell} (hi : ∀ p, cell.idx < cell.arr.size p) : ReadsOnes (decodeBit cell) 1 true := by
  intro n s h
  obtain ⟨t, ht, hot⟩ := decodeBit_overrun h (hi _)
  exact ⟨t, ht, hot, (decodeBit_frame cell).ok ht⟩

/-- A walk of `n` ones down a tree ends in the last node of its level. -/
theorem treeDecodeFrom_readsOnes {A : CellArray} {b n m : Nat} (hi : ∀ p, 2 * b + 2 ^ n * (m + 1) ≤ 2 * A.size p) :
    ReadsOnes (treeDecodeFrom A b n m) n (2 ^ n * (m + 1) - 1) := by
  induction n generalizing m with
  | zero => simpa [treeDecodeFrom] using ReadsOnes.pure m
  | succ n ih =>
    have hlast : 2 ^ n * (2 * m + 1 + 1) = 2 ^ (n + 1) * (m + 1) := by ring
    have hnode : m + 1 ≤ 2 ^ n * (m + 1) := Nat.le_mul_of_pos_left _ (Nat.two_pow_pos n)
    have hdouble : 2 ^ (n + 1) * (m + 1) = 2 * (2 ^ n * (m + 1)) := by ring
    have hcell (p : Props) : b + m < A.size p := by
      have := hi p
      omega
    have hrest := ih (m := 2 * m + 1) (by rwa [hlast])
    rw [hlast] at hrest
    exact (decodeBit_readsOnes hcell).bind hrest

/-- Ones read as a repeat's length are the longest, 273 (R302). -/
theorem lenDecode_readsOnes (ps : Nat) : ReadsOnes (lenDecode .repLenC ps) 10 271 := by
  have choice : ReadsOnes (decodeBit ⟨.repLenC, 0⟩) 1 true := decodeBit_readsOnes fun _ => (by decide : _ < 514)
  have choice2 : ReadsOnes (decodeBit ⟨.repLenC, 1⟩) 1 true := decodeBit_readsOnes fun _ => (by decide : _ < 514)
  have high : ReadsOnes (bitTreeDecode .repLenC lenHigh 8) 8 255 :=
    (treeDecodeFrom_readsOnes (A := .repLenC) (b := lenHigh) (n := 8) (m := 1)
      fun _ => (by decide : 2 * 258 + 2 ^ 8 * (1 + 1) ≤ 2 * 514)).bind
      (ReadsOnes.pure 255)
  exact choice.bind (choice2.bind (high.bind (ReadsOnes.pure 271)))

/-- The symbol an overrun decoder fetches: the five decisions 1 of REP3 (R123) and the longest length. -/
theorem fetchSymbol_readsOnes : ReadsOnes fetchSymbol 15 (.rep3 273) := by
  refine ReadsOnes.get fun s hpb => ?_
  have hst := s.session.state.isLt
  have hps : posStateOf s.session.props.pb s.outPos < 16 :=
    lt_of_lt_of_le (Nat.mod_lt _ (Nat.two_pow_pos _)) (Nat.pow_le_pow_right (n := 2) (by omega) hpb)
  have isMatch : ReadsOnes (decodeBit (isMatchCell s.session.state (posStateOf s.session.props.pb s.outPos))) 1 true :=
    decodeBit_readsOnes fun _ => by simp only [isMatchCell, CellArray.size]; omega
  have isRep : ReadsOnes (decodeBit (isRepCell s.session.state)) 1 true := decodeBit_readsOnes fun _ => hst
  have g0 : ReadsOnes (decodeBit (isRepG0Cell s.session.state)) 1 true := decodeBit_readsOnes fun _ => hst
  have g1 : ReadsOnes (decodeBit (isRepG1Cell s.session.state)) 1 true := decodeBit_readsOnes fun _ => hst
  have g2 : ReadsOnes (decodeBit (isRepG2Cell s.session.state)) 1 true := decodeBit_readsOnes fun _ => hst
  have rep : ReadsOnes (fetchRep 3 (posStateOf s.session.props.pb s.outPos) .rep3) 10 (.rep3 273) :=
    ((lenDecode_readsOnes _).onStop _).bind (ReadsOnes.pure (Instr.rep3 273))
  exact isMatch.bind (isRep.bind (g0.bind (g1.bind (g2.bind rep))))

/-! ### Copying inside the output -/

/-- One byte of a copy from inside the output. -/
theorem copyBytes_succ_inside {d : Nat} (n : Nat) {s : State} (h : d < s.outPos) : ∃ b, copyBytes d (n + 1) s =
    copyBytes d n { s with
      win := s.win ++ [b], regs := { s.regs with outCount := u32 (s.win.length + 1) } } := by
  have hlt : s.outPos - d - 1 < s.win.length := by
    unfold State.outPos at *
    omega
  refine ⟨s.win[s.outPos - d - 1], ?_⟩
  simp only [copyBytes, winRead, act_bind, act_get, List.getElem?_eq_getElem hlt, act_pure, winAppend, act_modify]

/-- A copy from inside the output answers; it appends to `Win` and sets OUT_COUNT. -/
theorem copyBytes_inside {d n : Nat} {s : State} (h : d < s.outPos) : ∃ bytes count,
    copyBytes d n s = .ok () { s with win := s.win ++ bytes, regs := { s.regs with outCount := count } } := by
  induction n generalizing s with
  | zero => exact ⟨[], s.regs.outCount, by rw [List.append_nil]; rfl⟩
  | succ n ih =>
    obtain ⟨b, hb⟩ := copyBytes_succ_inside n h
    have hlonger : d < (s.win ++ [b]).length := by
      rw [List.length_append]
      exact Nat.lt_add_right _ h
    obtain ⟨bytes, count, hc⟩ := ih (s := { s with
      win := s.win ++ [b], regs := { s.regs with outCount := u32 (s.win.length + 1) } }) hlonger
    exact ⟨b :: bytes, count, by rw [hb, hc, List.append_cons s.win b bytes]⟩

/-- Where the distance is accepted and no size is declared, the check copies (R410). -/
theorem checkAndCopy_inside {len : Nat} {isMatch : Bool} {s : State} (hpos : s.session.reps.r0.toNat < s.outPos)
    (hdict : s.session.reps.r0.toNat < s.session.dec.dictCheck) (hsize : s.session.dec.outSize = none) :
    checkAndCopy len isMatch s = copyBytes s.session.reps.r0.toNat len s := by
  have hacc : ¬(decide (s.outPos ≤ s.session.reps.r0.toNat) ||
      decide (s.session.dec.dictCheck ≤ s.session.reps.r0.toNat)) = true := by
    simp only [Bool.or_eq_true, decide_eq_true_eq]
    omega
  unfold checkAndCopy
  simp only [act_bind, act_get]
  rw [if_neg hacc, hsize]

/-! ### A session that reads ones for ever -/

/-- An open decode session of UNKNOWN size whose decoder is overrun, with `n` bytes 0 to spare, and whose four distances
are accepted. -/
structure Endless (n : Nat) (s : State) : Prop where
  decoder : Overrun (2 ^ 24) n s
  phase : s.regs.phase = .decReady
  unbounded : s.session.dec.outSize = none
  reps : ∀ k, (s.session.reps.get k).toNat < s.outPos ∧ (s.session.reps.get k).toNat < s.session.dec.dictCheck

/-- Reading bits keeps everything of the session that is not the decoder's. -/
theorem Endless.ofBits {n m : Nat} {s t : State} (h : Endless n s) (ht : bitFrame s t) (ho : Overrun (2 ^ 24) m t) :
    Endless m t := by
  refine ⟨ho, ?_, ?_, fun k => ?_⟩
  · rw [ht]; exact h.phase
  · rw [ht]; exact h.unbounded
  · rw [ht]; exact h.reps k

/-- What holds of the four distances holds of each `reps[k]`. -/
theorem reps_get_of_all {P : Word → Prop} {r : Reps} (h0 : P r.r0) (h1 : P r.r1) (h2 : P r.r2) (h3 : P r.r3) (k : Nat) :
    P (r.get k) := by
  match k with
  | 0 => exact h0
  | 1 => exact h1
  | 2 => exact h2
  | _ + 3 => exact h3

theorem actRep_eq (k len : Nat) (s : State) : actRep k len s =
    checkAndCopy len false ((s.withReps fun r => r.promote k).withCoderState updateRep) := rfl

theorem symbolAct_rep3_endless {n len : Nat} {s : State} (h : Endless n s) :
    ∃ t, symbolAct (.rep3 len) s = .ok () t ∧ Endless n t := by
  obtain ⟨hpos, hdict⟩ := h.reps 3
  have hrun := (actRep_eq 3 len s).trans (checkAndCopy_inside hpos hdict h.unbounded)
  obtain ⟨bytes, count, hc⟩ :=
    copyBytes_inside (s := (s.withReps fun r => r.promote 3).withCoderState updateRep) (n := len) hpos
  have hkept (k : Nat) : (s.session.reps.get k).toNat < (s.win ++ bytes).length ∧
      (s.session.reps.get k).toNat < s.session.dec.dictCheck := by
    rw [List.length_append]
    exact ⟨Nat.lt_add_right _ (h.reps k).1, (h.reps k).2⟩
  refine ⟨_, hrun.trans hc, ?_, h.phase, h.unbounded, ?_⟩
  · exact ⟨h.decoder.range, h.decoder.code, h.decoder.zeros, h.decoder.canonical, h.decoder.reachable, h.decoder.pb⟩
  · exact reps_get_of_all (P := fun d => d.toNat < (s.win ++ bytes).length ∧ d.toNat < s.session.dec.dictCheck)
      (hkept 3) (hkept 0) (hkept 1) (hkept 2)

/-- The loop of DEC_STEP reads such a session until it yields, and leaves it such a session. -/
theorem decodeLoop_endless (start fuel : Nat) {n : Nat} {s : State} (h : Endless (n + 15 * fuel) s) :
    ∃ m t, decodeLoop start fuel s = .ok .more t ∧ Endless m t := by
  induction fuel generalizing s with
  | zero => exact ⟨_, s, rfl, h⟩
  | succ fuel ih =>
    obtain ⟨s1, h1, ho1, hf1⟩ := fetchSymbol_readsOnes (n + 15 * fuel) s h.decoder
    obtain ⟨s2, h2, he2⟩ := symbolAct_rep3_endless (len := 273) (h.ofBits hf1 ho1)
    have hsize : s.sizeReached = false := by rw [State.sizeReached, h.unbounded]
    have hopen : s2.regs.phase ≠ .done := by rw [he2.phase]; decide
    simp only [decodeLoop_succ, hsize, Bool.false_eq_true, if_false, h1, h2, hopen]
    split
    · exact ⟨_, s2, rfl, he2⟩
    · exact ih he2

/-! ### The run that refutes the invariant -/

/-- A memory whose unlisted value and listed values satisfy `P` reads values that satisfy `P`. -/
theorem memory_read_of_forall {α : Type} {P : α → Prop} {d : α} (hd : P d) {m : Memory α} (h : ∀ e ∈ m, P e.2)
    (k : Nat) : P (Memory.read d m k) := by
  induction m with
  | nil => exact hd
  | cons e m ih =>
    obtain ⟨k', v⟩ := e
    simp only [Memory.read]
    split
    · exact hd
    · split
      · exact h _ (.head _)
      · exact ih fun e he => h e (.tail _ he)

theorem cells_reachable_of_listed {c : Cells} (h : ∀ a, ∀ e ∈ c.memory a, 31 ≤ e.2.toNat ∧ e.2.toNat ≤ 2017) :
    c.reachable := fun cell =>
  memory_read_of_forall (P := probReachable) ⟨by decide, by decide⟩ (h cell.arr) cell.idx

/-- An open decode session after 192 bytes, with every cell at its start value but one, bytes 0 to read, and a DEC_STEP to
come: its next symbol is a MATCH of distance 191, whose slot 14 has two direct bits. At the first of them `range` is
0x1050501 and `code` one less. -/
def overrunHost : State :=
  { State.reset with
    regs := { HostRegs.reset with phase := .decReady, outCount := 192 }
    session := { Session.reset with
      cells := { Cells.init with posSlot := [(39, 2017)] }
      rdec := { range := 0x8484000, code := 0x42C643D, inPos := 0 } }
    win := List.replicate 192 0
    cin := List.replicate 65536 0
    pending := [.regWrite 0 4] }

/-- The same where DEC_STEP runs: the access taken and its word stored. -/
def overrunStart : State := { overrunHost with pending := [], regs := { overrunHost.regs with cmd := 4 } }

theorem overrunHost_inv : overrunHost.Inv where
  memories := by decide
  faultRecord := by decide
  noFaultSub _ := rfl
  encode h := by cases h
  decode _ :=
    { isDecoder := rfl
      cells := cells_reachable_of_listed fun a => by cases a <;> decide
      coder := by unfold RangeDec.valid; decide
      inCount := rfl
      outCount := by
        show (192 : Word) = u32 (List.replicate 192 (0 : Byte)).length
        rw [List.length_replicate]
        rfl
      bounded := fun n h => by cases h
      reps :=
        have zero : repValid overrunHost 0 := ⟨by decide, .inr rfl⟩
        ⟨zero, zero, zero, zero⟩
      matchByte := fun h => by cases h }

/-- The cells after the MATCH. -/
def overrunCells : Cells :=
  { Cells.init with
    isMatch := [(0, 992)]
    isRep := [(0, 1056)]
    posSlot := [(1, 1056), (2, 1056), (4, 992), (9, 992), (19, 992), (39, 2017)]
    align := [(1, 992), (3, 992), (7, 992), (15, 992)]
    lenC := [(0, 1056), (3, 1056), (4, 1056), (6, 1056)] }

/-- What the MATCH leaves: `code = range`. -/
def overrunReached (u : State) : Bool :=
  u.session.rdec == { range := 0x4141400, code := 0x4141400, inPos := 2 } && u.session.cells == overrunCells &&
    u.session.reps == { r0 := 191, r1 := 0, r2 := 0, r3 := 0 } && u.regs.phase == .decReady && u.outPos == 194

theorem overrunStart_match : ∃ i s1 u, fetchSymbol overrunStart = .ok i s1 ∧ symbolAct i s1 = .ok () u ∧
    overrunReached u = true := by
  have run : (match fetchSymbol overrunStart with
      | .ok i s1 =>
        match symbolAct i s1 with
        | .ok _ u => overrunReached u
        | .error _ _ => false
      | .error _ _ => false) = true := by decide +kernel
  split at run
  · next i s1 h1 =>
    split at run
    · next u h2 => exact ⟨i, s1, u, h1, h2, run⟩
    · cases run
  · cases run

/-- After the MATCH the session is endless, for as many symbols as one DEC_STEP can read. -/
theorem overrunStart_endless : ∃ i s1 u, fetchSymbol overrunStart = .ok i s1 ∧ symbolAct i s1 = .ok () u ∧
    Endless (0 + 15 * 4095) u := by
  obtain ⟨i, s1, u, h1, h2, hu⟩ := overrunStart_match
  refine ⟨i, s1, u, h1, h2, ?_⟩
  have hframe : decodeFrame overrunStart u :=
    decodeFrame_preorder.trans _ _ _ (fetchSymbol_frame.ok h1) ((symbolAct_frame i).ok h2)
  have hcin : u.cin = List.replicate 65536 0 := by rw [hframe]; rfl
  have hdec : u.session.dec = overrunStart.session.dec := by rw [hframe]
  have hprops : u.session.props = overrunStart.session.props := by rw [hframe]
  simp only [overrunReached, Bool.and_eq_true, beq_iff_eq] at hu
  obtain ⟨⟨⟨⟨hrdec, hcells⟩, hreps⟩, hphase⟩, hpos⟩ := hu
  refine ⟨⟨?_, ?_, fun j hj => ?_, ?_, ?_, ?_⟩, hphase, ?_, fun k => ?_⟩
  · rw [hrdec]; decide
  · rw [hrdec]
  · rw [hrdec, hcin, List.getElem?_replicate, if_pos (by show 2 + j < 65536; omega)]
  · rw [hcells]; decide
  · rw [hcells]
    exact cells_reachable_of_listed fun a => by cases a <;> decide
  · rw [hprops]; decide
  · rw [hdec]; rfl
  · rw [hreps, hpos, hdec]
    exact reps_get_of_all (P := fun d => d.toNat < 194 ∧ d.toNat < 0x400000) (by decide) (by decide) (by decide)
      (by decide) k

/-- DEC_STEP from `overrunStart` yields, with the session open and `code = range`. -/
theorem overrunStart_decStep : ∃ m t, exec .decStep overrunStart = .next t ∧ Endless m t := by
  obtain ⟨i, s1, u, h1, h2, he⟩ := overrunStart_endless
  have hopen : u.regs.phase ≠ .done := by rw [he.phase]; decide
  have hsize : overrunStart.sizeReached = false := rfl
  have hloop : ∃ m t, decodeLoop overrunStart.outPos (4095 + 1) overrunStart = .ok .more t ∧ Endless m t := by
    rw [decodeLoop_succ]
    simp only [hsize, Bool.false_eq_true, if_false, h1, h2, hopen]
    split
    · exact ⟨_, u, rfl, he⟩
    · exact decodeLoop_endless _ _ he
  obtain ⟨m, t, ht, hm⟩ := hloop
  refine ⟨m, t, ?_, hm⟩
  rw [execDecStep_ready (by rfl)]
  exact outcome_ok (by rw [act_bind, ht]; rfl)

/-- Refutes O60: `DecInv.coder` is not kept. From `overrunHost`, which meets the invariant, the host's DEC_STEP answers a
state in phase DEC_READY whose `code` is its `range`. -/
theorem not_invariantKept : ¬ Obligations.InvariantKept := by
  unfold Obligations.InvariantKept
  intro h
  have hdec : decodeCommand 4 = .ok .decStep := by decide
  have hstep : step overrunHost = exec .decStep overrunStart := step_regWrite_cmd rfl hdec
  obtain ⟨m, t, ht, hend⟩ := overrunStart_decStep
  rcases h overrunHost overrunHost_inv with ⟨t', ht', hinv⟩ | ⟨href, -, -⟩
  · obtain rfl : t = t' := by simpa [hstep, ht] using ht'
    have hlt : t.session.rdec.code.toNat < t.session.rdec.range.toNat := (hinv.decode hend.phase).coder.2
    rw [hend.decoder.code] at hlt
    exact lt_irrefl _ hlt
  · rw [hstep, ht] at href
    cases href

end Sys2Proof.Machine
end

section
/-!
PROOFS. The two encodings (`30_encoding.md`). Each reader of decision bits is characterised once, as an `↔`: it
answers a value and a rest exactly where the bits are the value's own followed by the rest. Decoding after encoding
and encoding after decoding are the two directions.
-/

namespace Sys2Proof

/-! ### Command words (R150) -/

theorem decodeCommand_of_op {w : Word} (h : 6 ≤ w.toNat % 16) : decodeCommand w = .error .illegalOp := if_pos h

theorem decodeCommand_of_reserved {w : Word} (hop : w.toNat % 16 < 6) (h : w.toNat / 16 ≠ 0) :
    decodeCommand w = .error .reservedBits :=
  (if_neg (Nat.not_le.mpr hop)).trans (if_pos h)

/-- A word below 6 is the word of one command. -/
theorem decodeCommand_of_lt {w : Word} (h : w.toNat < 6) :
    ∃ i, decodeCommand w = .ok i ∧ i.isCommand = true ∧ encode i = .word w := by
  have hw : w = u32 w.toNat := by simp
  generalize w.toNat = n at hw h
  subst hw
  interval_cases n <;> exact ⟨_, rfl, rfl, rfl⟩

/-- The three kinds of word. -/
theorem command_word_cases (w : Word) :
    6 ≤ w.toNat % 16 ∨ (w.toNat % 16 < 6 ∧ w.toNat / 16 ≠ 0) ∨ w.toNat < 6 := by omega

theorem decodeCommand_of_encode {w : Word} {i : Instr} (hi : i.isCommand = true) (h : encode i = .word w) :
    decodeCommand w = .ok i := by
  cases i with
  | nop | encOpen | encStep | decOpen | decStep | close => cases h; rfl
  | lit | matchSym | shortRep | rep0 | rep1 | rep2 | rep3 | endMark => cases hi

theorem decodeCommand_eq_ok {w : Word} {i : Instr} :
    decodeCommand w = .ok i ↔ i.isCommand = true ∧ encode i = .word w := by
  refine ⟨fun h => ?_, fun ⟨hi, h⟩ => decodeCommand_of_encode hi h⟩
  rcases command_word_cases w with hop | ⟨hop, hres⟩ | hlt
  · simp [decodeCommand_of_op hop] at h
  · simp [decodeCommand_of_reserved hop hres] at h
  · obtain ⟨j, hj, hcmd, henc⟩ := decodeCommand_of_lt hlt
    obtain rfl : j = i := by simpa [hj] using h
    exact ⟨hcmd, henc⟩

theorem decodeCommand_eq_illegalOp {w : Word} : decodeCommand w = .error .illegalOp ↔ 6 ≤ w.toNat % 16 := by
  refine ⟨fun h => ?_, decodeCommand_of_op⟩
  rcases command_word_cases w with hop | ⟨hop, hres⟩ | hlt
  · exact hop
  · simp [decodeCommand_of_reserved hop hres] at h
  · obtain ⟨j, hj, -⟩ := decodeCommand_of_lt hlt
    simp [hj] at h

theorem decodeCommand_eq_reservedBits {w : Word} :
    decodeCommand w = .error .reservedBits ↔ w.toNat % 16 < 6 ∧ w.toNat / 16 ≠ 0 := by
  refine ⟨fun h => ?_, fun ⟨hop, hres⟩ => decodeCommand_of_reserved hop hres⟩
  rcases command_word_cases w with hop | hres | hlt
  · simp [decodeCommand_of_op hop] at h
  · exact hres
  · obtain ⟨j, hj, -⟩ := decodeCommand_of_lt hlt
    simp [hj] at h

/-- Settles O3: each kind of word has one answer. -/
theorem commandWordsDecode : Obligations.CommandWordsDecode :=
  ⟨fun _ _ => decodeCommand_eq_ok, fun _ => decodeCommand_eq_illegalOp, fun _ => decodeCommand_eq_reservedBits⟩

/-- Settles O4, by evaluation: each code is a closed list of bits or a closed word. -/
theorem specCodesDecode : Obligations.SpecCodesDecode := by
  unfold Obligations.SpecCodesDecode
  decide

/-! ### The properties byte (R121) -/

theorem propsByte_toNat {lc lp pb : Nat} (hlc : lc ≤ 8) (hlp : lp ≤ 4) (hpb : pb ≤ 4) :
    (propsByte lc lp pb).toNat = (pb * 5 + lp) * 9 + lc := by
  rw [propsByte, BitVec.toNat_ofNat]
  omega

theorem decodePropsByte_eq_some {b : Byte} {lc lp pb : Nat} :
    decodePropsByte b = some (lc, lp, pb) ↔
      b.toNat / 45 ≤ 4 ∧ b.toNat % 9 = lc ∧ b.toNat / 9 % 5 = lp ∧ b.toNat / 45 = pb := by
  simp only [decodePropsByte, Nat.div_div_eq_div_mul, Nat.reduceMul]
  split
  · simp; omega
  · simp; omega

/-- The byte of a triple in range decodes to it. -/
theorem decodePropsByte_propsByte {lc lp pb : Nat} (hlc : lc ≤ 8) (hlp : lp ≤ 4) (hpb : pb ≤ 4) :
    decodePropsByte (propsByte lc lp pb) = some (lc, lp, pb) := by
  rw [decodePropsByte_eq_some, propsByte_toNat hlc hlp hpb]
  omega

/-- Settles O6: the byte is the number `(pb * 5 + lp) * 9 + lc` of a mixed radix. -/
theorem propsByteDecodes : Obligations.PropsByteDecodes := by
  refine ⟨fun b => ?_, fun b lc lp pb h => ?_, fun lc lp pb => decodePropsByte_propsByte⟩
  · simp only [decodePropsByte, Nat.div_div_eq_div_mul, Nat.reduceMul]
    split <;> simp <;> omega
  · obtain ⟨htest, hlc, hlp, hpb⟩ := decodePropsByte_eq_some.mp h
    have hlc8 : lc ≤ 8 := by omega
    have hlp4 : lp ≤ 4 := by omega
    have hpb4 : pb ≤ 4 := by omega
    refine ⟨hlc8, hlp4, hpb4, BitVec.eq_of_toNat_eq ?_⟩
    rw [propsByte_toNat hlc8 hlp4 hpb4]
    omega

/-! ### Fields of decision bits -/

/-- A number and its bit `n` as the number with one bit more. -/
theorem two_mul_add_testBit (n v : Nat) : 2 * (v / 2 ^ (n + 1)) + (v.testBit n).toNat = v / 2 ^ n := by
  rw [Nat.toNat_testBit, Nat.pow_succ, ← Nat.div_div_eq_div_mul]
  omega

/-- `readMsb` answers `v` where the bits begin with the low `n` bits of `v`, the bits above being the value it began
with. -/
theorem readMsb_eq_ok {n acc v : Nat} {bs rest : List Bool} :
    readMsb n acc bs = .ok (v, rest) ↔ v / 2 ^ n = acc ∧ bs = msbBits n v ++ rest := by
  induction n generalizing acc bs with
  | zero => simp [readMsb, msbBits, eq_comm]
  | succ n ih =>
    cases bs with
    | nil => simp [readMsb, msbBits]
    | cons b bs =>
      have hv := two_mul_add_testBit n v
      simp only [readMsb, ih, msbBits, List.cons_append, List.cons.injEq]
      constructor
      · rintro ⟨hacc, rfl⟩
        have hb : b = v.testBit n := by
          cases b <;> cases h : v.testBit n <;> simp [h] at * <;> omega
        subst hb
        exact ⟨by omega, rfl, rfl⟩
      · rintro ⟨rfl, rfl, rfl⟩
        exact ⟨hv.symm, rfl⟩

/-- From the value 0 a field of `n` bits answers values below `2 ^ n`. -/
theorem readMsb_zero_eq_ok {n v : Nat} {bs rest : List Bool} :
    readMsb n 0 bs = .ok (v, rest) ↔ v < 2 ^ n ∧ bs = msbBits n v ++ rest := by
  rw [readMsb_eq_ok, Nat.div_eq_zero_iff_lt (Nat.two_pow_pos n)]

theorem readMsb_msbBits {n v : Nat} (h : v < 2 ^ n) (rest : List Bool) :
    readMsb n 0 (msbBits n v ++ rest) = .ok (v, rest) := readMsb_zero_eq_ok.mpr ⟨h, rfl⟩

theorem readLsb_eq_ok {n v : Nat} {bs rest : List Bool} :
    readLsb n bs = .ok (v, rest) ↔ v < 2 ^ n ∧ bs = lsbBits n v ++ rest := by
  induction n generalizing v bs with
  | zero => simp [readLsb, lsbBits, eq_comm]
  | succ n ih =>
    cases bs with
    | nil => simp [readLsb, lsbBits]
    | cons b bs =>
      have hbit := Nat.toNat_testBit v 0
      rw [pow_zero, Nat.div_one] at hbit
      have hpow : 2 ^ (n + 1) = 2 * 2 ^ n := by ring
      simp only [readLsb, lsbBits, List.cons_append, List.cons.injEq]
      constructor
      · cases h : readLsb n bs with
        | error r => simp
        | ok p =>
          obtain ⟨w, rest'⟩ := p
          simp only [Except.ok.injEq, Prod.mk.injEq]
          rintro ⟨rfl, rfl⟩
          obtain ⟨hw, rfl⟩ := ih.mp h
          have hb : (b.toNat + 2 * w).testBit 0 = b := by cases b <;> simp
          have hdiv : (b.toNat + 2 * w) / 2 = w := by have := b.toNat_le; omega
          exact ⟨by have := b.toNat_le; omega, hb.symm, by rw [hdiv]⟩
      · rintro ⟨hv, rfl, rfl⟩
        rw [ih.mpr ⟨by omega, rfl⟩]
        simp only [Except.ok.injEq, Prod.mk.injEq, and_true]
        omega

theorem readLsb_lsbBits {n v : Nat} (h : v < 2 ^ n) (rest : List Bool) :
    readLsb n (lsbBits n v ++ rest) = .ok (v, rest) := readLsb_eq_ok.mpr ⟨h, rfl⟩

/-! ### The length field (R126) -/

theorem lenOk_iff {len : Nat} : lenOk len = true ↔ 2 ≤ len ∧ len ≤ 273 := by
  simp [lenOk, Config.kMatchMinLen, Config.kMatchMaxLen]

theorem lengthBits_low {v : Nat} (h : v < 8) : lengthBits (2 + v) = false :: msbBits 3 v := by
  rw [lengthBits, if_pos (by omega), Nat.add_sub_cancel_left]

theorem lengthBits_mid {v : Nat} (h : v < 8) : lengthBits (10 + v) = true :: false :: msbBits 3 v := by
  rw [lengthBits, if_neg (by omega), if_pos (by omega), Nat.add_sub_cancel_left]

theorem lengthBits_high (v : Nat) : lengthBits (18 + v) = true :: true :: msbBits 8 v := by
  rw [lengthBits, if_neg (by omega), if_neg (by omega), Nat.add_sub_cancel_left]

/-- The three parts of the lengths. -/
theorem lenOk_cases {len : Nat} (h : lenOk len = true) :
    (∃ v < 8, len = 2 + v) ∨ (∃ v < 8, len = 10 + v) ∨ ∃ v < 256, len = 18 + v := by
  rw [lenOk_iff] at h
  rcases Nat.lt_or_ge len 10 with h10 | h10
  · exact .inl ⟨len - 2, by omega, by omega⟩
  · rcases Nat.lt_or_ge len 18 with h18 | h18
    · exact .inr (.inl ⟨len - 10, by omega, by omega⟩)
    · exact .inr (.inr ⟨len - 18, by omega, by omega⟩)

theorem readLength_lengthBits {len : Nat} (h : lenOk len = true) (rest : List Bool) :
    readLength (lengthBits len ++ rest) = .ok (len, rest) := by
  rcases lenOk_cases h with ⟨v, hv, rfl⟩ | ⟨v, hv, rfl⟩ | ⟨v, hv, rfl⟩
  · simp only [lengthBits_low hv, List.cons_append, readLength, readMsb_msbBits (n := 3) hv]
  · simp only [lengthBits_mid hv, List.cons_append, readLength, readMsb_msbBits (n := 3) hv]
  · simp only [lengthBits_high, List.cons_append, readLength, readMsb_msbBits (n := 8) hv]

theorem lengthBits_of_readLength {len : Nat} {bs rest : List Bool} (h : readLength bs = .ok (len, rest)) :
    lenOk len = true ∧ lengthBits len ++ rest = bs := by
  rw [lenOk_iff]
  unfold readLength at h
  split at h
  · cases h
  · split at h
    · next hv =>
      cases h
      obtain ⟨hlt, rfl⟩ := readMsb_zero_eq_ok.mp hv
      exact ⟨by omega, by rw [lengthBits_low hlt]; rfl⟩
    · cases h
  · cases h
  · split at h
    · next hv =>
      cases h
      obtain ⟨hlt, rfl⟩ := readMsb_zero_eq_ok.mp hv
      exact ⟨by omega, by rw [lengthBits_mid hlt]; rfl⟩
    · cases h
  · split at h
    · next hv =>
      cases h
      obtain ⟨hlt, rfl⟩ := readMsb_zero_eq_ok.mp hv
      exact ⟨by omega, by rw [lengthBits_high]; rfl⟩
    · cases h

/-! ### Pos-slots (R127, R128, R310) -/

theorem slotBase_eq (s : Nat) : slotBase s = (2 + s % 2) * 2 ^ slotFooterBits s := Nat.shiftLeft_eq _ _

/-- The top bit of a distance, the bit below it and the footer give back its slot. -/
theorem posSlot_slotBase_add {s r : Nat} (hs : 4 ≤ s) (hr : r < 2 ^ slotFooterBits s) :
    posSlot (slotBase s + r) = s := by
  have hfb : slotFooterBits s = s / 2 - 1 := rfl
  rw [slotBase_eq]
  generalize slotFooterBits s = fb at *
  have hpos : 0 < 2 ^ fb := Nat.two_pow_pos fb
  have htwo : 2 ^ 1 ≤ 2 ^ fb := Nat.pow_le_pow_right (by omega) (by omega)
  have hlo : 2 * 2 ^ fb ≤ (2 + s % 2) * 2 ^ fb := Nat.mul_le_mul_right _ (by omega)
  have hhi : (2 + s % 2) * 2 ^ fb ≤ 3 * 2 ^ fb := Nat.mul_le_mul_right _ (by omega)
  have hlog : ((2 + s % 2) * 2 ^ fb + r).log2 = fb + 1 := by
    rw [Nat.log2_eq_iff (by omega), Nat.pow_succ, Nat.pow_succ]
    omega
  have hbit : (((2 + s % 2) * 2 ^ fb + r).testBit fb).toNat = s % 2 := by
    rw [Nat.toNat_testBit, Nat.add_comm, Nat.add_mul_div_right _ _ hpos, Nat.div_eq_of_lt hr]
    omega
  rw [posSlot, if_neg (by omega), hlog, Nat.add_sub_cancel, hbit]
  omega

theorem exists_slotBase_add {d : Nat} (h : 4 ≤ d) :
    ∃ s r, 4 ≤ s ∧ r < 2 ^ slotFooterBits s ∧ d = slotBase s + r := by
  have hd : d ≠ 0 := by omega
  have htwo : 2 ≤ d.log2 := (Nat.le_log2 hd).mpr h
  obtain ⟨fb, hn⟩ : ∃ fb, d.log2 = fb + 1 := ⟨d.log2 - 1, by omega⟩
  obtain ⟨hlo, hhi⟩ := (Nat.log2_eq_iff hd).mp hn
  have hpos : 0 < 2 ^ fb := Nat.two_pow_pos fb
  have hq2 : 2 ≤ d / 2 ^ fb := (Nat.le_div_iff_mul_le hpos).mpr (by rwa [Nat.pow_succ, Nat.mul_comm] at hlo)
  have hq4 : d / 2 ^ fb < 4 := (Nat.div_lt_iff_lt_mul hpos).mpr (by rw [Nat.pow_succ, Nat.pow_succ] at hhi; omega)
  have hfb : slotFooterBits (2 * fb + d / 2 ^ fb) = fb := by
    rw [slotFooterBits]
    omega
  refine ⟨2 * fb + d / 2 ^ fb, d % 2 ^ fb, by omega, by rw [hfb]; exact Nat.mod_lt _ hpos, ?_⟩
  rw [slotBase_eq, hfb, show 2 + (2 * fb + d / 2 ^ fb) % 2 = d / 2 ^ fb by omega]
  exact (Nat.div_add_mod' d (2 ^ fb)).symm

/-- A distance lies in the range of its slot. -/
theorem posSlot_bounds {d : Nat} (h : 4 ≤ d) : 4 ≤ posSlot d ∧
    slotBase (posSlot d) ≤ d ∧ d < slotBase (posSlot d) + 2 ^ slotFooterBits (posSlot d) := by
  obtain ⟨s, r, hs, hr, rfl⟩ := exists_slotBase_add h
  rw [posSlot_slotBase_add hs hr]
  exact ⟨hs, Nat.le_add_right _ _, Nat.add_lt_add_left hr _⟩

theorem posSlot_of_lt {d : Nat} (h : d < 4) : posSlot d = d := if_pos h

theorem slotBase_ge {s : Nat} (h : 64 ≤ s) : 2 ^ 32 ≤ slotBase s := by
  rw [slotBase_eq]
  calc 2 ^ 32 = 2 * 2 ^ 31 := rfl
    _ ≤ (2 + s % 2) * 2 ^ slotFooterBits s :=
      Nat.mul_le_mul (by omega) (Nat.pow_le_pow_right (by omega) (by rw [slotFooterBits]; omega))

/-- A 32-bit distance has one of 64 slots. -/
theorem posSlot_lt {d : Nat} (h : d < 2 ^ 32) : posSlot d < 64 := by
  rcases Nat.lt_or_ge d 4 with h4 | h4
  · rw [posSlot_of_lt h4]
    omega
  · by_contra hs
    have := slotBase_ge (Nat.not_lt.mp hs)
    have := (posSlot_bounds h4).2.1
    omega

/-- The slots of 32 bits end below 2 ^ 32. -/
theorem slotBase_add_lt {s r : Nat} (hs : s < 64) (hr : r < 2 ^ slotFooterBits s) : slotBase s + r < 2 ^ 32 := by
  rw [slotBase_eq]
  have hbase : (2 + s % 2) * 2 ^ slotFooterBits s ≤ 3 * 2 ^ slotFooterBits s := Nat.mul_le_mul_right _ (by omega)
  have htop : 2 ^ slotFooterBits s ≤ 2 ^ 30 := Nat.pow_le_pow_right (by omega) (by rw [slotFooterBits]; omega)
  omega

/-! ### The distance field (R127) -/

/-- A footer from slot 14 on is its direct bits and its four align bits. -/
theorem footer_lt_iff {s r : Nat} (hs : 14 ≤ s) :
    r < 2 ^ slotFooterBits s ↔ r / 16 < 2 ^ (slotFooterBits s - 4) := by
  have hfb : slotFooterBits s = slotFooterBits s - 4 + 4 := by
    rw [slotFooterBits]
    omega
  rw [Nat.div_lt_iff_lt_mul (by omega), show (16 : Nat) = 2 ^ 4 from rfl, ← Nat.pow_add, ← hfb]

theorem readFooter_footerBits {s r : Nat} (h : r < 2 ^ slotFooterBits s) (rest : List Bool) :
    readFooter s (footerBits s r ++ rest) = .ok (r, rest) := by
  unfold readFooter footerBits
  split
  · exact readLsb_lsbBits h rest
  · next hs =>
    rw [List.append_assoc, readMsb_msbBits ((footer_lt_iff (Nat.not_lt.mp hs)).mp h)]
    simp only [readLsb_lsbBits (show r % 16 < 2 ^ 4 by omega), Nat.div_add_mod']

theorem footerBits_of_readFooter {s r : Nat} {bs rest : List Bool} (h : readFooter s bs = .ok (r, rest)) :
    r < 2 ^ slotFooterBits s ∧ footerBits s r ++ rest = bs := by
  unfold readFooter at h
  unfold footerBits
  split at h
  · next hs =>
    obtain ⟨hr, rfl⟩ := readLsb_eq_ok.mp h
    exact ⟨hr, by rw [if_pos hs]⟩
  · next hs =>
    split at h
    · cases h
    · next direct mid hdirect =>
      split at h
      · cases h
      · next align rest' halign =>
        obtain ⟨hdlt, rfl⟩ := readMsb_zero_eq_ok.mp hdirect
        obtain ⟨halt, rfl⟩ := readLsb_eq_ok.mp halign
        cases h
        rw [footer_lt_iff (Nat.not_lt.mp hs), if_neg hs, show (direct * 16 + align) / 16 = direct by omega,
          show (direct * 16 + align) % 16 = align by omega, List.append_assoc]
        exact ⟨hdlt, rfl⟩

theorem distanceBits_of_lt {d : Word} (h : d.toNat < 4) : distanceBits d = msbBits 6 d.toNat := by
  simp only [distanceBits, posSlot_of_lt h, if_pos h, List.append_nil]

/-- The distance `r` above the base of a slot is that slot and the footer of `r`. -/
theorem distanceBits_slotBase_add {s r : Nat} (hs : 4 ≤ s) (hs64 : s < 64) (hr : r < 2 ^ slotFooterBits s) :
    distanceBits (u32 (slotBase s + r)) = msbBits 6 s ++ footerBits s r := by
  have hd : (u32 (slotBase s + r)).toNat = slotBase s + r := by
    rw [BitVec.toNat_ofNat, Nat.mod_eq_of_lt (slotBase_add_lt hs64 hr)]
  simp only [distanceBits, hd, posSlot_slotBase_add hs hr, if_neg (Nat.not_lt.mpr hs), Nat.add_sub_cancel_left]

/-- A distance below 4, or one above the base of a slot. -/
theorem distance_cases (d : Word) : d.toNat < 4 ∨
    ∃ s r, 4 ≤ s ∧ s < 64 ∧ r < 2 ^ slotFooterBits s ∧ d = u32 (slotBase s + r) := by
  rcases Nat.lt_or_ge d.toNat 4 with h4 | h4
  · exact .inl h4
  · obtain ⟨s, r, hs, hr, hd⟩ := exists_slotBase_add h4
    have hs64 := posSlot_lt d.isLt
    rw [hd, posSlot_slotBase_add hs hr] at hs64
    exact .inr ⟨s, r, hs, hs64, hr, by rw [← hd]; simp⟩

theorem readDistance_distanceBits (d : Word) (rest : List Bool) :
    readDistance (distanceBits d ++ rest) = .ok (d, rest) := by
  unfold readDistance
  rcases distance_cases d with h4 | ⟨s, r, hs, hs64, hr, rfl⟩
  · rw [distanceBits_of_lt h4, readMsb_msbBits (by omega)]
    simp [h4]
  · rw [distanceBits_slotBase_add hs hs64 hr, List.append_assoc, readMsb_msbBits (by omega)]
    simp only [if_neg (Nat.not_lt.mpr hs), readFooter_footerBits hr]

theorem distanceBits_of_readDistance {d : Word} {bs rest : List Bool} (h : readDistance bs = .ok (d, rest)) :
    distanceBits d ++ rest = bs := by
  unfold readDistance at h
  split at h
  · cases h
  · next s mid hslot =>
    obtain ⟨hs64, rfl⟩ := readMsb_zero_eq_ok.mp hslot
    split at h
    · next h4 =>
      cases h
      have hs : (u32 s).toNat = s := by
        rw [BitVec.toNat_ofNat]
        omega
      rw [distanceBits_of_lt (by rwa [hs]), hs]
    · next h4 =>
      split at h
      · cases h
      · next r rest' hfooter =>
        obtain ⟨hr, rfl⟩ := footerBits_of_readFooter hfooter
        cases h
        rw [distanceBits_slotBase_add (Nat.not_lt.mp h4) hs64 hr, List.append_assoc]

/-! ### Symbols (R123, R130) -/

theorem readRep_lengthBits (k : Nat → Instr) {len : Nat} (h : lenOk len = true) (rest : List Bool) :
    readRep k (lengthBits len ++ rest) = .ok (k len, rest) := by
  simp only [readRep, readLength_lengthBits h]

theorem lengthBits_of_readRep {k : Nat → Instr} {i : Instr} {bs rest : List Bool} (h : readRep k bs = .ok (i, rest)) :
    ∃ len, lenOk len = true ∧ i = k len ∧ lengthBits len ++ rest = bs := by
  unfold readRep at h
  split at h
  · next len mid hlen =>
    cases h
    obtain ⟨hok, hbs⟩ := lengthBits_of_readLength hlen
    exact ⟨len, hok, rfl, hbs⟩
  · cases h

theorem readMatch_bits {len : Nat} (h : lenOk len = true) (d : Word) (rest : List Bool) :
    readMatch (lengthBits len ++ distanceBits d ++ rest) = .ok (matchOrEnd len d, rest) := by
  simp only [readMatch, List.append_assoc, readLength_lengthBits h, readDistance_distanceBits]

theorem bits_of_readMatch {i : Instr} {bs rest : List Bool} (h : readMatch bs = .ok (i, rest)) :
    ∃ len d, lenOk len = true ∧ i = matchOrEnd len d ∧ lengthBits len ++ distanceBits d ++ rest = bs := by
  unfold readMatch at h
  split at h
  · cases h
  · next len mid hlen =>
    split at h
    · cases h
    · next d rest' hd =>
      cases h
      obtain ⟨hok, rfl⟩ := lengthBits_of_readLength hlen
      exact ⟨len, d, hok, rfl, by rw [List.append_assoc, distanceBits_of_readDistance hd]⟩

/-- MATCH and END: the distance tells which, and both are coded alike. -/
theorem matchOrEnd_bits {len : Nat} (h : lenOk len = true) (d : Word) :
    (matchOrEnd len d).wellFormed = true ∧ (matchOrEnd len d).isCommand = false ∧
      symbolBits (matchOrEnd len d) = true :: false :: (lengthBits len ++ distanceBits d) := by
  unfold matchOrEnd
  split
  · next hd =>
    subst hd
    exact ⟨h, rfl, rfl⟩
  · next hd => exact ⟨by simpa [Instr.wellFormed, h] using hd, rfl, rfl⟩

/-- Decoding reads back the bits of a well-formed symbol. -/
theorem decodeSymbol_symbolBits {i : Instr} (hwf : i.wellFormed = true) (hcmd : i.isCommand = false)
    (rest : List Bool) : decodeSymbol (symbolBits i ++ rest) = .ok (i, rest) := by
  cases i with
  | lit v =>
    simp only [symbolBits, List.cons_append, decodeSymbol, readMsb_msbBits (n := 8) v.isLt]
    simp
  | matchSym len d =>
    simp only [Instr.wellFormed, Bool.and_eq_true, bne_iff_ne] at hwf
    simp only [symbolBits, List.cons_append, decodeSymbol, readMatch_bits hwf.1, matchOrEnd, if_neg hwf.2]
  | shortRep => rfl
  | rep0 len | rep1 len | rep2 len | rep3 len =>
    simp only [symbolBits, List.cons_append, decodeSymbol, readRep_lengthBits _ (show lenOk len = true from hwf)]
  | endMark len =>
    simp only [symbolBits, List.cons_append, decodeSymbol, readMatch_bits (show lenOk len = true from hwf), matchOrEnd,
      if_true]
  | nop | encOpen | encStep | decOpen | decStep | close => cases hcmd

/-- What decodes is a well-formed symbol, read from its own bits. -/
theorem symbolBits_of_decodeSymbol {i : Instr} {bs rest : List Bool} (h : decodeSymbol bs = .ok (i, rest)) :
    i.wellFormed = true ∧ i.isCommand = false ∧ symbolBits i ++ rest = bs := by
  have rep {k : Nat → Instr} (start : List Bool) {bs : List Bool}
      (hk : ∀ len, lenOk len = true → (k len).wellFormed = true ∧ (k len).isCommand = false ∧
        symbolBits (k len) = start ++ lengthBits len) (h : readRep k bs = .ok (i, rest)) :
      i.wellFormed = true ∧ i.isCommand = false ∧ symbolBits i ++ rest = start ++ bs := by
    obtain ⟨len, hok, rfl, rfl⟩ := lengthBits_of_readRep h
    obtain ⟨hwf, hcmd, hbits⟩ := hk len hok
    exact ⟨hwf, hcmd, by rw [hbits, List.append_assoc]⟩
  unfold decodeSymbol at h
  split at h
  · split at h
    · next v mid hv =>
      obtain ⟨hlt, rfl⟩ := readMsb_zero_eq_ok.mp hv
      cases h
      have hnat : (u8 v).toNat = v := by
        rw [BitVec.toNat_ofNat]
        omega
      exact ⟨rfl, rfl, by rw [symbolBits, hnat]; rfl⟩
    · cases h
  · obtain ⟨len, d, hok, rfl, rfl⟩ := bits_of_readMatch h
    obtain ⟨hwf, hcmd, hbits⟩ := matchOrEnd_bits hok d
    exact ⟨hwf, hcmd, by rw [hbits]; rfl⟩
  · cases h
    exact ⟨rfl, rfl, rfl⟩
  · exact rep (k := .rep0) [true, true, false, true] (fun _ hl => ⟨hl, rfl, rfl⟩) h
  · exact rep (k := .rep1) [true, true, true, false] (fun _ hl => ⟨hl, rfl, rfl⟩) h
  · exact rep (k := .rep2) [true, true, true, true, false] (fun _ hl => ⟨hl, rfl, rfl⟩) h
  · exact rep (k := .rep3) [true, true, true, true, true] (fun _ hl => ⟨hl, rfl, rfl⟩) h
  · cases h

/-- Settles O1: a command by its word, a symbol by its bits. -/
theorem decodeInvertsEncode : Obligations.DecodeInvertsEncode := by
  have symbol (i : Instr) (hwf : i.wellFormed = true) (hcmd : i.isCommand = false) :
      decode (.decisions (symbolBits i)) = .ok i := by
    have h := decodeSymbol_symbolBits hwf hcmd []
    rw [List.append_nil] at h
    simp only [decode, h]
  intro i hi
  cases i with
  | lit | matchSym | shortRep | rep0 | rep1 | rep2 | rep3 | endMark => exact symbol _ hi rfl
  | nop | encOpen | encStep | decOpen | decStep | close => rfl

/-! ### Enough bits for a symbol (R133) -/

/-- On `k` bits or more `read` answers, and takes at most `k` of them. -/
def ReadsWithin {α : Type} (k : Nat) (read : List Bool → Except Reject (α × List Bool)) : Prop :=
  ∀ bs, k ≤ bs.length → ∃ x rest, read bs = .ok (x, rest) ∧ bs.length ≤ rest.length + k

theorem readMsb_readsWithin (n acc : Nat) : ReadsWithin n (readMsb n acc) := by
  intro bs h
  induction n generalizing acc bs with
  | zero => exact ⟨acc, bs, rfl, le_rfl⟩
  | succ n ih =>
    cases bs with
    | nil => simp at h
    | cons b bs =>
      obtain ⟨v, rest, hv, hlen⟩ := ih (2 * acc + b.toNat) bs (Nat.le_of_succ_le_succ h)
      exact ⟨v, rest, hv, Nat.succ_le_succ hlen⟩

theorem readLsb_readsWithin (n : Nat) : ReadsWithin n (readLsb n) := by
  intro bs h
  induction n generalizing bs with
  | zero => exact ⟨0, bs, rfl, le_rfl⟩
  | succ n ih =>
    cases bs with
    | nil => simp at h
    | cons b bs =>
      obtain ⟨v, rest, hv, hlen⟩ := ih bs (Nat.le_of_succ_le_succ h)
      exact ⟨b.toNat + 2 * v, rest, by rw [readLsb, hv], Nat.succ_le_succ hlen⟩

theorem readLength_readsWithin : ReadsWithin 10 readLength := by
  intro bs h
  match bs with
  | false :: bs =>
    obtain ⟨v, rest, hv, hlen⟩ := readMsb_readsWithin 3 0 bs (by simp at h; omega)
    exact ⟨2 + v, rest, by rw [readLength, hv], by simp; omega⟩
  | true :: false :: bs =>
    obtain ⟨v, rest, hv, hlen⟩ := readMsb_readsWithin 3 0 bs (by simp at h; omega)
    exact ⟨10 + v, rest, by rw [readLength, hv], by simp; omega⟩
  | true :: true :: bs =>
    obtain ⟨v, rest, hv, hlen⟩ := readMsb_readsWithin 8 0 bs (by simp at h; omega)
    exact ⟨18 + v, rest, by rw [readLength, hv], by simp; omega⟩

theorem readFooter_readsWithin (s : Nat) : ReadsWithin (slotFooterBits s) (readFooter s) := by
  intro bs h
  unfold readFooter
  split
  · exact readLsb_readsWithin _ bs h
  · next hs =>
    have hfb : slotFooterBits s = slotFooterBits s - 4 + 4 := by
      rw [slotFooterBits]
      omega
    obtain ⟨direct, mid, hdirect, hmid⟩ := readMsb_readsWithin (slotFooterBits s - 4) 0 bs (by omega)
    obtain ⟨align, rest, halign, hrest⟩ := readLsb_readsWithin 4 mid (by omega)
    exact ⟨direct * 16 + align, rest, by simp only [hdirect, halign], by omega⟩

theorem readDistance_readsWithin : ReadsWithin 36 readDistance := by
  intro bs h
  obtain ⟨s, mid, hslot, hmid⟩ := readMsb_readsWithin 6 0 bs (by omega)
  have hs : s < 64 := (readMsb_zero_eq_ok.mp hslot).1
  simp only [readDistance, hslot]
  split
  · exact ⟨u32 s, mid, rfl, by omega⟩
  · have hfb : slotFooterBits s ≤ 30 := by
      rw [slotFooterBits]
      omega
    obtain ⟨r, rest, hr, hrest⟩ := readFooter_readsWithin s mid (by omega)
    exact ⟨u32 (slotBase s + r), rest, by simp only [hr], by omega⟩

theorem readRep_readsWithin (k : Nat → Instr) : ReadsWithin 10 (readRep k) := by
  intro bs h
  obtain ⟨len, rest, hlen, hrest⟩ := readLength_readsWithin bs h
  exact ⟨k len, rest, by rw [readRep, hlen], hrest⟩

theorem readMatch_readsWithin : ReadsWithin 46 readMatch := by
  intro bs h
  obtain ⟨len, mid, hlen, hmid⟩ := readLength_readsWithin bs (by omega)
  obtain ⟨d, rest, hd, hrest⟩ := readDistance_readsWithin mid (by omega)
  exact ⟨matchOrEnd len d, rest, by simp only [readMatch, hlen, hd], by omega⟩

theorem ReadsWithin.ok {α : Type} {k : Nat} {read : List Bool → Except Reject (α × List Bool)}
    (h : ReadsWithin k read) {bs : List Bool} (hk : k ≤ bs.length) : ∃ r, read bs = .ok r := by
  obtain ⟨x, rest, hx, -⟩ := h bs hk
  exact ⟨_, hx⟩

/-- 48 bits are the two that begin a MATCH, the longest length and the longest distance. -/
theorem decodeSymbol_of_length {bs : List Bool} (h : 48 ≤ bs.length) : ∃ r, decodeSymbol bs = .ok r := by
  match bs with
  | false :: bs =>
    obtain ⟨v, rest, hv, -⟩ := readMsb_readsWithin 8 0 bs (by simp at h; omega)
    exact ⟨_, by rw [decodeSymbol, hv]⟩
  | true :: false :: bs => exact readMatch_readsWithin.ok (by simp at h; omega)
  | true :: true :: false :: false :: bs => exact ⟨_, rfl⟩
  | true :: true :: false :: true :: bs => exact (readRep_readsWithin _).ok (by simp at h; omega)
  | true :: true :: true :: false :: bs => exact (readRep_readsWithin _).ok (by simp at h; omega)
  | true :: true :: true :: true :: false :: bs => exact (readRep_readsWithin _).ok (by simp at h; omega)
  | true :: true :: true :: true :: true :: bs => exact (readRep_readsWithin _).ok (by simp at h; omega)

/-- Settles O2. -/
theorem encodeInvertsDecode : Obligations.EncodeInvertsDecode :=
  ⟨fun _ _ _ => symbolBits_of_decodeSymbol, fun _ => decodeSymbol_of_length⟩

end Sys2Proof
end

section
/-!
PROOFS. What a symbol other than END does where it executes, in closed form: its effect on the rep set, the coder
state and `Win` (`43_state_and_symbols.md` R270, R273; `46_decoder_driver.md` R402 to R405, R410, R411), and the run
that RUN expands to (`30_encoding.md` R135).
-/

namespace Sys2Proof.Machine

/-! ### Sequences of actions -/

/-- A sequence that ends has ended its first part. -/
theorem act_bind_ok {α β : Type} {a : Act α} {f : α → Act β} {s t : State} {y : β} (h : (a >>= f) s = .ok y t) :
    ∃ x u, a s = .ok x u ∧ f x u = .ok y t := by
  rw [act_bind] at h
  cases ha : a s with
  | ok x u => exact ⟨x, u, rfl, by simpa [ha] using h⟩
  | error e u => simp [ha] at h

/-! ### Copies (R109, R411) -/

/-- `w` with `n` bytes copied from `d + 1` back, one at a time. -/
def copyOnto (d : Nat) : Nat → List Byte → List Byte
  | 0, w => w
  | n + 1, w => copyOnto d n (w ++ [w.getD (w.length - d - 1) 0])

@[simp] theorem copyOnto_length (d n : Nat) (w : List Byte) : (copyOnto d n w).length = w.length + n := by
  induction n generalizing w with
  | zero => rfl
  | succ n ih =>
    rw [copyOnto, ih, List.length_append, List.length_singleton]
    omega

/-- A copy from one byte back repeats the last byte. -/
theorem copyOnto_zero (v : Byte) (n : Nat) (w : List Byte) :
    copyOnto 0 n (w ++ [v]) = w ++ [v] ++ List.replicate n v := by
  induction n generalizing w with
  | zero => simp [copyOnto]
  | succ n ih =>
    have hlast : (w ++ [v]).getD ((w ++ [v]).length - 0 - 1) 0 = v := by simp [List.getD]
    rw [copyOnto, hlast, ih, List.replicate_succ]
    simp

/-- `s` with `Win` replaced; OUT_COUNT shows its length (R39). -/
def State.withWin (w : List Byte) (s : State) : State :=
  { s with win := w, regs := { s.regs with outCount := u32 w.length } }

theorem winAppend_eq (b : Byte) (s : State) : winAppend b s = .ok () (s.withWin (s.win ++ [b])) := by
  simp [winAppend, State.withWin]

theorem winRead_eq {a : Nat} {s : State} (h : a < s.outPos) : winRead a s = .ok (s.win.getD a 0) s := by
  have hlt : a < s.win.length := h
  simp only [winRead, act_bind, act_get, List.getElem?_eq_getElem hlt, act_pure, List.getD, Option.getD_some]

/-- A copy of at least one byte from inside the output. -/
theorem copyBytes_eq {d n : Nat} {s : State} (h : d < s.outPos) (hn : 1 ≤ n) :
    copyBytes d n s = .ok () (s.withWin (copyOnto d n s.win)) := by
  obtain ⟨n, rfl⟩ : ∃ m, n = m + 1 := ⟨n - 1, by omega⟩
  clear hn
  induction n generalizing s with
  | zero =>
    simp only [copyBytes, copyOnto, act_bind, act_get, winRead_eq (show s.outPos - d - 1 < s.outPos by omega),
      winAppend_eq, act_pure]
    rfl
  | succ n ih =>
    have hlonger : d < (s.withWin (s.win ++ [s.win.getD (s.outPos - d - 1) 0])).outPos := by
      simp only [State.outPos, State.withWin, List.length_append] at h ⊢
      omega
    rw [copyBytes]
    simp only [act_bind, act_get, winRead_eq (show s.outPos - d - 1 < s.outPos by omega), winAppend_eq, ih hlonger]
    rfl

/-! ### The effect of a symbol -/

/-- The rep set after a symbol (R273, R405). -/
def symbolReps : Instr → Reps → Reps
  | .matchSym _ d, r => r.push d
  | .endMark _, r => r.push endDistance
  | .rep0 _, r => r.promote 0
  | .rep1 _, r => r.promote 1
  | .rep2 _, r => r.promote 2
  | .rep3 _, r => r.promote 3
  | _, r => r

/-- The coder state after a symbol (R270). -/
def symbolState : Instr → CoderState → CoderState
  | .lit _, st => updateChar st
  | .matchSym _ _, st | .endMark _, st => updateMatch st
  | .shortRep, st => updateShortRep st
  | .rep0 _, st | .rep1 _, st | .rep2 _, st | .rep3 _, st => updateRep st
  | _, st => st

/-- `Win` after a symbol that executes from the rep set `r`. -/
def symbolWin : Instr → Reps → List Byte → List Byte
  | .lit v, _, w => w ++ [v]
  | i, r, w => copyOnto (symbolReps i r).r0.toNat (symbolLength i) w

/-- `s` with the rep set and the coder state of a symbol. -/
def State.moved (i : Instr) (s : State) : State :=
  (s.withReps (symbolReps i)).withCoderState (symbolState i)

/-- `s` after a symbol that executes. -/
def State.ran (i : Instr) (s : State) : State := (s.moved i).withWin (symbolWin i s.session.reps s.win)

/-- A symbol of a program other than END (R134). -/
structure Runs (i : Instr) : Prop where
  symbol : isProgramSymbol i = true
  notEnd : ∀ len, i ≠ .endMark len

/-- The distance a symbol copies from is inside the output. -/
def State.reaches (i : Instr) (s : State) : Prop :=
  (∃ v, i = .lit v) ∨ (symbolReps i s.session.reps).r0.toNat < s.outPos

/-- What the decoder checks before the symbol has its effect (R403, R410). -/
structure State.Accepts (i : Instr) (s : State) : Prop where
  reaches : s.reaches i
  dict : (∃ v, i = .lit v) ∨ i = .shortRep ∨ (symbolReps i s.session.reps).r0.toNat < s.session.dec.dictCheck
  size : ∀ n, s.session.dec.outSize = some n → s.outPos + symbolLength i ≤ n

/-- A symbol with a length field: its action is one CheckAndCopy after the moves of `reps` and `state` (R404, R405),
and its distance is not the one of END. -/
structure CopySymbol (i : Instr) (isMatch : Bool) : Prop where
  notLit : ∀ v, i ≠ .lit v
  notShortRep : i ≠ .shortRep
  length : 2 ≤ symbolLength i
  act : ∀ s, symbolAct i s = checkAndCopy (symbolLength i) isMatch (s.moved i)
  notEnd : ∀ r, (symbolReps i r).r0 ≠ endDistance ∨ isMatch = false

theorem Runs.cases {i : Instr} (h : Runs i) : (∃ v, i = .lit v) ∨ i = .shortRep ∨ ∃ isMatch, CopySymbol i isMatch := by
  obtain ⟨hsym, hend⟩ := h
  simp only [isProgramSymbol, Bool.and_eq_true, Bool.not_eq_true'] at hsym
  obtain ⟨hwf, hcmd⟩ := hsym
  cases i with
  | lit v => exact .inl ⟨v, rfl⟩
  | shortRep => exact .inr (.inl rfl)
  | matchSym len d =>
    simp only [Instr.wellFormed, Bool.and_eq_true, bne_iff_ne] at hwf
    exact .inr (.inr ⟨true, nofun, nofun, (lenOk_iff.mp hwf.1).1, fun _ => rfl, fun _ => .inl hwf.2⟩)
  | rep0 len | rep1 len | rep2 len | rep3 len =>
    exact .inr (.inr ⟨false, nofun, nofun, (lenOk_iff.mp hwf).1, fun _ => rfl, fun _ => .inr rfl⟩)
  | endMark len => exact absurd rfl (hend len)
  | nop | encOpen | encStep | decOpen | decStep | close => cases hcmd

theorem symbolLength_pos {i : Instr} (h : Runs i) : 1 ≤ symbolLength i := by
  rcases h.cases with ⟨v, rfl⟩ | rfl | ⟨_, hc⟩
  · exact le_rfl
  · exact le_rfl
  · exact Nat.le_of_succ_le hc.length

@[simp] theorem symbolWin_length (i : Instr) (r : Reps) (w : List Byte) :
    (symbolWin i r w).length = w.length + symbolLength i := by
  cases i <;> simp [symbolWin, symbolLength]

theorem symbolWin_copy {i : Instr} (h : ∀ v, i ≠ .lit v) (r : Reps) (w : List Byte) :
    symbolWin i r w = copyOnto (symbolReps i r).r0.toNat (symbolLength i) w := by
  cases i with
  | lit v => exact absurd rfl (h v)
  | _ => rfl

theorem ran_outPos (i : Instr) (s : State) : (s.ran i).outPos = s.outPos + symbolLength i :=
  symbolWin_length i _ _

/-- The copy a symbol makes once its distance is accepted. -/
theorem copyBytes_moved {i : Instr} {s : State} (hl : ∀ v, i ≠ .lit v) (hlen : 1 ≤ symbolLength i)
    (h : (symbolReps i s.session.reps).r0.toNat < s.outPos) :
    copyBytes (symbolReps i s.session.reps).r0.toNat (symbolLength i) (s.moved i) = .ok () (s.ran i) := by
  have hmoved : (symbolReps i s.session.reps).r0.toNat < (s.moved i).outPos := h
  rw [copyBytes_eq hmoved hlen, State.ran, symbolWin_copy hl]
  rfl

/-- CheckAndCopy where the distance and the size are accepted (R410). -/
theorem checkAndCopy_accepts {len : Nat} {isMatch : Bool} {s : State} (hpos : s.session.reps.r0.toNat < s.outPos)
    (hdict : s.session.reps.r0.toNat < s.session.dec.dictCheck)
    (hsize : ∀ n, s.session.dec.outSize = some n → s.outPos + len ≤ n) :
    checkAndCopy len isMatch s = copyBytes s.session.reps.r0.toNat len s := by
  have hacc : ¬(decide (s.outPos ≤ s.session.reps.r0.toNat) ||
      decide (s.session.dec.dictCheck ≤ s.session.reps.r0.toNat)) = true := by
    simp only [Bool.or_eq_true, decide_eq_true_eq]
    omega
  unfold checkAndCopy
  simp only [act_bind, act_get]
  rw [if_neg hacc]
  cases ho : s.session.dec.outSize with
  | none => rfl
  | some n => simp only [act_ite, if_neg (Nat.not_lt.mpr (hsize n ho))]

/-- A distance that CheckAndCopy accepts passes the dictionary check (R410); END aside. -/
theorem checkAndCopy_dict {len : Nat} {isMatch : Bool} {s t : State} (h : checkAndCopy len isMatch s = .ok () t)
    (hend : s.session.reps.r0 ≠ endDistance ∨ isMatch = false) :
    s.session.reps.r0.toNat < s.session.dec.dictCheck := by
  by_contra hd
  have hno : ¬(decide (s.session.reps.r0 = endDistance) && isMatch) = true := by
    rw [Bool.and_eq_true, decide_eq_true_eq]
    exact fun ⟨he, hm⟩ => hend.elim (fun hne => hne he) fun hf => by simp [hf] at hm
  unfold checkAndCopy at h
  simp only [act_bind, act_get, act_ite, decide_eq_true (Nat.not_lt.mp hd), Bool.or_true, if_true, if_neg hno] at h
  cases h

theorem symbolAct_lit (v : Byte) (s : State) : symbolAct (.lit v) s = .ok () (s.ran (.lit v)) := by
  simp only [symbolAct, actLit, act_bind, winAppend_eq, act_get]
  rfl

theorem symbolAct_shortRep {s : State} (h : s.session.reps.r0.toNat < s.outPos) :
    symbolAct .shortRep s = .ok () (s.ran .shortRep) := by
  have hread : s.outPos - s.session.reps.r0.toNat - 1 < (s.moved .shortRep).outPos := by
    show _ < s.outPos
    omega
  calc symbolAct .shortRep s
      = (winRead (s.outPos - s.session.reps.r0.toNat - 1) >>= winAppend) (s.moved .shortRep) := by
        simp only [symbolAct, actShortRep, act_bind, act_get, act_ite, if_neg (Nat.not_le.mpr h)]
        rfl
    _ = .ok () (s.ran .shortRep) := by
        rw [act_bind, winRead_eq hread]
        exact winAppend_eq _ _

/-- A symbol whose checks pass executes. -/
theorem symbolAct_of_accepts {i : Instr} {s : State} (hi : Runs i) (h : s.Accepts i) :
    symbolAct i s = .ok () (s.ran i) := by
  rcases hi.cases with ⟨v, rfl⟩ | rfl | ⟨m, hc⟩
  · exact symbolAct_lit v s
  · exact symbolAct_shortRep (h.reaches.resolve_left nofun)
  · have hreach := h.reaches.resolve_left fun ⟨v, hv⟩ => hc.notLit v hv
    have hdict := (h.dict.resolve_left fun ⟨v, hv⟩ => hc.notLit v hv).resolve_left hc.notShortRep
    rw [hc.act, checkAndCopy_accepts (s := s.moved i) hreach hdict h.size]
    exact copyBytes_moved hc.notLit (symbolLength_pos hi) hreach

/-- The checks of a symbol that executes have passed; where no size is declared it accepts. -/
theorem accepts_of_symbolAct {i : Instr} {s t : State} (hi : Runs i) (hsize : s.session.dec.outSize = none)
    (h : symbolAct i s = .ok () t) : s.Accepts i := by
  have size : ∀ n, s.session.dec.outSize = some n → s.outPos + symbolLength i ≤ n := by
    simp [hsize]
  rcases hi.cases with ⟨v, rfl⟩ | rfl | ⟨m, hc⟩
  · exact ⟨.inl ⟨v, rfl⟩, .inl ⟨v, rfl⟩, size⟩
  · refine ⟨.inr ?_, .inr (.inl rfl), size⟩
    by_contra hd
    have hback : s.outPos ≤ s.session.reps.r0.toNat := Nat.not_lt.mp hd
    simp only [symbolAct, actShortRep, act_bind, act_get, act_ite, if_pos hback] at h
    cases h
  · rw [hc.act] at h
    exact ⟨.inr (checkAndCopy_ok h (hc.notEnd _)).1, .inr (.inr (checkAndCopy_dict h (hc.notEnd _))), size⟩

theorem followSymbol_copy {i : Instr} (hi : Runs i) (hl : ∀ v, i ≠ .lit v) (s : State) :
    followSymbol i s = followCopy (symbolReps i s.session.reps).r0.toNat (symbolLength i) (s.moved i) := by
  obtain ⟨hsym, -⟩ := hi
  cases i with
  | lit v => exact absurd rfl (hl v)
  | matchSym | shortRep | rep0 | rep1 | rep2 | rep3 | endMark => rfl
  | nop | encOpen | encStep | decOpen | decStep | close => cases hsym

/-- The assembler follows a symbol that reaches into the output as the decoder executes it. -/
theorem followSymbol_of_reaches {i : Instr} {s : State} (hi : Runs i) (h : s.reaches i) :
    followSymbol i s = .ok () (s.ran i) := by
  by_cases hl : ∃ v, i = .lit v
  · obtain ⟨v, rfl⟩ := hl
    exact symbolAct_lit v s
  · have hreach := h.resolve_left hl
    have hnot : ∀ v, i ≠ .lit v := fun v hv => hl ⟨v, hv⟩
    have hmoved : (symbolReps i s.session.reps).r0.toNat < (s.moved i).outPos := hreach
    rw [followSymbol_copy hi hnot, followCopy_eq_copyBytes hmoved]
    exact copyBytes_moved hnot (symbolLength_pos hi) hreach

/-! ### Executing a program -/

/-- Execute a program's symbols in order. -/
def execute (prog : List Instr) : Act Unit := prog.foldlM (fun _ i => symbolAct i) ()

theorem execute_nil (s : State) : execute [] s = .ok () s := rfl

theorem execute_cons (i : Instr) (is : List Instr) (s : State) :
    execute (i :: is) s = match symbolAct i s with
      | .ok _ t => execute is t
      | .error e t => .error e t := by
  rw [execute, List.foldlM_cons, act_bind]
  cases symbolAct i s <;> rfl

/-! ### RUN (R135) -/

/-- A state in which a repeat of `reps[0]` copies the byte `v` (R135). -/
structure Repeats (v : Byte) (s : State) : Prop where
  last : ∃ w, s.win = w ++ [v]
  rep0 : s.session.reps.r0 = 0
  dict : 1 ≤ s.session.dec.dictCheck
  unbounded : s.session.dec.outSize = none

/-- The symbols RUN expands to after its LIT. -/
def isRunSymbol (i : Instr) : Prop := i = .shortRep ∨ ∃ len, i = .rep0 len ∧ lenOk len = true

theorem isRunSymbol.runs {i : Instr} (h : isRunSymbol i) : Runs i := by
  rcases h with rfl | ⟨len, rfl, hlen⟩
  · exact ⟨rfl, nofun⟩
  · exact ⟨by simp [isProgramSymbol, Instr.wellFormed, Instr.isCommand, hlen], nofun⟩

theorem isRunSymbol.reps {i : Instr} (h : isRunSymbol i) (r : Reps) : symbolReps i r = r := by
  rcases h with rfl | ⟨len, rfl, -⟩ <;> rfl

/-- A repeat of `reps[0] = 0` appends its length of the last byte. -/
theorem Repeats.ran_win {v : Byte} {s : State} {i : Instr} (h : Repeats v s) (hi : isRunSymbol i) :
    (s.ran i).win = s.win ++ List.replicate (symbolLength i) v := by
  obtain ⟨w, hw⟩ := h.last
  have hl : ∀ v, i ≠ .lit v := by
    rcases hi with rfl | ⟨len, rfl, -⟩ <;> exact nofun
  show symbolWin i s.session.reps s.win = _
  rw [symbolWin_copy hl, hi.reps, h.rep0, hw]
  exact copyOnto_zero v _ w

theorem Repeats.symbolAct {v : Byte} {s : State} {i : Instr} (h : Repeats v s) (hi : isRunSymbol i) :
    symbolAct i s = .ok () (s.ran i) ∧ Repeats v (s.ran i) := by
  have hdist : (symbolReps i s.session.reps).r0.toNat = 0 := by rw [hi.reps, h.rep0]; rfl
  have hdict := h.dict
  obtain ⟨w, hw⟩ := h.last
  have hpos : 0 < s.outPos := by simp [State.outPos, hw]
  refine ⟨symbolAct_of_accepts hi.runs ⟨.inr (by omega), .inr (.inr (by omega)), ?_⟩, ?_⟩
  · simp [h.unbounded]
  · refine ⟨⟨s.win ++ List.replicate (symbolLength i - 1) v, ?_⟩, ?_, h.dict, h.unbounded⟩
    · have hlen := symbolLength_pos hi.runs
      rw [h.ran_win hi, List.append_assoc, ← List.replicate_succ', Nat.sub_add_cancel hlen]
    · show (symbolReps i s.session.reps).r0 = 0
      rw [hi.reps, h.rep0]

theorem runRest_zero (fuel : Nat) : runRest fuel 0 = [] := by
  cases fuel <;> rfl

/-- A run of `n` more bytes begins with one repeat and goes on as the run of the bytes then left. -/
theorem runRest_succ {n : Nat} (fuel : Nat) (hn : 1 ≤ n) : ∃ i, isRunSymbol i ∧ symbolLength i ≤ n ∧
    runRest (fuel + 1) n = i :: runRest fuel (n - symbolLength i) := by
  rw [runRest, if_neg (by omega)]
  split
  · next h1 =>
    subst h1
    exact ⟨.shortRep, .inl rfl, le_rfl, by rw [symbolLength, runRest_zero]⟩
  · split
    · next h273 =>
      exact ⟨.rep0 n, .inr ⟨n, rfl, lenOk_iff.mpr ⟨by omega, h273⟩⟩, le_rfl,
        by rw [symbolLength, Nat.sub_self, runRest_zero]⟩
    · next h273 => exact ⟨.rep0 273, .inr ⟨273, rfl, rfl⟩, by rw [symbolLength]; omega, rfl⟩

/-- The repeats of a run of `n` more bytes append them. -/
theorem execute_runRest {v : Byte} {fuel n : Nat} {s : State} (hn : n ≤ fuel) (h : Repeats v s) :
    ∃ t, execute (runRest fuel n) s = .ok () t ∧ t.win = s.win ++ List.replicate n v ∧
      t.session.reps = s.session.reps ∧ t.regs.phase = s.regs.phase := by
  induction fuel generalizing n s with
  | zero => exact ⟨s, rfl, by simp [Nat.le_zero.mp hn], rfl, rfl⟩
  | succ fuel ih =>
    rcases Nat.eq_zero_or_pos n with rfl | hpos
    · exact ⟨s, rfl, by simp, rfl, rfl⟩
    · obtain ⟨i, hi, hlen, hrun⟩ := runRest_succ fuel hpos
      obtain ⟨hact, hrep⟩ := h.symbolAct hi
      have hone := symbolLength_pos hi.runs
      obtain ⟨t, ht, hwin, hreps, hphase⟩ := ih (n := n - symbolLength i) (by omega) hrep
      refine ⟨t, by rw [hrun, execute_cons, hact]; exact ht, ?_, hreps.trans (hi.reps _), hphase⟩
      rw [hwin, h.ran_win hi, List.append_assoc, List.replicate_append_replicate, Nat.add_sub_cancel' hlen]

/-- Settles O42: after its LIT the expansion is repeats of `reps[0] = 0`, each of the last byte. -/
theorem runRepeatsByte : Obligations.RunRepeatsByte := by
  intro s v n hn hrep hdict hsize
  have hstart : Repeats v (s.ran (.lit v)) := ⟨⟨s.win, rfl⟩, hrep, hdict, hsize⟩
  obtain ⟨t, ht, hwin, hreps, hphase⟩ := execute_runRest (fuel := n) (n := n - 1) (by omega) hstart
  refine ⟨t, ?_, ?_, hreps, hphase⟩
  · show execute (expandRun v n) s = _
    rw [expandRun, execute_cons, symbolAct_lit]
    exact ht
  · have hlit : (s.ran (.lit v)).win = s.win ++ [v] := rfl
    rw [hwin, hlit, List.append_assoc, List.singleton_append, ← List.replicate_succ, Nat.sub_add_cancel (by omega)]

end Sys2Proof.Machine
end

section
/-!
PROOFS. The interval that the range encoder narrows (`40_range_coder.md` R174 to R178) and the number its output is.
The bytes emitted, the bytes held back and `low` are together the digits of one number, the lower end of the interval,
`range` is its width, and the bytes of the whole output, as far as the digits go, are a number in it. The decoder's
`code` is the distance of that number from the lower end (R180, R183).
-/

namespace Sys2Proof.Machine

/-! ### Bytes as a number (R97) -/

/-- The number whose digits to base 256 are `bs`, the first most significant. -/
def bytesValue (bs : List Byte) : Nat := bs.foldl (fun acc b => acc * 256 + b.toNat) 0

theorem bytesValue_concat (bs : List Byte) (b : Byte) : bytesValue (bs ++ [b]) = bytesValue bs * 256 + b.toNat := by
  rw [bytesValue, List.foldl_append]
  rfl

theorem bytesValue_append (as bs : List Byte) :
    bytesValue (as ++ bs) = bytesValue as * 256 ^ bs.length + bytesValue bs := by
  induction bs using List.reverseRecOn with
  | nil => simp [bytesValue]
  | append_singleton bs b ih =>
    rw [← List.append_assoc, bytesValue_concat, bytesValue_concat, ih, List.length_append, List.length_singleton]
    ring

/-- The first `n` bytes of `F` as a number. -/
def prefixValue (F : List Byte) (n : Nat) : Nat := bytesValue (F.take n)

theorem prefixValue_succ {F : List Byte} {n : Nat} {b : Byte} (h : F[n]? = some b) :
    prefixValue F (n + 1) = prefixValue F n * 256 + b.toNat := by
  rw [prefixValue, List.take_add_one, h, Option.toList_some, bytesValue_concat, prefixValue]

theorem prefixValue_mono (F : List Byte) {m n : Nat} (h : m ≤ n) : prefixValue F m ≤ prefixValue F n := by
  induction n, h using Nat.le_induction with
  | base => exact le_rfl
  | succ n _ ih =>
    cases hb : F[n]? with
    | none =>
      have hlen : F.length ≤ n := List.getElem?_eq_none_iff.mp hb
      rw [prefixValue, prefixValue, List.take_of_length_le hlen] at ih
      rwa [prefixValue, prefixValue, List.take_of_length_le (Nat.le_succ_of_le hlen)]
    | some b =>
      rw [prefixValue_succ hb]
      omega

/-! ### The encoder's interval -/

/-- The bytes the encoder holds back: `cache`, then the pending bytes 0xFF (R175). -/
def RangeEnc.held (e : RangeEnc) : List Byte := e.cache :: List.replicate (e.cacheSize - 1) 0xFF

/-- The lower end of the interval, after the bytes `out`. -/
def RangeEnc.base (out : List Byte) (e : RangeEnc) : Nat := bytesValue (out ++ e.held) * 2 ^ 32 + e.low.toNat

/-- How many bytes of the output the digits of the lower end stand for: `low` is four of them. -/
def RangeEnc.reach (out : List Byte) (e : RangeEnc) : Nat := out.length + e.cacheSize + 4

/-- The encoder's invariant (R178) with the width at least `least`, and with the fact that no carry leaves the bytes
held back: where the interval reaches beyond `low` of 32 bits they are not all 0xFF. -/
structure RangeEnc.Open (least : Nat) (e : RangeEnc) : Prop where
  wide : least ≤ e.range.toNat
  fits : e.low.toNat + e.range.toNat < 2 ^ 33
  holds : 1 ≤ e.cacheSize
  noCarry : e.low.toNat + e.range.toNat ≤ 2 ^ 32 ∨ bytesValue e.held + 2 ≤ 256 ^ e.cacheSize

/-- The output `F` lies in the interval. -/
structure RangeEnc.Covers (F out : List Byte) (e : RangeEnc) : Prop where
  long : e.reach out ≤ F.length
  lower : e.base out ≤ prefixValue F (e.reach out)
  upper : prefixValue F (e.reach out) < e.base out + e.range.toNat

/-- The decoder `d` stands on `F` where the encoder stood: it has the encoder's width, and its `code` is the distance
from the lower end. -/
structure RangeEnc.Matches (F out : List Byte) (e : RangeEnc) (d : RangeDec) : Prop where
  range : d.range = e.range
  code : e.base out + d.code.toNat = prefixValue F (e.reach out)
  position : d.inPos = e.reach out

theorem RangeEnc.open_init : RangeEnc.init.Open (2 ^ 24) := by
  constructor <;> decide

theorem bytesValue_replicate_ones (b : Byte) (n : Nat) :
    bytesValue (b :: List.replicate n 0xFF) + 1 = (b.toNat + 1) * 256 ^ n := by
  induction n with
  | zero => simp [bytesValue]
  | succ n ih =>
    have hff : (0xFF : Byte).toNat = 255 := rfl
    rw [List.replicate_succ', ← List.cons_append, bytesValue_concat, hff, Nat.pow_succ, ← Nat.mul_assoc, ← ih]
    ring

/-- Adding 1 to the bytes held back carries through the bytes 0xFF into `cache`. -/
theorem RangeEnc.held_value (e : RangeEnc) :
    bytesValue e.held + 1 = (e.cache.toNat + 1) * 256 ^ (e.cacheSize - 1) := bytesValue_replicate_ones _ _

theorem RangeEnc.held_length {e : RangeEnc} (h : 1 ≤ e.cacheSize) : e.held.length = e.cacheSize := by
  rw [RangeEnc.held, List.length_cons, List.length_replicate, Nat.sub_add_cancel h]

/-! ### Narrowing the interval -/

/-- The interval narrowed to `len` numbers from `off` on. -/
def RangeEnc.narrow (e : RangeEnc) (off len : Nat) : RangeEnc :=
  { e with low := BitVec.ofNat 33 (e.low.toNat + off), range := u32 len }

/-- The decoder's side of the narrowing. -/
def RangeDec.narrow (d : RangeDec) (off len : Nat) : RangeDec :=
  { d with range := u32 len, code := u32 (d.code.toNat - off) }

section Narrow

variable {e : RangeEnc} {off len : Nat}

theorem RangeEnc.narrow_range (hlen : off + len ≤ e.range.toNat) : (e.narrow off len).range.toNat = len := by
  have := e.range.isLt
  rw [RangeEnc.narrow, BitVec.toNat_ofNat, Nat.mod_eq_of_lt (by omega)]

theorem RangeEnc.narrow_low (h : e.Open (2 ^ 24)) (hlen : off + len ≤ e.range.toNat) :
    (e.narrow off len).low.toNat = e.low.toNat + off := by
  have := h.fits
  rw [RangeEnc.narrow, BitVec.toNat_ofNat, Nat.mod_eq_of_lt (by omega)]

theorem RangeEnc.Open.narrow (h : e.Open (2 ^ 24)) (hlen : off + len ≤ e.range.toNat) (hmin : 2 ^ 16 ≤ len) :
    (e.narrow off len).Open (2 ^ 16) := by
  have hr := RangeEnc.narrow_range hlen
  have hl := RangeEnc.narrow_low h hlen
  have hfits := h.fits
  have hcarry := h.noCarry
  exact ⟨by omega, by omega, h.holds, hcarry.imp_left fun _ => by omega⟩

theorem RangeEnc.base_narrow (h : e.Open (2 ^ 24)) (hlen : off + len ≤ e.range.toNat) (out : List Byte) :
    (e.narrow off len).base out = e.base out + off := by
  rw [RangeEnc.base, RangeEnc.narrow_low h hlen, ← Nat.add_assoc]
  rfl

/-- What lies in the narrowed interval lies in the interval. -/
theorem RangeEnc.Covers.of_narrow {F out : List Byte} (hc : (e.narrow off len).Covers F out) (h : e.Open (2 ^ 24))
    (hlen : off + len ≤ e.range.toNat) : e.Covers F out := by
  obtain ⟨hlong, hlower, hupper⟩ := hc
  have hr := RangeEnc.narrow_range hlen
  have hb := RangeEnc.base_narrow h hlen out
  have hreach : (e.narrow off len).reach out = e.reach out := rfl
  rw [hreach] at hlong hlower hupper
  exact ⟨hlong, by omega, by omega⟩

/-- The decoder finds the part of the interval by its `code`, and narrows with the encoder. -/
theorem RangeEnc.Matches.narrow {F out : List Byte} {d : RangeDec} (hm : e.Matches F out d)
    (hc : (e.narrow off len).Covers F out) (h : e.Open (2 ^ 24)) (hlen : off + len ≤ e.range.toNat) :
    off ≤ d.code.toNat ∧ d.code.toNat < off + len ∧ (e.narrow off len).Matches F out (d.narrow off len) := by
  obtain ⟨-, hlower, hupper⟩ := hc
  obtain ⟨hrange, hcode, hpos⟩ := hm
  have hr := RangeEnc.narrow_range hlen
  have hb := RangeEnc.base_narrow h hlen out
  have hreach : (e.narrow off len).reach out = e.reach out := rfl
  rw [hreach] at hlower hupper
  have hdec : (d.narrow off len).code.toNat = d.code.toNat - off := by
    have := d.code.isLt
    rw [RangeDec.narrow, BitVec.toNat_ofNat, Nat.mod_eq_of_lt (by omega)]
  exact ⟨by omega, by omega, rfl, by rw [hreach, hb, hdec]; omega, hpos⟩

end Narrow

/-! ### ShiftLow -/

theorem bytesValue_replicate_zeros (b : Byte) (n : Nat) :
    bytesValue (b :: List.replicate n 0) = b.toNat * 256 ^ n := by
  induction n with
  | zero => simp [bytesValue]
  | succ n ih =>
    have hzero : (0 : Byte).toNat = 0 := rfl
    rw [List.replicate_succ', ← List.cons_append, bytesValue_concat, hzero, Nat.pow_succ, ← Nat.mul_assoc, ← ih,
      Nat.add_zero]

/-- A carry of `low` stays within the bytes held back. -/
def RangeEnc.carryFits (e : RangeEnc) : Prop := e.low.toNat < 2 ^ 32 ∨ bytesValue e.held + 1 < 256 ^ e.cacheSize

theorem RangeEnc.Open.carryFits {least : Nat} {e : RangeEnc} (h : e.Open least) (hleast : 1 ≤ least) : e.carryFits := by
  have hwide := h.wide
  have hcarry := h.noCarry
  by_contra hno
  rw [RangeEnc.carryFits, not_or, Nat.not_lt, Nat.not_lt] at hno
  omega

/-- ShiftLow emits nothing: the top byte of `low` is 0xFF and may still take a carry (R175). -/
abbrev RangeEnc.pends (e : RangeEnc) : Prop := 0xFF000000 ≤ e.low.toNat ∧ e.low.toNat < 2 ^ 32

theorem shiftLow_pending {e : RangeEnc} (h : e.pends) (hholds : 1 ≤ e.cacheSize) : shiftLowBytes e = [] ∧
    (shiftLowEnc e).held = e.held ++ [0xFF] ∧ (shiftLowEnc e).cacheSize = e.cacheSize + 1 := by
  refine ⟨if_pos h, ?_, ?_⟩
  · rw [shiftLowEnc, if_pos h, RangeEnc.held, RangeEnc.held, List.cons_append, ← List.replicate_succ']
    simp only [Nat.add_sub_cancel, Nat.sub_add_cancel hholds]
  · rw [shiftLowEnc, if_pos h]

theorem shiftLow_emitting {e : RangeEnc} (h : ¬e.pends) :
    (shiftLowEnc e).held = [u8 (e.low.toNat / 2 ^ 24)] ∧ (shiftLowEnc e).cacheSize = 1 := by
  constructor
  · rw [shiftLowEnc, if_neg h]
    rfl
  · rw [shiftLowEnc, if_neg h]

theorem bytesValue_singleton (b : Byte) : bytesValue [b] = b.toNat := by simp [bytesValue]

/-- Where ShiftLow emits, it emits the bytes held back with the carry of `low` added. -/
theorem shiftLowBytes_value {e : RangeEnc} (h : ¬e.pends) (hholds : 1 ≤ e.cacheSize) (hcarry : e.carryFits) :
    (shiftLowBytes e).length = e.cacheSize ∧
      bytesValue (shiftLowBytes e) = bytesValue e.held + e.low.toNat / 2 ^ 32 := by
  rw [shiftLowBytes, if_neg h]
  refine ⟨by rw [List.length_cons, List.length_replicate, Nat.sub_add_cancel hholds], ?_⟩
  rcases Nat.lt_or_ge e.low.toNat (2 ^ 32) with hlow | hlow
  · rw [Nat.div_eq_of_lt hlow, RangeEnc.held]
    simp
  · have hone : e.low.toNat / 2 ^ 32 = 1 := by
      have := e.low.isLt
      omega
    have hcache : e.cache.toNat + 1 < 256 := by
      have hfit := hcarry.resolve_left (Nat.not_lt.mpr hlow)
      rw [e.held_value] at hfit
      refine Nat.lt_of_mul_lt_mul_right (a := 256 ^ (e.cacheSize - 1)) (hfit.trans_eq ?_)
      rw [← Nat.pow_succ', Nat.succ_eq_add_one, Nat.sub_add_cancel hholds]
    rw [hone, e.held_value, show u8 (0xFF + 1) = 0 from rfl, bytesValue_replicate_zeros, BitVec.toNat_ofNat,
      Nat.mod_eq_of_lt hcache]

/-- ShiftLow adds a digit. -/
theorem shiftLow_base {e : RangeEnc} (hholds : 1 ≤ e.cacheSize) (hcarry : e.carryFits) (out : List Byte) :
    (shiftLowEnc e).base (out ++ shiftLowBytes e) = e.base out * 256 := by
  have hlt := e.low.isLt
  rw [RangeEnc.base, shiftLowEnc_low, RangeEnc.base]
  by_cases hpend : e.pends
  · obtain ⟨hbytes, hheld, -⟩ := shiftLow_pending hpend hholds
    rw [hbytes, List.append_nil, hheld, ← List.append_assoc, bytesValue_concat, show (0xFF : Byte).toNat = 255 from rfl]
    obtain ⟨hff, hnext⟩ := hpend
    omega
  · obtain ⟨hlen, hval⟩ := shiftLowBytes_value hpend hholds hcarry
    have hout : bytesValue (out ++ shiftLowBytes e) = bytesValue (out ++ e.held) + e.low.toNat / 2 ^ 32 := by
      rw [bytesValue_append, bytesValue_append, hlen, RangeEnc.held_length hholds, hval, Nat.add_assoc]
    rw [(shiftLow_emitting hpend).1, bytesValue_concat, hout, BitVec.toNat_ofNat]
    omega

theorem shiftLow_reach {e : RangeEnc} (hholds : 1 ≤ e.cacheSize) (out : List Byte) :
    (shiftLowEnc e).reach (out ++ shiftLowBytes e) = e.reach out + 1 := by
  have := shiftLow_length e hholds
  rw [RangeEnc.reach, RangeEnc.reach, List.length_append]
  omega

/-! ### The normalisation (R174, R180) -/

/-- The encoder with the width shifted left by a byte. -/
def RangeEnc.rescaled (e : RangeEnc) : RangeEnc := { e with range := u32 (e.range.toNat * 2 ^ 8) }

@[simp] theorem RangeEnc.rescaled_low (e : RangeEnc) : e.rescaled.low = e.low := rfl
@[simp] theorem RangeEnc.rescaled_cacheSize (e : RangeEnc) : e.rescaled.cacheSize = e.cacheSize := rfl
@[simp] theorem RangeEnc.rescaled_held (e : RangeEnc) : e.rescaled.held = e.held := rfl

/-- The decoder after it shifts the byte `b` in. -/
def RangeDec.shifted (d : RangeDec) (b : Byte) : RangeDec :=
  { range := u32 (d.range.toNat * 2 ^ 8), code := u32 (d.code.toNat * 2 ^ 8 + b.toNat), inPos := d.inPos + 1 }

section Rescale

variable {e : RangeEnc} {out F : List Byte}

theorem RangeEnc.rescaled_range (hr : e.range.toNat < 2 ^ 24) :
    (shiftLowEnc e.rescaled).range.toNat = e.range.toNat * 256 := by
  rw [shiftLowEnc_range, RangeEnc.rescaled, BitVec.toNat_ofNat]
  omega

/-- A normalisation restores the width, and still no carry leaves the bytes held back. -/
theorem RangeEnc.Open.rescale (h : e.Open (2 ^ 16)) (hr : e.range.toNat < 2 ^ 24) :
    (shiftLowEnc e.rescaled).Open (2 ^ 24) := by
  have hrange := RangeEnc.rescaled_range hr
  have hlow : (shiftLowEnc e.rescaled).low.toNat = e.low.toNat % 2 ^ 24 * 2 ^ 8 := shiftLowEnc_low _
  have hwide := h.wide
  have hfits := h.fits
  have hcarry := h.noCarry
  refine ⟨by omega, by omega, shiftLowEnc_cacheSize _, ?_⟩
  rw [hrange, hlow]
  by_cases hpend : e.pends
  · obtain ⟨-, hheld, hsize⟩ := shiftLow_pending (e := e.rescaled) hpend h.holds
    rw [hheld, hsize, bytesValue_concat, show (0xFF : Byte).toNat = 255 from rfl, Nat.pow_succ (n := 256),
      e.rescaled_held, e.rescaled_cacheSize]
    obtain ⟨hff, hnext⟩ := hpend
    omega
  · obtain ⟨hheld, hsize⟩ := shiftLow_emitting (e := e.rescaled) hpend
    rw [hheld, hsize, bytesValue_singleton, BitVec.toNat_ofNat, e.rescaled_low]
    omega

theorem RangeEnc.rescaled_base (h : e.Open (2 ^ 16)) (out : List Byte) :
    (shiftLowEnc e.rescaled).base (out ++ shiftLowBytes e.rescaled) = e.base out * 256 :=
  shiftLow_base (e := e.rescaled) h.holds (h.carryFits (by omega)) out

theorem RangeEnc.rescaled_reach (h : e.Open (2 ^ 16)) (out : List Byte) :
    (shiftLowEnc e.rescaled).reach (out ++ shiftLowBytes e.rescaled) = e.reach out + 1 :=
  shiftLow_reach (e := e.rescaled) h.holds out

/-- The digit a normalisation needs is a byte of the output. -/
theorem RangeEnc.Covers.next_byte (h : e.Open (2 ^ 16))
    (hc : (shiftLowEnc e.rescaled).Covers F (out ++ shiftLowBytes e.rescaled)) : ∃ b, F[e.reach out]? = some b := by
  have hlong := hc.long
  rw [RangeEnc.rescaled_reach h] at hlong
  exact ⟨_, List.getElem?_eq_getElem hlong⟩

theorem RangeEnc.Covers.of_rescale (h : e.Open (2 ^ 16)) (hr : e.range.toNat < 2 ^ 24)
    (hc : (shiftLowEnc e.rescaled).Covers F (out ++ shiftLowBytes e.rescaled)) : e.Covers F out := by
  obtain ⟨b, hb⟩ := hc.next_byte h
  obtain ⟨hlong, hlower, hupper⟩ := hc
  have hbyte := b.isLt
  rw [RangeEnc.rescaled_reach h] at hlong hlower hupper
  rw [RangeEnc.rescaled_base h, prefixValue_succ hb] at hlower hupper
  rw [RangeEnc.rescaled_range hr] at hupper
  exact ⟨by omega, by omega, by omega⟩

theorem RangeEnc.Matches.rescale {d : RangeDec} {b : Byte} (hm : e.Matches F out d) (h : e.Open (2 ^ 16))
    (hr : e.range.toNat < 2 ^ 24) (hc : e.Covers F out) (hb : F[e.reach out]? = some b) :
    (shiftLowEnc e.rescaled).Matches F (out ++ shiftLowBytes e.rescaled) (d.shifted b) := by
  obtain ⟨hrange, hcode, hpos⟩ := hm
  have hupper := hc.upper
  have hbyte := b.isLt
  refine ⟨?_, ?_, ?_⟩
  · rw [shiftLowEnc_range, RangeDec.shifted, hrange]
    rfl
  · have hdec : (d.shifted b).code.toNat = d.code.toNat * 256 + b.toNat := by
      rw [RangeDec.shifted, BitVec.toNat_ofNat]
      omega
    rw [RangeEnc.rescaled_reach h, RangeEnc.rescaled_base h, prefixValue_succ hb, hdec]
    omega
  · rw [RangeEnc.rescaled_reach h, ← hpos]
    rfl

end Rescale

/-! ### The flush (R177) -/

/-- What one ShiftLow does to the digits. -/
structure DigitAdded (s t : State) : Prop where
  base : t.session.renc.base t.out = s.session.renc.base s.out * 256
  reach : t.session.renc.reach t.out = s.session.renc.reach s.out + 1
  low : t.session.renc.low.toNat = s.session.renc.low.toNat % 2 ^ 24 * 2 ^ 8
  holds : 1 ≤ t.session.renc.cacheSize

theorem DigitAdded.carryFits {s t : State} (h : DigitAdded s t) : t.session.renc.carryFits := by
  have := h.low
  exact .inl (by omega)

theorem shiftLow_digit {s : State} (hholds : 1 ≤ s.session.renc.cacheSize) (hcarry : s.session.renc.carryFits) :
    ∃ t, shiftLow s = .ok () t ∧ DigitAdded s t := by
  refine ⟨_, shiftLow_eq hholds, ?_, ?_, ?_, ?_⟩
  · simpa using shiftLow_base hholds hcarry s.out
  · simpa using shiftLow_reach hholds s.out
  · simpa using shiftLowEnc_low s.session.renc
  · simpa using shiftLowEnc_cacheSize s.session.renc

/-- ShiftLow of a `low` of 0 emits every byte held back and holds back a byte 0. -/
theorem shiftLow_of_low_zero {s t : State} (hholds : 1 ≤ s.session.renc.cacheSize) (hlow : s.session.renc.low.toNat = 0)
    (h : shiftLow s = .ok () t) : t.session.renc = { s.session.renc with low := 0, cache := 0, cacheSize := 1 } := by
  rw [shiftLow_eq hholds] at h
  cases h
  simp [shiftLowEnc, hlow]

/-- The flush emits exactly the digits of the lower end. -/
theorem flushEncoder_base {s t : State} (hholds : 1 ≤ s.session.renc.cacheSize) (hcarry : s.session.renc.carryFits)
    (h : flushEncoder s = .ok () t) :
    bytesValue t.out = s.session.renc.base s.out ∧ t.out.length = s.session.renc.reach s.out := by
  obtain ⟨t1, h1, d1⟩ := shiftLow_digit hholds hcarry
  obtain ⟨t2, h2, d2⟩ := shiftLow_digit d1.holds d1.carryFits
  obtain ⟨t3, h3, d3⟩ := shiftLow_digit d2.holds d2.carryFits
  obtain ⟨t4, h4, d4⟩ := shiftLow_digit d3.holds d3.carryFits
  obtain ⟨t5, h5, d5⟩ := shiftLow_digit d4.holds d4.carryFits
  obtain rfl : t5 = t := by
    simpa only [flushEncoder, shiftLows, act_bind, h1, h2, h3, h4, h5, act_pure, EStateM.Result.ok.injEq,
      true_and] using h
  have hzero : t4.session.renc.low.toNat = 0 := by
    have := d1.low
    have := d2.low
    have := d3.low
    have := d4.low
    omega
  have hlast := shiftLow_of_low_zero d4.holds hzero h5
  have hsize : t5.session.renc.cacheSize = 1 := by rw [hlast]
  have hreach := d5.reach
  have hbase := d5.base
  rw [RangeEnc.reach, hsize, d4.reach, d3.reach, d2.reach, d1.reach] at hreach
  rw [hlast, RangeEnc.base, show (t5.out ++ RangeEnc.held _) = t5.out ++ [0] from rfl, bytesValue_concat,
    show (0 : Byte).toNat = 0 from rfl, show (0 : BitVec 33).toNat = 0 from rfl, d4.base, d3.base, d2.base,
    d1.base] at hbase
  exact ⟨by omega, by omega⟩

/-- The whole output lies in every interval of its coding: here, in the last one. -/
theorem flushEncoder_covers {s t : State} (ho : s.session.renc.Open (2 ^ 24)) (h : flushEncoder s = .ok () t) :
    s.session.renc.Covers t.out s.out ∧ t.out.length = s.session.renc.reach s.out := by
  obtain ⟨hval, hlen⟩ := flushEncoder_base ho.holds (ho.carryFits (by omega)) h
  have hwide := ho.wide
  have hall : prefixValue t.out (s.session.renc.reach s.out) = s.session.renc.base s.out := by
    rw [prefixValue, ← hlen, List.take_length, hval]
  exact ⟨⟨hlen.ge, hall.ge, by omega⟩, hlen⟩

end Sys2Proof.Machine
end

section
/-!
PROOFS. Encoding and decoding run side by side (`40_range_coder.md` R183). An encoding action and a decoding action
are paired with the value that the first codes: where the encoder's action answers, and the final output lies in the
interval it leaves, the decoder's action answers that value, and the two still stand together. The pairing is closed
under sequence, so each field of a symbol follows the shape of its coder.
-/

namespace Sys2Proof.Machine

/-! ### States that stand together -/

/-- What the coding of a symbol reads of a session besides the cells. -/
structure SameContext (s u : State) : Prop where
  win : u.win = s.win
  state : u.session.state = s.session.state
  reps : u.session.reps = s.session.reps
  lc : u.session.props.lc = s.session.props.lc
  lp : u.session.props.lp = s.session.props.lp
  pb : u.session.props.pb = s.session.props.pb

theorem SameContext.refl (s : State) : SameContext s s := ⟨rfl, rfl, rfl, rfl, rfl, rfl⟩

theorem SameContext.symm {s u : State} (h : SameContext s u) : SameContext u s :=
  ⟨h.win.symm, h.state.symm, h.reps.symm, h.lc.symm, h.lp.symm, h.pb.symm⟩

theorem SameContext.trans {s t u : State} (h : SameContext s t) (h' : SameContext t u) : SameContext s u :=
  ⟨h'.win.trans h.win, h'.state.trans h.state, h'.reps.trans h.reps, h'.lc.trans h.lc, h'.lp.trans h.lp,
    h'.pb.trans h.pb⟩

theorem SameContext.outPos {s u : State} (h : SameContext s u) : u.outPos = s.outPos := by
  rw [State.outPos, State.outPos, h.win]

theorem SameContext.of_bitFrame {u v : State} (h : bitFrame u v) : SameContext u v := by
  unfold bitFrame at h
  rw [h]
  exact ⟨rfl, rfl, rfl, rfl, rfl, rfl⟩

/-- Arrays have the same size under the same properties (R44). -/
theorem SameContext.size {s u : State} (h : SameContext s u) (a : CellArray) :
    a.size u.session.props = a.size s.session.props := by
  cases a <;> simp only [CellArray.size, h.lc, h.lp]

/-- An encoder between operations, its width at least `least`. -/
structure Coding (least : Nat) (s : State) : Prop where
  coder : s.session.renc.Open least
  canonical : s.session.cells.wf = true
  reachable : s.session.cells.reachable
  /-- The match byte of a matched literal is in range (R402). -/
  matchByte : isChar s.session.state = false → s.session.reps.r0.toNat < s.outPos

/-- The final output `F` lies in the interval of the encoder `s`. -/
def Covered (F : List Byte) (s : State) : Prop := s.session.renc.Covers F s.out

/-- The decoder `u` reads `F` and stands where the encoder `s` stood, with the same cells. -/
structure Synced (F : List Byte) (s u : State) : Prop where
  input : u.cin = F
  cells : u.session.cells = s.session.cells
  coder : s.session.renc.Matches F s.out u.session.rdec
  inCount : u.regs.inCount = u32 u.session.rdec.inPos

/-- The encoder went from `s` to `t`, and the decoder's action `d` follows it from `u` with the value `y`. -/
structure Followed {β : Type} (F : List Byte) (d : Act β) (y : β) (s t u : State) : Prop where
  coding : Coding (2 ^ 24) t
  context : SameContext s t
  covered : Covered F t → Covered F s
  decodes : Covered F t → Synced F s u → ∃ v, d u = .ok y v ∧ Synced F t v ∧ bitFrame u v

/-- The decoder's action `d` reads the value `y` that the encoder's action `a` codes. -/
def Replays {β : Type} (least : Nat) (a : Act Unit) (d : Act β) (y : β) : Prop :=
  ∀ F s t u, Coding least s → SameContext s u → a s = .ok () t → Followed F d y s t u

/-! ### Sequences -/

theorem Replays.bind {β γ : Type} {least : Nat} {a a' : Act Unit} {d : Act β} {f : β → Act γ} {x : β} {y : γ}
    (h : Replays least a d x) (h' : Replays (2 ^ 24) a' (f x) y) :
    Replays least (a >>= fun _ => a') (d >>= f) y := by
  intro F s w u hs hctx hrun
  obtain ⟨_, t, ha, ha'⟩ := act_bind_ok hrun
  have h1 := h F s t u hs hctx ha
  have h2 := h' F t w t h1.coding (SameContext.refl t) ha'
  refine ⟨h2.coding, h1.context.trans h2.context, fun hc => h1.covered (h2.covered hc), fun hc hsync => ?_⟩
  obtain ⟨v, hv, hvsync, hvframe⟩ := h1.decodes (h2.covered hc) hsync
  have hctx' : SameContext t v := (h1.context.symm.trans hctx).trans (SameContext.of_bitFrame hvframe)
  obtain ⟨z, hz, hzsync, hzframe⟩ := (h' F t w v h1.coding hctx' ha').decodes hc hvsync
  exact ⟨z, by rw [act_bind, hv]; exact hz, hzsync, bitFrame_preorder.trans _ _ _ hvframe hzframe⟩

/-- An encoding action that moves nothing the decoder has. -/
theorem Replays.pure {β : Type} {a : Act Unit} (y : β) (ha : ∀ s, ∃ f : Prices → Prices,
    a s = .ok () (s.mapSession fun ss => { ss with prices := f ss.prices })) :
    Replays (2 ^ 24) a (Pure.pure y) y := by
  intro F s t u hs hctx hrun
  obtain ⟨f, hf⟩ := ha s
  obtain rfl : s.mapSession (fun ss => { ss with prices := f ss.prices }) = t := by
    simpa only [hf, EStateM.Result.ok.injEq, true_and] using hrun
  exact ⟨⟨hs.coder, hs.canonical, hs.reachable, hs.matchByte⟩, ⟨rfl, rfl, rfl, rfl, rfl, rfl⟩, id,
    fun _ hsync => ⟨u, rfl, ⟨hsync.input, hsync.cells, hsync.coder, hsync.inCount⟩, rfl⟩⟩

theorem Replays.done {β : Type} (y : β) : Replays (2 ^ 24) (Pure.pure ()) (Pure.pure y) y :=
  Replays.pure y fun _ => ⟨id, rfl⟩

/-- What a decoded value is turned into. -/
theorem Replays.map {β γ : Type} {least : Nat} {a : Act Unit} {d : Act β} {x : β} (h : Replays least a d x)
    (f : β → γ) : Replays least a (d >>= fun z => Pure.pure (f z)) (f x) := by
  intro F s t u hs hctx hrun
  obtain ⟨hcoding, hcontext, hcovered, hdecodes⟩ := h F s t u hs hctx hrun
  refine ⟨hcoding, hcontext, hcovered, fun hc hsync => ?_⟩
  obtain ⟨v, hv, hrest⟩ := hdecodes hc hsync
  exact ⟨v, by rw [act_bind, hv]; rfl, hrest⟩

theorem Replays.get {β : Type} {least : Nat} {f : State → Act Unit} {g : State → Act β} {y : β}
    (h : ∀ s u, Coding least s → SameContext s u → Replays least (f s) (g u) y) :
    Replays least (MonadState.get >>= f) (MonadState.get >>= g) y :=
  fun F s t u hs hctx hrun =>
    have ⟨hcoding, hcontext, hcovered, hdecodes⟩ := h s u hs hctx F s t u hs hctx hrun
    ⟨hcoding, hcontext, hcovered, hdecodes⟩

theorem Replays.onStop {β : Type} {least : Nat} {a : Act Unit} {d : Act β} {y : β} (g : State → State)
    (h : Replays least a d y) : Replays least a (onStop g d) y := by
  intro F s t u hs hctx hrun
  obtain ⟨hcoding, hcontext, hcovered, hdecodes⟩ := h F s t u hs hctx hrun
  refine ⟨hcoding, hcontext, hcovered, fun hc hsync => ?_⟩
  obtain ⟨v, hv, hrest⟩ := hdecodes hc hsync
  exact ⟨v, by rw [act_onStop, hv], hrest⟩

/-! ### The normalisation -/

theorem SameContext.of_codeFrame {s t : State} (h : codeFrame s t) : SameContext s t := by
  unfold codeFrame at h
  rw [h]
  exact ⟨rfl, rfl, rfl, rfl, rfl, rfl⟩

/-- A change of the range encoder and `Out` alone. -/
theorem Coding.of_coder {least m : Nat} {s t : State} (hs : Coding least s) (ho : t.session.renc.Open m)
    (hcells : t.session.cells = s.session.cells) (hctx : SameContext s t) : Coding m t := by
  refine ⟨ho, by rw [hcells]; exact hs.canonical, by rw [hcells]; exact hs.reachable, ?_⟩
  rw [hctx.state, hctx.reps, hctx.outPos]
  exact hs.matchByte

/-- The encoder's normalisation in closed form, as the coder and `Out` show it. -/
theorem encNormalize_coder {s t : State} (hholds : 1 ≤ s.session.renc.cacheSize)
    (h : encNormalize s = .ok () t) : t.session.cells = s.session.cells ∧
    (t.session.renc, t.out) = if s.session.renc.range.toNat < 2 ^ 24 then
      (shiftLowEnc s.session.renc.rescaled, s.out ++ shiftLowBytes s.session.renc.rescaled)
      else (s.session.renc, s.out) := by
  rw [encNormalize_eq] at h
  split at h
  · next hr =>
    rw [shiftLow_eq (s := encRescaled s) hholds] at h
    cases h
    rw [if_pos hr, mapSession_session, mapSession_out, withEmitted_session, withEmitted_out]
    exact ⟨rfl, rfl⟩
  · next hr =>
    cases h
    rw [if_neg hr]
    exact ⟨rfl, rfl⟩

/-- The decoder's normalisation where `Cin` has a byte. -/
theorem decNormalize_shifted {u : State} {b : Byte} (hr : u.session.rdec.range.toNat < 2 ^ 24)
    (hb : u.cin[u.session.rdec.inPos]? = some b) : ∃ v, decNormalize u = .ok () v ∧
      v.session.rdec = u.session.rdec.shifted b ∧ v.session.cells = u.session.cells ∧ v.cin = u.cin ∧
      v.regs.inCount = u32 v.session.rdec.inPos := by
  rw [decNormalize_eq, if_pos hr, shiftInCode_some (s := decRescaled u) hb]
  exact ⟨_, rfl, rfl, rfl, rfl, rfl⟩

/-- The encoder's normalisation and the decoder's (R174, R180). -/
theorem encNormalize_replays : Replays (2 ^ 16) encNormalize decNormalize () := by
  intro F s t u hs hctx hrun
  have ho := hs.coder
  have hcontext := SameContext.of_codeFrame (encNormalize_frame.ok hrun)
  obtain ⟨hcells, hcoder⟩ := encNormalize_coder ho.holds hrun
  by_cases hr : s.session.renc.range.toNat < 2 ^ 24
  · rw [if_pos hr, Prod.mk.injEq] at hcoder
    obtain ⟨henc, hout⟩ := hcoder
    refine ⟨hs.of_coder (by rw [henc]; exact ho.rescale hr) hcells hcontext, hcontext, fun hc => ?_, fun hc hsync => ?_⟩
    · rw [Covered, henc, hout] at hc
      exact hc.of_rescale ho hr
    · rw [Covered, henc, hout] at hc
      obtain ⟨b, hb⟩ := hc.next_byte ho
      have hbyte : u.cin[u.session.rdec.inPos]? = some b := by rw [hsync.input, hsync.coder.position, hb]
      have hwidth : u.session.rdec.range.toNat < 2 ^ 24 := by rwa [hsync.coder.range]
      obtain ⟨v, hv, hdec, hvcells, hvcin, hvcount⟩ := decNormalize_shifted hwidth hbyte
      refine ⟨v, hv, ⟨hvcin.trans hsync.input, ?_, ?_, hvcount⟩, decNormalize_frame.ok hv⟩
      · rw [hvcells, hsync.cells, hcells]
      · rw [henc, hout, hdec]
        exact hsync.coder.rescale ho hr (hc.of_rescale ho hr) hb
  · rw [if_neg hr, Prod.mk.injEq] at hcoder
    obtain ⟨henc, hout⟩ := hcoder
    have hopen : t.session.renc.Open (2 ^ 24) := by
      rw [henc]
      exact ⟨Nat.not_lt.mp hr, ho.fits, ho.holds, ho.noCarry⟩
    refine ⟨hs.of_coder hopen hcells hcontext, hcontext, fun hc => ?_, fun hc hsync => ⟨u, ?_, ⟨hsync.input, ?_, ?_,
      hsync.inCount⟩, rfl⟩⟩
    · rwa [Covered, henc, hout] at hc
    · rw [decNormalize_eq, hsync.coder.range, if_neg hr]
    · rw [hcells, hsync.cells]
    · rw [henc, hout]
      exact hsync.coder

/-! ### Narrowing the interval -/

/-- Where the encoder narrows its interval and goes on from `s'` to `t`, and the decoder, once its `code` shows the
part, narrows with it and goes on from `u'`, the two follow each other from the start. -/
theorem Followed.of_narrow {β : Type} {F : List Byte} {d d' : Act β} {y : β} {s s' t u u' : State} (off len : Nat)
    (ho : s.session.renc.Open (2 ^ 24)) (hfit : off + len ≤ s.session.renc.range.toNat)
    (henc : s'.session.renc = s.session.renc.narrow off len) (hout : s'.out = s.out) (hctx : SameContext s s')
    (hdec : Synced F s u → off ≤ u.session.rdec.code.toNat → u.session.rdec.code.toNat < off + len →
      d u = d' u' ∧ u'.session.rdec = u.session.rdec.narrow off len ∧ u'.session.cells = s'.session.cells ∧
      u'.cin = u.cin ∧ u'.regs = u.regs ∧ bitFrame u u')
    (h : Followed F d' y s' t u') : Followed F d y s t u := by
  have hpart (hc : Covered F t) : (s.session.renc.narrow off len).Covers F s.out := by
    rw [← henc, ← hout]
    exact h.covered hc
  refine ⟨h.coding, hctx.trans h.context, fun hc => (hpart hc).of_narrow ho hfit, fun hc hsync => ?_⟩
  obtain ⟨hlo, hhi, hmatch⟩ := hsync.coder.narrow (hpart hc) ho hfit
  obtain ⟨hact, hrdec, hcells, hcin, hregs, hframe⟩ := hdec hsync hlo hhi
  have hsync' : Synced F s' u' := by
    refine ⟨hcin.trans hsync.input, hcells, ?_, ?_⟩
    · rwa [henc, hout, hrdec]
    · rw [hregs, hrdec]
      exact hsync.inCount
  obtain ⟨v, hv, hvsync, hvframe⟩ := h.decodes hc hsync'
  exact ⟨v, hact.trans hv, hvsync, bitFrame_preorder.trans _ _ _ hframe hvframe⟩

/-- Where the part of the interval that a bit takes begins. -/
def bitOffset (bound : Nat) (b : Bool) : Nat := if b then bound else 0

/-- The width of the part that a bit takes. -/
def bitWidth (range bound : Nat) (b : Bool) : Nat := if b then range - bound else bound

/-! ### Bits under a cell (R174, R180) -/

/-- A bit that is coded has its cell inside the array. -/
theorem encodeBit_index {s t : State} {cell : Cell} {b : Bool} (h : encodeBit cell b s = .ok () t) :
    cell.idx < cell.arr.size s.session.props := by
  obtain ⟨p, v, hp, -⟩ := act_bind_ok h
  obtain ⟨-, -, hi, -⟩ := readCell_cases hp
  exact hi

/-- The bound of a cell in the encoder's width (R174). -/
def State.bound (s : State) (cell : Cell) : Nat :=
  s.session.renc.range.toNat / 2 ^ 11 * (s.session.cells.get cell).toNat

theorem encodedBit_renc (s : State) (cell : Cell) (b : Bool) : (encodedBit s cell b).session.renc =
    s.session.renc.narrow (bitOffset (s.bound cell) b) (bitWidth s.session.renc.range.toNat (s.bound cell) b) := by
  cases b <;> rfl

/-- The decoder's side, where the two stand together. -/
theorem decodedBit_rdec {F : List Byte} {s u : State} (cell : Cell) (h : Synced F s u) :
    (decodedBit u cell).session.rdec = u.session.rdec.narrow (bitOffset (s.bound cell) (decodedValue u cell))
      (bitWidth s.session.renc.range.toNat (s.bound cell) (decodedValue u cell)) := by
  simp only [decodedBit, mapSession_session, h.coder.range, h.cells, RangeDec.narrow]
  cases decodedValue u cell <;> simp [bitOffset, bitWidth, State.bound]

/-- The decoder's comparison finds the part of the interval that the bit took. -/
theorem decodedValue_eq {F : List Byte} {s u : State} {cell : Cell} {b : Bool} (h : Synced F s u)
    (hlo : bitOffset (s.bound cell) b ≤ u.session.rdec.code.toNat) (hhi : u.session.rdec.code.toNat <
      bitOffset (s.bound cell) b + bitWidth s.session.renc.range.toNat (s.bound cell) b) : decodedValue u cell = b := by
  simp only [decodedValue, h.cells, h.coder.range]
  change decide (s.bound cell ≤ _) = b
  cases b
  · simpa [bitOffset, bitWidth] using hhi
  · simpa [bitOffset] using hlo

theorem encodeBit_replays (cell : Cell) (b : Bool) : Replays (2 ^ 24) (encodeBit cell b) (decodeBit cell) b := by
  intro F s t u hs hctx hrun
  have hi := encodeBit_index hrun
  have ho := hs.coder
  have hp := hs.reachable cell
  have hb : 2 ^ 17 ≤ s.bound cell ∧ s.bound cell + 2 ^ 17 ≤ s.session.renc.range.toNat :=
    bound_bounds ho.wide s.session.renc.range.isLt hp.1 hp.2
  have hfit : bitOffset (s.bound cell) b + bitWidth s.session.renc.range.toNat (s.bound cell) b ≤
      s.session.renc.range.toNat := by
    cases b <;> simp only [bitOffset, bitWidth, Bool.false_eq_true, if_false, if_true] <;> omega
  have hmin : 2 ^ 16 ≤ bitWidth s.session.renc.range.toNat (s.bound cell) b := by
    cases b <;> simp only [bitWidth, Bool.false_eq_true, if_false, if_true] <;> omega
  have hmid : Coding (2 ^ 16) (encodedBit s cell b) :=
    ⟨by rw [encodedBit_renc]; exact ho.narrow hfit hmin, cells_put_wf hs.canonical _ _,
      cells_put_reachable hs.canonical hs.reachable _, hs.matchByte⟩
  have hsame : SameContext (encodedBit s cell b) (decodedBit u cell) :=
    ⟨hctx.win, hctx.state, hctx.reps, hctx.lc, hctx.lp, hctx.pb⟩
  rw [encodeBit_eq b hi hp] at hrun
  refine Followed.of_narrow _ _ ho hfit (encodedBit_renc s cell b) rfl ⟨rfl, rfl, rfl, rfl, rfl, rfl⟩
    (fun hsync hlo hhi => ?_) ((encNormalize_replays.map fun _ => b) F _ t _ hmid hsame hrun)
  have hvalue := decodedValue_eq hsync hlo hhi
  have hiu : cell.idx < cell.arr.size u.session.props := by rwa [hctx.size]
  refine ⟨?_, ?_, ?_, rfl, rfl, rfl⟩
  · rw [decodeBit_eq hiu (by rw [hsync.cells]; exact hp), hvalue]
  · rw [decodedBit_rdec cell hsync, hvalue]
  · simp only [decodedBit, encodedBit, mapSession_session, hsync.cells, hvalue]

/-! ### Direct bits (R176, R181) -/

/-- The encoder after one direct bit, before the normalisation. -/
def encodedDirect (s : State) (b : Bool) : State :=
  s.mapSession fun ss => { ss with
    renc := ss.renc.narrow (bitOffset (ss.renc.range.toNat / 2) b) (ss.renc.range.toNat / 2) }

/-- The bit a decoder reads directly. -/
def directValue (u : State) : Bool := decide (u.session.rdec.range.toNat / 2 ≤ u.session.rdec.code.toNat)

/-- The decoder after one direct bit, before the normalisation. -/
def decodedDirect (u : State) : State :=
  u.mapSession fun ss => { ss with
    rdec := ss.rdec.narrow (bitOffset (ss.rdec.range.toNat / 2) (directValue u)) (ss.rdec.range.toNat / 2) }

theorem encodeDirectBits_succ (v n : Nat) (s : State) : encodeDirectBits v (n + 1) s =
    (encNormalize >>= fun _ => encodeDirectBits v n) (encodedDirect s (v.testBit n)) := by
  rw [encodeDirectBits]
  simp only [act_bind, act_get, mapRenc, mapSession, act_modify]
  cases v.testBit n <;> simp [encodedDirect, bitOffset, RangeEnc.narrow, State.mapSession]

theorem decodeDirectBits_succ (acc n : Nat) (u : State) : decodeDirectBits acc (n + 1) u =
    (decNormalize >>= fun _ => decodeDirectBits (2 * acc + (directValue u).toNat) n) (decodedDirect u) := by
  rw [decodeDirectBits]
  simp only [act_bind, act_get, mapRdec, mapSession, act_modify, decodedDirect, directValue]
  cases decide (u.session.rdec.range.toNat / 2 ≤ u.session.rdec.code.toNat) <;>
    simp [bitOffset, RangeDec.narrow, State.mapSession]

/-- A number below `2 ^ (n + 1)` is its bit `n` and the bits below. -/
theorem testBit_mul_add_mod (v n : Nat) : (v.testBit n).toNat * 2 ^ n + v % 2 ^ n = v % 2 ^ (n + 1) := by
  rw [Nat.toNat_testBit, Nat.mod_pow_succ]
  ring

/-- The half of the interval that a direct bit takes is in the encoder's width; of an odd width the last number is in
neither half, and no output lies there. -/
theorem encodeDirectBits_replays (v n acc : Nat) :
    Replays (2 ^ 24) (encodeDirectBits v n) (decodeDirectBits acc n) (acc * 2 ^ n + v % 2 ^ n) := by
  induction n generalizing acc with
  | zero =>
    rw [pow_zero, Nat.mod_one, Nat.mul_one, Nat.add_zero]
    exact Replays.done acc
  | succ n ih =>
    intro F s t u hs hctx hrun
    have ho := hs.coder
    have hwide := ho.wide
    have hfit : bitOffset (s.session.renc.range.toNat / 2) (v.testBit n) + s.session.renc.range.toNat / 2 ≤
        s.session.renc.range.toNat := by
      cases v.testBit n <;> simp only [bitOffset, Bool.false_eq_true, if_false, if_true] <;> omega
    have hmid : Coding (2 ^ 16) (encodedDirect s (v.testBit n)) :=
      ⟨ho.narrow hfit (by omega), hs.canonical, hs.reachable, hs.matchByte⟩
    have hsame : SameContext (encodedDirect s (v.testBit n)) (decodedDirect u) :=
      ⟨hctx.win, hctx.state, hctx.reps, hctx.lc, hctx.lp, hctx.pb⟩
    have hvalue : acc * 2 ^ (n + 1) + v % 2 ^ (n + 1) = (2 * acc + (v.testBit n).toNat) * 2 ^ n + v % 2 ^ n := by
      rw [← testBit_mul_add_mod]
      ring
    rw [encodeDirectBits_succ] at hrun
    rw [hvalue]
    refine Followed.of_narrow (s' := encodedDirect s (v.testBit n)) (u' := decodedDirect u) _ _ ho hfit rfl rfl
      ⟨rfl, rfl, rfl, rfl, rfl, rfl⟩ (fun hsync hlo hhi => ?_)
      (Replays.bind (f := fun _ => decodeDirectBits (2 * acc + (v.testBit n).toNat) n) encNormalize_replays (ih _)
        F _ t _ hmid hsame hrun)
    have hbit : directValue u = v.testBit n := by
      rw [directValue, hsync.coder.range]
      cases hb : v.testBit n
      · simpa [hb, bitOffset] using hhi
      · simpa [hb, bitOffset] using hlo
    refine ⟨?_, ?_, hsync.cells, rfl, rfl, rfl⟩
    · rw [decodeDirectBits_succ, hbit]
    · rw [decodedDirect, mapSession_session, hbit, hsync.coder.range]

/-! ### Bit trees (R205 to R208) -/

theorem treeEncodeFrom_replays (A : CellArray) (b sym n m : Nat) :
    Replays (2 ^ 24) (treeEncodeFrom A b sym n m) (treeDecodeFrom A b n m) (m * 2 ^ n + sym % 2 ^ n) := by
  induction n generalizing m with
  | zero =>
    rw [pow_zero, Nat.mod_one, Nat.mul_one, Nat.add_zero]
    exact Replays.done m
  | succ n ih =>
    have hvalue : m * 2 ^ (n + 1) + sym % 2 ^ (n + 1) = (2 * m + (sym.testBit n).toNat) * 2 ^ n + sym % 2 ^ n := by
      rw [← testBit_mul_add_mod]
      ring
    rw [hvalue]
    exact (encodeBit_replays _ _).bind (ih _)

theorem bitTreeEncode_replays (A : CellArray) (b : Nat) {k sym : Nat} (h : sym < 2 ^ k) :
    Replays (2 ^ 24) (bitTreeEncode A b k sym) (bitTreeDecode A b k) sym := by
  have hwalk := (treeEncodeFrom_replays A b sym k 1).map fun m => m - 2 ^ k
  rwa [Nat.one_mul, Nat.mod_eq_of_lt h, Nat.add_sub_cancel_left] at hwalk

theorem treeReverseEncodeFrom_replays (node : Nat → Cell) (n m sym : Nat) :
    Replays (2 ^ 24) (treeReverseEncodeFrom node n m sym) (treeReverseDecodeFrom node n m) (sym % 2 ^ n) := by
  induction n generalizing m sym with
  | zero =>
    rw [pow_zero, Nat.mod_one]
    exact Replays.done 0
  | succ n ih =>
    have hvalue : sym % 2 ^ (n + 1) = (sym.testBit 0).toNat + 2 * (sym / 2 % 2 ^ n) := by
      rw [Nat.toNat_testBit, pow_zero, Nat.div_one, Nat.pow_succ', Nat.mod_mul]
    rw [hvalue]
    exact (encodeBit_replays _ _).bind ((ih _ _).map fun r => (sym.testBit 0).toNat + 2 * r)

theorem bitTreeReverseEncode_replays (node : Nat → Cell) {k sym : Nat} (h : sym < 2 ^ k) :
    Replays (2 ^ 24) (bitTreeReverseEncode node k sym) (bitTreeReverseDecode node k) sym := by
  have hwalk := treeReverseEncodeFrom_replays node k 1 sym
  rwa [Nat.mod_eq_of_lt h] at hwalk

/-! ### The literal field (R290 to R293) -/

/-- A node of the byte `v`'s tree, without the leading 1, is the byte. -/
theorem u8_leaf (v : Byte) : u8 (1 * 2 ^ 8 + v.toNat % 2 ^ 8 - 0x100) = v := by
  rw [Nat.mod_eq_of_lt v.isLt]
  simp

theorem litEncode_replays (base : Nat) (v : Byte) : Replays (2 ^ 24) (litEncode base v) (litDecode base) v := by
  have hwalk := (treeEncodeFrom_replays .literal base v.toNat 8 1).map fun m => u8 (m - 0x100)
  rwa [u8_leaf] at hwalk

/-- After the first bit that differs from the match byte's the walk is the plain one. -/
theorem litEncodeMatchedFrom_false (base : Nat) (mb v : Byte) (n m : Nat) :
    litEncodeMatchedFrom base mb v n m false = treeEncodeFrom .literal base v.toNat n m := by
  induction n generalizing m with
  | zero => rfl
  | succ n ih =>
    rw [litEncodeMatchedFrom, treeEncodeFrom]
    simp only [Bool.false_eq_true, if_false, Bool.false_and, ih]

theorem litEncodeMatchedFrom_replays (base : Nat) (mb v : Byte) (n m : Nat) :
    Replays (2 ^ 24) (litEncodeMatchedFrom base mb v n m true) (litDecodeMatchedFrom base mb n m)
      (m * 2 ^ n + v.toNat % 2 ^ n) := by
  induction n generalizing m with
  | zero =>
    rw [pow_zero, Nat.mod_one, Nat.mul_one, Nat.add_zero]
    exact Replays.done m
  | succ n ih =>
    have hvalue : m * 2 ^ (n + 1) + v.toNat % 2 ^ (n + 1) =
        (2 * m + (v.toNat.testBit n).toNat) * 2 ^ n + v.toNat % 2 ^ n := by
      rw [← testBit_mul_add_mod]
      ring
    rw [hvalue, litEncodeMatchedFrom, litDecodeMatchedFrom]
    simp only [if_true, Bool.true_and, Nat.add_assoc]
    refine (encodeBit_replays _ _).bind ?_
    by_cases hsame : mb.toNat.testBit n = v.toNat.testBit n
    · rw [if_pos hsame, beq_iff_eq.mpr hsame]
      exact ih _
    · rw [if_neg hsame, beq_eq_false_iff_ne.mpr hsame, litEncodeMatchedFrom_false]
      exact treeEncodeFrom_replays _ _ _ _ _

theorem litEncodeMatched_replays (base : Nat) (mb v : Byte) :
    Replays (2 ^ 24) (litEncodeMatched base mb v) (litDecodeMatched base mb) v := by
  have hwalk := (litEncodeMatchedFrom_replays base mb v 8 1).map fun m => u8 (m - 0x100)
  rwa [u8_leaf] at hwalk

/-! ### The length and distance fields (R301, R302, R312, R313) -/

theorem lenEncode_replays (L : CellArray) (ps : Nat) {sym : Nat} (h : sym ≤ 271) :
    Replays (2 ^ 24) (lenEncode L sym ps) (lenDecode L ps) sym := by
  unfold lenEncode lenDecode
  split
  · exact (encodeBit_replays _ _).bind (bitTreeEncode_replays L _ (by omega))
  · split
    · have hmid := (bitTreeEncode_replays L (lenMid ps) (k := 3) (sym := sym - 8) (by omega)).map fun v => 8 + v
      rw [Nat.add_sub_cancel' (by omega)] at hmid
      exact (encodeBit_replays _ _).bind ((encodeBit_replays _ _).bind hmid)
    · have hhigh := (bitTreeEncode_replays L lenHigh (k := 8) (sym := sym - 16) (by omega)).map fun v => 16 + v
      rw [Nat.add_sub_cancel' (by omega)] at hhigh
      exact (encodeBit_replays _ _).bind ((encodeBit_replays _ _).bind hhigh)

theorem distEncode_replays (d : Word) (len : Nat) :
    Replays (2 ^ 24) (distEncode d.toNat len) (distDecode len) d := by
  have hself : u32 d.toNat = d := by simp
  refine (bitTreeEncode_replays .posSlot _ (k := 6) (posSlot_lt d.isLt)).bind ?_
  dsimp only
  rcases Nat.lt_or_ge d.toNat 4 with h4 | h4
  · rw [posSlot_of_lt h4, if_neg (Nat.not_le.mpr h4), if_pos h4, hself]
    exact Replays.done d
  · obtain ⟨hs, hlo, hhi⟩ := posSlot_bounds h4
    have hr : d.toNat - slotBase (posSlot d.toNat) < 2 ^ slotFooterBits (posSlot d.toNat) := by omega
    rw [if_pos hs, if_neg (Nat.not_lt.mpr hs)]
    split
    · have hfooter := (bitTreeReverseEncode_replays (footerNode (posSlot d.toNat)) hr).map fun r =>
        u32 (slotBase (posSlot d.toNat) + r)
      rwa [Nat.add_sub_cancel' hlo, hself] at hfooter
    · next h14 =>
      have hdirect := encodeDirectBits_replays ((d.toNat - slotBase (posSlot d.toNat)) / 16)
        (slotFooterBits (posSlot d.toNat) - 4) 0
      rw [Nat.zero_mul, Nat.zero_add, Nat.mod_eq_of_lt ((footer_lt_iff (Nat.not_lt.mp h14)).mp hr)] at hdirect
      have hsum : u32 (slotBase (posSlot d.toNat) + (d.toNat - slotBase (posSlot d.toNat)) / 16 * 16 +
          (d.toNat - slotBase (posSlot d.toNat)) % 16) = d := by
        rw [Nat.add_assoc, Nat.div_add_mod', Nat.add_sub_cancel' hlo, hself]
      have halign := bitTreeReverseEncode_replays alignNode (k := 4)
        (show (d.toNat - slotBase (posSlot d.toNat)) % 16 < 2 ^ 4 by omega)
      refine hdirect.bind (halign.bind ?_)
      rw [hsum]
      exact Replays.pure d fun s => ⟨fun p => { p with alignPriceCount := p.alignPriceCount + 1 }, rfl⟩

/-! ### Symbols (R123, R374 to R376, R401 to R405) -/

/-- Actions that agree on every coding state may be exchanged. -/
theorem Replays.congr {β : Type} {least : Nat} {a a' : Act Unit} {d : Act β} {y : β} (h : Replays least a' d y)
    (ha : ∀ s, Coding least s → a s = a' s) : Replays least a d y :=
  fun F s t u hs hctx hrun => h F s t u hs hctx ((ha s hs).symm.trans hrun)

/-- A reading of `Win` that both sides make. -/
theorem Replays.read {α β : Type} {least : Nat} {r : Act α} {f : α → Act Unit} {g : α → Act β} {y : β}
    (hr : ∀ s t x, r s = .ok x t → t = s ∧ ∀ u, SameContext s u → r u = .ok x u)
    (h : ∀ x, Replays least (f x) (g x) y) : Replays least (r >>= f) (r >>= g) y := by
  intro F s t u hs hctx hrun
  obtain ⟨x, s', hx, hrest⟩ := act_bind_ok hrun
  obtain ⟨rfl, hru⟩ := hr s s' x hx
  obtain ⟨hcoding, hcontext, hcovered, hdecodes⟩ := h x F s' t u hs hctx hrest
  refine ⟨hcoding, hcontext, hcovered, fun hc hsync => ?_⟩
  rw [act_bind, hru u hctx]
  exact hdecodes hc hsync

theorem winRead_reads (a : Nat) (s t : State) (x : Byte) (h : winRead a s = .ok x t) :
    t = s ∧ ∀ u, SameContext s u → winRead a u = .ok x u := by
  have ha : a < s.outPos := by
    by_contra hno
    have hnone : s.win[a]? = none := List.getElem?_eq_none_iff.mpr (Nat.not_lt.mp hno)
    simp [winRead, hnone] at h
  rw [winRead_eq ha] at h
  cases h
  exact ⟨rfl, fun u hu => by rw [winRead_eq (by rwa [hu.outPos]), hu.win]⟩

theorem prevOutByte_reads (s t : State) (x : Byte) (h : prevOutByte s = .ok x t) :
    t = s ∧ ∀ u, SameContext s u → prevOutByte u = .ok x u := by
  simp only [prevOutByte, act_bind, act_get, act_ite] at h ⊢
  split at h
  · next h0 =>
    cases h
    exact ⟨rfl, fun u hu => by rw [if_pos (by rwa [hu.outPos])]; rfl⟩
  · next h0 =>
    obtain ⟨hts, hu⟩ := winRead_reads _ s t x h
    exact ⟨hts, fun u hctx => by rw [if_neg (by rwa [hctx.outPos]), hctx.outPos]; exact hu u hctx⟩

/-- The literal field as `fetchLiteral` reads it: the match byte comes from inside the output (R402). -/
def codeLiteralInside (v : Byte) : Act Unit := do
  let s ← get
  let prev ← prevOutByte
  let base := litBase s.session.props s.outPos prev
  if isChar s.session.state then litEncode base v
  else
    let mb ← winRead (s.outPos - s.session.reps.r0.toNat - 1)
    litEncodeMatched base mb v

theorem codeLiteral_eq (v : Byte) {s : State} (h : Coding (2 ^ 24) s) : codeLiteral v s = codeLiteralInside v s := by
  simp only [codeLiteral, codeLiteralInside, act_bind, act_get]
  cases hp : prevOutByte s with
  | error e t => rfl
  | ok prev t =>
    obtain ⟨rfl, -⟩ := prevOutByte_reads s t prev hp
    simp only [act_ite]
    split
    · rfl
    · next hchar => rw [act_bind, act_bind, backByte_inside (h.matchByte (by simpa using hchar))]

theorem codeLiteral_replays (v : Byte) : Replays (2 ^ 24) (codeLiteral v) fetchLiteral (.lit v) := by
  refine Replays.congr (a' := codeLiteralInside v) (Replays.get fun s u hs hctx => ?_) fun s hs => codeLiteral_eq v hs
  refine Replays.read prevOutByte_reads fun prev => ?_
  have hbase : litBase u.session.props u.outPos prev = litBase s.session.props s.outPos prev := by
    simp only [litBase, hctx.outPos, hctx.lc, hctx.lp]
  rw [hbase, hctx.state, hctx.reps, hctx.outPos]
  dsimp only
  split
  · exact (litEncode_replays _ v).map Instr.lit
  · exact Replays.read (winRead_reads _) fun mb => (litEncodeMatched_replays _ mb v).map Instr.lit

/-- The length field under a constructor. -/
theorem fetchRep_replays (k ps : Nat) (mk : Nat → Instr) {len : Nat} (h : lenOk len = true) :
    Replays (2 ^ 24) (lenEncode .repLenC (len - 2) ps) (fetchRep k ps mk) (mk len) := by
  obtain ⟨h2, h273⟩ := lenOk_iff.mp h
  have hlen := ((lenEncode_replays .repLenC ps (sym := len - 2) (by omega)).onStop
    (State.withReps fun r => r.promote k)).map fun sym => mk (2 + sym)
  rwa [Nat.add_sub_cancel' h2] at hlen

/-- The length and the distance of MATCH and END (R130, R405). -/
theorem fetchMatch_replays (ps : Nat) {len : Nat} (d : Word) (h : lenOk len = true) :
    Replays (2 ^ 24) (lenEncode .lenC (len - 2) ps >>= fun _ => distEncode d.toNat len) (fetchMatch ps)
      (matchOrEnd len d) := by
  obtain ⟨h2, h273⟩ := lenOk_iff.mp h
  refine ((lenEncode_replays .lenC ps (sym := len - 2) (by omega)).onStop _).bind ?_
  rw [Nat.add_sub_cancel' h2]
  exact ((distEncode_replays d len).onStop _).map fun d => matchOrEnd len d

section RepBits

variable {long : Bool} {st : CoderState} {ps : Nat} {rest : Act Unit}

theorem encodeRepPrefix_zero : (encodeRepPrefix 0 long st ps >>= fun _ => rest) =
    encodeBit (isRepG0Cell st) false >>= fun _ => encodeBit (isRep0LongCell st ps) long >>= fun _ => rest :=
  bind_assoc _ _ _

theorem encodeRepPrefix_one : (encodeRepPrefix 1 long st ps >>= fun _ => rest) =
    encodeBit (isRepG0Cell st) true >>= fun _ => encodeBit (isRepG1Cell st) false >>= fun _ => rest :=
  bind_assoc _ _ _

theorem encodeRepPrefix_two_three {k : Nat} (hk : 2 ≤ k) : (encodeRepPrefix k long st ps >>= fun _ => rest) =
    encodeBit (isRepG0Cell st) true >>= fun _ => encodeBit (isRepG1Cell st) true >>= fun _ =>
      encodeBit (isRepG2Cell st) (k = 3) >>= fun _ => rest := by
  rw [encodeRepPrefix, if_neg (by omega), if_neg (by omega)]
  simp only [bind_assoc]

end RepBits

/-- The decoder fetches the symbol the assembler codes. -/
theorem codeSymbol_replays {i : Instr} (hi : isProgramSymbol i = true) :
    Replays (2 ^ 24) (codeSymbol i) fetchSymbol i := by
  simp only [isProgramSymbol, Bool.and_eq_true, Bool.not_eq_true'] at hi
  obtain ⟨hwf, hcmd⟩ := hi
  refine Replays.get fun s u hs hctx => ?_
  rw [hctx.state, hctx.pb, hctx.outPos]
  have bit := encodeBit_replays
  cases i with
  | lit v => exact (bit _ _).bind (codeLiteral_replays v)
  | matchSym len d =>
    simp only [Instr.wellFormed, Bool.and_eq_true, bne_iff_ne] at hwf
    have hfields := fetchMatch_replays (posStateOf s.session.props.pb s.outPos) d hwf.1
    rw [matchOrEnd, if_neg hwf.2] at hfields
    exact (bit _ _).bind ((bit _ _).bind hfields)
  | shortRep =>
    refine (bit _ _).bind ((bit _ _).bind ?_)
    rw [encodeRepPrefix_zero]
    exact (bit _ _).bind ((bit _ _).bind (Replays.done Instr.shortRep))
  | rep0 len =>
    refine (bit _ _).bind ((bit _ _).bind ?_)
    rw [encodeRepPrefix_zero]
    exact (bit _ _).bind ((bit _ _).bind (fetchRep_replays 0 _ .rep0 hwf))
  | rep1 len =>
    refine (bit _ _).bind ((bit _ _).bind ?_)
    rw [encodeRepPrefix_one]
    exact (bit _ _).bind ((bit _ _).bind (fetchRep_replays 1 _ .rep1 hwf))
  | rep2 len =>
    refine (bit _ _).bind ((bit _ _).bind ?_)
    rw [encodeRepPrefix_two_three (by decide)]
    exact (bit _ _).bind ((bit _ _).bind ((bit _ _).bind (fetchRep_replays 2 _ .rep2 hwf)))
  | rep3 len =>
    refine (bit _ _).bind ((bit _ _).bind ?_)
    rw [encodeRepPrefix_two_three (by decide)]
    exact (bit _ _).bind ((bit _ _).bind ((bit _ _).bind (fetchRep_replays 3 _ .rep3 hwf)))
  | endMark len =>
    have hfields := fetchMatch_replays (posStateOf s.session.props.pb s.outPos) endDistance hwf
    rw [matchOrEnd, if_pos rfl] at hfields
    exact (bit _ _).bind ((bit _ _).bind hfields)
  | nop | encOpen | encStep | decOpen | decStep | close => cases hcmd

end Sys2Proof.Machine
end

section
/-!
PROOFS. A program of symbols through the assembler and the decoder (`30_encoding.md` R134; `46_decoder_driver.md`
R400, R401): RcDecInit puts the decoder where the encoder's session began, each symbol is fetched and executed as it
was coded and followed, and the flush makes the whole output the one the intervals hold.
-/

namespace Sys2Proof.Machine

/-! ### RcDecInit (R179) -/

/-- Shifting in `n` bytes makes `code` the number the bytes read so far are, as long as that has 32 bits. -/
theorem shiftInCodes_value (n : Nat) {u : State}
    (hcode : u.session.rdec.code.toNat = prefixValue u.cin u.session.rdec.inPos)
    (hcount : u.regs.inCount = u32 u.session.rdec.inPos) (hlen : u.session.rdec.inPos + n ≤ u.cin.length)
    (hlt : prefixValue u.cin (u.session.rdec.inPos + n) < 2 ^ 32) :
    ∃ v, shiftInCodes n u = .ok () v ∧ v.session.rdec.code.toNat = prefixValue u.cin (u.session.rdec.inPos + n) ∧
      v.session.rdec.inPos = u.session.rdec.inPos + n ∧ v.session.rdec.range = u.session.rdec.range ∧
      v.session.cells = u.session.cells ∧ v.regs.inCount = u32 v.session.rdec.inPos := by
  induction n generalizing u with
  | zero => exact ⟨u, rfl, hcode, rfl, rfl, rfl, hcount⟩
  | succ n ih =>
    obtain ⟨b, hb⟩ : ∃ b, u.cin[u.session.rdec.inPos]? = some b := ⟨_, List.getElem?_eq_getElem (by omega)⟩
    have hnext : u.session.rdec.inPos + (n + 1) = u.session.rdec.inPos + 1 + n := by omega
    have hstep : (u32 (u.session.rdec.code.toNat * 2 ^ 8 + b.toNat)).toNat =
        prefixValue u.cin (u.session.rdec.inPos + 1) := by
      have hmono : prefixValue u.cin (u.session.rdec.inPos + 1) ≤ prefixValue u.cin (u.session.rdec.inPos + (n + 1)) :=
        prefixValue_mono _ (by omega)
      rw [prefixValue_succ hb] at hmono ⊢
      rw [BitVec.toNat_ofNat, hcode]
      omega
    rw [hnext] at hlt hlen ⊢
    obtain ⟨v, hv, hrest⟩ := ih (u := shiftedIn u b) hstep rfl hlen hlt
    exact ⟨v, by rw [shiftInCodes, act_bind, shiftInCode_some hb]; exact hv, hrest⟩

/-- The session of an encoder that has coded nothing. -/
structure Fresh (s : State) : Prop where
  coder : s.session.renc = RangeEnc.init
  out : s.out = []

theorem Fresh.base {s : State} (h : Fresh s) : s.session.renc.base s.out = 0 := by
  rw [h.coder, h.out]
  rfl

theorem Fresh.reach {s : State} (h : Fresh s) : s.session.renc.reach s.out = 5 := by
  rw [h.coder, h.out]
  rfl

/-- The first byte of an output is 0, and its next four are no number of all ones. -/
theorem Fresh.first_bytes {F : List Byte} {s : State} (h : Fresh s) (hc : Covered F s) :
    5 ≤ F.length ∧ F[0]? = some 0 ∧ prefixValue F 5 < 0xFFFFFFFF := by
  have hlong := hc.long
  have hupper := hc.upper
  rw [h.base, h.reach, h.coder] at hupper
  rw [h.reach] at hlong
  have hlt : prefixValue F 5 < 0xFFFFFFFF := by simpa [RangeEnc.init] using hupper
  have byte (n : Nat) (hn : n < 5) : ∃ b, F[n]? = some b := ⟨_, List.getElem?_eq_getElem (by omega)⟩
  obtain ⟨b0, h0⟩ := byte 0 (by omega)
  obtain ⟨b1, h1⟩ := byte 1 (by omega)
  obtain ⟨b2, h2⟩ := byte 2 (by omega)
  obtain ⟨b3, h3⟩ := byte 3 (by omega)
  obtain ⟨b4, h4⟩ := byte 4 (by omega)
  have hvalue : prefixValue F 5 = _ := prefixValue_succ h4
  rw [prefixValue_succ h3, prefixValue_succ h2, prefixValue_succ h1, prefixValue_succ h0] at hvalue
  refine ⟨hlong, ?_, hlt⟩
  rw [h0, BitVec.eq_of_toNat_eq (x := b0) (y := 0) (show b0.toNat = 0 by omega)]

/-- The decoder after the first byte, a 0. -/
def decStarted (u : State) : State :=
  { u with
    regs := { u.regs with inCount := 1 }
    session := { u.session with rdec := { range := 0xFFFFFFFF, code := 0, inPos := 1 } } }

/-- After a first byte 0 there are four to shift in, which may not be all ones (R179). -/
theorem rcDecInit_of_zero {u : State} (hpos : u.session.rdec.inPos = 0) (hfirst : u.cin[0]? = some 0) :
    rcDecInit u = (shiftInCodes 4 >>= fun _ => get >>= fun s =>
      if s.session.rdec.code = 0xFFFFFFFF then raise .dataError 6 else pure ()) (decStarted u) := by
  have hread : readIn (u.mapSession fun ss => { ss with
      rdec := { ss.rdec with range := 0xFFFFFFFF, code := 0 } }) = .ok 0 (decStarted u) := by
    simp only [readIn, act_bind, act_get, mapSession_cin, mapSession_session, hpos, hfirst, act_set, act_pure]
    rfl
  rw [rcDecInit, act_bind]
  simp only [mapRdec, mapSession, act_modify]
  rw [act_bind, hread]
  rfl

theorem rcDecInit_synced {F : List Byte} {s u : State} (h : Fresh s) (hc : Covered F s) (hcin : u.cin = F)
    (hpos : u.session.rdec.inPos = 0) (hcells : u.session.cells = s.session.cells) :
    ∃ v, rcDecInit u = .ok () v ∧ Synced F s v ∧ bitFrame u v := by
  obtain ⟨hlong, hfirst, hlt⟩ := h.first_bytes hc
  subst hcin
  have hone : prefixValue u.cin 1 = 0 := by
    simpa [prefixValue, bytesValue] using prefixValue_succ hfirst
  obtain ⟨v, hv, hcode, hvpos, hrange, hkept, hcount⟩ := shiftInCodes_value 4 (u := decStarted u) hone.symm rfl hlong
    (show prefixValue u.cin 5 < 2 ^ 32 by omega)
  have hcode5 : v.session.rdec.code.toNat = prefixValue u.cin 5 := hcode
  have hones : v.session.rdec.code ≠ 0xFFFFFFFF := by
    intro hall
    rw [hall] at hcode5
    exact absurd hlt (by rw [← hcode5]; decide)
  have hrun : rcDecInit u = .ok () v := by
    rw [rcDecInit_of_zero hpos hfirst, act_bind, hv]
    simp only [act_bind, act_get, if_neg hones, act_pure]
  have hframe := rcDecInit_frame.ok hrun
  refine ⟨v, hrun, ⟨?_, ?_, ⟨?_, ?_, ?_⟩, hcount⟩, hframe⟩
  · rw [hframe]
  · exact hkept.trans hcells
  · rw [hrange, h.coder]
    rfl
  · rw [h.base, h.reach, Nat.zero_add, hcode5]
  · rw [h.reach, hvpos]
    rfl

/-! ### A program, one symbol at a time -/

/-- The output and the contexts of two sessions agree, whatever properties they have latched. -/
structure SameOutput (s u : State) : Prop where
  win : u.win = s.win
  state : u.session.state = s.session.state
  reps : u.session.reps = s.session.reps

theorem SameContext.output {s u : State} (h : SameContext s u) : SameOutput s u := ⟨h.win, h.state, h.reps⟩

theorem SameOutput.symm {s u : State} (h : SameOutput s u) : SameOutput u s :=
  ⟨h.win.symm, h.state.symm, h.reps.symm⟩

theorem SameOutput.trans {s t u : State} (h : SameOutput s t) (h' : SameOutput t u) : SameOutput s u :=
  ⟨h'.win.trans h.win, h'.state.trans h.state, h'.reps.trans h.reps⟩

theorem SameOutput.outPos {s u : State} (h : SameOutput s u) : u.outPos = s.outPos := by
  rw [State.outPos, State.outPos, h.win]

/-- A symbol that executes has the same effect in both. -/
theorem SameOutput.ran {s u : State} (h : SameOutput s u) (i : Instr) : SameOutput (s.ran i) (u.ran i) := by
  refine ⟨?_, ?_, ?_⟩
  · show symbolWin i _ _ = symbolWin i _ _
    rw [h.win, h.reps]
  · show symbolState i u.session.state = symbolState i s.session.state
    rw [h.state]
  · show symbolReps i u.session.reps = symbolReps i s.session.reps
    rw [h.reps]

theorem SameContext.ran {s u : State} (h : SameContext s u) (i : Instr) : SameContext (s.ran i) (u.ran i) :=
  have ⟨hwin, hstate, hreps⟩ := h.output.ran i
  ⟨hwin, hstate, hreps, h.lc, h.lp, h.pb⟩

theorem SameOutput.reaches {s u : State} (h : SameOutput s u) {i : Instr} (hr : s.reaches i) : u.reaches i := by
  rwa [State.reaches, h.reps, h.outPos]

/-- After a LIT the literal mode is plain (R270, R271). -/
theorem isChar_updateChar (st : CoderState) : isChar (updateChar st) = true := by
  revert st
  decide

/-- A symbol that reaches into the output leaves the match byte in range (R402). -/
theorem Coding.ran {least : Nat} {s : State} (h : Coding least s) {i : Instr} (hr : s.reaches i) :
    Coding least (s.ran i) := by
  refine ⟨h.coder, h.canonical, h.reachable, fun hchar => ?_⟩
  rcases hr with ⟨v, rfl⟩ | hr
  · exact absurd ((isChar_updateChar s.session.state).symm.trans hchar) (by decide)
  · rw [ran_outPos]
    exact Nat.lt_add_right _ hr

theorem codeProgram_cons {i : Instr} {is : List Instr} {c c' : State} (h : codeProgram (i :: is) c = .ok () c') :
    ∃ c1 c2, codeSymbol i c = .ok () c1 ∧ followSymbol i c1 = .ok () c2 ∧ codeProgram is c2 = .ok () c' := by
  obtain ⟨_, c1, h1, hrest⟩ := act_bind_ok h
  obtain ⟨_, c2, h2, h3⟩ := act_bind_ok hrest
  exact ⟨c1, c2, h1, h2, h3⟩

theorem execute_cons_ok {i : Instr} {is : List Instr} {e e' : State} (h : execute (i :: is) e = .ok () e') :
    ∃ e1, symbolAct i e = .ok () e1 ∧ execute is e1 = .ok () e' := by
  rw [execute_cons] at h
  cases h1 : symbolAct i e with
  | ok _ e1 => exact ⟨e1, rfl, by simpa [h1] using h⟩
  | error r e1 => simp [h1] at h

/-- The decoder `u` is about to decode a program that the executor `e` runs to `size` bytes. -/
structure Decoding (F : List Byte) (size : Nat) (c e u : State) : Prop where
  synced : Synced F c u
  context : SameContext c u
  dict : u.session.dec.dictCheck = e.session.dec.dictCheck
  size : u.session.dec.outSize = some size
  notDone : u.regs.phase ≠ .done

/-- What coding, executing and decoding a program come to, the coder going from `c` to `c'` and the executor from `e`
to `e'`. -/
structure ProgramFollowed (F : List Byte) (c c' e e' : State) : Prop where
  coding : Coding (2 ^ 24) c'
  grows : e.outPos ≤ e'.outPos
  covered : Covered F c' → Covered F c
  decodes : Covered F c' → e'.outPos < Config.progressChunk → ∀ u fuel, Decoding F e'.outPos c e u →
    e'.outPos - e.outPos < fuel →
    ∃ v, decodeLoop 0 fuel u = .ok .done v ∧ Synced F c' v ∧ SameOutput e' v

theorem program_followed {F : List Byte} {prog : List Instr} {c c' e e' : State} (hprog : ∀ i ∈ prog, Runs i)
    (hc : Coding (2 ^ 24) c) (hsame : SameOutput c e) (hsize : e.session.dec.outSize = none)
    (hcode : codeProgram prog c = .ok () c') (hexec : execute prog e = .ok () e') : ProgramFollowed F c c' e e' := by
  induction prog generalizing c e with
  | nil =>
    cases hcode
    cases hexec
    refine ⟨hc, le_rfl, id, fun _ _ u fuel hu hfuel => ⟨u, ?_, hu.synced, hsame.symm.trans hu.context.output⟩⟩
    obtain ⟨fuel, rfl⟩ : ∃ n, fuel = n + 1 := ⟨fuel - 1, by omega⟩
    have hreached : u.sizeReached = true := by
      simp only [State.sizeReached, hu.size, hu.context.outPos, hsame.outPos, le_refl, decide_true]
    rw [decodeLoop_succ, if_pos hreached]
  | cons i is ih =>
    have hi := hprog i (List.mem_cons_self ..)
    obtain ⟨c1, c2, hc1, hc2, hc3⟩ := codeProgram_cons hcode
    obtain ⟨e1, he1, he2⟩ := execute_cons_ok hexec
    have hacc := accepts_of_symbolAct hi hsize he1
    obtain rfl : e.ran i = e1 := by simpa [symbolAct_of_accepts hi hacc] using he1
    have hself := codeSymbol_replays hi.symbol F c c1 c hc (SameContext.refl c) hc1
    have hsame1 : SameOutput c1 e := hself.context.output.symm.trans hsame
    have hreach : c1.reaches i := hsame1.symm.reaches hacc.reaches
    obtain rfl : c1.ran i = c2 := by simpa [followSymbol_of_reaches hi hreach] using hc2
    have hrest := ih (fun j hj => hprog j (List.mem_cons_of_mem i hj)) (hself.coding.ran hreach) (hsame1.ran i) hsize
      hc3 he2
    have hlen := symbolLength_pos hi
    have hgrows := hrest.grows
    rw [ran_outPos] at hgrows
    refine ⟨hrest.coding, by omega, fun hcov => hself.covered (hrest.covered hcov),
      fun hcov hchunk u fuel hu hfuel => ?_⟩
    obtain ⟨fuel, rfl⟩ : ∃ n, fuel = n + 1 := ⟨fuel - 1, by omega⟩
    obtain ⟨u1, hu1, hsync1, hframe⟩ :=
      (codeSymbol_replays hi.symbol F c c1 u hc hu.context hc1).decodes (hrest.covered hcov) hu.synced
    have hctx1 : SameContext c1 u1 :=
      (hself.context.symm.trans hu.context).trans (SameContext.of_bitFrame hframe)
    have hdec : u1.session.dec = u.session.dec := by rw [hframe]
    have hphase : u1.regs.phase ≠ .done := by rw [hframe]; exact hu.notDone
    have hpos : u1.outPos = e.outPos := by rw [hctx1.outPos, hsame1.symm.outPos]
    have hacc1 : u1.Accepts i := by
      refine ⟨hctx1.output.reaches hreach, ?_, fun n hn => ?_⟩
      · rw [hdec, hu.dict, hctx1.reps, hsame1.symm.reps]
        exact hacc.dict
      · rw [hdec, hu.size, Option.some.injEq] at hn
        omega
    have hopen : u.sizeReached = false := by
      simp only [State.sizeReached, hu.size, hu.context.outPos, hsame.symm.outPos, decide_eq_false_iff_not]
      omega
    have hsync2 : Synced F (c1.ran i) (u1.ran i) := ⟨hsync1.input, hsync1.cells, hsync1.coder, hsync1.inCount⟩
    have hu2 : Decoding F e'.outPos (c1.ran i) (e.ran i) (u1.ran i) :=
      ⟨hsync2, hctx1.ran i, (congrArg DecLatch.dictCheck hdec).trans hu.dict,
        (congrArg DecLatch.outSize hdec).trans hu.size, hphase⟩
    obtain ⟨v, hv, hvsync, hvout⟩ := hrest.decodes hcov hchunk (u1.ran i) fuel hu2 (by rw [ran_outPos]; omega)
    have hyield : ¬Config.progressChunk ≤ (u1.ran i).outPos - 0 := by
      rw [ran_outPos]
      omega
    refine ⟨v, ?_, hvsync, hvout⟩
    rw [decodeLoop_succ, hopen]
    simp only [Bool.false_eq_true, if_false, hu1, symbolAct_of_accepts hi hacc1]
    rw [if_neg hu2.notDone, if_neg hyield, hv]

/-! ### The session around the program (R134, R400, R401) -/

theorem init_cells_reachable : Cells.init.reachable := fun cell => by
  rw [cells_init_get]
  exact ⟨by decide, by decide⟩

/-- Coding starts from a fresh encoder. -/
theorem codingState_coding (lc lp pb : Nat) : Coding (2 ^ 24) (codingState lc lp pb) :=
  ⟨RangeEnc.open_init, rfl, init_cells_reachable, fun h => absurd h (by decide : ¬isChar 0 = false)⟩

theorem codingState_fresh (lc lp pb : Nat) : Fresh (codingState lc lp pb) := ⟨rfl, rfl⟩

/-- A declared size below 2 ^ 32 is what OUTSIZE_LO holds (R36). -/
theorem declaredSize_of_lo {r : HostRegs} {n : Nat} (hn : n < 2 ^ 32) (hhi : r.outsizeHi = 0)
    (hlo : r.outsizeLo = u32 n) : declaredSize r = some n := by
  have hnat : r.outsizeHi.toNat * 2 ^ 32 + r.outsizeLo.toNat = n := by
    rw [hhi, hlo, BitVec.toNat_ofNat, Nat.mod_eq_of_lt hn]
    simp
  rw [declaredSize, hnat]
  exact if_neg (by omega)

/-- The state DEC_OPEN has made when it starts the range decoder (R400). -/
def decOpening (lc lp pb : Nat) (u : State) : State :=
  { u with
    regs := openDecRegs u.regs
    win := []
    session := decoderSession lc lp pb { u.session with
      props := { u.session.props with dictSize := u.regs.dprops1.toNat }
      dec := { u.session.dec with outSize := declaredSize u.regs } } }

/-- DEC_OPEN sets the context that coding starts from. -/
theorem decOpening_context (lc lp pb : Nat) (u : State) : SameContext (codingState lc lp pb) (decOpening lc lp pb u) :=
  ⟨rfl, rfl, rfl, (rfl : lc = lc), (rfl : lp = lp), (rfl : pb = pb)⟩

theorem decOpening_dec (lc lp pb : Nat) (u : State) : (decOpening lc lp pb u).session.dec =
    { dictCheck := max u.regs.dprops1.toNat 1, outSize := declaredSize u.regs } := rfl

theorem execDecOpen_ok {u v : State} {lc lp pb : Nat} (hphase : mayOpen u.regs.phase = true)
    (hprops : decodePropsByte u.regs.dprops0 = some (lc, lp, pb))
    (hinit : rcDecInit (decOpening lc lp pb u) = .ok () v) :
    exec .decOpen u = .next (v.mapRegs fun r => { r with phase := .decReady }) := by
  have hopen : actDecOpen u = (rcDecInit >>= fun _ => setPhase .decReady) (decOpening lc lp pb u) := by
    simp only [actDecOpen, inPhase, act_bind, act_get, hphase, if_true, mapSession, act_modify, hprops]
    rfl
  refine outcome_ok (a := actDecOpen) ?_
  rw [hopen, act_bind, hinit]
  rfl

theorem execDecStep_done {u v : State} (hphase : u.regs.phase = .decReady)
    (hloop : decodeLoop u.outPos Config.progressChunk u = .ok .done v) :
    exec .decStep u = .next (v.mapRegs fun r => { r with phase := .done }) := by
  rw [execDecStep_ready hphase]
  refine outcome_ok ?_
  rw [act_bind, show (4095 + 1 : Nat) = Config.progressChunk from rfl, hloop]
  rfl

/-- A program's bytes are its coding and the flush, and the whole of them is what the decoder reads. -/
theorem assemble_covered {lc lp pb : Nat} {prog : List Instr} {bytes : List Byte} {c : State}
    (hasm : assemble lc lp pb prog = some bytes) (hcode : codeProgram prog (codingState lc lp pb) = .ok () c)
    (hc : Coding (2 ^ 24) c) : Covered bytes c ∧ bytes.length = c.session.renc.reach c.out := by
  unfold assemble at hasm
  split at hasm
  · split at hasm
    · next t hrun =>
      obtain ⟨_, c', hcode', hflush⟩ := act_bind_ok hrun
      obtain rfl : c = c' := by simpa [hcode] using hcode'
      cases hasm
      exact flushEncoder_covers hc.coder hflush
    · cases hasm
  · cases hasm

/-- DEC_OPEN on the bytes of a program: the decoder stands where the coding began. -/
theorem execDecOpen_decoding {F : List Byte} {lc lp pb n : Nat} {u : State} (hlc : lc ≤ 8) (hlp : lp ≤ 4) (hpb : pb ≤ 4)
    (hphase : mayOpen u.regs.phase = true) (hcin : u.cin = F) (hprops : u.regs.dprops0 = propsByte lc lp pb)
    (hsize : declaredSize u.regs = some n) (hcov : Covered F (codingState lc lp pb)) :
    ∃ v, exec .decOpen u = .next v ∧ v.regs.phase = .decReady ∧
      Decoding F n (codingState lc lp pb) (executingState u.regs.dprops1.toNat) v := by
  obtain ⟨v, hinit, hsync, hframe⟩ := rcDecInit_synced (codingState_fresh lc lp pb) hcov
    (u := decOpening lc lp pb u) hcin rfl rfl
  have hctx := (decOpening_context lc lp pb u).trans (SameContext.of_bitFrame hframe)
  have hdec : (v.mapRegs fun r => { r with phase := .decReady }).session.dec =
      { dictCheck := max u.regs.dprops1.toNat 1, outSize := some n } := by
    rw [mapRegs_session, hframe, ← hsize]
    exact decOpening_dec lc lp pb u
  exact ⟨_, execDecOpen_ok hphase (by rw [hprops]; exact decodePropsByte_propsByte hlc hlp hpb) hinit, rfl,
    ⟨hsync.input, hsync.cells, hsync.coder, hsync.inCount⟩,
    ⟨hctx.win, hctx.state, hctx.reps, hctx.lc, hctx.lp, hctx.pb⟩, by rw [hdec]; rfl, by rw [hdec], nofun⟩

/-- One DEC_STEP decodes a program that ends below the progress chunk (R413). -/
theorem execDecStep_program {F : List Byte} {c c' e e' v : State} (h : ProgramFollowed F c c' e e')
    (hcov : Covered F c') (hchunk : e'.outPos < Config.progressChunk) (hphase : v.regs.phase = .decReady) (hpos : v.outPos = 0)
    (hstart : Decoding F e'.outPos c e v) :
    ∃ w, exec .decStep v = .next w ∧ w.regs.phase = .done ∧ Synced F c' w ∧ SameOutput e' w := by
  obtain ⟨w, hloop, hsync, hout⟩ := h.decodes hcov hchunk v Config.progressChunk hstart
    (Nat.lt_of_le_of_lt (Nat.sub_le _ _) hchunk)
  exact ⟨_, execDecStep_done hphase (by rw [hpos]; exact hloop), rfl,
    ⟨hsync.input, hsync.cells, hsync.coder, hsync.inCount⟩, hout.win, hout.state, hout.reps⟩

/-- Settles O50: the assembled bytes are the flush's, so they lie in every interval of the coding, and the decoder
follows the coder symbol by symbol. -/
theorem assembledProgramDecodes : Obligations.AssembledProgramDecodes := by
  intro lc lp pb prog bytes c e u hlc hlp hpb hprog hcode hasm hexec hchunk hphase hcin hprops hhi hlo
  have hruns : ∀ i ∈ prog, Runs i := fun i hi => ⟨(hprog i hi).1, (hprog i hi).2⟩
  have hfollow : ProgramFollowed bytes (codingState lc lp pb) c (executingState u.regs.dprops1.toNat) e :=
    program_followed hruns (codingState_coding lc lp pb) ⟨rfl, rfl, rfl⟩ rfl hcode hexec
  obtain ⟨hcov, hlen⟩ := assemble_covered hasm hcode hfollow.coding
  have hsize : declaredSize u.regs = some e.outPos := declaredSize_of_lo (hchunk.trans (by decide)) hhi hlo
  obtain ⟨v, hopen, hready, hstart⟩ :=
    execDecOpen_decoding hlc hlp hpb hphase hcin hprops hsize (hfollow.covered hcov)
  obtain ⟨w, hstep, hdone, hsync, hout⟩ :=
    execDecStep_program hfollow hcov hchunk hready hstart.context.outPos hstart
  refine ⟨v, w, hopen, hstep, hdone, hout.win, hout.state, hout.reps, hsync.cells, ?_⟩
  rw [hsync.inCount, hsync.coder.position, hlen]

end Sys2Proof.Machine
end

section
/-!
PROOFS. The operations of the range coder as the next operation sees them (`40_range_coder.md` R171, R174 to R182): the
cell update, ShiftLow and the flush, and one bit on each side.
-/

namespace Sys2Proof.Machine

/-! ### The cell update (R171) -/

/-- Settles O43: a 32nd of the distance to the end is at least 1 until the fixed point is reached. -/
theorem cellUpdate : Obligations.CellUpdate := by
  refine ⟨fun p => ⟨updateProb_false p, updateProb_true p⟩, ⟨by decide, by decide⟩, fun p hp => ?_⟩
  have hlow := hp.1
  have hhigh := hp.2
  refine ⟨updateProb_reachable hp, fun hne => ?_, by decide, fun hne => ?_, by decide⟩
  · have : p.toNat ≠ 2017 := fun h => hne (BitVec.eq_of_toNat_eq h)
    rw [updateProb_false]
    omega
  · have : p.toNat ≠ 31 := fun h => hne (BitVec.eq_of_toNat_eq h)
    rw [updateProb_true]
    omega

/-! ### ShiftLow and the flush (R175, R177) -/

/-- What `n` calls of ShiftLow leave: they change the range encoder, `Out` and its count, keep `range`, and the bytes
emitted and held back are `n` more. -/
structure Shifted (n : Nat) (s t : State) : Prop where
  frame : t = { s with
    out := t.out, regs := { s.regs with outCount := t.regs.outCount }
    session := { s.session with renc := t.session.renc } }
  range : t.session.renc.range = s.session.renc.range
  holds : 1 ≤ t.session.renc.cacheSize
  emits : ∃ bytes, t.out = s.out ++ bytes ∧
    bytes.length + t.session.renc.cacheSize = s.session.renc.cacheSize + n

/-- The state after ShiftLow. -/
def shiftedLow (s : State) : State :=
  (s.withEmitted (shiftLowBytes s.session.renc)).mapSession fun ss => { ss with renc := shiftLowEnc s.session.renc }

@[simp] theorem shiftedLow_out (s : State) : (shiftedLow s).out = s.out ++ shiftLowBytes s.session.renc :=
  withEmitted_out _ _

@[simp] theorem shiftedLow_renc (s : State) : (shiftedLow s).session.renc = shiftLowEnc s.session.renc := rfl

theorem shiftedLow_low (s : State) :
    (shiftedLow s).session.renc.low.toNat = s.session.renc.low.toNat * 2 ^ 8 % 2 ^ 32 := by
  rw [shiftedLow_renc, shiftLowEnc_low]
  omega

theorem shiftedLow_shifted {s : State} (h : 1 ≤ s.session.renc.cacheSize) : Shifted 1 s (shiftedLow s) := by
  refine ⟨?_, shiftLowEnc_range _, shiftLowEnc_cacheSize _, _, shiftedLow_out s, shiftLow_length _ h⟩
  have hframe := withEmitted_frame s (shiftLowBytes s.session.renc)
  unfold shiftedLow
  generalize s.withEmitted (shiftLowBytes s.session.renc) = w at hframe ⊢
  rw [hframe]
  rfl

theorem Shifted.trans {m n : Nat} {s t u : State} (h : Shifted m s t) (h' : Shifted n t u) :
    Shifted (m + n) s u := by
  obtain ⟨hframe, hrange, -, xs, hout, hlen⟩ := h
  obtain ⟨hframe', hrange', hholds', ys, hout', hlen'⟩ := h'
  refine ⟨?_, hrange'.trans hrange, hholds', xs ++ ys, by rw [hout', hout, List.append_assoc], ?_⟩
  · generalize t.out = o, t.regs.outCount = k, t.session.renc = e at hframe
    subst hframe
    exact hframe'
  · rw [List.length_append]
    omega

theorem shiftLows_succ (n : Nat) {s : State} (h : 1 ≤ s.session.renc.cacheSize) :
    shiftLows (n + 1) s = shiftLows n (shiftedLow s) := by
  rw [shiftLows, act_bind, shiftLow_eq h]
  rfl

theorem shiftLows_shifted (n : Nat) {s : State} (h : 1 ≤ s.session.renc.cacheSize) :
    ∃ t, shiftLows n s = .ok () t ∧ Shifted n s t := by
  induction n generalizing s with
  | zero => exact ⟨s, rfl, rfl, rfl, h, [], (List.append_nil _).symm, by simp⟩
  | succ n ih =>
    have hone := shiftedLow_shifted h
    obtain ⟨t, ht, hrest⟩ := ih hone.holds
    exact ⟨t, (shiftLows_succ n h).trans ht, Nat.add_comm 1 n ▸ hone.trans hrest⟩

/-- The `n + 1` calls shift `low` by that many bytes and keep 32 bits: the carry and the top byte go each time. -/
theorem shiftLows_low (n : Nat) {s t : State} (h : 1 ≤ s.session.renc.cacheSize)
    (hrun : shiftLows (n + 1) s = .ok () t) :
    t.session.renc.low.toNat = s.session.renc.low.toNat * 2 ^ (8 * (n + 1)) % 2 ^ 32 := by
  induction n generalizing s with
  | zero =>
    rw [shiftLows_succ _ h] at hrun
    cases hrun
    exact shiftedLow_low s
  | succ n ih =>
    rw [shiftLows_succ _ h] at hrun
    rw [ih (shiftedLow_shifted h).holds hrun, shiftedLow_low, Nat.mod_mul_mod, Nat.mul_assoc, ← Nat.pow_add,
      Nat.mul_add_one 8 (n + 1), Nat.add_comm 8]

theorem flushEncoder_eq : flushEncoder = shiftLows 4 >>= fun _ => shiftLow := by
  simp [flushEncoder, shiftLows]

/-- Four calls shift every bit of `low` out, and the fifth emits the last byte of it. -/
theorem flushEncoder_drains {s : State} (h : 1 ≤ s.session.renc.cacheSize) :
    ∃ t, flushEncoder s = .ok () t ∧ Shifted 5 s t ∧
      t.session.renc = { s.session.renc with low := 0, cache := 0, cacheSize := 1 } := by
  obtain ⟨t, ht, hfour⟩ := shiftLows_shifted 4 h
  have hlow : t.session.renc.low.toNat = 0 := by
    rw [shiftLows_low 3 h ht]
    exact Nat.mul_mod_left _ _
  have hlast : shiftLow t = .ok () (shiftedLow t) := shiftLow_eq hfour.holds
  refine ⟨shiftedLow t, ?_, hfour.trans (shiftedLow_shifted hfour.holds), ?_⟩
  · rw [flushEncoder_eq, act_bind, ht]
    exact hlast
  · rw [shiftLow_of_low_zero hfour.holds hlow hlast]
    simp only [hfour.range]

theorem flushEncoder_cells {s t : State} (h : 1 ≤ s.session.renc.cacheSize) (hrun : flushEncoder s = .ok () t) :
    t.session.cells = s.session.cells := by
  obtain ⟨t', ht', hshifted⟩ := shiftLows_shifted 5 h
  obtain rfl : t' = t := by simpa [flushEncoder, ht'] using hrun
  rw [hshifted.frame]

theorem shiftLowBytes_of_low {e : RangeEnc} (h : e.low.toNat < 0xFF000000) :
    shiftLowBytes e = e.cache :: List.replicate (e.cacheSize - 1) 0xFF := by
  rw [shiftLowBytes, if_neg (by omega), Nat.div_eq_of_lt (by omega)]
  simp

theorem shiftLowBytes_of_carry {e : RangeEnc} (h : 2 ^ 32 ≤ e.low.toNat) :
    shiftLowBytes e = u8 (e.cache.toNat + 1) :: List.replicate (e.cacheSize - 1) 0x00 := by
  have hone : e.low.toNat / 2 ^ 32 = 1 := by
    have := e.low.isLt
    omega
  rw [shiftLowBytes, if_neg (by omega), hone]
  rfl

/-- Settles O45: the three cases of ShiftLow's closed form, and five calls of it. -/
theorem shiftLowEffect : Obligations.ShiftLowEffect := by
  refine ⟨fun s h => ⟨shiftedLow s, shiftLow_eq h, (shiftedLow_shifted h).frame, fun hff hcarry => ?_, fun hlow => ?_,
    fun hcarry => ?_⟩, fun s h => ?_⟩
  · obtain ⟨hbytes, -, -⟩ := shiftLow_pending ⟨hff, hcarry⟩ h
    rw [shiftedLow_out, hbytes, List.append_nil]
    exact ⟨rfl, if_pos ⟨hff, hcarry⟩⟩
  · rw [shiftedLow_out, shiftLowBytes_of_low hlow]
    exact ⟨rfl, if_neg fun hpend => Nat.not_lt.mpr hpend.1 hlow⟩
  · rw [shiftedLow_out, shiftLowBytes_of_carry hcarry]
    exact ⟨rfl, if_neg fun hpend => Nat.not_lt.mpr hcarry hpend.2⟩
  · obtain ⟨t, ht, hshifted, hrenc⟩ := flushEncoder_drains h
    obtain ⟨bytes, hout, hlen⟩ := hshifted.emits
    rw [hrenc] at hlen
    exact ⟨t, ht, ⟨bytes, hout, Nat.succ.inj hlen⟩, hrenc⟩

/-! ### EncodeBit (R174, R178) -/

theorem encRescaled_eq {s : State} {r : Nat} (h : s.session.renc.range.toNat = r) : encRescaled s =
    s.mapSession fun ss => { ss with renc := { ss.renc with range := u32 (r * 2 ^ 8) } } := by
  simp only [encRescaled, State.mapSession, h]

/-- Settles O44: the closed forms of the coded bit and of the normalisation. -/
theorem encodeBitEffect : Obligations.EncodeBitEffect := by
  intro s cell b hv hp hi e p bound range low
  have hbound : 2 ^ 17 ≤ bound ∧ bound + 2 ^ 17 ≤ e.range.toNat := bound_bounds hv.1 e.range.isLt hp.1 hp.2
  have hrange : (encodedBit s cell b).session.renc.range.toNat = range := by
    have hfit : range < 2 ^ 32 := by
      have := e.range.isLt
      cases b <;> simp only [range, Bool.false_eq_true, if_false, if_true] <;> omega
    exact Nat.mod_eq_of_lt hfit
  rw [encodeBit_eq b hi hp, encNormalize_eq, hrange]
  refine ⟨by omega, by omega, fun hwide => ?_, fun hnarrow => ?_⟩
  · rw [if_neg (Nat.not_lt.mpr hwide)]
    rfl
  · rw [if_pos hnarrow, encRescaled_eq hrange]
    rfl

/-- After ShiftLow, whatever the state before it, `low` is three bytes shifted left by one. -/
theorem shiftLow_low {s t : State} (h : shiftLow s = .ok () t) :
    t.session.renc.low.toNat = s.session.renc.low.toNat % 2 ^ 24 * 2 ^ 8 := by
  have hfit : (BitVec.ofNat 33 (s.session.renc.low.toNat % 2 ^ 24 * 2 ^ 8)).toNat =
      s.session.renc.low.toNat % 2 ^ 24 * 2 ^ 8 := by
    rw [BitVec.toNat_ofNat]
    omega
  rw [shiftLow, act_bind, act_get] at h
  dsimp only at h
  split at h
  · obtain ⟨_, _, -, hmap⟩ := act_bind_ok h
    cases hmap
    exact hfit
  · cases h
    exact hfit

/-- Settles O46: every operation of the encoder keeps the invariant from the invariant. -/
theorem encoderInvariantKept : Obligations.EncoderInvariantKept := by
  refine ⟨⟨by decide, by decide, by decide⟩, fun s t cell b hv hreach hwf hrun => ?_, fun s t v n hv hrun => ?_,
    fun s t hrun => ?_⟩
  · obtain ⟨t', ht', hvalid, hsession, -⟩ := encodeBit_ok b (encodeBit_index hrun) (hreach cell) hv
    obtain rfl : t' = t := by simpa [ht'] using hrun
    rw [hsession] at hvalid ⊢
    exact ⟨hvalid, cells_put_reachable hwf hreach b, cells_put_wf hwf _ _⟩
  · obtain ⟨t', ht', hvalid, -⟩ := encodeDirectBits_ok v n hv
    obtain rfl : t' = t := by simpa [ht'] using hrun
    exact hvalid
  · rw [shiftLow_low hrun]
    omega

/-! ### DecodeBit (R180, R182) -/

/-- The normalised decoder takes a byte into `code`. -/
theorem shiftedIn_decRescaled (s : State) (x : Byte) : shiftedIn (decRescaled s) x = { s with
    regs := { s.regs with inCount := u32 (s.session.rdec.inPos + 1) }
    session := { s.session with rdec := s.session.rdec.shifted x } } := rfl

/-- Settles O47: the closed forms of the decoded bit and of the normalisation. -/
theorem decodeBitEffect : Obligations.DecodeBitEffect := by
  intro s cell hv hp hi d p bound b range code cells
  have hbound : 2 ^ 17 ≤ bound ∧ bound + 2 ^ 17 ≤ d.range.toNat := bound_bounds hv.1 d.range.isLt hp.1 hp.2
  have hrange : (u32 range).toNat = range := by
    have := d.range.isLt
    refine Nat.mod_eq_of_lt ?_
    simp only [range]
    split <;> omega
  have hcode : (u32 code).toNat = code := by
    have := d.code.isLt
    refine Nat.mod_eq_of_lt ?_
    simp only [code]
    split <;> omega
  have hkept : u32 code = if b then u32 (d.code.toNat - bound) else d.code := by
    simp only [code]
    split
    · rfl
    · simp
  have hmid : decodedBit s cell = { s with session := { s.session with
      cells := cells, rdec := { d with range := u32 range, code := u32 code } } } := by
    rw [hkept]
    rfl
  rw [decodeBit_eq hi hp, act_bind, decNormalize_eq,
    show (decodedBit s cell).session.rdec.range.toNat = range from hrange]
  refine ⟨fun hwide => ?_, fun hnarrow x hx => ?_, fun hnarrow hx => ?_⟩
  · rw [if_neg (Nat.not_lt.mpr hwide), hmid]
    rfl
  · rw [if_pos hnarrow, shiftInCode_some (s := decRescaled (decodedBit s cell)) hx, shiftedIn_decRescaled, hmid]
    simp only [RangeDec.shifted, hrange, hcode]
    rfl
  · rw [if_pos hnarrow, shiftInCode_none (s := decRescaled (decodedBit s cell)) hx]
    exact ⟨_, rfl, rfl, rfl⟩

/-- The decoder after RcDecInit over the bytes 00 FF FF FF FE: its range is odd, and `code` is the last number of it. -/
def lastOfOddRange : State :=
  { State.reset with
    cin := [0, 0xFF, 0xFF, 0xFF, 0xFE]
    regs := { HostRegs.reset with inCount := 5 }
    session := { Session.reset with rdec := { range := 0xFFFFFFFF, code := 0xFFFFFFFE, inPos := 5 } } }

/-- Refutes O48: the halves of an odd range leave its last number out, and from a code there, which a stream can begin
with, a direct bit makes the code equal to the range. -/
theorem not_decoderInvariantKept : ¬Obligations.DecoderInvariantKept := by
  intro ⟨hinit, _, hdirect⟩
  have hstart : rcDecInit { State.reset with cin := lastOfOddRange.cin } = .ok () lastOfOddRange := by
    rw [rcDecInit_of_zero rfl rfl]
    rfl
  have hrun : decodeDirectBits 0 1 lastOfOddRange = .ok 1 (decodedDirect lastOfOddRange) := rfl
  obtain ⟨-, hcode⟩ := hdirect _ _ _ _ _ (hinit _ _ hstart) hrun
  exact absurd hcode (by decide)

end Sys2Proof.Machine
end

section
/-!
PROOFS. The replay law (`40_range_coder.md` R183). The pairing of coder and decoder is stated for sessions that read
the same window, `state` and `reps`; the law asks nothing of these. The range coder reads none of them, so each run
is also a run of the state with these three blanked, where the pairing applies.
-/

namespace Sys2Proof.Machine

/-! ### What the range coder does not read -/

/-- `s` with an empty window, `state` 0 and every rep distance 0. -/
def State.blank (s : State) : State :=
  { s with win := [], session := { s.session with state := 0, reps := Reps.zero } }

/-- The result of an action with the state it ends or stops in blanked. -/
def blankResult {α : Type} : EStateM.Result Abort State α → EStateM.Result Abort State α
  | .ok x t => .ok x t.blank
  | .error e t => .error e t.blank

@[simp] theorem blankResult_ok {α : Type} (x : α) (t : State) :
    blankResult (.ok x t : EStateM.Result Abort State α) = .ok x t.blank := rfl

@[simp] theorem blankResult_error {α : Type} (e : Abort) (t : State) :
    blankResult (.error e t : EStateM.Result Abort State α) = .error e t.blank := rfl

/-- The action neither reads nor writes the window, `state` or `reps`. -/
def Act.Blind {α : Type} (a : Act α) : Prop := ∀ s, a s.blank = blankResult (a s)

theorem Act.Blind.ok {α : Type} {a : Act α} (h : Act.Blind a) {s t : State} {x : α} (ha : a s = .ok x t) :
    a s.blank = .ok x t.blank := by rw [h s, ha, blankResult_ok]

/-- A run of the blanked state is a blanked run of the state. -/
theorem Act.Blind.of_ok {α : Type} {a : Act α} (h : Act.Blind a) {s v : State} {x : α} (ha : a s.blank = .ok x v) :
    ∃ t, a s = .ok x t ∧ t.blank = v := by
  rw [h s] at ha
  cases hs : a s with
  | error e t => rw [hs] at ha; cases ha
  | ok y t => rw [hs] at ha; cases ha; exact ⟨t, rfl, rfl⟩

theorem Act.Blind.pure {α : Type} (x : α) : Act.Blind (Pure.pure x : Act α) := fun _ => rfl

theorem Act.Blind.raise {α : Type} (c : FaultClass) (k : Nat) : Act.Blind (Machine.raise c k : Act α) := fun _ => rfl

theorem Act.Blind.bind {α β : Type} {a : Act α} {f : α → Act β} (ha : Act.Blind a) (hf : ∀ x, Act.Blind (f x)) :
    Act.Blind (a >>= f) := by
  intro s
  rw [act_bind, act_bind, ha s]
  cases a s with
  | ok x t => exact hf x t
  | error e t => rfl

/-- An action that reads the state and goes on in a way the blanked fields do not change. -/
theorem Act.Blind.get_bind {α : Type} {f : State → Act α} (hread : ∀ s, f s.blank = f s) (hf : ∀ s, Act.Blind (f s)) :
    Act.Blind (MonadState.get >>= f) := by
  intro s
  rw [act_bind, act_bind, act_get, act_get]
  dsimp only
  rw [hread]
  exact hf s s

theorem Act.Blind.ite {α : Type} {c : Prop} [Decidable c] {a b : Act α} (ha : Act.Blind a) (hb : Act.Blind b) :
    Act.Blind (if c then a else b) := by
  split
  · exact ha
  · exact hb

theorem readCell_blind (cell : Cell) : Act.Blind (readCell cell) :=
  .get_bind (fun _ => rfl) fun _ => .ite (.ite (.raise _ _) (.pure _)) (.raise _ _)

theorem writeCell_blind (cell : Cell) (p : Prob) : Act.Blind (writeCell cell p) := fun _ => rfl

theorem mapRenc_blind (f : RangeEnc → RangeEnc) : Act.Blind (mapRenc f) := fun _ => rfl

theorem mapRdec_blind (f : RangeDec → RangeDec) : Act.Blind (mapRdec f) := fun _ => rfl

theorem emitRun_blind (carry : Nat) (b : Byte) (n : Nat) : Act.Blind (emitRun carry b n) := by
  induction n generalizing b with
  | zero => exact .pure _
  | succ n ih => exact .bind (fun _ => rfl) fun _ => ih _

theorem shiftLow_blind : Act.Blind shiftLow :=
  .get_bind (fun _ => rfl) fun _ =>
    .ite (.bind (emitRun_blind _ _ _) fun _ => mapRenc_blind _) (mapRenc_blind _)

theorem encNormalize_blind : Act.Blind encNormalize :=
  .get_bind (fun _ => rfl) fun _ => .ite (.bind (mapRenc_blind _) fun _ => shiftLow_blind) (.pure _)

theorem encodeBit_blind (cell : Cell) (b : Bool) : Act.Blind (encodeBit cell b) := by
  have rest (p : Prob) : Act.Blind (writeCell cell (updateProb p b) >>= fun _ => encNormalize) :=
    .bind (writeCell_blind _ _) fun _ => encNormalize_blind
  refine .bind (readCell_blind cell) fun p => .get_bind (fun _ => rfl) fun s => ?_
  exact .ite (.bind (mapRenc_blind _) fun _ => rest p) (.bind (mapRenc_blind _) fun _ => rest p)

theorem encodeDirectBits_blind (v n : Nat) : Act.Blind (encodeDirectBits v n) := by
  induction n with
  | zero => exact .pure _
  | succ n ih =>
    exact .get_bind (fun _ => rfl) fun _ => .bind (mapRenc_blind _) fun _ => .bind encNormalize_blind fun _ => ih

theorem readIn_blind : Act.Blind readIn := by
  intro s
  rw [readIn, act_bind, act_bind, act_get, act_get]
  dsimp only
  rw [show s.blank.cin[s.blank.session.rdec.inPos]? = s.cin[s.session.rdec.inPos]? from rfl]
  cases s.cin[s.session.rdec.inPos]? with
  | none => rfl
  | some b => rfl

theorem decNormalize_blind : Act.Blind decNormalize :=
  .get_bind (fun _ => rfl) fun _ =>
    .ite (.bind (mapRdec_blind _) fun _ => .bind readIn_blind fun _ => mapRdec_blind _) (.pure _)

theorem decodeBit_blind (cell : Cell) : Act.Blind (decodeBit cell) := by
  have rest (p : Prob) (b : Bool) :
      Act.Blind (writeCell cell (updateProb p b) >>= fun _ => decNormalize >>= fun _ => Pure.pure b) :=
    .bind (writeCell_blind _ _) fun _ => .bind decNormalize_blind fun _ => .pure _
  refine .bind (readCell_blind cell) fun p => .get_bind (fun _ => rfl) fun s => ?_
  exact .ite (.bind (mapRdec_blind _) fun _ => rest p _) (.bind (mapRdec_blind _) fun _ => rest p _)

theorem decodeDirectBits_blind (v n : Nat) : Act.Blind (decodeDirectBits v n) := by
  induction n generalizing v with
  | zero => exact .pure _
  | succ n ih =>
    exact .get_bind (fun _ => rfl) fun _ => .bind (mapRdec_blind _) fun _ => .bind decNormalize_blind fun _ => ih _

theorem encodeDecisions_blind (ds : List Decision) : Act.Blind (encodeDecisions ds) := by
  induction ds with
  | nil => exact .pure _
  | cons d ds ih =>
    cases d with
    | bit cell b => exact .bind (encodeBit_blind _ _) fun _ => ih
    | direct v n => exact .bind (encodeDirectBits_blind _ _) fun _ => ih

theorem decodeDecisions_blind (ds : List Decision) : Act.Blind (decodeDecisions ds) := by
  induction ds with
  | nil => exact .pure _
  | cons d ds ih =>
    cases d with
    | bit cell b => exact .bind (decodeBit_blind _) fun _ => .bind ih fun _ => .pure _
    | direct v n => exact .bind (decodeDirectBits_blind _ _) fun _ => .bind ih fun _ => .pure _

/-! ### A sequence of decisions -/

/-- Decoding follows the coding of any decisions, one by one. -/
theorem decisions_replay (ds : List Decision) :
    Replays (2 ^ 24) (encodeDecisions ds) (decodeDecisions ds) (ds.map Decision.value) := by
  induction ds with
  | nil => exact Replays.done []
  | cons d ds ih =>
    cases d with
    | bit cell b => exact (encodeBit_replays cell b).bind (ih.map fun rest => b.toNat :: rest)
    | direct v n =>
      have hdirect := encodeDirectBits_replays v n 0
      rw [Nat.zero_mul, Nat.zero_add] at hdirect
      exact hdirect.bind (ih.map fun rest => v % 2 ^ n :: rest)

/-- An encoder at its start, blanked, is between operations. -/
theorem Fresh.coding_blank {s : State} (h : Fresh s) (hwf : s.session.cells.wf = true)
    (hreach : s.session.cells.reachable) : Coding (2 ^ 24) s.blank :=
  ⟨by rw [show s.blank.session.renc = _ from h.coder]; exact RangeEnc.open_init, hwf, hreach,
    fun hchar => absurd hchar (by decide : ¬isChar 0 = false)⟩

/-- Blanked states of the same properties read the same context. -/
theorem sameContext_blank {s u : State} (h : u.session.props = s.session.props) : SameContext s.blank u.blank :=
  have hprops : u.blank.session.props = s.blank.session.props := h
  ⟨rfl, rfl, rfl, by rw [hprops], by rw [hprops], by rw [hprops]⟩

/-- Settles O49: the flushed output lies in every interval of the coding, so the decoder stands at the encoder's start
after RcDecInit and follows it through every decision to the end of the stream. -/
theorem replayLaw : Obligations.ReplayLaw := by
  intro ds s t u hinit hout hreach hwf _ hrun hcells hprops hcin hpos
  obtain ⟨_, c, hcode, hflush⟩ := act_bind_ok hrun
  have hfresh : Fresh s := ⟨hinit, hout⟩
  have hcoding := hfresh.coding_blank hwf hreach
  have hfollow (v : State) (hv : v.session.props = s.session.props) :=
    decisions_replay ds t.out s.blank c.blank v.blank hcoding (sameContext_blank hv) ((encodeDecisions_blind ds).ok hcode)
  obtain ⟨hcovered, hlength⟩ := flushEncoder_covers (s := c) (hfollow s rfl).coding.coder hflush
  obtain ⟨v, hopen, hsync, hframe⟩ := rcDecInit_synced hfresh ((hfollow s rfl).covered hcovered) hcin hpos hcells
  have hvprops : v.session.props = s.session.props := by
    rw [hframe]
    exact hprops
  obtain ⟨_, hblank, hsync', -⟩ := (hfollow v hvprops).decodes hcovered
    ⟨hsync.input, hsync.cells, hsync.coder, hsync.inCount⟩
  obtain ⟨w, hdecode, rfl⟩ := (decodeDecisions_blind ds).of_ok hblank
  refine ⟨w, by rw [act_bind, hopen]; exact hdecode, ?_, ?_⟩
  · rw [flushEncoder_cells (s := c) (hfollow s rfl).coding.coder.holds hflush]
    exact hsync'.cells
  · rw [hlength]
    exact hsync'.coder.position

end Sys2Proof.Machine
end

section
/-!
PROOFS. DEC_OPEN over an illegal start of the stream (`40_range_coder.md` R179; `47_host_commands.md` R434;
`60_exceptions.md` R451, R454): where RcDecInit stops, and how many bytes it has read by then.
-/

namespace Sys2Proof.Machine

/-! ### RcDecInit over an illegal start -/

/-- Where `Cin` ends within the next `n` bytes, all of it is read. -/
theorem shiftInCodes_exhausted {n : Nat} {u : State} (hcount : u.regs.inCount = u32 u.session.rdec.inPos)
    (hpos : u.session.rdec.inPos ≤ u.cin.length) (hshort : u.cin.length < u.session.rdec.inPos + n) :
    ∃ v, shiftInCodes n u = .error (.raised .sourceExhausted 0) v ∧ v.regs.inCount = u32 u.cin.length := by
  induction n generalizing u with
  | zero => omega
  | succ n ih =>
    rw [shiftInCodes, act_bind]
    cases hb : u.cin[u.session.rdec.inPos]? with
    | none =>
      have hend : u.session.rdec.inPos = u.cin.length :=
        Nat.le_antisymm hpos (List.getElem?_eq_none_iff.mp hb)
      rw [shiftInCode_none hb]
      exact ⟨u, rfl, by rw [hcount, hend]⟩
    | some b =>
      obtain ⟨hlt, -⟩ := List.getElem?_eq_some_iff.mp hb
      have hnext : u.cin.length < u.session.rdec.inPos + 1 + n := by omega
      rw [shiftInCode_some hb]
      exact ih (u := shiftedIn u b) rfl hlt hnext

/-- RcDecInit over no byte at all. -/
theorem rcDecInit_of_empty {u : State} (hcin : u.cin = []) :
    ∃ v, rcDecInit u = .error (.raised .sourceExhausted 0) v ∧ v.regs.inCount = u.regs.inCount := by
  rw [rcDecInit, act_bind]
  simp only [mapRdec, mapSession, act_modify, readIn, act_bind, act_get, mapSession_cin, hcin, List.getElem?_nil]
  exact ⟨_, rfl, rfl⟩

/-- RcDecInit over a first byte other than 0. -/
theorem rcDecInit_of_nonzero {u : State} {b : Byte} (hpos : u.session.rdec.inPos = 0) (hfirst : u.cin[0]? = some b)
    (hb : b ≠ 0) : ∃ v, rcDecInit u = .error (.raised .dataError 5) v ∧ v.regs.inCount = 1 := by
  rw [rcDecInit, act_bind]
  simp only [mapRdec, mapSession, act_modify, readIn, act_bind, act_get, mapSession_cin, mapSession_session, hpos,
    hfirst, act_set, act_pure, if_pos hb, act_raise]
  exact ⟨_, rfl, rfl⟩

/-- RcDecInit over fewer than five bytes, the first a 0. -/
theorem rcDecInit_of_short {u : State} (hpos : u.session.rdec.inPos = 0) (hfirst : u.cin[0]? = some 0)
    (hshort : u.cin.length < 5) :
    ∃ v, rcDecInit u = .error (.raised .sourceExhausted 0) v ∧ v.regs.inCount = u32 u.cin.length := by
  obtain ⟨hlong, -⟩ := List.getElem?_eq_some_iff.mp hfirst
  obtain ⟨v, hv, hcount⟩ := shiftInCodes_exhausted (n := 4) (u := decStarted u) rfl hlong hshort
  exact ⟨v, by rw [rcDecInit_of_zero hpos hfirst, act_bind, hv], hcount⟩

/-- RcDecInit over a 0 and an initial code of all ones. -/
theorem rcDecInit_of_ones {u : State} (hpos : u.session.rdec.inPos = 0)
    (hcin : u.cin.take 5 = [0, 0xFF, 0xFF, 0xFF, 0xFF]) :
    ∃ v, rcDecInit u = .error (.raised .dataError 6) v ∧ v.regs.inCount = 5 := by
  have hlong : 5 ≤ u.cin.length := by
    have hlen := congrArg List.length hcin
    rw [List.length_take] at hlen
    exact hlen.ge.trans (Nat.min_le_right _ _)
  have hfirst : u.cin[0]? = some 0 := by
    rw [← List.getElem?_take_of_lt (show 0 < 5 by decide), hcin]
    rfl
  have hone : prefixValue u.cin 1 = 0 := by
    simpa [prefixValue, bytesValue] using prefixValue_succ hfirst
  have hones : prefixValue u.cin 5 = 0xFFFFFFFF := by
    rw [prefixValue, hcin]
    decide
  obtain ⟨v, hv, hcode, hvpos, -, -, hcount⟩ := shiftInCodes_value 4 (u := decStarted u) hone.symm rfl hlong
    (show prefixValue u.cin 5 < 2 ^ 32 by omega)
  have hall : v.session.rdec.code = 0xFFFFFFFF := BitVec.eq_of_toNat_eq (hcode.trans hones)
  refine ⟨v, ?_, by rw [hcount, hvpos]; rfl⟩
  rw [rcDecInit_of_zero hpos hfirst, act_bind, hv]
  simp only [act_bind, act_get, if_pos hall, act_raise]
  rfl

/-! ### The command -/

/-- DEC_OPEN starts the range decoder from the session it has set up (R400, R434). -/
theorem actDecOpen_eq {s : State} {lc lp pb : Nat} (hphase : mayOpen s.regs.phase = true)
    (hprops : decodePropsByte s.regs.dprops0 = some (lc, lp, pb)) :
    actDecOpen s = (rcDecInit >>= fun _ => setPhase .decReady) (decOpening lc lp pb s) := by
  simp only [actDecOpen, inPhase, act_bind, act_get, hphase, if_true, mapSession, act_modify, hprops]
  rfl

/-- A DEC_OPEN whose RcDecInit stops has emptied `Win`, left `Out`, and shows the fault and the bytes read. -/
theorem execDecOpen_stopped {s v : State} {lc lp pb : Nat} {c : FaultClass} {k : Byte}
    (hphase : mayOpen s.regs.phase = true) (hprops : decodePropsByte s.regs.dprops0 = some (lc, lp, pb))
    (hinit : rcDecInit (decOpening lc lp pb s) = .error (.raised c k) v) :
    ∃ t, exec .decOpen s = .next t ∧ t.win = [] ∧ t.out = s.out ∧ t.regs = { s.regs with
      phase := .fault, isEncoder := false, faultClass := c, faultSub := k, inCount := v.regs.inCount, outCount := 0 } := by
  have hframe := rcDecInit_frame.error hinit
  refine ⟨enterFault c k v, outcome_raised (a := actDecOpen) ?_, by rw [hframe]; rfl, by rw [hframe]; rfl,
    by rw [hframe]; rfl⟩
  rw [actDecOpen_eq hphase hprops, act_bind, hinit]

/-- A properties byte below 225 decodes (R121). -/
theorem decodePropsByte_of_lt {b : Byte} (h : b.toNat < 225) : ∃ lc lp pb, decodePropsByte b = some (lc, lp, pb) :=
  ⟨_, _, _, decodePropsByte_eq_some.mpr ⟨by omega, rfl, rfl, rfl⟩⟩

/-- Settles O19: the three ways RcDecInit stops, each with the bytes it has read. -/
theorem decOpenFaults : Obligations.DecOpenFaults := by
  intro s hphase hlt
  obtain ⟨lc, lp, pb, hprops⟩ := decodePropsByte_of_lt hlt
  refine ⟨fun hshort hstart => ?_, fun b hb hne => ?_, fun hones => ?_⟩
  · have hstop : ∃ v, rcDecInit (decOpening lc lp pb s) = .error (.raised .sourceExhausted 0) v ∧
        v.regs.inCount = u32 s.cin.length := by
      rcases hstart with hempty | hzero
      · rw [hempty]
        exact rcDecInit_of_empty (u := decOpening lc lp pb s) hempty
      · rw [List.head?_eq_getElem?] at hzero
        exact rcDecInit_of_short (u := decOpening lc lp pb s) rfl hzero hshort
    obtain ⟨v, hv, hcount⟩ := hstop
    exact hcount ▸ execDecOpen_stopped hphase hprops hv
  · rw [List.head?_eq_getElem?] at hb
    obtain ⟨v, hv, hcount⟩ := rcDecInit_of_nonzero (u := decOpening lc lp pb s) rfl hb hne
    exact hcount ▸ execDecOpen_stopped hphase hprops hv
  · obtain ⟨v, hv, hcount⟩ := rcDecInit_of_ones (u := decOpening lc lp pb s) rfl hones
    exact hcount ▸ execDecOpen_stopped hphase hprops hv

end Sys2Proof.Machine
end

section
/-!
PROOFS. The price table (`41_bit_tree_and_prices.md` R200, R203). The indices `j` of one `j.log2` form a block of the
table. In its block the price falls as the index grows, and its 64 units end where those of the block above begin, so the
table falls across the blocks too.
-/

namespace Sys2Proof.Machine

/-- An entry by its block, with the shifts as arithmetic. -/
theorem probPrice_eq {j : Nat} (hj : j ≠ 0) :
    probPrice j = (8 - j.log2) * 64 + (2 ^ (j.log2 + 1) - j) * 64 / 2 ^ j.log2 := by
  simp [probPrice, hj, Nat.shiftLeft_eq, Nat.shiftRight_eq_div_pow]

theorem le_probPrice {j : Nat} (hj : j ≠ 0) : (8 - j.log2) * 64 ≤ probPrice j := by
  rw [probPrice_eq hj]
  exact Nat.le_add_right _ _

/-- The part of a price inside its block is at most 64: the block's `2 ^ n` entries share 64 units. -/
theorem probPrice_le {j : Nat} (hj : j ≠ 0) : probPrice j ≤ (8 - j.log2) * 64 + 64 := by
  have hlo : 2 ^ j.log2 ≤ j := Nat.log2_self_le hj
  have hhi : 2 ^ (j.log2 + 1) = 2 ^ j.log2 * 2 := pow_succ 2 j.log2
  rw [probPrice_eq hj]
  refine Nat.add_le_add_left (Nat.div_le_of_le_mul ?_) _
  exact Nat.mul_le_mul_right 64 (by omega)

/-- In one block the price falls as the index grows. -/
theorem probPrice_anti_of_log2_eq {i j : Nat} (hi : i ≠ 0) (hij : i ≤ j) (hlog : i.log2 = j.log2) :
    probPrice j ≤ probPrice i := by
  rw [probPrice_eq hi, probPrice_eq (by omega), hlog]
  refine Nat.add_le_add_left (Nat.div_le_div_right (Nat.mul_le_mul_right 64 ?_)) _
  exact Nat.sub_le_sub_left hij _

/-- An entry of a higher block is at most any entry of a lower one. -/
theorem probPrice_anti_of_log2_lt {i j : Nat} (hi : i ≠ 0) (hj : j ≠ 0) (hlog : i.log2 < j.log2) (htop : j.log2 ≤ 8) :
    probPrice j ≤ probPrice i :=
  calc probPrice j ≤ (8 - j.log2) * 64 + 64 := probPrice_le hj
    _ ≤ (8 - i.log2) * 64 := by omega
    _ ≤ probPrice i := le_probPrice hi

/-- No price is above that of nine bits, 64 units each. -/
theorem probPrice_le_576 (j : Nat) : probPrice j ≤ 576 := by
  rcases eq_or_ne j 0 with rfl | hj
  · simp [probPrice]
  · have hle := probPrice_le hj
    omega

/-- Settles O51: two indices lie in one block or the larger one in a higher block. -/
theorem priceTable : Obligations.PriceTable := by
  refine ⟨fun i j hi hij hj => ?_, fun j _ => probPrice_le_576 j, by decide⟩
  have htop : j.log2 < 9 := (Nat.log2_lt (by omega)).mpr (by omega)
  rcases lt_or_ge i.log2 j.log2 with hlt | hge
  · exact probPrice_anti_of_log2_lt (by omega) (by omega) hlt (by omega)
  · have hle : i.log2 ≤ j.log2 := (Nat.le_log2 (by omega)).mpr ((Nat.log2_self_le (by omega)).trans hij)
    exact probPrice_anti_of_log2_eq (by omega) hij (by omega)

end Sys2Proof.Machine
end

section
/-!
PROOFS. The head cells of the hashes (`42_match_finder.md` R233, R234). Masking by ones is taking a remainder, and a
remainder of an XOR is an XOR of remainders: under one `CRC[b0]` the second byte stays readable in bits 7:0 and the third in
bits 15:8.
-/

namespace Sys2Proof.Machine

theorem byte_eq_iff {b c : Byte} : b = c ↔ b.toNat = c.toNat := BitVec.toNat_inj.symm

theorem xor_mod_two_pow_inj (c x y n : Nat) : (c ^^^ x) % 2 ^ n = (c ^^^ y) % 2 ^ n ↔ x % 2 ^ n = y % 2 ^ n := by
  rw [Nat.xor_mod_two_pow, Nat.xor_mod_two_pow, Nat.xor_right_inj]

/-- The two bytes of `x XOR (y << 8)`. -/
theorem xor_shiftLeft_eight_inj {x y x' y' : Nat} (hx : x < 2 ^ 8) (hx' : x' < 2 ^ 8) :
    x ^^^ (y <<< 8) = x' ^^^ (y' <<< 8) ↔ x = x' ∧ y = y' := by
  refine ⟨fun h => ?_, fun ⟨hl, hr⟩ => by rw [hl, hr]⟩
  have low (u v : Nat) (hu : u < 2 ^ 8) : (u ^^^ (v <<< 8)) % 2 ^ 8 = u := by
    rw [Nat.xor_mod_two_pow, Nat.mod_eq_of_lt hu, Nat.shiftLeft_eq, Nat.mul_mod_left, Nat.xor_zero]
  have high (u v : Nat) (hu : u < 2 ^ 8) : (u ^^^ (v <<< 8)) >>> 8 = v := by
    rw [Nat.shiftRight_xor_distrib, Nat.shiftLeft_shiftRight, Nat.shiftRight_eq_div_pow, Nat.div_eq_of_lt hu, Nat.zero_xor]
  exact ⟨by rw [← low x y hx, h, low x' y' hx'], by rw [← high x y hx, h, high x' y' hx']⟩

theorem bt4Heads_two (mask : Nat) (b0 b1 b2 b3 : Byte) :
    (bt4Heads mask b0 b1 b2 b3).1 = (crc b0.toNat ^^^ b1.toNat) % 2 ^ 10 :=
  Nat.and_two_pow_sub_one_eq_mod _ 10

theorem bt4Heads_three (mask : Nat) (b0 b1 b2 b3 : Byte) :
    (bt4Heads mask b0 b1 b2 b3).2.1 = 1024 + (crc b0.toNat ^^^ (b1.toNat ^^^ (b2.toNat <<< 8))) % 2 ^ 16 := by
  rw [← Nat.xor_assoc, ← Nat.and_two_pow_sub_one_eq_mod]
  rfl

/-- The 2-byte head is exact given the first byte. -/
theorem bt4Heads_two_eq_iff {mask mask' : Nat} {b0 b1 b2 b3 c1 c2 c3 : Byte} :
    (bt4Heads mask b0 b1 b2 b3).1 = (bt4Heads mask' b0 c1 c2 c3).1 ↔ b1 = c1 := by
  have hb : b1.toNat < 2 ^ 10 := b1.isLt.trans (by decide)
  have hc : c1.toNat < 2 ^ 10 := c1.isLt.trans (by decide)
  rw [bt4Heads_two, bt4Heads_two, xor_mod_two_pow_inj, Nat.mod_eq_of_lt hb, Nat.mod_eq_of_lt hc, byte_eq_iff]

/-- The 3-byte head is exact given the first byte. -/
theorem bt4Heads_three_eq_iff {mask mask' : Nat} {b0 b1 b2 b3 c1 c2 c3 : Byte} :
    (bt4Heads mask b0 b1 b2 b3).2.1 = (bt4Heads mask' b0 c1 c2 c3).2.1 ↔ b1 = c1 ∧ b2 = c2 := by
  have fits (u v : Byte) : (u.toNat ^^^ (v.toNat <<< 8)) % 2 ^ 16 = u.toNat ^^^ (v.toNat <<< 8) := by
    have hu : u.toNat < 2 ^ 16 := u.isLt.trans (by decide)
    have hv : v.toNat <<< 8 < 2 ^ 16 := by rw [Nat.shiftLeft_eq]; exact Nat.mul_lt_mul_of_pos_right v.isLt (by decide)
    exact Nat.mod_eq_of_lt (Nat.xor_lt_two_pow hu hv)
  rw [bt4Heads_three, bt4Heads_three, Nat.add_left_cancel_iff, xor_mod_two_pow_inj, fits, fits,
    xor_shiftLeft_eight_inj b1.isLt c1.isLt, byte_eq_iff, byte_eq_iff]

theorem bt4Heads_two_lt (mask : Nat) (b0 b1 b2 b3 : Byte) : (bt4Heads mask b0 b1 b2 b3).1 < 1024 := by
  rw [bt4Heads_two]
  exact Nat.mod_lt _ (by decide)

theorem bt4Heads_three_bounds (mask : Nat) (b0 b1 b2 b3 : Byte) :
    1024 ≤ (bt4Heads mask b0 b1 b2 b3).2.1 ∧ (bt4Heads mask b0 b1 b2 b3).2.1 < 66560 := by
  rw [bt4Heads_three]
  have := Nat.mod_lt (crc b0.toNat ^^^ (b1.toNat ^^^ (b2.toNat <<< 8))) (show 2 ^ 16 > 0 by decide)
  omega

theorem bt4Heads_main_bounds (mask : Nat) (b0 b1 b2 b3 : Byte) :
    66560 ≤ (bt4Heads mask b0 b1 b2 b3).2.2 ∧ (bt4Heads mask b0 b1 b2 b3).2.2 ≤ 66560 + mask :=
  ⟨Nat.le_add_right _ _, Nat.add_le_add_left Nat.and_le_right _⟩

theorem bt2Head_lt (b0 b1 : Byte) : bt2Head b0 b1 < 65536 := by
  have h0 := b0.isLt
  have h1 := b1.isLt
  rw [bt2Head]
  omega

/-- The BT2 head is exact. -/
theorem bt2Head_eq_iff {b0 b1 c0 c1 : Byte} : bt2Head b0 b1 = bt2Head c0 c1 ↔ b0 = c0 ∧ b1 = c1 := by
  have h0 := b0.isLt
  have h1 := c0.isLt
  rw [bt2Head, bt2Head, byte_eq_iff, byte_eq_iff]
  omega

/-- Settles O52: each head is a remainder in which the bytes it is exact for stay readable. -/
theorem hashHeads : Obligations.HashHeads := by
  refine ⟨fun mask b0 b1 b2 b3 c1 c2 c3 => ?_, fun b0 b1 c0 c1 => ⟨bt2Head_lt b0 b1, bt2Head_eq_iff⟩⟩
  obtain ⟨h3low, h3high⟩ := bt4Heads_three_bounds mask b0 b1 b2 b3
  obtain ⟨hvlow, hvhigh⟩ := bt4Heads_main_bounds mask b0 b1 b2 b3
  exact ⟨bt4Heads_two_eq_iff, bt4Heads_three_eq_iff, bt4Heads_two_lt mask b0 b1 b2 b3, h3low, h3high, hvlow, hvhigh⟩

end Sys2Proof.Machine
end

section
/-!
PROOFS. Runs of equal bytes, and GetMatchLen as one of them (`42_match_finder.md` R245).
-/

namespace Sys2Proof.Machine

/-! ### `matchRun` -/

theorem matchRun_le (n : Nat) (xs ys : List Byte) :
    matchRun n xs ys ≤ n ∧ matchRun n xs ys ≤ xs.length ∧ matchRun n xs ys ≤ ys.length := by
  induction n generalizing xs ys with
  | zero => simp [matchRun]
  | succ n ih =>
    match xs, ys with
    | [], _ => simp [matchRun]
    | _ :: _, [] => simp [matchRun]
    | x :: xs, y :: ys =>
      have h := ih xs ys
      simp only [matchRun, List.length_cons]
      split <;> omega

/-- The run's bytes are equal. -/
theorem matchRun_getElem? {n : Nat} {xs ys : List Byte} {i : Nat} (hi : i < matchRun n xs ys) : xs[i]? = ys[i]? := by
  induction n generalizing xs ys i with
  | zero => simp [matchRun] at hi
  | succ n ih =>
    match xs, ys with
    | [], _ => simp [matchRun] at hi
    | _ :: _, [] => simp [matchRun] at hi
    | x :: xs, y :: ys =>
      simp only [matchRun] at hi
      split at hi
      · next hxy =>
        cases i with
        | zero => simp [hxy]
        | succ i => simpa using ih (by omega)
      · omega

/-- The run ends at its bound, at the end of a sequence, or before two bytes that differ. -/
theorem matchRun_getElem?_ne {n : Nat} {xs ys : List Byte} (hn : matchRun n xs ys < n)
    (hxs : matchRun n xs ys < xs.length) : xs[matchRun n xs ys]? ≠ ys[matchRun n xs ys]? := by
  induction n generalizing xs ys with
  | zero => omega
  | succ n ih =>
    match xs, ys with
    | [], _ => simp at hxs
    | _ :: _, [] => simp [matchRun]
    | x :: xs, y :: ys =>
      by_cases hxy : x = y
      · simp only [matchRun, if_pos hxy, List.length_cons] at hn hxs ⊢
        simpa using ih (by omega) (by omega)
      · simp [matchRun, hxy]

/-! ### GetMatchLen -/

/-- Outside `In`. -/
theorem getMatchLen_outside {s : State} {idx : Int} {d limit : Nat}
    (h : s.session.mf.mfAbs + idx - d - 1 < 0 ∨ (s.inp.length : Int) < s.session.mf.mfAbs + idx) :
    getMatchLen idx d limit s = .error (.raised .internalInvariant 4) s := by
  simp only [getMatchLen, act_bind, act_get]
  rw [if_pos (by simpa using h)]
  rfl

/-- At byte `a` of `In`. -/
theorem getMatchLen_inside {s : State} {idx : Int} {d limit a : Nat} (ha : s.session.mf.mfAbs + idx = a) (hd : d + 1 ≤ a)
    (hlen : a ≤ s.inp.length) : getMatchLen idx d limit s =
      .ok (matchRun (min limit (s.inp.length - a)) (s.inp.drop a) (s.inp.drop (a - (d + 1)))) s := by
  simp only [getMatchLen, act_bind, act_get, ha]
  rw [if_neg (by simp; omega)]
  rfl

/-- Settles O53: inside `In` GetMatchLen is the longest run of equal bytes that starts there. -/
theorem matchLenMeasures : Obligations.MatchLenMeasures := by
  intro s idx d limit a
  refine ⟨getMatchLen_outside, fun hlow hhigh => ?_⟩
  obtain ⟨n, hn⟩ : ∃ n : Nat, a = n := Int.eq_ofNat_of_zero_le (by omega)
  rw [hn] at hlow hhigh ⊢
  simp only [Int.toNat_natCast]
  obtain ⟨hlim, hrun, -⟩ :=
    matchRun_le (min limit (s.inp.length - n)) (s.inp.drop n) (s.inp.drop (n - (d + 1)))
  have index (i : Nat) : n - (d + 1) + i = n + i - (d + 1) := by omega
  refine ⟨_, getMatchLen_inside hn (by omega) (by omega), by omega, by omega, fun i hi => ?_, fun hlt hend => ?_⟩
  · have := matchRun_getElem? hi
    rwa [List.getElem?_drop, List.getElem?_drop, index] at this
  · have := matchRun_getElem?_ne (n := min limit (s.inp.length - n)) (xs := s.inp.drop n)
      (ys := s.inp.drop (n - (d + 1))) (by omega) (by rw [List.length_drop]; omega)
    rwa [List.getElem?_drop, List.getElem?_drop, index] at this

end Sys2Proof.Machine
end

section
/-!
PROOFS. MovePos in closed form (`42_match_finder.md` R248, R249). It goes on by one position, and only where the position
counter reaches 2^31 − 1 it rebases `Son` and `Hash` by what the counter then loses and `mfBase` gains.
-/

namespace Sys2Proof.Machine

/-! ### The match finder after a move -/

/-- `s` with the match finder `m`. -/
def State.withMf (s : State) (m : MatchFinder) : State := { s with session := { s.session with mf := m } }

@[simp] theorem withMf_mf (s : State) (m : MatchFinder) : (s.withMf m).session.mf = m := rfl
@[simp] theorem withMf_inp (s : State) (m : MatchFinder) : (s.withMf m).inp = s.inp := rfl
@[simp] theorem withMf_enc (s : State) (m : MatchFinder) : (s.withMf m).session.enc = s.session.enc := rfl
@[simp] theorem withMf_withMf (s : State) (m m' : MatchFinder) : (s.withMf m).withMf m' = s.withMf m' := rfl

/-- The slot after the current one. -/
def MatchFinder.nextSlot (m : MatchFinder) : Nat := if m.cyclicPos + 1 = m.cbs then 0 else m.cyclicPos + 1

/-- What a normalising move takes from the position counter. -/
def MatchFinder.excess (m : MatchFinder) : Nat := m.mfPos.toNat + 1 - m.cbs

/-- The match finder after MovePos. -/
def MatchFinder.moved (m : MatchFinder) : MatchFinder :=
  if m.mfPos.toNat + 1 = 2 ^ 31 - 1 then
    { m with
      cyclicPos := m.nextSlot, mfPos := u32 m.cbs, mfBase := m.mfBase + m.excess
      son := m.son.mapValues 0 (rebase m.excess), hash := m.hash.mapValues 0 (rebase m.excess) }
  else { m with cyclicPos := m.nextSlot, mfPos := m.mfPos + 1 }

@[simp] theorem u32_toNat_add_one (w : Word) : u32 (w.toNat + 1) = w + 1 := BitVec.eq_of_toNat_eq (by simp)

theorem u32_toNat {n : Nat} (h : n < 2 ^ 32) : (u32 n).toNat = n := Nat.mod_eq_of_lt h

theorem word_add_one_toNat {w : Word} (h : w.toNat < 2 ^ 31 - 1) : (w + 1).toNat = w.toNat + 1 := by
  rw [← u32_toNat_add_one, u32_toNat (by omega)]

section Move

variable {m : MatchFinder} (hlow : 1 ≤ m.mfPos.toNat) (hpos : m.mfPos.toNat < 2 ^ 31 - 1) (hcbs : m.cbs ≤ 2 ^ 30 + 1)

theorem moved_of_lt (h : m.mfPos.toNat + 1 < 2 ^ 31 - 1) :
    m.moved = { m with cyclicPos := m.nextSlot, mfPos := m.mfPos + 1 } := if_neg (Nat.ne_of_lt h)

theorem moved_of_last (h : m.mfPos.toNat + 1 = 2 ^ 31 - 1) : m.moved =
    { m with
      cyclicPos := m.nextSlot, mfPos := u32 m.cbs, mfBase := m.mfBase + m.excess
      son := m.son.mapValues 0 (rebase m.excess), hash := m.hash.mapValues 0 (rebase m.excess) } := if_pos h

theorem normalize_eq {s : State} {pos : Nat} (h : s.session.mf.mfPos.toNat = pos) : normalize s =
    .ok () (s.withMf { s.session.mf with
      son := s.session.mf.son.mapValues 0 (rebase (pos - s.session.mf.cbs))
      hash := s.session.mf.hash.mapValues 0 (rebase (pos - s.session.mf.cbs))
      mfPos := u32 (pos - (pos - s.session.mf.cbs))
      mfBase := s.session.mf.mfBase + (pos - s.session.mf.cbs) }) := by
  subst h
  rfl

include hpos hcbs in
/-- MovePos answers, and changes the match finder only. -/
theorem movePos_eq {s : State} (hm : s.session.mf = m) : movePos s = .ok () (s.withMf m.moved) := by
  subst hm
  have hnext := word_add_one_toNat hpos
  rw [← u32_toNat_add_one] at hnext
  show (if (u32 (s.session.mf.mfPos.toNat + 1)).toNat = 2 ^ 31 - 1 then normalize else pure ())
    (s.withMf { s.session.mf with
      cyclicPos := s.session.mf.nextSlot, mfPos := u32 (s.session.mf.mfPos.toNat + 1) }) = _
  rw [hnext]
  by_cases hlast : s.session.mf.mfPos.toNat + 1 = 2 ^ 31 - 1
  · have hkeep : s.session.mf.mfPos.toNat + 1 - s.session.mf.excess = s.session.mf.cbs := by
      unfold MatchFinder.excess
      omega
    rw [if_pos hlast, moved_of_last hlast, normalize_eq hnext]
    unfold MatchFinder.excess at hkeep ⊢
    simp only [withMf_mf, withMf_withMf, hkeep]
  · rw [if_neg hlast, moved_of_lt (by omega), u32_toNat_add_one]
    rfl

@[simp] theorem moved_cyclicPos : m.moved.cyclicPos = m.nextSlot := by
  unfold MatchFinder.moved
  split <;> rfl

include hpos hcbs in
/-- The position counter keeps its range. -/
theorem moved_mfPos_bounds (hone : 1 ≤ m.cbs) : 1 ≤ m.moved.mfPos.toNat ∧ m.moved.mfPos.toNat < 2 ^ 31 - 1 := by
  rcases Nat.lt_or_ge (m.mfPos.toNat + 1) (2 ^ 31 - 1) with h | h
  · rw [moved_of_lt h]
    dsimp only
    rw [word_add_one_toNat hpos]
    omega
  · rw [moved_of_last (by omega)]
    dsimp only
    rw [u32_toNat (by omega)]
    omega

include hlow hpos hcbs in
/-- The absolute position rises by exactly 1. -/
theorem moved_mfAbs (hone : 1 ≤ m.cbs) : m.moved.mfAbs = m.mfAbs + 1 := by
  unfold MatchFinder.mfAbs
  rcases Nat.lt_or_ge (m.mfPos.toNat + 1) (2 ^ 31 - 1) with h | h
  · rw [moved_of_lt h]
    dsimp only
    rw [word_add_one_toNat hpos]
    omega
  · rw [moved_of_last (by omega)]
    dsimp only
    rw [u32_toNat (by omega), MatchFinder.excess]
    omega

theorem moved_wf (hson : m.son.wf 0 = true) (hhash : m.hash.wf 0 = true) :
    m.moved.son.wf 0 = true ∧ m.moved.hash.wf 0 = true := by
  unfold MatchFinder.moved
  split
  · exact ⟨memory_mapValues_wf hson, memory_mapValues_wf hhash⟩
  · exact ⟨hson, hhash⟩

end Move

/-! ### A stored position after a move -/

theorem rebase_toNat (sub : Nat) (v : Word) :
    (rebase sub v).toNat = if v.toNat ≤ sub then 0 else v.toNat - sub := by
  unfold rebase
  split
  · rfl
  · exact u32_toNat (by have := v.isLt; omega)

theorem read_mapValues_rebase {mem : Memory Word} (h : mem.wf 0 = true) (sub i : Nat) :
    ((mem.mapValues 0 (rebase sub)).read 0 i).toNat =
      if (mem.read 0 i).toNat ≤ sub then 0 else (mem.read 0 i).toNat - sub := by
  rw [memory_read_mapValues h (f := rebase sub) (if_pos (Nat.zero_le sub)), rebase_toNat]

/-- The cells of a memory before and after a move of `m`: rebased where it normalises. -/
def MatchFinder.CellsMoved (m : MatchFinder) (mem mem' : Memory Word) : Prop :=
  ∀ i, (m.mfPos.toNat + 1 < 2 ^ 31 - 1 → mem'.read 0 i = mem.read 0 i) ∧
    (m.mfPos.toNat + 1 = 2 ^ 31 - 1 → (mem'.read 0 i).toNat =
      if (mem.read 0 i).toNat ≤ m.excess then 0 else (mem.read 0 i).toNat - m.excess)

theorem moved_cells {m : MatchFinder} (hson : m.son.wf 0 = true) (hhash : m.hash.wf 0 = true) :
    m.CellsMoved m.son m.moved.son ∧ m.CellsMoved m.hash m.moved.hash := by
  refine ⟨fun i => ⟨fun h => by rw [moved_of_lt h], fun h => ?_⟩, fun i => ⟨fun h => by rw [moved_of_lt h], fun h => ?_⟩⟩
  · rw [moved_of_last h]
    exact read_mapValues_rebase hson _ i
  · rw [moved_of_last h]
    exact read_mapValues_rebase hhash _ i

/-- A stored position still live after the move names the same byte. -/
theorem MatchFinder.CellsMoved.live {m : MatchFinder} {mem mem' : Memory Word} (h : m.CellsMoved mem mem')
    (hpos : m.mfPos.toNat < 2 ^ 31 - 1) (hcbs : m.cbs ≤ 2 ^ 30 + 1) {i : Nat}
    (hlive : m.mfPos.toNat + 1 < (mem.read 0 i).toNat + m.cbs) :
    (mem'.read 0 i).toNat + m.moved.mfBase = (mem.read 0 i).toNat + m.mfBase := by
  obtain ⟨hlt, hlast⟩ := h i
  rcases Nat.lt_or_ge (m.mfPos.toNat + 1) (2 ^ 31 - 1) with hcase | hcase
  · rw [hlt hcase, moved_of_lt hcase]
  · rw [hlast (by omega), moved_of_last (by omega)]
    have hex : m.excess = m.mfPos.toNat + 1 - m.cbs := rfl
    rw [if_neg (by omega)]
    dsimp only
    omega

theorem Session.wf_iff (ss : Session) : ss.wf = true ↔
    (ss.cells.wf && ss.opt.nodes.wf optZero) = true ∧ ss.mf.son.wf 0 = true ∧ ss.mf.hash.wf 0 = true := by
  simp only [Session.wf, Bool.and_eq_true, and_assoc]

/-- Settles O54, from the closed form of the move. -/
theorem movePosAdvances : Obligations.MovePosAdvances := by
  intro s ⟨hdef, hdict, _⟩ hwf hlow hpos m sub
  have hcbs : m.cbs = s.session.props.dictSize + 1 := hdef
  obtain ⟨hrest, hson, hhash⟩ := (Session.wf_iff _).mp hwf
  have hmax : m.cbs ≤ 2 ^ 30 + 1 := by omega
  have hone : 1 ≤ m.cbs := by omega
  obtain ⟨hpos1, hpos2⟩ := moved_mfPos_bounds hpos hmax hone
  obtain ⟨hsons, hhashes⟩ := moved_cells hson hhash
  refine ⟨_, movePos_eq hpos hmax rfl, rfl, moved_mfAbs hlow hpos hmax hone, hpos1, hpos2,
    (Session.wf_iff _).mpr ⟨hrest, moved_wf hson hhash⟩, moved_cyclicPos, fun h => ?_, fun h => ⟨?_, ?_, ?_, ?_⟩,
    fun i hi => hsons.live hpos hmax hi, fun i hi => hhashes.live hpos hmax hi⟩
  · rw [withMf_mf, moved_of_lt h]
  · rw [withMf_mf, moved_of_last h]
    exact u32_toNat (by omega)
  · rw [withMf_mf, moved_of_last h]
    rfl
  · exact fun i => (hsons i).2 h
  · exact fun i => (hhashes i).2 h

end Sys2Proof.Machine
end

section
/-!
PROOFS. The tree walk one candidate at a time (`42_match_finder.md` R244), and what follows for any contents of `Hash` and
`Son`: the lengths GetMatches reports (R250 item 2), and that Skip leaves what GetMatches leaves (R241).
-/

namespace Sys2Proof.Machine

/-! ### When an operation answers -/

/-- A sequence whose first part answers runs on from there. -/
theorem act_bind_of_ok {α β : Type} {a : Act α} {s t : State} {x : α} (h : a s = .ok x t) (f : α → Act β) :
    (a >>= f) s = f x t := by rw [act_bind, h]

theorem pure_ok {α : Type} {x y : α} {s t : State} : (pure x : Act α) s = .ok y t ↔ y = x ∧ t = s :=
  ⟨fun h => by cases h; exact ⟨rfl, rfl⟩, fun ⟨hy, ht⟩ => by rw [hy, ht]; rfl⟩

theorem get_bind_ok {β : Type} {f : State → Act β} {s u : State} {y : β} :
    (get >>= f) s = .ok y u ↔ f s s = .ok y u := by rw [act_bind, act_get]

theorem guard_ok {α : Type} {c : Prop} [Decidable c] {a : Act α} {k : FaultClass} {i : Nat} {s t : State} {y : α} :
    (if c then a else raise k i) s = .ok y t ↔ c ∧ a s = .ok y t := by
  rw [act_ite]
  split
  · next h => exact ⟨fun ha => ⟨h, ha⟩, fun ha => ha.2⟩
  · next h => exact ⟨fun ha => (by cases ha), fun ha => absurd ha.1 h⟩

theorem inByte_ok {a : Nat} {s t : State} {x : Byte} : inByte a s = .ok x t ↔ s.inp[a]? = some x ∧ t = s := by
  rw [inByte, get_bind_ok]
  cases s.inp[a]? with
  | none => exact ⟨fun h => (by cases h), fun h => (by cases h.1)⟩
  | some b => exact pure_ok.trans (and_congr_left' (by rw [Option.some.injEq, eq_comm]))

theorem storedByte_ok {q k : Nat} {s t : State} {x : Byte} :
    storedByte q k s = .ok x t ↔ s.inp[q - 1 + s.session.mf.mfBase + k]? = some x ∧ t = s := by
  rw [storedByte, get_bind_ok, inByte_ok]

/-- `s` with `v` in cell `i` of `Son`. -/
def State.putSon (s : State) (i v : Nat) : State :=
  s.withMf { s.session.mf with son := s.session.mf.son.write 0 i (u32 v) }

/-- `s` with `v` in cell `i` of `Hash`. -/
def State.putHash (s : State) (i v : Nat) : State :=
  s.withMf { s.session.mf with hash := s.session.mf.hash.write 0 i (u32 v) }

theorem readSon_ok {i x : Nat} {s t : State} : readSon i s = .ok x t ↔
    i < 2 * s.session.mf.cbs ∧ x = (s.session.mf.son.read 0 i).toNat ∧ t = s := by
  rw [readSon, get_bind_ok, guard_ok, pure_ok]

theorem writeSon_ok {i v : Nat} {s t : State} {x : Unit} : writeSon i v s = .ok x t ↔
    i < 2 * s.session.mf.cbs ∧ t = s.putSon i v := by
  rw [writeSon, get_bind_ok, guard_ok]
  exact and_congr_right' ⟨fun h => by cases h; rfl, fun h => by rw [h]; rfl⟩

theorem readHash_ok {i x : Nat} {s t : State} : readHash i s = .ok x t ↔
    i ≤ s.session.mf.fixHashSize + s.session.mf.hashMask ∧ x = (s.session.mf.hash.read 0 i).toNat ∧ t = s := by
  rw [readHash, get_bind_ok, guard_ok, pure_ok]

theorem writeHash_ok {i v : Nat} {s t : State} {x : Unit} : writeHash i v s = .ok x t ↔
    i ≤ s.session.mf.fixHashSize + s.session.mf.hashMask ∧ t = s.putHash i v := by
  rw [writeHash, get_bind_ok, guard_ok]
  exact and_congr_right' ⟨fun h => by cases h; rfl, fun h => by rw [h]; rfl⟩

theorem reportPair_ok {ps ps' : List MatchPair} {len dist : Nat} {s t : State} : reportPair ps len dist s = .ok ps' t ↔
    len ≤ s.session.mf.matchMaxLen ∧ ps' = ps ++ [{ len := len, dist := u32 dist }] ∧ t = s := by
  rw [reportPair, get_bind_ok, act_ite]
  split
  · next h => exact ⟨fun h => (by cases h), fun hlen => absurd hlen.1 (Nat.not_le.mpr h)⟩
  · next h => exact pure_ok.trans ⟨fun ha => ⟨Nat.not_lt.mp h, ha⟩, fun ha => ha.2⟩

theorem readSon_run {i : Nat} {s : State} (h : i < 2 * s.session.mf.cbs) :
    readSon i s = .ok (s.session.mf.son.read 0 i).toNat s := readSon_ok.mpr ⟨h, rfl, rfl⟩

theorem writeSon_run {i : Nat} {s : State} (v : Nat) (h : i < 2 * s.session.mf.cbs) :
    writeSon i v s = .ok () (s.putSon i v) := writeSon_ok.mpr ⟨h, rfl⟩

theorem readHash_run {i : Nat} {s : State} (h : i ≤ s.session.mf.fixHashSize + s.session.mf.hashMask) :
    readHash i s = .ok (s.session.mf.hash.read 0 i).toNat s := readHash_ok.mpr ⟨h, rfl, rfl⟩

theorem writeHash_run {i : Nat} {s : State} (v : Nat) (h : i ≤ s.session.mf.fixHashSize + s.session.mf.hashMask) :
    writeHash i v s = .ok () (s.putHash i v) := writeHash_ok.mpr ⟨h, rfl⟩

/-! ### One candidate of the walk -/

/-- The equal bytes of the stored position `q` and the current one, of `lim`, where the first `start` are known to be. -/
def State.agreement (s : State) (lim q start : Nat) : Nat :=
  start + matchRun (lim - start) (s.inp.drop (q - 1 + s.session.mf.mfBase + start))
    (s.inp.drop (s.session.mf.mfAbs + start))

/-- The candidate is reported: its `len` bytes are more than the `start` known and than `maxLen`. -/
def improves (report : Bool) (start maxLen len : Nat) : Bool := decide (start < len) && report && decide (maxLen < len)

/-- The walk after comparing the candidate `q`, which agrees for `len` bytes (R244): it ends in the candidate's place, or
goes on below it. -/
def walkBelow (lim low : Nat) (report : Bool) (count q ptr0 ptr1 len0 len1 len maxLen : Nat) (pairs : List MatchPair) :
    Act (List MatchPair) := do
  let s ← get
  let c := 2 * s.session.mf.cyc (s.session.mf.mfPos.toNat - q)
  if len = lim then
    graft ptr0 ptr1 c
    pure pairs
  else
    let x ← storedByte q len
    let y ← inByte (s.session.mf.mfAbs + len)
    if x.toNat < y.toNat then
      writeSon ptr1 q
      let next ← readSon (c + 1)
      treeWalk lim low report count next ptr0 (c + 1) len0 len maxLen pairs
    else
      writeSon ptr0 q
      let next ← readSon c
      treeWalk lim low report count next c ptr1 len len1 maxLen pairs

theorem agreement_bounds (s : State) {lim q start : Nat} (h : start ≤ lim) :
    start ≤ s.agreement lim q start ∧ s.agreement lim q start ≤ lim := by
  have hle := (matchRun_le (lim - start) (s.inp.drop (q - 1 + s.session.mf.mfBase + start))
    (s.inp.drop (s.session.mf.mfAbs + start))).1
  unfold State.agreement
  omega

theorem matchRun_drop {n a b : Nat} {l : List Byte} {x y : Byte} (hx : l[a]? = some x) (hy : l[b]? = some y) :
    matchRun (n + 1) (l.drop a) (l.drop b) = if x = y then matchRun n (l.drop (a + 1)) (l.drop (b + 1)) + 1 else 0 := by
  obtain ⟨ha, rfl⟩ := List.getElem?_eq_some_iff.mp hx
  obtain ⟨hb, rfl⟩ := List.getElem?_eq_some_iff.mp hy
  rw [List.drop_eq_getElem_cons ha, List.drop_eq_getElem_cons hb, matchRun]

section Step

variable {lim low count q ptr0 ptr1 len0 len1 maxLen : Nat} {report : Bool} {pairs : List MatchPair} {s : State}

/-- The walk ends at a dead candidate, or where `count` is used up. -/
theorem treeWalk_end (h : count = 0 ∨ q ≤ low) :
    treeWalk lim low report count q ptr0 ptr1 len0 len1 maxLen pairs = closeWalk ptr0 ptr1 >>= fun _ => pure pairs := by
  cases count with
  | zero => rfl
  | succ count =>
    rw [treeWalk]
    exact if_pos (h.resolve_left (Nat.succ_ne_zero count))

/-- A walk that answers at a live candidate has read the byte after the known ones, of both positions. -/
theorem treeWalk_bytes {ps : List MatchPair} {t : State} (hq : low < q)
    (h : treeWalk lim low report (count + 1) q ptr0 ptr1 len0 len1 maxLen pairs s = .ok ps t) :
    ∃ x y, s.inp[q - 1 + s.session.mf.mfBase + min len0 len1]? = some x ∧
      s.inp[s.session.mf.mfAbs + min len0 len1]? = some y := by
  rw [treeWalk, if_neg (Nat.not_le.mpr hq), get_bind_ok] at h
  obtain ⟨x, t, hx, h⟩ := act_bind_ok h
  obtain ⟨hx, rfl⟩ := storedByte_ok.mp hx
  obtain ⟨y, t, hy, -⟩ := act_bind_ok h
  exact ⟨x, y, hx, (inByte_ok.mp hy).1⟩

/-- One candidate: it is compared, reported if it is longer, and the walk ends or goes on below it. -/
theorem treeWalk_live {x y : Byte} (hq : low < q) (hstart : min len0 len1 < lim) (hm : report = true → maxLen < lim)
    (hmax : lim ≤ s.session.mf.matchMaxLen)
    (hx : s.inp[q - 1 + s.session.mf.mfBase + min len0 len1]? = some x)
    (hy : s.inp[s.session.mf.mfAbs + min len0 len1]? = some y) :
    treeWalk lim low report (count + 1) q ptr0 ptr1 len0 len1 maxLen pairs s =
      walkBelow lim low report count q ptr0 ptr1 len0 len1 (s.agreement lim q (min len0 len1))
        (if improves report (min len0 len1) maxLen (s.agreement lim q (min len0 len1)) then
          s.agreement lim q (min len0 len1) else maxLen)
        (if improves report (min len0 len1) maxLen (s.agreement lim q (min len0 len1)) then
          pairs ++ [{ len := s.agreement lim q (min len0 len1), dist := u32 (s.session.mf.mfPos.toNat - q - 1) }]
          else pairs) s := by
  have hle := (agreement_bounds s (q := q) hstart.le).2
  have hrun : s.agreement lim q (min len0 len1) = if x = y then min len0 len1 + 1 +
      matchRun (lim - (min len0 len1 + 1)) (s.inp.drop (q - 1 + s.session.mf.mfBase + (min len0 len1 + 1)))
        (s.inp.drop (s.session.mf.mfAbs + (min len0 len1 + 1))) else min len0 len1 := by
    rw [State.agreement, show lim - min len0 len1 = lim - (min len0 len1 + 1) + 1 by omega, matchRun_drop hx hy]
    split
    · simp only [Nat.add_assoc, Nat.add_comm 1]
    · rfl
  rw [treeWalk, if_neg (Nat.not_le.mpr hq), act_bind, act_get]
  dsimp only
  rw [act_bind, storedByte_ok.mpr ⟨hx, rfl⟩]
  dsimp only
  rw [act_bind, inByte_ok.mpr ⟨hy, rfl⟩]
  dsimp only
  unfold walkBelow improves
  rw [act_bind, act_get]
  by_cases hxy : x = y
  · rw [if_pos hxy] at hrun
    have hlt : min len0 len1 < s.agreement lim q (min len0 len1) := by omega
    have hext : extendMatch q (min len0 len1) lim s = .ok (s.agreement lim q (min len0 len1)) s := by rw [hrun]; rfl
    rw [if_pos hxy, act_bind_of_ok hext]
    generalize s.agreement lim q (min len0 len1) = len at *
    simp only [hxy, hlt, decide_true, Bool.true_and]
    by_cases hmore : report = true ∧ maxLen < len
    · simp only [hmore.1, hmore.2, decide_true, Bool.true_and, Bool.true_or, if_true, decide_eq_true_eq]
      rw [act_bind_of_ok (reportPair_ok.mpr ⟨hle.trans hmax, rfl, rfl⟩)]
    · have hno : (report && decide (maxLen < len)) = false := by simpa using hmore
      have hfull : (!report && decide (len = lim)) = decide (len = lim) := by
        cases report with
        | false => rfl
        | true => simpa using fun h : len = lim => hmore ⟨rfl, h ▸ hm rfl⟩
      simp only [hno, hfull, Bool.false_or, Bool.false_eq_true, if_false, decide_eq_true_eq, pure_bind]
  · rw [if_neg hxy] at hrun
    rw [if_neg hxy, hrun]
    simp only [hxy, hstart.ne, Nat.lt_irrefl, decide_false, Bool.false_and, Bool.false_eq_true, if_false, pure_bind]

/-- One candidate of a walk without report. -/
theorem treeWalk_live_silent {x y : Byte} (hq : low < q) (hstart : min len0 len1 < lim)
    (hmax : lim ≤ s.session.mf.matchMaxLen)
    (hx : s.inp[q - 1 + s.session.mf.mfBase + min len0 len1]? = some x)
    (hy : s.inp[s.session.mf.mfAbs + min len0 len1]? = some y) :
    treeWalk lim low false (count + 1) q ptr0 ptr1 len0 len1 maxLen pairs s =
      walkBelow lim low false count q ptr0 ptr1 len0 len1 (s.agreement lim q (min len0 len1)) maxLen pairs s := by
  have hno (len : Nat) : improves false (min len0 len1) maxLen len = false := by simp [improves]
  rw [treeWalk_live hq hstart (fun h => absurd h Bool.false_ne_true) hmax hx hy]
  simp only [hno, Bool.false_eq_true, if_false]

end Step

/-- The candidate's subtrees take its place. -/
theorem walkBelow_full {lim low count q ptr0 ptr1 len0 len1 maxLen : Nat} {report : Bool} {pairs : List MatchPair} (s : State) :
    walkBelow lim low report count q ptr0 ptr1 len0 len1 lim maxLen pairs s =
      (graft ptr0 ptr1 (2 * s.session.mf.cyc (s.session.mf.mfPos.toNat - q)) >>= fun _ => pure pairs) s := by
  rw [walkBelow, act_bind, act_get]
  simp only [if_true]

/-- The walk goes on below the candidate: past its right child if its byte is less, else past its left child. -/
theorem walkBelow_differs {lim low count q ptr0 ptr1 len0 len1 len maxLen : Nat} {report : Bool} {pairs : List MatchPair}
    {s : State} (h : len ≠ lim) :
    walkBelow lim low report count q ptr0 ptr1 len0 len1 len maxLen pairs s =
      (storedByte q len >>= fun x => inByte (s.session.mf.mfAbs + len) >>= fun y =>
        if x.toNat < y.toNat then
          writeSon ptr1 q >>= fun _ => readSon (2 * s.session.mf.cyc (s.session.mf.mfPos.toNat - q) + 1) >>= fun next =>
            treeWalk lim low report count next ptr0 (2 * s.session.mf.cyc (s.session.mf.mfPos.toNat - q) + 1) len0 len
              maxLen pairs
        else
          writeSon ptr0 q >>= fun _ => readSon (2 * s.session.mf.cyc (s.session.mf.mfPos.toNat - q)) >>= fun next =>
            treeWalk lim low report count next (2 * s.session.mf.cyc (s.session.mf.mfPos.toNat - q)) ptr1 len len1
              maxLen pairs) s := by
  rw [walkBelow, act_bind, act_get]
  simp only [if_neg h]

/-- A reporting walk that answers makes the writes of a walk without report, and the lengths it adds to the report are above
`maxLen` and up to `lim`. -/
theorem treeWalk_report {lim low count q ptr0 ptr1 len0 len1 maxLen : Nat} {pairs ps : List MatchPair} {s t : State}
    (hm : maxLen < lim) (h0 : len0 < lim) (h1 : len1 < lim) (hmax : lim ≤ s.session.mf.matchMaxLen)
    (h : treeWalk lim low true count q ptr0 ptr1 len0 len1 maxLen pairs s = .ok ps t) :
    (∀ m, treeWalk lim low false count q ptr0 ptr1 len0 len1 m [] s = .ok [] t) ∧
      ∀ p ∈ ps, p ∈ pairs ∨ maxLen < p.len ∧ p.len ≤ lim := by
  induction count generalizing q ptr0 ptr1 len0 len1 maxLen pairs s with
  | zero =>
    rw [treeWalk_end (.inl rfl)] at h
    obtain ⟨_, u, hclose, hps⟩ := act_bind_ok h
    obtain ⟨rfl, rfl⟩ := pure_ok.mp hps
    exact ⟨fun m => by rw [treeWalk_end (.inl rfl), act_bind_of_ok hclose]; rfl, fun p hp => .inl hp⟩
  | succ count ih =>
    by_cases hq : q ≤ low
    · rw [treeWalk_end (.inr hq)] at h
      obtain ⟨_, u, hclose, hps⟩ := act_bind_ok h
      obtain ⟨rfl, rfl⟩ := pure_ok.mp hps
      exact ⟨fun m => by rw [treeWalk_end (.inr hq), act_bind_of_ok hclose]; rfl, fun p hp => .inl hp⟩
    · rw [Nat.not_le] at hq
      have hstart : min len0 len1 < lim := by omega
      obtain ⟨x, y, hx, hy⟩ := treeWalk_bytes hq h
      have hlen := (agreement_bounds s (q := q) hstart.le).2
      rw [treeWalk_live hq hstart (fun _ => hm) hmax hx hy] at h
      simp only [treeWalk_live_silent hq hstart hmax hx hy]
      generalize s.agreement lim q (min len0 len1) = len at *
      have below {m : Nat} {pairs : List MatchPair} (hm : len < lim → m < lim)
          (h : walkBelow lim low true count q ptr0 ptr1 len0 len1 len m pairs s = .ok ps t) :
          (∀ m, walkBelow lim low false count q ptr0 ptr1 len0 len1 len m [] s = .ok [] t) ∧
            ∀ p ∈ ps, p ∈ pairs ∨ m < p.len ∧ p.len ≤ lim := by
        rcases Nat.eq_or_lt_of_le hlen with rfl | hlt
        · rw [walkBelow_full] at h
          obtain ⟨_, u, hgraft, hps⟩ := act_bind_ok h
          obtain ⟨rfl, rfl⟩ := pure_ok.mp hps
          exact ⟨fun m => by rw [walkBelow_full, act_bind_of_ok hgraft]; rfl, fun p hp => .inl hp⟩
        · rw [walkBelow_differs hlt.ne] at h
          simp only [walkBelow_differs hlt.ne]
          obtain ⟨a, u, ha, h⟩ := act_bind_ok h
          obtain ⟨b, v, hb, h⟩ := act_bind_ok h
          obtain ⟨-, rfl⟩ := storedByte_ok.mp ha
          obtain ⟨-, rfl⟩ := inByte_ok.mp hb
          simp only [act_bind_of_ok ha, act_bind_of_ok hb]
          split at h
          · next hab =>
            obtain ⟨_, u, hw, h⟩ := act_bind_ok h
            obtain ⟨next, v, hr, h⟩ := act_bind_ok h
            obtain ⟨-, rfl⟩ := writeSon_ok.mp hw
            obtain ⟨-, -, rfl⟩ := readSon_ok.mp hr
            simp only [if_pos hab, act_bind_of_ok hw, act_bind_of_ok hr]
            exact ih (hm hlt) h0 hlt hmax h
          · next hab =>
            obtain ⟨_, u, hw, h⟩ := act_bind_ok h
            obtain ⟨next, v, hr, h⟩ := act_bind_ok h
            obtain ⟨-, rfl⟩ := writeSon_ok.mp hw
            obtain ⟨-, -, rfl⟩ := readSon_ok.mp hr
            simp only [if_neg hab, act_bind_of_ok hw, act_bind_of_ok hr]
            exact ih (hm hlt) hlt h1 hmax h
      split at h
      · next hmore =>
        simp only [improves, Bool.and_eq_true, decide_eq_true_eq] at hmore
        obtain ⟨hsilent, hadded⟩ := below id h
        refine ⟨hsilent, fun p hp => ?_⟩
        rcases hadded p hp with hmem | hnew
        · rcases List.mem_append.mp hmem with hold | hlast
          · exact .inl hold
          · rw [List.mem_singleton.mp hlast]
            exact .inr ⟨hmore.2, hlen⟩
        · exact .inr ⟨hmore.2.trans hnew.1, hnew.2⟩
      · exact below (fun _ => hm) h

end Sys2Proof.Machine
end

section
/-!
PROOFS. GetMatches and Skip as the heads, the walk and the move (`42_match_finder.md` R240, R241).
-/

namespace Sys2Proof.Machine

/-! ### What a search may change -/

/-- A search changes the positions and the memories of the match finder, and keeps the memories' canonical form. -/
def searchFrame (s t : State) : Prop :=
  t = s.withMf { s.session.mf with
    mfPos := t.session.mf.mfPos, mfBase := t.session.mf.mfBase, cyclicPos := t.session.mf.cyclicPos
    son := t.session.mf.son, hash := t.session.mf.hash } ∧
  (s.session.wf = true → t.session.wf = true)

theorem searchFrame_preorder : Act.Preorder searchFrame where
  refl _ := ⟨rfl, id⟩
  trans s t u := by
    intro ⟨h1, hwf1⟩ ⟨h2, hwf2⟩
    refine ⟨?_, hwf2 ∘ hwf1⟩
    generalize t.session.mf.mfPos = a, t.session.mf.mfBase = b, t.session.mf.cyclicPos = c, t.session.mf.son = e,
      t.session.mf.hash = g at h1
    subst h1
    exact h2

theorem searchFrame_constants {s t : State} (h : searchFrame s t) (hs : constantsOk s.session) : constantsOk t.session := by
  obtain ⟨ht, -⟩ := h
  generalize t.session.mf.mfPos = a, t.session.mf.mfBase = b, t.session.mf.cyclicPos = c, t.session.mf.son = e,
    t.session.mf.hash = g at ht
  subst ht
  exact hs

theorem writeSon_searchFrame (i v : Nat) : Act.Within searchFrame (writeSon i v) :=
  Act.Within.bind searchFrame_preorder (Act.Within.get searchFrame_preorder) fun _ => Act.Within.ite
    (fun s => ⟨rfl, fun h => by
      obtain ⟨hrest, hson, hhash⟩ := (Session.wf_iff _).mp h
      exact (Session.wf_iff _).mpr ⟨hrest, memory_write_wf hson, hhash⟩⟩)
    (Act.Within.raise searchFrame_preorder _ _)

theorem writeHash_searchFrame (i v : Nat) : Act.Within searchFrame (writeHash i v) :=
  Act.Within.bind searchFrame_preorder (Act.Within.get searchFrame_preorder) fun _ => Act.Within.ite
    (fun s => ⟨rfl, fun h => by
      obtain ⟨hrest, hson, hhash⟩ := (Session.wf_iff _).mp h
      exact (Session.wf_iff _).mpr ⟨hrest, hson, memory_write_wf hhash⟩⟩)
    (Act.Within.raise searchFrame_preorder _ _)

theorem movePos_searchFrame : Act.Within searchFrame movePos := by
  have normalizes : Act.Within searchFrame normalize := fun s => ⟨rfl, fun h => by
    obtain ⟨hrest, hson, hhash⟩ := (Session.wf_iff _).mp h
    exact (Session.wf_iff _).mpr ⟨hrest, memory_mapValues_wf hson, memory_mapValues_wf hhash⟩⟩
  exact Act.Within.bind searchFrame_preorder (fun _ => ⟨rfl, id⟩) fun _ =>
    Act.Within.bind searchFrame_preorder (Act.Within.get searchFrame_preorder) fun _ =>
      Act.Within.ite normalizes (Act.Within.pure searchFrame_preorder _)

/-- A step taken where `c` holds. -/
theorem Act.Within.when {α β : Type} {R : State → State → Prop} (hR : Act.Preorder R) {c : Prop} [Decidable c] {a : Act α}
    {x : α} {f : α → Act β} (ha : Act.Within R a) (hf : ∀ x, Act.Within R (f x)) :
    Act.Within R (if c then a >>= f else Pure.pure x >>= f) :=
  Act.Within.ite (Act.Within.bind hR ha hf) (Act.Within.bind hR (Act.Within.pure hR x) hf)

theorem closeWalk_searchFrame (i j : Nat) : Act.Within searchFrame (closeWalk i j) :=
  Act.Within.bind searchFrame_preorder (writeSon_searchFrame _ _) fun _ => writeSon_searchFrame _ _

theorem graft_searchFrame (i j c : Nat) : Act.Within searchFrame (graft i j c) := by
  have hR := searchFrame_preorder
  exact Act.Within.bind hR (readSon_within hR _) fun _ => Act.Within.bind hR (writeSon_searchFrame _ _) fun _ =>
    Act.Within.bind hR (readSon_within hR _) fun _ => writeSon_searchFrame _ _

theorem treeWalk_searchFrame (lim low : Nat) (report : Bool) (count q i j len0 len1 maxLen : Nat) (ps : List MatchPair) :
    Act.Within searchFrame (treeWalk lim low report count q i j len0 len1 maxLen ps) := by
  have hR := searchFrame_preorder
  have next (i v c : Nat) {f : Nat → Act (List MatchPair)} (hf : ∀ q, Act.Within searchFrame (f q)) :
      Act.Within searchFrame (writeSon i v >>= fun _ => readSon c >>= f) :=
    Act.Within.bind hR (writeSon_searchFrame _ _) fun _ => Act.Within.bind hR (readSon_within hR _) hf
  induction count generalizing q i j len0 len1 maxLen ps with
  | zero => exact Act.Within.bind hR (closeWalk_searchFrame _ _) fun _ => Act.Within.pure hR _
  | succ count ih =>
    unfold treeWalk
    refine Act.Within.ite (Act.Within.bind hR (closeWalk_searchFrame _ _) fun _ => Act.Within.pure hR _) ?_
    refine Act.Within.bind hR (Act.Within.get hR) fun s => Act.Within.bind hR (storedByte_within hR _ _) fun x => ?_
    refine Act.Within.bind hR (inByte_within hR _) fun y => Act.Within.when hR (extendMatch_within hR _ _ _) fun len => ?_
    refine Act.Within.when hR (reportPair_within hR _ _ _) fun ps => Act.Within.ite ?_ ?_
    · exact Act.Within.bind hR (graft_searchFrame _ _ _) fun _ => Act.Within.pure hR _
    · refine Act.Within.bind hR (storedByte_within hR _ _) fun x => Act.Within.bind hR (inByte_within hR _) fun y => ?_
      exact Act.Within.ite (next _ _ _ fun _ => ih _ _ _ _ _ _ _) (next _ _ _ fun _ => ih _ _ _ _ _ _ _)

theorem walkFrom_searchFrame (lim : Nat) (report : Bool) (q m : Nat) (ps : List MatchPair) :
    Act.Within searchFrame (walkFrom lim report q m ps) :=
  Act.Within.bind searchFrame_preorder (Act.Within.get searchFrame_preorder) fun _ =>
    treeWalk_searchFrame _ _ _ _ _ _ _ _ _ _ _

/-! ### The length limit -/

/-- A position is searched where `minMatchCheck` bytes are left, up to the end of `In` (R236). -/
theorem lengthLimit_eq {s : State} (hone : 1 ≤ s.session.mf.minMatchCheck)
    (hmax : s.session.mf.minMatchCheck ≤ s.session.mf.matchMaxLen) : lengthLimit s =
      if s.session.mf.mfAbs + s.session.mf.minMatchCheck ≤ s.inp.length then
        some (min s.session.mf.matchMaxLen (s.inp.length - s.session.mf.mfAbs)) else none := by
  unfold lengthLimit
  dsimp only
  split
  · rw [if_pos (by omega), Nat.min_eq_left (by omega)]
  · split
    · rw [if_neg (by omega)]
    · rw [if_pos (by omega), Nat.min_eq_right (by omega)]

theorem lengthLimit_some {s : State} {lim : Nat} (hc : constantsOk s.session) (h : lengthLimit s = some lim) :
    lim = min s.session.mf.matchMaxLen (s.inp.length - s.session.mf.mfAbs) ∧ s.session.mf.minMatchCheck ≤ lim ∧
      s.session.mf.mfAbs + lim ≤ s.inp.length := by
  obtain ⟨-, -, hmax, hlow, -, hkind⟩ := hc
  rw [lengthLimit_eq (by omega) (by omega)] at h
  split at h
  · cases h
    omega
  · cases h

/-! ### The heads -/

theorem currentHeads_ok {s t : State} {h : Nat × Nat × Nat} : currentHeads s = .ok h t ↔
    ∃ b0 b1 b2 b3, s.inp[s.session.mf.mfAbs]? = some b0 ∧ s.inp[s.session.mf.mfAbs + 1]? = some b1 ∧
      s.inp[s.session.mf.mfAbs + 2]? = some b2 ∧ s.inp[s.session.mf.mfAbs + 3]? = some b3 ∧
      h = bt4Heads s.session.mf.hashMask b0 b1 b2 b3 ∧ t = s := by
  constructor
  · intro hrun
    obtain ⟨_, _, hget, hrun⟩ := act_bind_ok hrun
    cases hget
    obtain ⟨b0, t0, h0, hrun0⟩ := act_bind_ok hrun
    obtain ⟨h0, rfl⟩ := inByte_ok.mp h0
    obtain ⟨b1, t1, h1, hrun1⟩ := act_bind_ok hrun0
    obtain ⟨h1, rfl⟩ := inByte_ok.mp h1
    obtain ⟨b2, t2, h2, hrun2⟩ := act_bind_ok hrun1
    obtain ⟨h2, rfl⟩ := inByte_ok.mp h2
    obtain ⟨b3, t3, h3, hrun3⟩ := act_bind_ok hrun2
    obtain ⟨h3, rfl⟩ := inByte_ok.mp h3
    exact ⟨b0, b1, b2, b3, h0, h1, h2, h3, pure_ok.mp hrun3⟩
  · rintro ⟨b0, b1, b2, b3, h0, h1, h2, h3, rfl, rfl⟩
    rw [currentHeads, get_bind_ok, act_bind_of_ok (inByte_ok.mpr ⟨h0, rfl⟩), act_bind_of_ok (inByte_ok.mpr ⟨h1, rfl⟩),
      act_bind_of_ok (inByte_ok.mpr ⟨h2, rfl⟩), act_bind_of_ok (inByte_ok.mpr ⟨h3, rfl⟩)]
    rfl

theorem currentHead2_ok {s t : State} {h : Nat} : currentHead2 s = .ok h t ↔
    ∃ b0 b1, s.inp[s.session.mf.mfAbs]? = some b0 ∧ s.inp[s.session.mf.mfAbs + 1]? = some b1 ∧
      h = bt2Head b0 b1 ∧ t = s := by
  constructor
  · intro hrun
    obtain ⟨_, _, hget, hrun⟩ := act_bind_ok hrun
    cases hget
    obtain ⟨b0, t0, h0, hrun0⟩ := act_bind_ok hrun
    obtain ⟨h0, rfl⟩ := inByte_ok.mp h0
    obtain ⟨b1, t1, h1, hrun1⟩ := act_bind_ok hrun0
    obtain ⟨h1, rfl⟩ := inByte_ok.mp h1
    exact ⟨b0, b1, h0, h1, pure_ok.mp hrun1⟩
  · rintro ⟨b0, b1, h0, h1, rfl, rfl⟩
    rw [currentHead2, get_bind_ok, act_bind_of_ok (inByte_ok.mpr ⟨h0, rfl⟩), act_bind_of_ok (inByte_ok.mpr ⟨h1, rfl⟩)]
    rfl

/-! ### The short candidates -/

/-- The stored position `q` is live and its first byte is the current one (R238). -/
def State.liveAt (s : State) (q : Nat) : Bool :=
  decide (s.session.mf.matchMinPos < q ∧ s.inp[q - 1 + s.session.mf.mfBase]? = s.inp[s.session.mf.mfAbs]?)

theorem liveShort_of_ok {q : Nat} {s t : State} {b : Bool} (h : liveShort q s = .ok b t) : b = s.liveAt q ∧ t = s := by
  rw [liveShort, get_bind_ok, act_ite] at h
  unfold State.liveAt
  split at h
  · next hq =>
    obtain ⟨x, t0, hx, h0⟩ := act_bind_ok h
    obtain ⟨hx, rfl⟩ := storedByte_ok.mp hx
    obtain ⟨y, t1, hy, h1⟩ := act_bind_ok h0
    obtain ⟨hy, rfl⟩ := inByte_ok.mp hy
    obtain ⟨rfl, rfl⟩ := pure_ok.mp h1
    rw [Nat.add_zero] at hx
    rw [hx, hy]
    simp [hq.lt]
  · next hq =>
    obtain ⟨rfl, rfl⟩ := pure_ok.mp h
    simp [Nat.not_lt.mp hq]

theorem liveShort_eq {q : Nat} {s : State} (hcur : s.session.mf.mfAbs < s.inp.length)
    (hq : s.session.mf.matchMinPos < q → q - 1 + s.session.mf.mfBase < s.inp.length) :
    liveShort q s = .ok (s.liveAt q) s := by
  have hb : ∃ b t, liveShort q s = .ok b t := by
    rw [liveShort, act_bind, act_get]
    dsimp only
    rw [act_ite]
    split
    · next hlive =>
      rw [act_bind_of_ok (storedByte_ok.mpr ⟨List.getElem?_eq_getElem (hq hlive), rfl⟩),
        act_bind_of_ok (inByte_ok.mpr ⟨List.getElem?_eq_getElem hcur, rfl⟩)]
      exact ⟨_, _, rfl⟩
    · exact ⟨_, _, rfl⟩
  obtain ⟨b, t, hb⟩ := hb
  obtain ⟨rfl, rfl⟩ := liveShort_of_ok hb
  exact hb

/-- The short candidates of R238 before the one that the walk will report is dropped: the last one reported, `maxLen` and
the report. -/
def shortPairs (pos cm2 cm3 : Nat) : Act (Nat × Nat × List MatchPair) := do
  let live2 ← liveShort cm2
  let pairs ← if live2 then reportPair [] 2 (pos - cm2 - 1) else pure []
  let live3 ← liveShort cm3
  let pairs ←
    if live3 then reportPair (if cm3 = cm2 then pairs.dropLast else pairs) 3 (pos - cm3 - 1) else pure pairs
  pure (if live3 then cm3 else cm2, if live3 then 3 else if live2 then 2 else 1, pairs)

/-- The last drop of R238: what the walk from `cur` will report is dropped from the short candidates `r`. -/
def dropWalked (cur : Nat) (r : Nat × Nat × List MatchPair) : Nat × Nat × List MatchPair :=
  if !r.2.2.isEmpty && r.1 = cur then (cur, 1, r.2.2.dropLast) else (cur, r.2.1, r.2.2)

/-- The short candidates where the 2-byte and the 3-byte head are live with the current first byte, or not. -/
def shortReport (pos cm2 cm3 : Nat) (live2 live3 : Bool) : Nat × Nat × List MatchPair :=
  (if live3 then cm3 else cm2, if live3 then 3 else if live2 then 2 else 1,
    (if live2 && !(live3 && decide (cm3 = cm2)) then [{ len := 2, dist := u32 (pos - cm2 - 1) }] else []) ++
      if live3 then [{ len := 3, dist := u32 (pos - cm3 - 1) }] else [])

theorem shortPairs_eq {pos cm2 cm3 : Nat} {live2 live3 : Bool} {s : State} (hmax : 3 ≤ s.session.mf.matchMaxLen)
    (h2 : liveShort cm2 s = .ok live2 s) (h3 : liveShort cm3 s = .ok live3 s) :
    shortPairs pos cm2 cm3 s = .ok (shortReport pos cm2 cm3 live2 live3) s := by
  have report (pairs : List MatchPair) (len dist : Nat) (h : len ≤ 3) :
      reportPair pairs len dist s = .ok (pairs ++ [{ len := len, dist := u32 dist }]) s :=
    reportPair_ok.mpr ⟨h.trans hmax, rfl, rfl⟩
  unfold shortPairs shortReport
  rw [act_bind_of_ok h2]
  cases live2 <;> cases live3 <;> simp only [Bool.false_eq_true, if_false, if_true, pure_bind]
  · rw [act_bind_of_ok h3]
    rfl
  · rw [act_bind_of_ok h3]
    simp only [if_true]
    rw [act_bind_of_ok (report _ 3 _ le_rfl)]
    simp
  · rw [act_bind_of_ok (report _ 2 _ (by decide)), act_bind_of_ok h3]
    rfl
  · rw [act_bind_of_ok (report _ 2 _ (by decide)), act_bind_of_ok h3]
    simp only [if_true]
    rw [act_bind_of_ok (report _ 3 _ le_rfl)]
    by_cases heq : cm3 = cm2 <;> simp [heq]

theorem shortPairs_of_ok {pos cm2 cm3 : Nat} {s t : State} {r : Nat × Nat × List MatchPair}
    (hmax : 3 ≤ s.session.mf.matchMaxLen) (h : shortPairs pos cm2 cm3 s = .ok r t) :
    ∃ live2 live3, r = shortReport pos cm2 cm3 live2 live3 ∧ t = s := by
  have live : ∃ live2 live3, liveShort cm2 s = .ok live2 s ∧ liveShort cm3 s = .ok live3 s := by
    obtain ⟨live2, t0, h2, h0⟩ := act_bind_ok h
    obtain ⟨-, rfl⟩ := liveShort_of_ok h2
    dsimp only at h0
    split at h0
    · obtain ⟨_, t1, hps, h1⟩ := act_bind_ok h0
      obtain ⟨-, -, rfl⟩ := reportPair_ok.mp hps
      obtain ⟨live3, t2, h3, -⟩ := act_bind_ok h1
      obtain ⟨-, rfl⟩ := liveShort_of_ok h3
      exact ⟨live2, live3, h2, h3⟩
    · rw [pure_bind] at h0
      obtain ⟨live3, t2, h3, -⟩ := act_bind_ok h0
      obtain ⟨-, rfl⟩ := liveShort_of_ok h3
      exact ⟨live2, live3, h2, h3⟩
  obtain ⟨live2, live3, h2, h3⟩ := live
  rw [shortPairs_eq hmax h2 h3] at h
  cases h
  exact ⟨live2, live3, rfl, rfl⟩

theorem bt4Short_eq : bt4Short = (currentHeads >>= fun h => get >>= fun s =>
    readHash h.2.2 >>= fun cur => readHash h.1 >>= fun cm2 => readHash h.2.1 >>= fun cm3 =>
      writeHash h.1 s.session.mf.mfPos.toNat >>= fun _ => writeHash h.2.1 s.session.mf.mfPos.toNat >>= fun _ =>
        shortPairs s.session.mf.mfPos.toNat cm2 cm3 >>= fun r =>
          writeHash h.2.2 s.session.mf.mfPos.toNat >>= fun _ => pure (dropWalked cur r)) := by
  unfold bt4Short shortPairs dropWalked
  have pure_ite (c : Prop) [Decidable c] (x y : Nat × Nat × List MatchPair) :
      (pure (if c then x else y) : Act _) = if c then pure x else pure y := apply_ite _ _ _ _
  simp only [bind_assoc, pure_bind, pure_ite]
  refine bind_congr fun h => bind_congr fun s => bind_congr fun cur => bind_congr fun cm2 => bind_congr fun cm3 =>
    bind_congr fun _ => bind_congr fun _ => bind_congr fun live2 => ?_
  cases live2
  · simp only [Bool.false_eq_true, if_false, bind_assoc]
    refine bind_congr fun live3 => ?_
    cases live3 <;> simp only [Bool.false_eq_true, if_false, if_true, bind_assoc, pure_bind]
  · simp only [if_true, bind_assoc]
    refine bind_congr fun pairs => bind_congr fun live3 => ?_
    cases live3 <;> simp only [Bool.false_eq_true, if_false, if_true, bind_assoc, pure_bind]

/-- A report before the walk: every length is from 2 to below `k`, and so is `maxLen` or it is 1. -/
def ShortReport (k : Nat) (r : Nat × Nat × List MatchPair) : Prop :=
  1 ≤ r.2.1 ∧ r.2.1 < k ∧ ∀ p ∈ r.2.2, 2 ≤ p.len ∧ p.len < k

theorem shortReport_short (pos cm2 cm3 : Nat) (live2 live3 : Bool) :
    ShortReport 4 (shortReport pos cm2 cm3 live2 live3) := by
  refine ⟨?_, ?_, fun p hp => ?_⟩
  · cases live2 <;> cases live3 <;> simp [shortReport]
  · cases live2 <;> cases live3 <;> simp [shortReport]
  · have hlen : p.len = 2 ∨ p.len = 3 := by
      rcases List.mem_append.mp hp with h2 | h3
      · exact .inl (by rw [List.mem_singleton.mp (List.mem_ite_nil_right.mp h2).2])
      · exact .inr (by rw [List.mem_singleton.mp (List.mem_ite_nil_right.mp h3).2])
    omega

theorem dropWalked_short {k cur : Nat} {r : Nat × Nat × List MatchPair} (h : ShortReport k r) :
    ShortReport k (dropWalked cur r) := by
  obtain ⟨hlow, hhigh, hp⟩ := h
  unfold dropWalked
  split
  · exact ⟨le_rfl, hlow.trans_lt hhigh, fun p hmem => hp p (List.mem_of_mem_dropLast hmem)⟩
  · exact ⟨hlow, hhigh, hp⟩

/-- `s` with the current position in the three head cells `h`. -/
def State.putHeads (s : State) (h : Nat × Nat × Nat) : State :=
  ((s.putHash h.1 s.session.mf.mfPos.toNat).putHash h.2.1 s.session.mf.mfPos.toNat).putHash h.2.2
    s.session.mf.mfPos.toNat

/-- A search under BT4 that answers has put its position in its three head cells. -/
theorem bt4Short_of_ok {s t : State} {r : Nat × Nat × List MatchPair} (hmax : 3 ≤ s.session.mf.matchMaxLen)
    (h : bt4Short s = .ok r t) : ∃ heads, currentHeads s = .ok heads s ∧
      heads.1 ≤ s.session.mf.fixHashSize + s.session.mf.hashMask ∧
      heads.2.1 ≤ s.session.mf.fixHashSize + s.session.mf.hashMask ∧
      heads.2.2 ≤ s.session.mf.fixHashSize + s.session.mf.hashMask ∧
      r.1 = (s.session.mf.hash.read 0 heads.2.2).toNat ∧ ShortReport 4 r ∧ t = s.putHeads heads := by
  rw [bt4Short_eq] at h
  obtain ⟨heads, t0, hh, h0⟩ := act_bind_ok h
  obtain ⟨_, _, _, _, _, _, _, _, _, rfl⟩ := currentHeads_ok.mp hh
  rw [get_bind_ok] at h0
  obtain ⟨cur, t1, hcur, h1⟩ := act_bind_ok h0
  obtain ⟨hi, rfl, rfl⟩ := readHash_ok.mp hcur
  obtain ⟨cm2, t2, hcm2, h2⟩ := act_bind_ok h1
  obtain ⟨hi2, -, rfl⟩ := readHash_ok.mp hcm2
  obtain ⟨cm3, t3, hcm3, h3⟩ := act_bind_ok h2
  obtain ⟨hi3, -, rfl⟩ := readHash_ok.mp hcm3
  obtain ⟨_, t4, hw2, h4⟩ := act_bind_ok h3
  obtain ⟨-, rfl⟩ := writeHash_ok.mp hw2
  obtain ⟨_, t5, hw3, h5⟩ := act_bind_ok h4
  obtain ⟨-, rfl⟩ := writeHash_ok.mp hw3
  obtain ⟨short, t6, hshort, h6⟩ := act_bind_ok h5
  obtain ⟨live2, live3, rfl, rfl⟩ := shortPairs_of_ok (s := (t3.putHash _ _).putHash _ _) hmax hshort
  obtain ⟨_, t7, hw, h7⟩ := act_bind_ok h6
  obtain ⟨-, rfl⟩ := writeHash_ok.mp hw
  obtain ⟨rfl, rfl⟩ := pure_ok.mp h7
  refine ⟨heads, hh, hi2, hi3, hi, ?_, dropWalked_short (shortReport_short _ _ _ _ _), rfl⟩
  unfold dropWalked
  split <;> rfl

theorem bt4Short_run {s : State} {heads : Nat × Nat × Nat} (hmax : 3 ≤ s.session.mf.matchMaxLen)
    (hh : currentHeads s = .ok heads s) (hi2 : heads.1 ≤ s.session.mf.fixHashSize + s.session.mf.hashMask)
    (hi3 : heads.2.1 ≤ s.session.mf.fixHashSize + s.session.mf.hashMask)
    (hi : heads.2.2 ≤ s.session.mf.fixHashSize + s.session.mf.hashMask)
    (hcur : s.session.mf.mfAbs < s.inp.length)
    (hlive : ∀ i, s.session.mf.matchMinPos < (s.session.mf.hash.read 0 i).toNat →
      (s.session.mf.hash.read 0 i).toNat - 1 + s.session.mf.mfBase < s.inp.length) :
    bt4Short s = .ok (dropWalked (s.session.mf.hash.read 0 heads.2.2).toNat
      (shortReport s.session.mf.mfPos.toNat (s.session.mf.hash.read 0 heads.1).toNat
        (s.session.mf.hash.read 0 heads.2.1).toNat (s.liveAt (s.session.mf.hash.read 0 heads.1).toNat)
        (s.liveAt (s.session.mf.hash.read 0 heads.2.1).toNat))) (s.putHeads heads) := by
  set pos := s.session.mf.mfPos.toNat with hpos
  set u := (s.putHash heads.1 pos).putHash heads.2.1 pos
  have live (i : Nat) : liveShort (s.session.mf.hash.read 0 i).toNat u =
      .ok (s.liveAt (s.session.mf.hash.read 0 i).toNat) u := liveShort_eq (s := u) hcur (hlive i)
  rw [bt4Short_eq, act_bind_of_ok hh, act_bind, act_get]
  dsimp only
  rw [act_bind_of_ok (readHash_run hi), act_bind_of_ok (readHash_run hi2), act_bind_of_ok (readHash_run hi3), ← hpos,
    act_bind_of_ok (writeHash_run pos hi2), act_bind_of_ok (writeHash_run (s := s.putHash heads.1 pos) pos hi3),
    act_bind_of_ok (shortPairs_eq (s := u) hmax (live _) (live _)), act_bind_of_ok (writeHash_run (s := u) pos hi)]
  rfl

/-- A search under BT2 that answers has put its position in its head cell. -/
theorem bt2Direct_of_ok {s t : State} {r : Nat × Nat × List MatchPair} (h : bt2Direct s = .ok r t) :
    ∃ head, currentHead2 s = .ok head s ∧ head ≤ s.session.mf.fixHashSize + s.session.mf.hashMask ∧
      r.1 = (s.session.mf.hash.read 0 head).toNat ∧ ShortReport 3 r ∧ t = s.putHash head s.session.mf.mfPos.toNat := by
  have short (cur : Nat) : ShortReport 3 (cur, 1, []) := ⟨le_rfl, by norm_num, by simp⟩
  obtain ⟨head, t0, hh, h0⟩ := act_bind_ok h
  obtain ⟨_, _, _, _, _, rfl⟩ := currentHead2_ok.mp hh
  rw [get_bind_ok] at h0
  obtain ⟨cur, t1, hcur, h1⟩ := act_bind_ok h0
  obtain ⟨hi, rfl, rfl⟩ := readHash_ok.mp hcur
  obtain ⟨_, t2, hw, h2⟩ := act_bind_ok h1
  obtain ⟨-, rfl⟩ := writeHash_ok.mp hw
  split at h2
  · obtain ⟨x, t3, hx, h3⟩ := act_bind_ok h2
    obtain ⟨-, rfl⟩ := storedByte_ok.mp hx
    obtain ⟨y, t4, hy, h4⟩ := act_bind_ok h3
    obtain ⟨-, rfl⟩ := inByte_ok.mp hy
    split at h4
    · obtain ⟨rfl, rfl⟩ := pure_ok.mp h4
      exact ⟨head, hh, hi, rfl, short _, rfl⟩
    · obtain ⟨ps, t5, hps, h5⟩ := act_bind_ok h4
      obtain ⟨-, rfl, rfl⟩ := reportPair_ok.mp hps
      obtain ⟨rfl, rfl⟩ := pure_ok.mp h5
      exact ⟨head, hh, hi, rfl, ⟨by norm_num, by norm_num, by simp⟩, rfl⟩
  · obtain ⟨rfl, rfl⟩ := pure_ok.mp h2
    exact ⟨head, hh, hi, rfl, short _, rfl⟩

end Sys2Proof.Machine
end

section
/-!
PROOFS. The lengths GetMatches reports, and Skip as GetMatches whose results are discarded (`42_match_finder.md` R241, R250).
-/

namespace Sys2Proof.Machine

/-- What a search starts its walk with: the tree's first candidate, `maxLen` and the report (R238, R239). -/
def searchStart : MfKind → Act (Nat × Nat × List MatchPair)
  | .bt4 => bt4Short
  | .bt2 => bt2Direct

theorem getMatches_unsearched {s : State} (h : lengthLimit s = none) :
    getMatches s = (movePos >>= fun _ => pure []) s := by
  rw [getMatches, act_bind, act_get]
  dsimp only
  rw [h]

theorem getMatches_searched {s : State} {lim : Nat} (h : lengthLimit s = some lim) : getMatches s =
    (searchStart s.session.enc.mfKind >>= fun r => walkFrom lim true r.1 r.2.1 r.2.2 >>= fun pairs =>
      movePos >>= fun _ => pure pairs) s := by
  rw [getMatches, act_bind, act_get]
  dsimp only
  rw [h]
  cases s.session.enc.mfKind <;> rfl

theorem skipOne_unsearched {s : State} (h : lengthLimit s = none) : skipOne s = movePos s := by
  rw [skipOne, act_bind, act_get]
  dsimp only
  rw [h]

theorem skipOne_searched {s : State} {lim : Nat} (h : lengthLimit s = some lim) : skipOne s =
    (skipHeads >>= fun cur => walkFrom lim false cur 1 [] >>= fun _ => movePos) s := by
  rw [skipOne, act_bind, act_get]
  dsimp only
  rw [h]

/-! ### Before the walk -/

theorem putHash_searchFrame {s : State} {i : Nat} (v : Nat) (h : i ≤ s.session.mf.fixHashSize + s.session.mf.hashMask) :
    searchFrame s (s.putHash i v) := (writeHash_searchFrame i v).ok (writeHash_run v h)

/-- A skipped position puts itself in the same head cells: the main head is in none of the short heads' parts of `Hash`. -/
theorem skipHeads_of_bt4Short {s t : State} {r : Nat × Nat × List MatchPair} (hk : s.session.enc.mfKind = .bt4)
    (hmax : 3 ≤ s.session.mf.matchMaxLen) (hwf : s.session.mf.hash.wf 0 = true) (h : bt4Short s = .ok r t) :
    skipHeads s = .ok r.1 t := by
  obtain ⟨heads, hheads, hi2, hi3, hi, hr, -, rfl⟩ := bt4Short_of_ok hmax h
  obtain ⟨b0, b1, b2, b3, -, -, -, -, hdef, -⟩ := currentHeads_ok.mp hheads
  have h2 := bt4Heads_two_lt s.session.mf.hashMask b0 b1 b2 b3
  have h3 := (bt4Heads_three_bounds s.session.mf.hashMask b0 b1 b2 b3).2
  have hv := (bt4Heads_main_bounds s.session.mf.hashMask b0 b1 b2 b3).1
  rw [← hdef] at h2 h3 hv
  set pos := s.session.mf.mfPos.toNat with hpos
  have hread : ((s.putHash heads.1 pos).putHash heads.2.1 pos).session.mf.hash.read 0 heads.2.2 =
      s.session.mf.hash.read 0 heads.2.2 :=
    (memory_read_write_other (memory_write_wf hwf) (by omega)).trans (memory_read_write_other hwf (by omega))
  rw [skipHeads, act_bind, act_get]
  dsimp only
  rw [hk]
  dsimp only
  rw [← hpos, act_bind_of_ok hheads, act_bind_of_ok (writeHash_run pos hi2),
    act_bind_of_ok (writeHash_run (s := s.putHash heads.1 pos) pos hi3),
    act_bind_of_ok (readHash_run (s := (s.putHash heads.1 pos).putHash heads.2.1 pos) hi),
    act_bind_of_ok (writeHash_run (s := (s.putHash heads.1 pos).putHash heads.2.1 pos) pos hi), hread, ← hr]
  rfl

theorem skipHeads_of_bt2Direct {s t : State} {r : Nat × Nat × List MatchPair} (hk : s.session.enc.mfKind = .bt2)
    (h : bt2Direct s = .ok r t) : skipHeads s = .ok r.1 t := by
  obtain ⟨head, hhead, hi, hr, -, rfl⟩ := bt2Direct_of_ok h
  rw [skipHeads, act_bind, act_get]
  dsimp only
  rw [hk]
  dsimp only
  rw [act_bind_of_ok hhead, act_bind_of_ok (readHash_ok.mpr ⟨hi, hr, rfl⟩), act_bind_of_ok (writeHash_run _ hi)]
  rfl

/-- What a search that answers does before its walk. -/
theorem searchStart_of_ok {s t : State} {r : Nat × Nat × List MatchPair} (hc : constantsOk s.session)
    (h : searchStart s.session.enc.mfKind s = .ok r t) :
    ShortReport s.session.mf.minMatchCheck r ∧ searchFrame s t ∧
      (s.session.mf.hash.wf 0 = true → skipHeads s = .ok r.1 t) := by
  obtain ⟨-, -, hmax, hlow, -, ⟨hkind, hmin, -⟩ | ⟨hkind, hmin, -⟩⟩ := hc
  · have hmax3 : 3 ≤ s.session.mf.matchMaxLen := by omega
    rw [hkind] at h
    rw [hmin]
    obtain ⟨heads, -, hi2, hi3, hi, -, hshort, ht⟩ := bt4Short_of_ok hmax3 h
    refine ⟨hshort, ht ▸ ?_, fun hwf => skipHeads_of_bt4Short hkind hmax3 hwf h⟩
    exact searchFrame_preorder.trans _ _ _ (searchFrame_preorder.trans _ _ _ (putHash_searchFrame _ hi2)
      (putHash_searchFrame _ hi3)) (putHash_searchFrame _ hi)
  · rw [hkind] at h
    rw [hmin]
    obtain ⟨head, -, hi, -, hshort, ht⟩ := bt2Direct_of_ok h
    exact ⟨hshort, ht ▸ putHash_searchFrame _ hi, fun _ => skipHeads_of_bt2Direct hkind h⟩

/-! ### The whole search -/

/-- A search that answers: the lengths it reports are from 2 to `lim`, and a search without report makes the same writes. -/
theorem search_of_ok {s t : State} {lim : Nat} {pairs : List MatchPair} (hc : constantsOk s.session)
    (hlim : lengthLimit s = some lim) (h : getMatches s = .ok pairs t) :
    (∀ p ∈ pairs, 2 ≤ p.len ∧ p.len ≤ lim) ∧ (s.session.wf = true → skipOne s = .ok () t) ∧ searchFrame s t := by
  obtain ⟨hlimEq, hmin, -⟩ := lengthLimit_some hc hlim
  rw [getMatches_searched hlim] at h
  obtain ⟨r, u, hstart, h0⟩ := act_bind_ok h
  obtain ⟨ps, v, hwalk, h1⟩ := act_bind_ok h0
  obtain ⟨_, w, hmove, h2⟩ := act_bind_ok h1
  obtain ⟨rfl, rfl⟩ := pure_ok.mp h2
  obtain ⟨⟨hone, hbelow, hshort⟩, hframe, hskip⟩ := searchStart_of_ok hc hstart
  have hcbs : u.session.mf.matchMaxLen = s.session.mf.matchMaxLen := congrArg (·.session.mf.matchMaxLen) hframe.1
  have hnhd : u.session.mf.numHashDirectBytes = s.session.mf.numHashDirectBytes :=
    congrArg (·.session.mf.numHashDirectBytes) hframe.1
  have hdirect : s.session.mf.numHashDirectBytes < lim := by
    obtain ⟨-, -, -, -, -, hkind⟩ := hc
    omega
  have hframes := searchFrame_preorder.trans _ _ _ (searchFrame_preorder.trans _ _ _ hframe
    ((walkFrom_searchFrame _ _ _ _ _).ok hwalk)) (movePos_searchFrame.ok hmove)
  rw [walkFrom, get_bind_ok] at hwalk
  obtain ⟨hsilent, hlens⟩ := treeWalk_report (by omega) (by omega) (by omega) (by omega) hwalk
  refine ⟨fun p hp => ?_, fun hwf => ?_, hframes⟩
  · rcases hlens p hp with hmem | hnew
    · have := hshort p hmem
      omega
    · omega
  · obtain ⟨-, -, hhash⟩ := (Session.wf_iff _).mp hwf
    rw [skipOne_searched hlim, act_bind_of_ok (hskip hhash), walkFrom]
    rw [act_bind_of_ok (t := v) (x := []) (by rw [get_bind_ok]; exact hsilent 1)]
    exact hmove

/-- Settles O55: a position that is searched reports lengths up to its limit, which lies in `In`. -/
theorem reportedLengths : Obligations.ReportedLengths := by
  intro s t pairs hc h p hp
  cases hlim : lengthLimit s with
  | none =>
    rw [getMatches_unsearched hlim] at h
    obtain ⟨_, _, _, h0⟩ := act_bind_ok h
    rw [(pure_ok.mp h0).1] at hp
    cases hp
  | some lim =>
    obtain ⟨hlimEq, -, hend⟩ := lengthLimit_some hc hlim
    have := (search_of_ok hc hlim h).1 p hp
    omega

/-- One position. -/
theorem skipOne_of_getMatches {s t : State} {pairs : List MatchPair} (hc : constantsOk s.session)
    (hwf : s.session.wf = true) (h : getMatches s = .ok pairs t) : skipOne s = .ok () t ∧ searchFrame s t := by
  cases hlim : lengthLimit s with
  | none =>
    rw [getMatches_unsearched hlim] at h
    obtain ⟨_, _, hmove, h0⟩ := act_bind_ok h
    obtain ⟨-, rfl⟩ := pure_ok.mp h0
    exact ⟨(skipOne_unsearched hlim).trans hmove, movePos_searchFrame.ok hmove⟩
  | some lim =>
    obtain ⟨-, hskip, hframe⟩ := search_of_ok hc hlim h
    exact ⟨hskip hwf, hframe⟩

theorem skip_of_tabulate {n i : Nat} {s t : State} {reports : List (List MatchPair)} (hc : constantsOk s.session)
    (hwf : s.session.wf = true) (h : tabulate (fun _ => getMatches) i n s = .ok reports t) : skip n s = .ok () t := by
  induction n generalizing i s reports with
  | zero => rw [(pure_ok.mp h).2]; rfl
  | succ n ih =>
    obtain ⟨pairs, u, hone, h0⟩ := act_bind_ok h
    obtain ⟨rest, v, hrest, h1⟩ := act_bind_ok h0
    obtain ⟨-, rfl⟩ := pure_ok.mp h1
    obtain ⟨hskip, hframe⟩ := skipOne_of_getMatches hc hwf hone
    rw [skip, act_bind_of_ok hskip]
    exact ih (searchFrame_constants hframe hc) (hframe.2 hwf) hrest

/-- Settles O57, by induction on the positions: each is skipped as it is searched. -/
theorem skipIndexesLikeGetMatches : Obligations.SkipIndexesLikeGetMatches :=
  fun _ _ _ _ hc hwf h => skip_of_tabulate hc hwf h

end Sys2Proof.Machine
end

section
/-!
PROOFS. The order of the match finder's trees. The first `n` bytes from a position, read as one number, are its key: keys of
`n` bytes compare as the byte strings do, and keys of fewer bytes compare weakly alike.
-/

namespace Sys2Proof.Machine

/-- The first `n` bytes of `inp` from position `a`, as a number. -/
def key (inp : List Byte) (n a : Nat) : Nat := prefixValue (inp.drop a) n

section Key

variable {inp : List Byte} {m n a b : Nat}

@[simp] theorem key_zero : key inp 0 a = 0 := by rw [key, prefixValue, List.take_zero]; rfl

theorem key_succ {x : Byte} (h : inp[a + n]? = some x) : key inp (n + 1) a = key inp n a * 256 + x.toNat :=
  prefixValue_succ (by rwa [List.getElem?_drop])

theorem exists_byte {i : Nat} (h : i < inp.length) : ∃ x, inp[i]? = some x := ⟨_, List.getElem?_eq_getElem h⟩

/-- Keys of fewer bytes keep the order, weakly. -/
theorem key_le_of_le (hmn : m ≤ n) (ha : a + n ≤ inp.length) (hb : b + n ≤ inp.length)
    (h : key inp n a ≤ key inp n b) : key inp m a ≤ key inp m b := by
  induction n, hmn using Nat.le_induction with
  | base => exact h
  | succ n _ ih =>
    obtain ⟨x, hx⟩ := exists_byte (show a + n < inp.length by omega)
    obtain ⟨y, hy⟩ := exists_byte (show b + n < inp.length by omega)
    have := y.isLt
    rw [key_succ hx, key_succ hy] at h
    exact ih (by omega) (by omega) (by omega)

theorem key_eq_of_le (hmn : m ≤ n) (ha : a + n ≤ inp.length) (hb : b + n ≤ inp.length)
    (h : key inp n a = key inp n b) : key inp m a = key inp m b :=
  Nat.le_antisymm (key_le_of_le hmn ha hb h.le) (key_le_of_le hmn hb ha h.ge)

/-- Equal keys are keys of equal bytes. -/
theorem key_succ_eq_iff {x y : Byte} (hx : inp[a + n]? = some x) (hy : inp[b + n]? = some y) :
    key inp (n + 1) a = key inp (n + 1) b ↔ key inp n a = key inp n b ∧ x = y := by
  have hxlt := x.isLt
  have hylt := y.isLt
  rw [key_succ hx, key_succ hy, byte_eq_iff]
  omega

theorem getElem?_eq_of_key {j : Nat} (ha : a + n ≤ inp.length) (hb : b + n ≤ inp.length)
    (h : key inp n a = key inp n b) (hj : j < n) : inp[a + j]? = inp[b + j]? := by
  obtain ⟨x, hx⟩ := exists_byte (show a + j < inp.length by omega)
  obtain ⟨y, hy⟩ := exists_byte (show b + j < inp.length by omega)
  rw [hx, hy, ((key_succ_eq_iff hx hy).mp (key_eq_of_le hj ha hb h)).2]

/-- Keys grow equal with equal bytes. -/
theorem key_eq_of_bytes (hmn : m ≤ n) (ha : a + n ≤ inp.length) (hb : b + n ≤ inp.length)
    (h : key inp m a = key inp m b) (hbytes : ∀ j, m ≤ j → j < n → inp[a + j]? = inp[b + j]?) :
    key inp n a = key inp n b := by
  induction n, hmn using Nat.le_induction with
  | base => exact h
  | succ n hmn ih =>
    obtain ⟨x, hx⟩ := exists_byte (show a + n < inp.length by omega)
    have hy : inp[b + n]? = some x := by rw [← hbytes n hmn n.lt_succ_self, hx]
    exact (key_succ_eq_iff hx hy).mpr
      ⟨ih (by omega) (by omega) fun j hm hj => hbytes j hm (hj.trans n.lt_succ_self), rfl⟩

/-- The first byte that differs decides. -/
theorem key_lt_of_byte {x y : Byte} (hmn : m < n) (ha : a + n ≤ inp.length) (hb : b + n ≤ inp.length)
    (h : key inp m a = key inp m b) (hx : inp[a + m]? = some x) (hy : inp[b + m]? = some y) (hxy : x.toNat < y.toNat) :
    key inp n a < key inp n b := by
  by_contra hle
  have := key_le_of_le hmn hb ha (Nat.not_lt.mp hle)
  rw [key_succ hx, key_succ hy] at this
  omega

end Key

/-! ### Trees over slots (R243, R244) -/

/-- What the slots of `Son` lead to: the absolute position of a live child. -/
abbrev Links := Nat → Option Nat

/-- The cell of `Son` with the child of position `a`: the smaller one on side 0, the greater one on side 1 (R243). -/
def childSlot (cbs a side : Nat) : Nat := 2 * (a % cbs) + side

/-- The positions before `cur` that are live: the last `cbs − 1` (R237). -/
def Window (cbs cur a : Nat) : Prop := a < cur ∧ cur < a + cbs

/-- `b` is a child of the node `a`. -/
def Child (cbs : Nat) (node : Nat → Prop) (links : Links) (a b : Nat) : Prop :=
  node a ∧ ∃ side < 2, links (childSlot cbs a side) = some b

/-- `r` is in the tree of `a`. -/
def Reaches (cbs : Nat) (node : Nat → Prop) (links : Links) : Nat → Nat → Prop :=
  Relation.ReflTransGen (Child cbs node links)

/-- The trees over the positions `node` are ordered: children are older, the positions below the child on side 0 have keys at
most that of their parent, and those on side 1 at least that. -/
structure Ordered (cbs : Nat) (node : Nat → Prop) (key : Nat → Nat) (links : Links) : Prop where
  older : ∀ a, node a → ∀ side < 2, ∀ b, links (childSlot cbs a side) = some b → node b ∧ b < a
  less : ∀ a, node a → ∀ b r, links (childSlot cbs a 0) = some b → Reaches cbs node links b r → key r ≤ key a
  greater : ∀ a, node a → ∀ b r, links (childSlot cbs a 1) = some b → Reaches cbs node links b r → key a ≤ key r

theorem Reaches.mono {cbs : Nat} {node node' : Nat → Prop} {links links' : Links} (hnode : ∀ a, node' a → node a)
    (hlinks : ∀ i b, links' i = some b → links i = some b) {a r : Nat} (h : Reaches cbs node' links' a r) :
    Reaches cbs node links a r :=
  Relation.ReflTransGen.mono (fun _ _ ⟨hn, side, hs, hl⟩ => ⟨hnode _ hn, side, hs, hlinks _ _ hl⟩) _ _ h

section Ordered

variable {cbs : Nat} {node : Nat → Prop} {key : Nat → Nat} {links : Links}

/-- What a tree holds is of `node`, and no younger than its root. -/
theorem Ordered.reaches (h : Ordered cbs node key links) {a r : Nat} (ha : node a) (hr : Reaches cbs node links a r) :
    node r ∧ r ≤ a := by
  induction hr with
  | refl => exact ⟨ha, le_rfl⟩
  | tail _ hstep ih =>
    obtain ⟨hn, side, hs, hl⟩ := hstep
    obtain ⟨hb, hlt⟩ := h.older _ hn side hs _ hl
    exact ⟨hb, hlt.le.trans ih.2⟩

/-- Fewer positions and fewer links, under keys that keep the order weakly. -/
theorem Ordered.mono (h : Ordered cbs node key links) {node' : Nat → Prop} {key' : Nat → Nat} {links' : Links}
    (hnode : ∀ a, node' a → node a) (hlinks : ∀ i b, links' i = some b → links i = some b)
    (hclosed : ∀ a, node' a → ∀ i b, links' i = some b → b < a → node' b)
    (hkey : ∀ a b, node a → node b → key a ≤ key b → key' a ≤ key' b) : Ordered cbs node' key' links' where
  older a ha side hs b hb := by
    obtain ⟨-, hlt⟩ := h.older a (hnode a ha) side hs b (hlinks _ _ hb)
    exact ⟨hclosed a ha _ b hb hlt, hlt⟩
  less a ha b r hb hr := by
    have hnb := (h.older a (hnode a ha) 0 (by decide) b (hlinks _ _ hb)).1
    have hr' := hr.mono hnode hlinks
    exact hkey _ _ (h.reaches hnb hr').1 (hnode a ha) (h.less a (hnode a ha) b r (hlinks _ _ hb) hr')
  greater a ha b r hb hr := by
    have hnb := (h.older a (hnode a ha) 1 (by decide) b (hlinks _ _ hb)).1
    have hr' := hr.mono hnode hlinks
    exact hkey _ _ (hnode a ha) (h.reaches hnb hr').1 (h.greater a (hnode a ha) b r (hlinks _ _ hb) hr')

end Ordered

/-! ### Inserting the current position -/

section Insert

variable {cbs cur : Nat}

/-- Positions less than `cbs` apart have slots of their own. -/
theorem childSlot_inj {a b side side' : Nat} (hs : side < 2) (hs' : side' < 2) (hab : a < b + cbs) (hba : b < a + cbs)
    (h : childSlot cbs a side = childSlot cbs b side') : a = b ∧ side = side' := by
  unfold childSlot at h
  have hmod : a % cbs = b % cbs := by omega
  have zero {x y : Nat} (hxy : x ≤ y) (hlt : y < x + cbs) (hm : y % cbs = x % cbs) : x = y := by
    have := Nat.eq_zero_of_dvd_of_lt (Nat.dvd_of_mod_eq_zero (Nat.sub_mod_eq_zero_of_mod_eq hm))
      (show y - x < cbs by omega)
    omega
  refine ⟨?_, by omega⟩
  rcases Nat.le_total a b with hle | hle
  · exact zero hle hba hmod.symm
  · exact (zero hle hab hmod).symm

theorem Window.slot_inj {a b side side' : Nat} (ha : Window cbs cur a) (hb : Window cbs cur b) (hs : side < 2)
    (hs' : side' < 2) (h : childSlot cbs a side = childSlot cbs b side') : a = b ∧ side = side' := by
  unfold Window at ha hb
  exact childSlot_inj hs hs' (by omega) (by omega) h

theorem Window.slot_ne_cur {a side side' : Nat} (ha : Window cbs cur a) (hs : side < 2) (hs' : side' < 2) :
    childSlot cbs a side ≠ childSlot cbs cur side' := by
  intro h
  unfold Window at ha
  have := (childSlot_inj hs hs' (by omega) (by omega) h).1
  omega

/-- `r` is in the tree of the candidate, if there is one. -/
def Below (cbs cur : Nat) (links : Links) (cand : Option Nat) (r : Nat) : Prop :=
  ∃ c, cand = some c ∧ Reaches cbs (Window cbs cur) links c r

/-- Every link of an earlier position leads into the tree it led to in `old`. -/
def Refines (cbs cur : Nat) (old links : Links) : Prop :=
  ∀ a, Window cbs cur a → ∀ side < 2, ∀ b, links (childSlot cbs a side) = some b →
    Below cbs cur old (old (childSlot cbs a side)) b

variable {old links : Links}

theorem Refines.reaches (h : Refines cbs cur old links) {a r : Nat} (hr : Reaches cbs (Window cbs cur) links a r) :
    Reaches cbs (Window cbs cur) old a r := by
  induction hr with
  | refl => exact .refl
  | tail _ hstep ih =>
    obtain ⟨hn, side, hs, hl⟩ := hstep
    obtain ⟨c, hc, hreach⟩ := h _ hn side hs _ hl
    exact ih.trans (.head ⟨hn, side, hs, hc⟩ hreach)

/-- The open cell of the walk on a side: the current position's child there, or the other child of a position that is on
this side and not on the `other` one; from that child the candidate was reached. -/
def HoleAt (cbs cur : Nat) (old : Links) (other : Nat → Prop) (side : Nat) (cand : Option Nat) (i : Nat) : Prop :=
  i = childSlot cbs cur side ∨ ∃ o, Window cbs cur o ∧ ¬other o ∧ i = childSlot cbs o (1 - side) ∧
    ∀ c, cand = some c → Below cbs cur old (old i) c

/-- One side of the tree the walk builds: the positions `members`, all `good`, are closed under the links but for the open
cell, and the current position's child on this side is one of them. -/
structure TreeSide (cbs cur : Nat) (old links : Links) (good other : Nat → Prop) (side : Nat) (cand hole : Option Nat)
    (members : Nat → Prop) : Prop where
  good : ∀ r, members r → Window cbs cur r ∧ good r
  closed : ∀ r, members r → ∀ sd < 2, hole ≠ some (childSlot cbs r sd) → ∀ b, links (childSlot cbs r sd) = some b → members b
  root : hole ≠ some (childSlot cbs cur side) → ∀ b, links (childSlot cbs cur side) = some b → members b
  hole : ∀ i, hole = some i → HoleAt cbs cur old other side cand i

variable {good other : Nat → Prop} {side i : Nat} {cand cand' : Option Nat}

theorem HoleAt.next (h : HoleAt cbs cur old other side cand i) (hc : ∀ c, cand' = some c → Below cbs cur old cand c) :
    HoleAt cbs cur old other side cand' i := by
  refine h.imp_right fun ⟨o, ho, hother, hi, hreach⟩ => ⟨o, ho, hother, hi, fun c' hc' => ?_⟩
  obtain ⟨c, hcand, hcc⟩ := hc c' hc'
  obtain ⟨b, hb, hbc⟩ := hreach c hcand
  exact ⟨b, hb, hbc.trans hcc⟩

/-- Filling an open cell with what is below the candidate keeps every earlier link inside its tree. -/
theorem Refines.fill (h : Refines cbs cur old links) (hole : HoleAt cbs cur old other side cand i) (hs : side < 2)
    {v : Option Nat} (hv : ∀ b, v = some b → Below cbs cur old cand b) :
    Refines cbs cur old (Function.update links i v) := by
  intro a ha sd hsd b hb
  by_cases hi : childSlot cbs a sd = i
  · subst hi
    rw [Function.update_self] at hb
    rcases hole with hcur | ⟨o, -, -, -, hreach⟩
    · exact absurd hcur (ha.slot_ne_cur hsd hs)
    · obtain ⟨c, hc, hcb⟩ := hv b hb
      obtain ⟨d, hd, hdc⟩ := hreach c hc
      exact ⟨d, hd, hdc.trans hcb⟩
  · rw [Function.update_of_ne hi] at hb
    exact h a ha sd hsd b hb

/-- Filling this side's open cell with the root of the set `new`, whose own open cell is `hole'`. -/
theorem TreeSide.fill {members new : Nat → Prop} {hole' v : Option Nat}
    (h : TreeSide cbs cur old links good other side cand (some i) members)
    (hgood : ∀ r, new r → Window cbs cur r ∧ good r) (hv : ∀ b, v = some b → new b)
    (hclosed : ∀ r, new r → ∀ sd < 2, hole' ≠ some (childSlot cbs r sd) →
      ∀ b, links (childSlot cbs r sd) = some b → new b)
    (hhole : ∀ j, hole' = some j → HoleAt cbs cur old other side cand' j) :
    TreeSide cbs cur old (Function.update links i v) good other side cand' hole' fun r => members r ∨ new r where
  good r hr := hr.elim (h.good r) (hgood r)
  closed r hr sd hsd hne b hb := by
    by_cases hi : childSlot cbs r sd = i
    · rw [hi, Function.update_self] at hb
      exact .inr (hv b hb)
    · rw [Function.update_of_ne hi] at hb
      exact hr.imp (fun hr => h.closed r hr sd hsd (fun he => hi (Option.some.inj he).symm) b hb)
        fun hr => hclosed r hr sd hsd hne b hb
  root hne b hb := by
    by_cases hi : childSlot cbs cur side = i
    · rw [hi, Function.update_self] at hb
      exact .inr (hv b hb)
    · rw [Function.update_of_ne hi] at hb
      exact .inl (h.root (fun he => hi (Option.some.inj he).symm) b hb)
  hole := hhole

/-- Filling the other side's open cell changes nothing on this side: its owner is not `good` here. -/
theorem TreeSide.fillOther {members : Nat → Prop} {hole v : Option Nat}
    (h : TreeSide cbs cur old links good other side cand hole members) (hs : side < 2)
    (hole' : HoleAt cbs cur old good (1 - side) cand i) (hc : ∀ c, cand' = some c → Below cbs cur old cand c) :
    TreeSide cbs cur old (Function.update links i v) good other side cand' hole members where
  good := h.good
  closed r hr sd hsd hne b hb := by
    obtain ⟨hw, hg⟩ := h.good r hr
    have hi : childSlot cbs r sd ≠ i := by
      rintro rfl
      rcases hole' with hcur | ⟨o, ho, hno, hslot, -⟩
      · exact hw.slot_ne_cur hsd (by omega) hcur
      · exact hno ((hw.slot_inj ho hsd (by omega) hslot).1 ▸ hg)
    rw [Function.update_of_ne hi] at hb
    exact h.closed r hr sd hsd hne b hb
  root hne b hb := by
    have hi : childSlot cbs cur side ≠ i := by
      rintro rfl
      rcases hole' with hcur | ⟨o, ho, -, hslot, -⟩
      · unfold childSlot at hcur
        omega
      · exact ho.slot_ne_cur (by omega) hs hslot.symm
    rw [Function.update_of_ne hi] at hb
    exact h.root hne b hb
  hole j hj := (h.hole j hj).next hc

/-- A side without an open cell holds the whole tree of the current position's child there. -/
theorem TreeSide.reaches {members : Nat → Prop} (h : TreeSide cbs cur old links good other side cand none members)
    {b r : Nat} (hb : links (childSlot cbs cur side) = some b) (hr : Reaches cbs (Window cbs cur) links b r) :
    Window cbs cur r ∧ good r := by
  have hmem : members r := by
    induction hr with
    | refl => exact h.root (by simp) b hb
    | tail _ hstep ih =>
      obtain ⟨-, sd, hsd, hl⟩ := hstep
      exact h.closed _ ih sd hsd (by simp) _ hl
  exact h.good r hmem

end Insert

end Sys2Proof.Machine
end

section
/-!
PROOFS. The steps of a walk on the links (`42_match_finder.md` R244): going on below a candidate, and closing a side.
-/

namespace Sys2Proof.Machine

/-- A walk on its way: earlier links are kept, and each side of the new tree is as built so far. -/
structure Walking (cbs cur : Nat) (old : Links) (good other : Nat → Prop) (side : Nat) (links : Links)
    (cand hole holeOther : Option Nat) : Prop where
  refines : Refines cbs cur old links
  own : ∃ members, TreeSide cbs cur old links good other side cand hole members
  opposite : ∃ members, TreeSide cbs cur old links other good (1 - side) cand holeOther members

section Steps

variable {cbs cur : Nat} {old links : Links} {good other : Nat → Prop} {side p : Nat} {cand hole holeOther : Option Nat}

theorem Walking.swap (h : Walking cbs cur old good other side links cand hole holeOther) (hs : side < 2) :
    Walking cbs cur old other good (1 - side) links cand holeOther hole :=
  ⟨h.refines, h.opposite, by rw [show 1 - (1 - side) = side by omega]; exact h.own⟩

/-- What a link of the candidate leads to is below the candidate. -/
theorem Refines.below_cand (h : Refines cbs cur old links) {c : Nat} (hc : Window cbs cur c) (hs : side < 2) {b : Nat}
    (hb : links (childSlot cbs c side) = some b) : Below cbs cur old (some c) b := by
  obtain ⟨d, hd, hdb⟩ := h c hc side hs b hb
  exact ⟨c, rfl, .head ⟨hc, side, hs, hd⟩ hdb⟩

theorem Refines.below_slot (h : Refines cbs cur old links) {c : Nat} (hc : Window cbs cur c) {r : Nat} (hs : side < 2)
    (hr : Below cbs cur old (links (childSlot cbs c side)) r) : Below cbs cur old (old (childSlot cbs c side)) r := by
  obtain ⟨b, hb, hbr⟩ := hr
  obtain ⟨d, hd, hdb⟩ := h c hc side hs b hb
  exact ⟨d, hd, hdb.trans hbr⟩

/-- The candidate `c` is put on its side, and the walk goes on with its other child. -/
theorem Walking.descend {c : Nat} (h : Walking cbs cur old good other side links (some c) (some p) holeOther)
    (hs : side < 2) (hc : Window cbs cur c) (hgood : good c) (hother : ¬other c)
    (hbelow : ∀ r, Below cbs cur old (old (childSlot cbs c side)) r → Window cbs cur r ∧ good r) :
    Walking cbs cur old good other side (Function.update links p (some c))
      (Function.update links p (some c) (childSlot cbs c (1 - side))) (some (childSlot cbs c (1 - side))) holeOther := by
  obtain ⟨members, hown⟩ := h.own
  obtain ⟨membersOther, hopp⟩ := h.opposite
  have hhole := hown.hole p rfl
  have hrefines := h.refines.fill (v := some c) hhole hs fun b hb => ⟨c, rfl, Option.some.inj hb ▸ .refl⟩
  have hnext (d : Nat) (hd : Function.update links p (some c) (childSlot cbs c (1 - side)) = some d) :
      Below cbs cur old (some c) d := hrefines.below_cand hc (by omega) hd
  refine ⟨hrefines, ⟨_, hown.fill (new := fun r => r = c ∨ Below cbs cur old (old (childSlot cbs c side)) r)
    ?_ ?_ ?_ ?_⟩, ⟨membersOther, ?_⟩⟩
  · rintro r (rfl | hr)
    · exact ⟨hc, hgood⟩
    · exact hbelow r hr
  · exact fun b hb => .inl (Option.some.inj hb).symm
  · rintro r (rfl | hr) sd hsd hne b hb
    · have hside : sd = side := by
        by_contra hsd'
        exact hne (congrArg (fun i => some (childSlot cbs r i)) (show 1 - side = sd by omega))
      exact .inr (hside ▸ h.refines r hc sd hsd b hb)
    · obtain ⟨d, hd, hdr⟩ := hr
      obtain ⟨e, he, heb⟩ := h.refines r (hbelow r ⟨d, hd, hdr⟩).1 sd hsd b hb
      exact .inr ⟨d, hd, hdr.trans (.head ⟨(hbelow r ⟨d, hd, hdr⟩).1, sd, hsd, he⟩ heb)⟩
  · rintro j hj
    obtain rfl := Option.some.inj hj
    exact .inr ⟨c, hc, hother, rfl, hrefines c hc _ (by omega)⟩
  · exact hopp.fillOther (by omega) (by rw [show 1 - (1 - side) = side by omega]; exact hhole) hnext

/-- The open cell of this side gets its last value, a tree below the candidate that belongs to this side, or none. -/
theorem Walking.close (h : Walking cbs cur old good other side links cand (some p) holeOther) (hs : side < 2)
    {v : Option Nat} (hbelow : ∀ b, v = some b → Below cbs cur old cand b)
    (hgood : ∀ r, Below cbs cur old v r → Window cbs cur r ∧ good r) :
    Walking cbs cur old good other side (Function.update links p v) cand none holeOther := by
  obtain ⟨members, hown⟩ := h.own
  obtain ⟨membersOther, hopp⟩ := h.opposite
  have hhole := hown.hole p rfl
  refine ⟨h.refines.fill hhole hs hbelow, ⟨_, hown.fill (new := Below cbs cur old v) hgood
    (fun b hb => ⟨b, hb, .refl⟩) ?_ (fun j hj => by cases hj)⟩, ⟨membersOther, ?_⟩⟩
  · rintro r ⟨d, hd, hdr⟩ sd hsd - b hb
    have hr := (hgood r ⟨d, hd, hdr⟩).1
    obtain ⟨e, he, heb⟩ := h.refines r hr sd hsd b hb
    exact ⟨d, hd, hdr.trans (.head ⟨hr, sd, hsd, he⟩ heb)⟩
  · exact hopp.fillOther (by omega) (by rw [show 1 - (1 - side) = side by omega]; exact hhole) fun c hc => ⟨c, hc, .refl⟩

end Steps

/-! ### The walk's two sides -/

section Sides

variable {cbs cur : Nat} {key : Nat → Nat} {old links : Links} {root cand : Option Nat}

/-- In the tree walked, with a key at most the current position's. -/
def Smaller (cbs cur : Nat) (key : Nat → Nat) (old : Links) (root : Option Nat) (r : Nat) : Prop :=
  Below cbs cur old root r ∧ key r ≤ key cur

/-- In the tree walked, with a key at least the current position's. -/
def Greater (cbs cur : Nat) (key : Nat → Nat) (old : Links) (root : Option Nat) (r : Nat) : Prop :=
  Below cbs cur old root r ∧ key cur ≤ key r

/-- A walk of the tree of `root`: side 0 gets what is smaller than the current position, side 1 what is greater. -/
def TreeWalking (cbs cur : Nat) (key : Nat → Nat) (old : Links) (root : Option Nat) (links : Links)
    (cand ptr0 ptr1 : Option Nat) : Prop :=
  Walking cbs cur old (Smaller cbs cur key old root) (Greater cbs cur key old root) 0 links cand ptr1 ptr0

/-- Before its first candidate a walk has built nothing. -/
theorem TreeWalking.start (cbs cur : Nat) (key : Nat → Nat) (old : Links) (root cand : Option Nat) :
    TreeWalking cbs cur key old root old cand (some (childSlot cbs cur 1)) (some (childSlot cbs cur 0)) where
  refines _ _ _ _ b hb := ⟨b, hb, .refl⟩
  own := ⟨fun _ => False, ⟨fun _ h => h.elim, fun _ h => h.elim, fun h => absurd rfl h,
    fun _ hi => .inl (Option.some.inj hi).symm⟩⟩
  opposite := ⟨fun _ => False, ⟨fun _ h => h.elim, fun _ h => h.elim, fun h => absurd rfl h,
    fun _ hi => .inl (Option.some.inj hi).symm⟩⟩

variable {p0 p1 c : Nat} {ptr0 ptr1 : Option Nat}

/-- Below in the tree of a candidate that is in the tree of `root`. -/
theorem Below.trans {r : Nat} (hc : Below cbs cur old root c) (hr : Below cbs cur old (some c) r) :
    Below cbs cur old root r := by
  obtain ⟨d, hd, hdc⟩ := hc
  obtain ⟨e, he, her⟩ := hr
  cases he
  exact ⟨d, hd, hdc.trans her⟩

theorem Below.child {r side : Nat} (hc : Window cbs cur c) (hs : side < 2)
    (hr : Below cbs cur old (old (childSlot cbs c side)) r) : Below cbs cur old (some c) r := by
  obtain ⟨d, hd, hdr⟩ := hr
  exact ⟨c, rfl, .head ⟨hc, side, hs, hd⟩ hdr⟩

theorem Below.window {r : Nat} (hord : Ordered cbs (Window cbs cur) key old) (hroot : ∀ c, root = some c → Window cbs cur c)
    (hr : Below cbs cur old root r) : Window cbs cur r := by
  obtain ⟨c, hc, hcr⟩ := hr
  exact (hord.reaches (hroot c hc) hcr).1

variable (hord : Ordered cbs (Window cbs cur) key old) (hroot : ∀ c, root = some c → Window cbs cur c)

include hord hroot

/-- The candidates below a smaller position's child on side 0 are smaller, too. -/
theorem smaller_child (hc : Below cbs cur old root c) (hkey : key c ≤ key cur) {r : Nat}
    (hr : Below cbs cur old (old (childSlot cbs c 0)) r) :
    Window cbs cur r ∧ Smaller cbs cur key old root r := by
  have hwin := hc.window hord hroot
  have hin := hc.trans (hr.child hwin (by decide))
  obtain ⟨d, hd, hdr⟩ := hr
  exact ⟨hin.window hord hroot, hin, (hord.less c hwin d r hd hdr).trans hkey⟩

theorem greater_child (hc : Below cbs cur old root c) (hkey : key cur ≤ key c) {r : Nat}
    (hr : Below cbs cur old (old (childSlot cbs c 1)) r) :
    Window cbs cur r ∧ Greater cbs cur key old root r := by
  have hwin := hc.window hord hroot
  have hin := hc.trans (hr.child hwin (by decide))
  obtain ⟨d, hd, hdr⟩ := hr
  exact ⟨hin.window hord hroot, hin, hkey.trans (hord.greater c hwin d r hd hdr)⟩

/-- A smaller candidate becomes the smaller child, and the walk goes on with its greater one. -/
theorem TreeWalking.goLess (h : TreeWalking cbs cur key old root links (some c) ptr0 (some p1))
    (hc : Below cbs cur old root c) (hkey : key c < key cur) :
    TreeWalking cbs cur key old root (Function.update links p1 (some c))
      (Function.update links p1 (some c) (childSlot cbs c 1)) ptr0 (some (childSlot cbs c 1)) :=
  Walking.descend h (by decide) (hc.window hord hroot) ⟨hc, hkey.le⟩ (fun hg => Nat.not_le.mpr hkey hg.2)
    fun _ hr => smaller_child hord hroot hc hkey.le hr

/-- A greater candidate becomes the greater child, and the walk goes on with its smaller one. -/
theorem TreeWalking.goGreater (h : TreeWalking cbs cur key old root links (some c) (some p0) ptr1)
    (hc : Below cbs cur old root c) (hkey : key cur < key c) :
    TreeWalking cbs cur key old root (Function.update links p0 (some c))
      (Function.update links p0 (some c) (childSlot cbs c 0)) (some (childSlot cbs c 0)) ptr1 :=
  (Walking.descend (h.swap (by decide)) (by decide) (hc.window hord hroot) ⟨hc, hkey.le⟩
    (fun hg => Nat.not_le.mpr hkey hg.2) fun _ hr => greater_child hord hroot hc hkey.le hr).swap (by decide)

omit hord hroot in
/-- A walk that ends with no candidate leaves both open cells empty. -/
theorem TreeWalking.empty (h : TreeWalking cbs cur key old root links cand (some p0) (some p1)) :
    TreeWalking cbs cur key old root (Function.update (Function.update links p0 none) p1 none) cand none none := by
  have hnone {P : Nat → Prop} (r : Nat) (hr : Below cbs cur old none r) : P r := by
    obtain ⟨_, hb, -⟩ := hr
    cases hb
  exact (((h.swap (by decide)).close (by decide) (fun b hb => by cases hb) hnone).swap (by decide)).close (by decide)
    (fun b hb => by cases hb) hnone

/-- A walk that ends at an equal key puts the candidate's two subtrees into the open cells. -/
theorem TreeWalking.graft (h : TreeWalking cbs cur key old root links (some c) (some p0) (some p1))
    (hc : Below cbs cur old root c) (hkey : key c = key cur) : TreeWalking cbs cur key old root
      (Function.update (Function.update links p1 (links (childSlot cbs c 0))) p0
        (Function.update links p1 (links (childSlot cbs c 0)) (childSlot cbs c 1))) (some c) none none := by
  have hwin := hc.window hord hroot
  have left := Walking.close h (v := links (childSlot cbs c 0)) (by decide)
    (fun b hb => h.refines.below_cand hwin (by decide) hb)
    fun r hr => smaller_child hord hroot hc hkey.le (h.refines.below_slot hwin (by decide) hr)
  exact ((left.swap (by decide)).close (by decide) (fun b hb => left.refines.below_cand hwin (by decide) hb)
    fun r hr => greater_child hord hroot hc hkey.ge (left.refines.below_slot hwin (by decide) hr)).swap (by decide)

/-- The trees after a walk: earlier trees lost no order, the current position heads a tree in order, and holds nothing
that the tree of `root` did not hold. -/
theorem TreeWalking.inserted (h : TreeWalking cbs cur key old root links cand none none) :
    Ordered cbs (fun a => Window cbs cur a ∨ a = cur) key links ∧
      (∀ a r, Window cbs cur a → Reaches cbs (fun a => Window cbs cur a ∨ a = cur) links a r →
        Reaches cbs (Window cbs cur) old a r) ∧
      ∀ r, Reaches cbs (fun a => Window cbs cur a ∨ a = cur) links cur r → r = cur ∨ Below cbs cur old root r := by
  obtain ⟨hrefines, ⟨less, hless⟩, ⟨greater, hgreater⟩⟩ := h
  have older (a : Nat) (ha : Window cbs cur a) (side : Nat) (hs : side < 2) (b : Nat)
      (hb : links (childSlot cbs a side) = some b) : Window cbs cur b ∧ b < a := by
    obtain ⟨d, hd, hdb⟩ := hrefines a ha side hs b hb
    obtain ⟨hwd, hlt⟩ := hord.older a ha side hs d hd
    obtain ⟨hwb, hle⟩ := hord.reaches hwd hdb
    exact ⟨hwb, hle.trans_lt hlt⟩
  -- A path that starts before the current position never meets it.
  have inside (a r : Nat) (ha : Window cbs cur a) (hr : Reaches cbs (fun a => Window cbs cur a ∨ a = cur) links a r) :
      Window cbs cur r ∧ Reaches cbs (Window cbs cur) links a r := by
    induction hr with
    | refl => exact ⟨ha, .refl⟩
    | tail _ hstep ih =>
      obtain ⟨-, side, hs, hl⟩ := hstep
      exact ⟨(older _ ih.1 side hs _ hl).1, ih.2.tail ⟨ih.1, side, hs, hl⟩⟩
  have cur_child (side : Nat) (hs : side < 2) (b : Nat) (hb : links (childSlot cbs cur side) = some b) :
      Window cbs cur b := by
    rcases (show side = 0 ∨ side = 1 by omega) with rfl | rfl
    · exact (hless.reaches hb .refl).1
    · exact (hgreater.reaches hb .refl).1
  refine ⟨⟨?_, ?_, ?_⟩, fun a r ha hr => hrefines.reaches (inside a r ha hr).2, fun r hr => ?_⟩
  · rintro a (ha | rfl) side hs b hb
    · exact (older a ha side hs b hb).imp_left .inl
    · exact ⟨.inl (cur_child side hs b hb), (cur_child side hs b hb).1⟩
  · rintro a (ha | rfl) b r hb hr
    · obtain ⟨hwb, -⟩ := older a ha 0 (by decide) b hb
      obtain ⟨d, hd, hdr⟩ := hrefines.below_slot ha (by decide) ⟨b, hb, hrefines.reaches (inside b r hwb hr).2⟩
      exact hord.less a ha d r hd hdr
    · exact (hless.reaches hb (inside b r (cur_child 0 (by decide) b hb) hr).2).2.2
  · rintro a (ha | rfl) b r hb hr
    · obtain ⟨hwb, -⟩ := older a ha 1 (by decide) b hb
      obtain ⟨d, hd, hdr⟩ := hrefines.below_slot ha (by decide) ⟨b, hb, hrefines.reaches (inside b r hwb hr).2⟩
      exact hord.greater a ha d r hd hdr
    · exact (hgreater.reaches hb (inside b r (cur_child 1 (by decide) b hb) hr).2).2.2
  · rcases Relation.ReflTransGen.cases_head hr with rfl | ⟨b, ⟨-, side, hs, hb⟩, hbr⟩
    · exact .inl rfl
    · have hwb := cur_child side hs b hb
      rcases (show side = 0 ∨ side = 1 by omega) with rfl | rfl
      · exact .inr (hless.reaches hb (inside b r hwb hbr).2).2.1
      · exact .inr (hgreater.reaches hb (inside b r hwb hbr).2).2.1

end Sides

end Sys2Proof.Machine
end

section
/-!
PROOFS. The walk on the index of the positions before (`42_match_finder.md` R244): it answers, it inserts the current
position in order, and every pair it reports is a match, longer than the ones before it and no nearer.
-/

namespace Sys2Proof.Machine

/-! ### Stored positions (R237) -/

/-- The absolute position a stored one names, if it is live. -/
def MatchFinder.names (m : MatchFinder) (v : Nat) : Option Nat :=
  if m.matchMinPos < v then some (v - 1 + m.mfBase) else none

/-- The live child in a cell of `Son`. -/
def MatchFinder.link (m : MatchFinder) : Links := fun i => m.names (m.son.read 0 i).toNat

/-- The live position in a cell of `Hash`. -/
def MatchFinder.head (m : MatchFinder) : Links := fun i => m.names (m.hash.read 0 i).toNat

theorem matchMinPos_eq (m : MatchFinder) : m.matchMinPos = m.mfPos.toNat - m.cbs := by
  unfold MatchFinder.matchMinPos
  split <;> omega

theorem names_zero (m : MatchFinder) : m.names 0 = none := if_neg (Nat.not_lt_zero _)

theorem names_of_live {m : MatchFinder} {v : Nat} (h : m.matchMinPos < v) : m.names v = some (v - 1 + m.mfBase) := if_pos h

/-- Writing a cell changes what it names. -/
theorem names_read_write {m : MatchFinder} {mem : Memory Word} (hwf : mem.wf 0 = true) {i v : Nat} (hv : v < 2 ^ 32) :
    (fun j => m.names ((mem.write 0 i (u32 v)).read 0 j).toNat) =
      Function.update (fun j => m.names (mem.read 0 j).toNat) i (m.names v) := by
  funext j
  by_cases hj : j = i
  · subst hj
    rw [Function.update_self, memory_read_write_same hwf, u32_toNat hv]
  · rw [Function.update_of_ne hj, memory_read_write_other hwf hj]

/-! ### The state of a search -/

/-- `s` searches at position `cur` of `inp` for lengths up to `lim`. -/
structure Searching (inp : List Byte) (lim cur cbs : Nat) (s : State) : Prop where
  input : s.inp = inp
  position : s.session.mf.mfAbs = cur
  cyclic : s.session.mf.cbs = cbs
  slot : s.session.mf.cyclicPos = cur % cbs
  started : 1 ≤ s.session.mf.mfPos.toNat
  son : s.session.mf.son.wf 0 = true
  dict : 1 ≤ cbs ∧ cbs ≤ 2 ^ 30 + 1
  inside : cur + lim ≤ inp.length
  max : lim ≤ s.session.mf.matchMaxLen

section Search

variable {inp : List Byte} {lim cur cbs : Nat} {s : State}

theorem Searching.putSon (h : Searching inp lim cur cbs s) (i v : Nat) : Searching inp lim cur cbs (s.putSon i v) :=
  ⟨h.input, h.position, h.cyclic, h.slot, h.started, memory_write_wf h.son, h.dict, h.inside, h.max⟩

theorem Searching.link_putSon (h : Searching inp lim cur cbs s) {i v : Nat} (hv : v < 2 ^ 32) :
    (s.putSon i v).session.mf.link = Function.update s.session.mf.link i (s.session.mf.names v) :=
  names_read_write h.son hv

/-- A position `d < cbs` before `cur` is found `d` slots back, around the end of the slots (R243). -/
theorem sub_mod_eq {d : Nat} (hd : d ≤ cur) (hlt : d < cbs) :
    (cur - d) % cbs = if d ≤ cur % cbs then cur % cbs - d else cur % cbs + cbs - d := by
  have hmod := Nat.mod_lt cur (show cbs > 0 by omega)
  obtain ⟨k, hk⟩ : ∃ k, cur = cur % cbs + cbs * k := ⟨cur / cbs, (Nat.mod_add_div cur cbs).symm⟩
  generalize cur % cbs = r at *
  subst hk
  split
  · rw [show r + cbs * k - d = r - d + cbs * k by omega, Nat.add_mul_mod_self_left, Nat.mod_eq_of_lt (by omega)]
  · cases k with
    | zero => omega
    | succ k =>
      rw [Nat.mul_succ] at hd ⊢
      rw [show r + (cbs * k + cbs) - d = r + cbs - d + cbs * k by omega, Nat.add_mul_mod_self_left,
        Nat.mod_eq_of_lt (by omega)]

/-- The slot of a candidate is the one R243 computes. -/
theorem Searching.cyc (h : Searching inp lim cur cbs s) {q c : Nat} (hq : s.session.mf.matchMinPos < q)
    (hc : q - 1 + s.session.mf.mfBase = c) (hwin : Window cbs cur c) :
    2 * s.session.mf.cyc (s.session.mf.mfPos.toNat - q) = childSlot cbs c 0 := by
  have hcur := h.position
  have hstart := h.started
  unfold MatchFinder.mfAbs at hcur
  obtain ⟨hlt, hnear⟩ := hwin
  have hdelta : s.session.mf.mfPos.toNat - q = cur - c := by omega
  unfold childSlot MatchFinder.cyc
  rw [hdelta, h.slot, h.cyclic, Nat.add_zero, ← sub_mod_eq (Nat.sub_le cur c) (by omega), Nat.sub_sub_self hlt.le]

/-- The agreement of a candidate that shares `start` bytes is the longest equal run up to `lim`. -/
theorem Searching.agreement (h : Searching inp lim cur cbs s) {q c start : Nat} (hc : q - 1 + s.session.mf.mfBase = c)
    (hlt : c < cur) (hstart : start ≤ lim) (hkey : key inp start c = key inp start cur) :
    key inp (s.agreement lim q start) c = key inp (s.agreement lim q start) cur ∧
      (s.agreement lim q start < lim →
        inp[c + s.agreement lim q start]? ≠ inp[cur + s.agreement lim q start]?) := by
  have hinside := h.inside
  have hbounds := agreement_bounds s (q := q) hstart
  have hdef : s.agreement lim q start =
      start + matchRun (lim - start) (inp.drop (c + start)) (inp.drop (cur + start)) := by
    rw [State.agreement, hc, h.position, h.input]
  generalize s.agreement lim q start = len at *
  refine ⟨key_eq_of_bytes hbounds.1 (by omega) (by omega) hkey fun j hj hjlen => ?_, fun hlen => ?_⟩
  · have := matchRun_getElem? (show j - start < matchRun (lim - start) (inp.drop (c + start)) (inp.drop (cur + start)) by omega)
    rwa [List.getElem?_drop, List.getElem?_drop, Nat.add_assoc, Nat.add_assoc, Nat.add_sub_cancel' hj] at this
  · have := matchRun_getElem?_ne (n := lim - start) (xs := inp.drop (c + start)) (ys := inp.drop (cur + start)) (by omega)
      (by rw [List.length_drop]; omega)
    rwa [List.getElem?_drop, List.getElem?_drop, Nat.add_assoc, Nat.add_assoc, ← hdef] at this

end Search

/-! ### What is reported -/

/-- A reported pair is a match in its bounds (R250 items 1 to 3). -/
structure GoodPair (inp : List Byte) (lim cur cbs : Nat) (p : MatchPair) : Prop where
  least : 2 ≤ p.len
  most : p.len ≤ lim
  before : p.dist.toNat < cur
  near : p.dist.toNat + 1 < cbs
  equal : key inp p.len (cur - (p.dist.toNat + 1)) = key inp p.len cur

/-- The report is in order (R250 item 4). -/
def InOrder (pairs : List MatchPair) : Prop := pairs.Pairwise fun a b => a.len < b.len ∧ a.dist.toNat ≤ b.dist.toNat

/-- A report on its way: every pair is good, and whatever the walk will report is longer and no nearer. A pair longer than
`maxLen` is one that the next candidate will beat. -/
structure Reporting (inp : List Byte) (lim cur cbs : Nat) (old : Links) (cand : Option Nat) (start maxLen : Nat)
    (pairs : List MatchPair) : Prop where
  good : ∀ p ∈ pairs, GoodPair inp lim cur cbs p
  sorted : InOrder pairs
  one : 1 ≤ maxLen
  below : maxLen < lim
  longer : ∀ p ∈ pairs, p.len ≤ maxLen ∨ ∀ c, cand = some c →
    start ≤ p.len ∧ p.len < lim ∧ key inp (p.len + 1) c = key inp (p.len + 1) cur
  nearer : ∀ p ∈ pairs, ∀ r, Below cbs cur old cand r → key inp (maxLen + 1) r = key inp (maxLen + 1) cur →
    p.dist.toNat + r < cur

section Report

variable {inp : List Byte} {lim cur cbs : Nat} {old : Links} {start maxLen len c : Nat} {pairs : List MatchPair}

theorem goodPair_of_candidate (hcbs : cbs ≤ 2 ^ 30 + 1) (hwin : Window cbs cur c)
    (htwo : 2 ≤ len) (hlen : len ≤ lim) (hkey : key inp len c = key inp len cur) :
    GoodPair inp lim cur cbs { len := len, dist := u32 (cur - c - 1) } ∧ (u32 (cur - c - 1)).toNat + c + 1 = cur := by
  obtain ⟨hlt, hnear⟩ := hwin
  have hdist : (u32 (cur - c - 1)).toNat = cur - c - 1 := u32_toNat (by omega)
  refine ⟨⟨htwo, hlen, ?_, ?_, ?_⟩, by omega⟩
  · dsimp only
    omega
  · dsimp only
    omega
  · dsimp only
    rw [hdist, show cur - (cur - c - 1 + 1) = c by omega, hkey]

/-- The report after the candidate `c` that agrees for `len` bytes. -/
def reportAfter (start maxLen len dist : Nat) (pairs : List MatchPair) : List MatchPair :=
  if improves true start maxLen len then pairs ++ [{ len := len, dist := u32 dist }] else pairs

/-- `maxLen` after it. -/
def maxLenAfter (start maxLen len : Nat) : Nat := if improves true start maxLen len then len else maxLen

theorem improves_iff : improves true start maxLen len = true ↔ start < len ∧ maxLen < len := by
  simp [improves]

/-- A candidate keeps the report good and in order. -/
theorem Reporting.kept (h : Reporting inp lim cur cbs old (some c) start maxLen pairs) (hinside : cur + lim ≤ inp.length)
    (hcbs : cbs ≤ 2 ^ 30 + 1) (hwin : Window cbs cur c) (hlen : len ≤ lim) (hkey : key inp len c = key inp len cur)
    (hmost : ∀ k ≤ lim, key inp k c = key inp k cur → k ≤ len) :
    (∀ p ∈ reportAfter start maxLen len (cur - c - 1) pairs, GoodPair inp lim cur cbs p) ∧
      InOrder (reportAfter start maxLen len (cur - c - 1) pairs) := by
  unfold reportAfter
  split
  · next himp =>
    obtain ⟨-, hmax⟩ := improves_iff.mp himp
    have hone := h.one
    obtain ⟨hgood, hdist⟩ := goodPair_of_candidate hcbs hwin (by omega) hlen hkey
    refine ⟨fun p hp => ?_, List.pairwise_append.mpr ⟨h.sorted, List.pairwise_singleton _ _, fun p hp a ha => ?_⟩⟩
    · rcases List.mem_append.mp hp with hold | hnew
      · exact h.good p hold
      · rw [List.mem_singleton.mp hnew]
        exact hgood
    · rw [List.mem_singleton.mp ha]
      have hlt := hwin.1
      have hnear := h.nearer p hp c ⟨c, rfl, .refl⟩ (key_eq_of_le hmax (by omega) (by omega) hkey)
      have hlonger : p.len < len := by
        rcases h.longer p hp with hle | hbeat
        · omega
        · obtain ⟨-, hplim, hpkey⟩ := hbeat c rfl
          exact hmost _ hplim hpkey
      exact ⟨hlonger, by dsimp only; omega⟩
  · exact ⟨h.good, h.sorted⟩

/-- The walk reports on below the candidate. -/
theorem Reporting.next (h : Reporting inp lim cur cbs old (some c) start maxLen pairs) (hinside : cur + lim ≤ inp.length)
    (hcbs : cbs ≤ 2 ^ 30 + 1) (hwin : Window cbs cur c) (hlen : len < lim) (hkey : key inp len c = key inp len cur)
    (hmost : ∀ k ≤ lim, key inp k c = key inp k cur → k ≤ len) {cand : Option Nat} {start' : Nat}
    (hcand : ∀ r, Below cbs cur old cand r → Below cbs cur old (some c) r ∧ r < c) :
    Reporting inp lim cur cbs old cand start' (maxLenAfter start maxLen len)
      (reportAfter start maxLen len (cur - c - 1) pairs) := by
  obtain ⟨hgood, hsorted⟩ := h.kept hinside hcbs hwin hlen.le hkey hmost
  have hone := h.one
  have hlim := h.below
  by_cases himp : improves true start maxLen len = true
  · obtain ⟨-, hmax⟩ := improves_iff.mp himp
    unfold reportAfter at hgood hsorted ⊢
    unfold maxLenAfter
    rw [if_pos himp] at hgood hsorted ⊢
    rw [if_pos himp]
    refine ⟨hgood, hsorted, by omega, hlen, fun p hp => .inl ?_, fun p hp r hr hrkey => ?_⟩
    · rcases List.mem_append.mp hp with hold | hnew
      · exact (((List.pairwise_append.mp hsorted).2.2 p hold _ (List.mem_singleton_self _)).1).le
      · rw [List.mem_singleton.mp hnew]
    · obtain ⟨hbelow, hrc⟩ := hcand r hr
      have hlt := hwin.1
      rcases List.mem_append.mp hp with hold | hnew
      · exact h.nearer p hold r hbelow (key_eq_of_le (by omega) (by omega) (by omega) hrkey)
      · rw [List.mem_singleton.mp hnew]
        have hdist := (goodPair_of_candidate hcbs hwin (show 2 ≤ len by omega) hlen.le hkey).2
        dsimp only
        omega
  · unfold reportAfter at hgood hsorted ⊢
    unfold maxLenAfter
    rw [if_neg himp] at hgood hsorted ⊢
    rw [if_neg himp]
    refine ⟨hgood, hsorted, hone, hlim, fun p hp => .inl ?_, fun p hp r hr hrkey => h.nearer p hp r (hcand r hr).1 hrkey⟩
    rcases h.longer p hp with hle | hbeat
    · exact hle
    · obtain ⟨hpstart, hplim, hpkey⟩ := hbeat c rfl
      have := hmost _ hplim hpkey
      rw [improves_iff] at himp
      omega

end Report

end Sys2Proof.Machine
end

section
/-!
PROOFS. The walk as a whole (`42_match_finder.md` R244).
-/

namespace Sys2Proof.Machine

/-- The walk at a candidate: the stored position `q`, the open cells, and the bytes known to be equal on each side. -/
structure WalkAt (inp : List Byte) (lim cur cbs : Nat) (old : Links) (root : Option Nat) (s : State)
    (q ptr0 ptr1 len0 len1 : Nat) : Prop where
  search : Searching inp lim cur cbs s
  walking : TreeWalking cbs cur (key inp lim) old root s.session.mf.link (s.session.mf.names q) (some ptr0) (some ptr1)
  inTree : ∀ c, s.session.mf.names q = some c → Below cbs cur old root c
  low : ∀ r, Below cbs cur old (s.session.mf.names q) r → key inp len1 cur ≤ key inp len1 r
  high : ∀ r, Below cbs cur old (s.session.mf.names q) r → key inp len0 r ≤ key inp len0 cur
  stored : q < 2 ^ 32
  cell0 : ptr0 < 2 * cbs
  cell1 : ptr1 < 2 * cbs
  short0 : len0 < lim
  short1 : len1 < lim

/-- What a walk from `s` leaves: a new `Son` in which the current position is inserted, and the report. -/
structure Walked (inp : List Byte) (lim cur cbs : Nat) (old : Links) (root : Option Nat) (s t : State)
    (pairs : List MatchPair) : Prop where
  frame : t = s.withMf { s.session.mf with son := t.session.mf.son }
  son : t.session.mf.son.wf 0 = true
  inserted : ∃ cand, TreeWalking cbs cur (key inp lim) old root t.session.mf.link cand none none
  good : ∀ p ∈ pairs, GoodPair inp lim cur cbs p
  sorted : InOrder pairs

section Walk

variable {inp : List Byte} {lim cur cbs : Nat} {old : Links} {root : Option Nat} {s : State}
  {q ptr0 ptr1 len0 len1 maxLen c : Nat} {pairs : List MatchPair}

theorem Walked.from {t : State} {i v : Nat} (h : Walked inp lim cur cbs old root (s.putSon i v) t pairs) :
    Walked inp lim cur cbs old root s t pairs := ⟨h.frame, h.son, h.inserted, h.good, h.sorted⟩

theorem childSlot_lt {a side : Nat} (hcbs : 1 ≤ cbs) (hs : side < 2) : childSlot cbs a side < 2 * cbs := by
  have := Nat.mod_lt a (show cbs > 0 by omega)
  unfold childSlot
  omega

/-- A walk with no candidate left. -/
theorem WalkAt.closes (h : WalkAt inp lim cur cbs old root s q ptr0 ptr1 len0 len1)
    (hgood : ∀ p ∈ pairs, GoodPair inp lim cur cbs p) (hsorted : InOrder pairs) :
    ∃ t, (closeWalk ptr0 ptr1 >>= fun _ => pure pairs) s = .ok pairs t ∧ Walked inp lim cur cbs old root s t pairs := by
  have hsearch := h.search.putSon ptr0 0
  refine ⟨(s.putSon ptr0 0).putSon ptr1 0, ?_, rfl, (hsearch.putSon ptr1 0).son,
    ⟨s.session.mf.names q, ?_⟩, hgood, hsorted⟩
  · rw [closeWalk, bind_assoc, act_bind_of_ok (writeSon_run 0 (by rw [h.search.cyclic]; exact h.cell0)),
      act_bind_of_ok (writeSon_run (s := s.putSon ptr0 0) 0 (by rw [hsearch.cyclic]; exact h.cell1))]
    rfl
  · rw [hsearch.link_putSon (by decide), h.search.link_putSon (by decide), names_zero, names_zero]
    exact h.walking.empty

variable (hord : Ordered cbs (Window cbs cur) (key inp lim) old) (hroot : ∀ c, root = some c → Window cbs cur c)

/-- The bytes known on both sides are equal. -/
theorem WalkAt.key_eq (h : WalkAt inp lim cur cbs old root s q ptr0 ptr1 len0 len1) (hc : s.session.mf.names q = some c)
    (hlt : c < cur) : key inp (min len0 len1) c = key inp (min len0 len1) cur := by
  have hbelow : Below cbs cur old (s.session.mf.names q) c := ⟨c, hc, .refl⟩
  have hinside := h.search.inside
  have h0 := h.short0
  have h1 := h.short1
  exact Nat.le_antisymm (key_le_of_le (Nat.min_le_left _ _) (by omega) (by omega) (h.high c hbelow))
    (key_le_of_le (Nat.min_le_right _ _) (by omega) (by omega) (h.low c hbelow))

include hord hroot

/-- What the child of a candidate leads to is below the candidate, and older. -/
theorem TreeWalking.below_next {links : Links} {cand hole0 hole1 : Option Nat}
    (h : TreeWalking cbs cur (key inp lim) old root links cand hole0 hole1) (hc : Below cbs cur old root c) {side r : Nat}
    (hs : side < 2) (hr : Below cbs cur old (links (childSlot cbs c side)) r) :
    Below cbs cur old (old (childSlot cbs c side)) r ∧ Below cbs cur old (some c) r ∧ r < c := by
  have hwin := hc.window hord hroot
  have hbelow := h.refines.below_slot hwin hs hr
  refine ⟨hbelow, hbelow.child hwin hs, ?_⟩
  obtain ⟨d, hd, hdr⟩ := hbelow
  obtain ⟨hwd, hdc⟩ := hord.older c hwin side hs d hd
  exact (hord.reaches hwd hdr).2.trans_lt hdc

/-- The walk goes on with the greater child of a smaller candidate. -/
theorem WalkAt.goLess (h : WalkAt inp lim cur cbs old root s q ptr0 ptr1 len0 len1) {len : Nat}
    (hc : s.session.mf.names q = some c) (hlen : len < lim) (hkey : key inp len c = key inp len cur)
    (hless : key inp lim c < key inp lim cur) :
    WalkAt inp lim cur cbs old root (s.putSon ptr1 q)
      ((s.putSon ptr1 q).session.mf.son.read 0 (childSlot cbs c 1)).toNat ptr0 (childSlot cbs c 1) len0 len := by
  have hin := h.inTree c hc
  have hwin := hin.window hord hroot
  have hwalk := h.walking
  rw [hc] at hwalk
  have hnext := hwalk.goLess hord hroot hin hless
  rw [← hc, ← h.search.link_putSon h.stored] at hnext
  have hbelow {r : Nat} (hr : Below cbs cur old ((s.putSon ptr1 q).session.mf.link (childSlot cbs c 1)) r) :=
    TreeWalking.below_next hord hroot hnext hin (by decide) hr
  have hinside := h.search.inside
  refine ⟨h.search.putSon _ _, hnext, fun d hd => hin.trans (hbelow ⟨d, hd, .refl⟩).2.1, fun r hr => ?_, fun r hr => ?_,
    BitVec.isLt _, h.cell0, childSlot_lt h.search.dict.1 (by decide), h.short0, hlen⟩
  · obtain ⟨⟨d, hd, hdr⟩, hbr, hrc⟩ := hbelow hr
    have hlt := hwin.1
    rw [← hkey]
    exact key_le_of_le hlen.le (by omega) (by omega) (hord.greater c hwin d r hd hdr)
  · exact h.high r (hc ▸ (hbelow hr).2.1)

/-- The walk goes on with the smaller child of a greater candidate. -/
theorem WalkAt.goGreater (h : WalkAt inp lim cur cbs old root s q ptr0 ptr1 len0 len1) {len : Nat}
    (hc : s.session.mf.names q = some c) (hlen : len < lim) (hkey : key inp len c = key inp len cur)
    (hgreater : key inp lim cur < key inp lim c) :
    WalkAt inp lim cur cbs old root (s.putSon ptr0 q)
      ((s.putSon ptr0 q).session.mf.son.read 0 (childSlot cbs c 0)).toNat (childSlot cbs c 0) ptr1 len len1 := by
  have hin := h.inTree c hc
  have hwin := hin.window hord hroot
  have hwalk := h.walking
  rw [hc] at hwalk
  have hnext := hwalk.goGreater hord hroot hin hgreater
  rw [← hc, ← h.search.link_putSon h.stored] at hnext
  have hbelow {r : Nat} (hr : Below cbs cur old ((s.putSon ptr0 q).session.mf.link (childSlot cbs c 0)) r) :=
    TreeWalking.below_next hord hroot hnext hin (by decide) hr
  have hinside := h.search.inside
  refine ⟨h.search.putSon _ _, hnext, fun d hd => hin.trans (hbelow ⟨d, hd, .refl⟩).2.1, fun r hr => ?_, fun r hr => ?_,
    BitVec.isLt _, childSlot_lt h.search.dict.1 (by decide), h.cell1, hlen, h.short1⟩
  · exact h.low r (hc ▸ (hbelow hr).2.1)
  · obtain ⟨⟨d, hd, hdr⟩, hbr, hrc⟩ := hbelow hr
    have hlt := hwin.1
    rw [← hkey]
    exact key_le_of_le hlen.le (by omega) (by omega) (hord.less c hwin d r hd hdr)

/-- A walk at a candidate with an equal key. -/
theorem WalkAt.grafts (h : WalkAt inp lim cur cbs old root s q ptr0 ptr1 len0 len1)
    (hc : s.session.mf.names q = some c) (hkey : key inp lim c = key inp lim cur)
    (hgood : ∀ p ∈ pairs, GoodPair inp lim cur cbs p) (hsorted : InOrder pairs) :
    ∃ t, (graft ptr0 ptr1 (childSlot cbs c 0) >>= fun _ => pure pairs) s = .ok pairs t ∧
      Walked inp lim cur cbs old root s t pairs := by
  have hin := h.inTree c hc
  have hwalk := h.walking
  rw [hc] at hwalk
  have hcbs := h.search.cyclic
  have hslot (side : Nat) (hs : side < 2) := childSlot_lt (a := c) h.search.dict.1 hs
  set l := (s.session.mf.son.read 0 (childSlot cbs c 0)).toNat
  set u := s.putSon ptr1 l
  have hsearch : Searching inp lim cur cbs u := h.search.putSon ptr1 l
  set r := (u.session.mf.son.read 0 (childSlot cbs c 1)).toNat
  refine ⟨u.putSon ptr0 r, ?_, rfl, (hsearch.putSon ptr0 r).son, ⟨some c, ?_⟩, hgood, hsorted⟩
  · have hl : childSlot cbs c 0 < 2 * s.session.mf.cbs := by rw [hcbs]; exact hslot 0 (by decide)
    have hr : childSlot cbs c 1 < 2 * u.session.mf.cbs := by rw [hsearch.cyclic]; exact hslot 1 (by decide)
    have h1 : ptr1 < 2 * s.session.mf.cbs := by rw [hcbs]; exact h.cell1
    have h0 : ptr0 < 2 * u.session.mf.cbs := by rw [hsearch.cyclic]; exact h.cell0
    rw [graft, show childSlot cbs c 0 + 1 = childSlot cbs c 1 from rfl, bind_assoc, act_bind_of_ok (readSon_run hl),
      bind_assoc, act_bind_of_ok (writeSon_run l h1), bind_assoc, act_bind_of_ok (readSon_run (s := u) hr), act_bind_of_ok (writeSon_run (s := u) r h0)]
    rfl
  · have hu : u.session.mf.link = Function.update s.session.mf.link ptr1 (s.session.mf.link (childSlot cbs c 0)) :=
      h.search.link_putSon (BitVec.isLt _)
    have ht : (u.putSon ptr0 r).session.mf.link =
        Function.update u.session.mf.link ptr0 (u.session.mf.link (childSlot cbs c 1)) :=
      hsearch.link_putSon (BitVec.isLt _)
    rw [ht, hu]
    exact hwalk.graft hord hroot hin hkey

/-- The walk answers, inserts the current position in order, and reports good pairs in order. -/
theorem treeWalk_inserts (count : Nat) (h : WalkAt inp lim cur cbs old root s q ptr0 ptr1 len0 len1)
    (hrep : Reporting inp lim cur cbs old (s.session.mf.names q) (min len0 len1) maxLen pairs) :
    ∃ ps t, treeWalk lim s.session.mf.matchMinPos true count q ptr0 ptr1 len0 len1 maxLen pairs s = .ok ps t ∧
      Walked inp lim cur cbs old root s t ps := by
  induction count generalizing s q ptr0 ptr1 len0 len1 maxLen pairs with
  | zero =>
    rw [treeWalk_end (.inl rfl)]
    exact ⟨pairs, h.closes hrep.good hrep.sorted⟩
  | succ count ih =>
    rcases Nat.lt_or_ge s.session.mf.matchMinPos q with hq | hq
    swap
    · rw [treeWalk_end (.inr hq)]
      exact ⟨pairs, h.closes hrep.good hrep.sorted⟩
    obtain ⟨c, hdef⟩ : ∃ c, q - 1 + s.session.mf.mfBase = c := ⟨_, rfl⟩
    have hc : s.session.mf.names q = some c := by rw [names_of_live hq, hdef]
    have hwin := (h.inTree c hc).window hord hroot
    have hlt := hwin.1
    have hinside := h.search.inside
    have hstart : min len0 len1 < lim := (Nat.min_le_left _ _).trans_lt h.short0
    obtain ⟨x, hx⟩ := exists_byte (show c + min len0 len1 < inp.length by omega)
    obtain ⟨y, hy⟩ := exists_byte (show cur + min len0 len1 < inp.length by omega)
    obtain ⟨hkey, hdiffer⟩ := h.search.agreement hdef hlt hstart.le (h.key_eq hc hlt)
    have hlen := (agreement_bounds s (q := q) hstart.le).2
    have hdelta : s.session.mf.mfPos.toNat - q - 1 = cur - c - 1 := by
      have hcur := h.search.position
      have hone := h.search.started
      unfold MatchFinder.mfAbs at hcur
      omega
    rw [treeWalk_live hq hstart (fun _ => hrep.below) h.search.max (by rw [h.search.input, hdef]; exact hx)
      (by rw [h.search.input, h.search.position]; exact hy), hdelta]
    generalize s.agreement lim q (min len0 len1) = len at *
    have hmost (k : Nat) (hk : k ≤ lim) (hkk : key inp k c = key inp k cur) : k ≤ len := by
      by_contra hlt'
      exact hdiffer (by omega) (getElem?_eq_of_key (by omega) (by omega) hkk (Nat.not_le.mp hlt'))
    change ∃ ps t, walkBelow lim s.session.mf.matchMinPos true count q ptr0 ptr1 len0 len1 len
      (maxLenAfter (min len0 len1) maxLen len) (reportAfter (min len0 len1) maxLen len (cur - c - 1) pairs) s = .ok ps t ∧ _
    rw [hc] at hrep
    obtain ⟨hgood, hsorted⟩ := hrep.kept hinside h.search.dict.2 hwin hlen hkey hmost
    have hslot := h.search.cyc hq hdef hwin
    rcases Nat.eq_or_lt_of_le hlen with rfl | hshort
    · rw [walkBelow_full, hslot]
      exact ⟨_, h.grafts hord hroot hc hkey hgood hsorted⟩
    · obtain ⟨a, ha⟩ := exists_byte (show c + len < inp.length by omega)
      obtain ⟨b, hb⟩ := exists_byte (show cur + len < inp.length by omega)
      have hab : a ≠ b := fun hab => hdiffer hshort (by rw [ha, hb, hab])
      have hcell0 : ptr0 < 2 * s.session.mf.cbs := by rw [h.search.cyclic]; exact h.cell0
      have hcell1 : ptr1 < 2 * s.session.mf.cbs := by rw [h.search.cyclic]; exact h.cell1
      have hchild (side : Nat) (hs : side < 2) : childSlot cbs c side < 2 * s.session.mf.cbs := by
        rw [h.search.cyclic]
        exact childSlot_lt h.search.dict.1 hs
      rw [walkBelow_differs hshort.ne, hslot, show childSlot cbs c 0 + 1 = childSlot cbs c 1 from rfl,
        act_bind_of_ok (storedByte_ok.mpr ⟨by rw [h.search.input, hdef]; exact ha, rfl⟩),
        act_bind_of_ok (inByte_ok.mpr ⟨by rw [h.search.input, h.search.position]; exact hb, rfl⟩)]
      rcases Nat.lt_or_ge a.toNat b.toNat with hless | hge
      · have hnext := h.goLess hord hroot hc hshort hkey (key_lt_of_byte hshort (by omega) hinside hkey ha hb hless)
        rw [if_pos hless, act_bind_of_ok (writeSon_run q hcell1),
          act_bind_of_ok (readSon_run (s := s.putSon ptr1 q) (hchild 1 (by decide)))]
        obtain ⟨ps, t, hrun, hwalked⟩ := ih hnext (hrep.next hinside h.search.dict.2 hwin hshort hkey hmost
          fun r hr => (TreeWalking.below_next hord hroot hnext.walking (h.inTree c hc) (by decide) hr).2)
        exact ⟨ps, t, hrun, hwalked.from⟩
      · have hgreater : b.toNat < a.toNat := Nat.lt_of_le_of_ne hge fun he => hab (byte_eq_iff.mpr he.symm)
        have hnext := h.goGreater hord hroot hc hshort hkey
          (key_lt_of_byte hshort hinside (by omega) hkey.symm hb ha hgreater)
        rw [if_neg (Nat.not_lt.mpr hge), act_bind_of_ok (writeSon_run q hcell0),
          act_bind_of_ok (readSon_run (s := s.putSon ptr0 q) (hchild 0 (by decide)))]
        obtain ⟨ps, t, hrun, hwalked⟩ := ih hnext (hrep.next hinside h.search.dict.2 hwin hshort hkey hmost
          fun r hr => (TreeWalking.below_next hord hroot hnext.walking (h.inTree c hc) (by decide) hr).2)
        exact ⟨ps, t, hrun, hwalked.from⟩

end Walk

end Sys2Proof.Machine
end

section
/-!
PROOFS. The heads of `Hash` (`42_match_finder.md` R233, R234, R238, R246): under BT4 a short head is the newest position with
its hash, under BT2 the tree of a head holds positions with its hash only. Inserting the current position and moving on keep
this.
-/

namespace Sys2Proof.Machine

/-! ### The head cells of a position -/

/-- Byte `a` of `inp`. -/
def byteAt (inp : List Byte) (a : Nat) : Byte := inp.getD a 0

/-- The 2-byte head cell of position `a`. -/
def twoHead (inp : List Byte) (a : Nat) : Nat := (bt4Heads 0 (byteAt inp a) (byteAt inp (a + 1)) 0 0).1

/-- The 3-byte head cell. -/
def threeHead (inp : List Byte) (a : Nat) : Nat :=
  (bt4Heads 0 (byteAt inp a) (byteAt inp (a + 1)) (byteAt inp (a + 2)) 0).2.1

/-- The head cell of the tree. -/
def treeHead (kind : MfKind) (mask : Nat) (inp : List Byte) (a : Nat) : Nat :=
  match kind with
  | .bt4 => (bt4Heads mask (byteAt inp a) (byteAt inp (a + 1)) (byteAt inp (a + 2)) (byteAt inp (a + 3))).2.2
  | .bt2 => bt2Head (byteAt inp a) (byteAt inp (a + 1))

section Bytes

variable {inp : List Byte} {a b : Nat}

theorem getElem?_byteAt {i : Nat} (h : i < inp.length) : inp[i]? = some (byteAt inp i) := by
  rw [byteAt, List.getD_eq_getElem?_getD, List.getElem?_eq_getElem h, Option.getD_some]

theorem byteAt_eq_iff (ha : a < inp.length) (hb : b < inp.length) :
    byteAt inp a = byteAt inp b ↔ inp[a]? = inp[b]? := by
  rw [getElem?_byteAt ha, getElem?_byteAt hb, Option.some.injEq]

theorem key_two_iff (ha : a + 2 ≤ inp.length) (hb : b + 2 ≤ inp.length) :
    key inp 2 a = key inp 2 b ↔ byteAt inp a = byteAt inp b ∧ byteAt inp (a + 1) = byteAt inp (b + 1) := by
  rw [key_succ_eq_iff (n := 1) (getElem?_byteAt (by omega)) (getElem?_byteAt (by omega)),
    key_succ_eq_iff (n := 0) (getElem?_byteAt (by omega)) (getElem?_byteAt (by omega))]
  simp

theorem key_three_iff (ha : a + 3 ≤ inp.length) (hb : b + 3 ≤ inp.length) :
    key inp 3 a = key inp 3 b ↔ byteAt inp a = byteAt inp b ∧ byteAt inp (a + 1) = byteAt inp (b + 1) ∧
      byteAt inp (a + 2) = byteAt inp (b + 2) := by
  rw [key_succ_eq_iff (n := 2) (getElem?_byteAt (by omega)) (getElem?_byteAt (by omega)),
    key_two_iff (by omega) (by omega), and_assoc]

/-- A head cell is exact for `len` bytes: positions with one first byte share it exactly when they share `len` bytes. -/
def ExactHead (inp : List Byte) (len : Nat) (head : Nat → Nat) : Prop :=
  ∀ a b, a + len ≤ inp.length → b + len ≤ inp.length →
    (key inp len a = key inp len b ↔ byteAt inp a = byteAt inp b ∧ head a = head b)

theorem twoHead_exact (inp : List Byte) : ExactHead inp 2 (twoHead inp) := by
  intro a b ha hb
  rw [key_two_iff ha hb]
  refine and_congr_right fun h => ?_
  rw [twoHead, twoHead, h]
  exact bt4Heads_two_eq_iff.symm

theorem threeHead_exact (inp : List Byte) : ExactHead inp 3 (threeHead inp) := by
  intro a b ha hb
  rw [key_three_iff ha hb]
  refine and_congr_right fun h => ?_
  rw [threeHead, threeHead, h]
  exact bt4Heads_three_eq_iff.symm

/-- The BT2 head is exact. -/
theorem treeHead_bt2_eq_iff {mask : Nat} (ha : a + 2 ≤ inp.length) (hb : b + 2 ≤ inp.length) :
    treeHead .bt2 mask inp a = treeHead .bt2 mask inp b ↔ key inp 2 a = key inp 2 b := by
  rw [key_two_iff ha hb]
  exact bt2Head_eq_iff

theorem twoHead_lt (inp : List Byte) (a : Nat) : twoHead inp a < 1024 := bt4Heads_two_lt _ _ _ _ _

theorem threeHead_bounds (inp : List Byte) (a : Nat) : 1024 ≤ threeHead inp a ∧ threeHead inp a < 66560 :=
  bt4Heads_three_bounds _ _ _ _ _

theorem treeHead_bt4_bounds (mask : Nat) (inp : List Byte) (a : Nat) :
    66560 ≤ treeHead .bt4 mask inp a ∧ treeHead .bt4 mask inp a ≤ 66560 + mask := bt4Heads_main_bounds _ _ _ _ _

theorem treeHead_bt2_lt (mask : Nat) (inp : List Byte) (a : Nat) : treeHead .bt2 mask inp a < 65536 := bt2Head_lt _ _

end Bytes

/-! ### The heads over the positions before -/

/-- The head of a position's cell is no older, and has the same cell. -/
structure Newest (node : Nat → Prop) (cell : Nat → Nat) (heads : Links) : Prop where
  newest : ∀ a, node a → ∃ b, heads (cell a) = some b ∧ a ≤ b
  cell : ∀ a b, heads (cell a) = some b → cell b = cell a

/-- What the heads of `Hash` are over the positions `node`. -/
structure HeadsOk (kind : MfKind) (mask : Nat) (inp : List Byte) (cbs : Nat) (node : Nat → Prop) (links heads : Links) :
    Prop where
  known : ∀ i a, heads i = some a → node a
  two : kind = .bt4 → Newest node (twoHead inp) heads
  three : kind = .bt4 → Newest node (threeHead inp) heads
  tree : kind = .bt2 → ∀ i a r, heads i = some a → Reaches cbs node links a r → treeHead .bt2 mask inp r = i

/-- The heads with the current position in its cells. -/
def headsInserted (kind : MfKind) (mask : Nat) (inp : List Byte) (cur : Nat) (heads : Links) : Links :=
  match kind with
  | .bt4 => Function.update (Function.update (Function.update heads (twoHead inp cur) (some cur)) (threeHead inp cur)
      (some cur)) (treeHead .bt4 mask inp cur) (some cur)
  | .bt2 => Function.update heads (treeHead .bt2 mask inp cur) (some cur)

section Heads

variable {kind : MfKind} {mask cbs cur : Nat} {inp : List Byte} {links links' heads heads' : Links}
  {node node' : Nat → Prop} {cell : Nat → Nat}

theorem Newest.insert (h : Newest node cell heads) (hle : ∀ a, node a → a ≤ cur) (hcur : heads' (cell cur) = some cur)
    (hother : ∀ a, cell a ≠ cell cur → heads' (cell a) = heads (cell a)) :
    Newest (fun a => node a ∨ a = cur) cell heads' where
  newest a ha := by
    by_cases hcell : cell a = cell cur
    · exact ⟨cur, hcell ▸ hcur, ha.elim (hle a) Eq.le⟩
    · rcases ha with ha | rfl
      · rw [hother a hcell]
        exact h.newest a ha
      · exact absurd rfl hcell
  cell a b hb := by
    by_cases hcell : cell a = cell cur
    · rw [hcell, hcur] at hb
      cases hb
      exact hcell.symm
    · rw [hother a hcell] at hb
      exact h.cell a b hb

/-- Heads that are no longer live are dropped with the positions they were newest for. -/
theorem Newest.drop (h : Newest node cell heads) (hnode : ∀ a, node' a → node a)
    (hle : ∀ a b, node' a → node b → a ≤ b → node' b)
    (hheads : ∀ i b, heads' i = some b ↔ heads i = some b ∧ node' b) (hin : ∀ i b, heads i = some b → node b) :
    Newest node' cell heads' where
  newest a ha := by
    obtain ⟨b, hb, hab⟩ := h.newest a (hnode a ha)
    exact ⟨b, (hheads _ _).mpr ⟨hb, hle a b ha (hin _ _ hb) hab⟩, hab⟩
  cell a b hb := h.cell a b ((hheads _ _).mp hb).1

/-- Every head is one of before or the current position. -/
theorem headsInserted_some {i a : Nat} (h : headsInserted kind mask inp cur heads i = some a) :
    heads i = some a ∨ a = cur := by
  have step {heads : Links} {j : Nat} (h : Function.update heads j (some cur) i = some a) : heads i = some a ∨ a = cur := by
    by_cases hj : i = j
    · rw [hj, Function.update_self] at h
      exact .inr (Option.some.inj h).symm
    · rw [Function.update_of_ne hj] at h
      exact .inl h
  cases kind with
  | bt2 => exact step h
  | bt4 => exact (step h).elim (fun h => (step h).elim step .inr) .inr

/-- Inserting the current position at the head of its tree keeps the heads. -/
theorem HeadsOk.insert (h : HeadsOk kind mask inp cbs (Window cbs cur) links heads)
    (hold : ∀ a r, Window cbs cur a → Reaches cbs (fun a => Window cbs cur a ∨ a = cur) links' a r →
      Reaches cbs (Window cbs cur) links a r)
    (hcur : ∀ r, Reaches cbs (fun a => Window cbs cur a ∨ a = cur) links' cur r →
      r = cur ∨ Below cbs cur links (heads (treeHead kind mask inp cur)) r) :
    HeadsOk kind mask inp cbs (fun a => Window cbs cur a ∨ a = cur) links' (headsInserted kind mask inp cur heads) where
  known i a ha := (headsInserted_some ha).imp_left (h.known i a)
  two := by
    rintro rfl
    have h3 := threeHead_bounds inp cur
    have ht := treeHead_bt4_bounds mask inp cur
    refine (h.two rfl).insert (fun a ha => ha.1.le) ?_ fun a ha => ?_
    · have h2 := twoHead_lt inp cur
      rw [headsInserted, Function.update_of_ne (by omega), Function.update_of_ne (by omega), Function.update_self]
    · have h2 := twoHead_lt inp a
      rw [headsInserted, Function.update_of_ne (by omega), Function.update_of_ne (by omega), Function.update_of_ne ha]
  three := by
    rintro rfl
    have h2 := twoHead_lt inp cur
    have ht := treeHead_bt4_bounds mask inp cur
    refine (h.three rfl).insert (fun a ha => ha.1.le) ?_ fun a ha => ?_
    · have h3 := threeHead_bounds inp cur
      rw [headsInserted, Function.update_of_ne (by omega), Function.update_self]
    · have h3 := threeHead_bounds inp a
      rw [headsInserted, Function.update_of_ne (by omega), Function.update_of_ne ha, Function.update_of_ne (by omega)]
  tree := by
    rintro rfl i a r ha hr
    dsimp only [headsInserted] at ha
    by_cases hi : i = treeHead .bt2 mask inp cur
    · rw [hi, Function.update_self] at ha
      cases ha
      rcases hcur r hr with rfl | ⟨b, hb, hbr⟩
      · exact hi.symm
      · exact (h.tree rfl _ b r hb hbr).trans hi.symm
    · rw [Function.update_of_ne hi] at ha
      exact h.tree rfl i a r ha (hold a r (h.known i a ha) hr)

/-- Moving on keeps the heads. -/
theorem HeadsOk.move (h : HeadsOk kind mask inp cbs (fun a => Window cbs cur a ∨ a = cur) links heads)
    (hlinks : ∀ i b, links' i = some b → links i = some b)
    (hheads : ∀ i b, heads' i = some b ↔ heads i = some b ∧ cur + 1 < b + cbs) :
    HeadsOk kind mask inp cbs (Window cbs (cur + 1)) links' heads' := by
  have hsub (a : Nat) (ha : Window cbs (cur + 1) a) : Window cbs cur a ∨ a = cur := by
    unfold Window at ha ⊢
    omega
  have hnode (b : Nat) (hb : Window cbs cur b ∨ b = cur) (hlive : cur + 1 < b + cbs) : Window cbs (cur + 1) b := by
    unfold Window at hb ⊢
    omega
  have hlive (i b : Nat) : heads' i = some b ↔ heads i = some b ∧ Window cbs (cur + 1) b :=
    (hheads i b).trans ⟨fun hb => ⟨hb.1, hnode b (h.known i b hb.1) hb.2⟩, fun hb => ⟨hb.1, hb.2.2⟩⟩
  have hnewer (a b : Nat) (ha : Window cbs (cur + 1) a) (hb : Window cbs cur b ∨ b = cur) (hab : a ≤ b) :
      Window cbs (cur + 1) b := hnode b hb (by have := ha.2; omega)
  exact ⟨fun i a ha => ((hlive i a).mp ha).2, fun hk => (h.two hk).drop hsub hnewer hlive h.known,
    fun hk => (h.three hk).drop hsub hnewer hlive h.known,
    fun hk i a r ha hr => h.tree hk i a r ((hlive i a).mp ha).1 (hr.mono hsub hlinks)⟩

end Heads

end Sys2Proof.Machine
end

section
/-!
PROOFS. What a search starts its walk with, on the index of the positions before (`42_match_finder.md` R238, R239): the
current position in its head cells, and the short candidates.
-/

namespace Sys2Proof.Machine

/-! ### The index -/

/-- The constants of a session's match finder (R65, R68). -/
structure Constants (kind : MfKind) (m : MatchFinder) : Prop where
  cyclic : 1 ≤ m.cbs ∧ m.cbs ≤ 2 ^ 30 + 1
  long : 5 ≤ m.matchMaxLen
  kind : kind = .bt4 ∧ m.minMatchCheck = 4 ∧ m.numHashDirectBytes = 0 ∧ m.fixHashSize = 66560 ∨
    kind = .bt2 ∧ m.minMatchCheck = 3 ∧ m.numHashDirectBytes = 2 ∧ m.fixHashSize = 0 ∧ m.hashMask = 0xFFFF

/-- The lengths a search at the current position looks for (R236). -/
def MatchFinder.limit (m : MatchFinder) (inp : List Byte) : Nat := min m.matchMaxLen (inp.length - m.mfAbs)

/-- `Hash` and `Son` index the positions `node`. Where too few bytes are left to search, nothing is asked of them. -/
structure IndexOf (node : Nat → Prop) (inp : List Byte) (kind : MfKind) (m : MatchFinder) : Prop where
  constants : Constants kind m
  started : 1 ≤ m.mfPos.toNat
  bounded : m.mfPos.toNat < 2 ^ 31 - 1
  slot : m.cyclicPos = m.mfAbs % m.cbs
  son : m.son.wf 0 = true
  hash : m.hash.wf 0 = true
  trees : m.mfAbs + m.minMatchCheck ≤ inp.length →
    Ordered m.cbs node (key inp (m.limit inp)) m.link
  heads : m.mfAbs + m.minMatchCheck ≤ inp.length → HeadsOk kind m.hashMask inp m.cbs node m.link m.head

/-- `Hash` and `Son` index the positions before the current one. -/
abbrev Indexes (inp : List Byte) (kind : MfKind) (m : MatchFinder) : Prop := IndexOf (Window m.cbs m.mfAbs) inp kind m

/-- `Hash` and `Son` index the current position, too. -/
abbrev Inserted (inp : List Byte) (kind : MfKind) (m : MatchFinder) : Prop :=
  IndexOf (fun a => Window m.cbs m.mfAbs a ∨ a = m.mfAbs) inp kind m

theorem Constants.lengths {kind : MfKind} {m : MatchFinder} (h : Constants kind m) :
    3 ≤ m.minMatchCheck ∧ m.minMatchCheck ≤ m.matchMaxLen ∧ m.numHashDirectBytes < m.minMatchCheck := by
  have hlong := h.long
  rcases h.kind with ⟨-, hmin, hnhd, -⟩ | ⟨-, hmin, hnhd, -⟩ <;> omega

/-- What a search that starts its walk leaves: the current position in its head cells, the walk's first candidate, which
heads its tree, and a report on its way. -/
structure Started (s u : State) (r : Nat × Nat × List MatchPair) : Prop where
  frame : u = s.withMf { s.session.mf with hash := u.session.mf.hash }
  hash : u.session.mf.hash.wf 0 = true
  heads : u.session.mf.head =
    headsInserted s.session.enc.mfKind s.session.mf.hashMask s.inp s.session.mf.mfAbs s.session.mf.head
  root : s.session.mf.names r.1 =
    s.session.mf.head (treeHead s.session.enc.mfKind s.session.mf.hashMask s.inp s.session.mf.mfAbs)
  stored : r.1 < 2 ^ 32
  reporting : Reporting s.inp (s.session.mf.limit s.inp) s.session.mf.mfAbs s.session.mf.cbs s.session.mf.link
    (s.session.mf.names r.1) s.session.mf.numHashDirectBytes r.2.1 r.2.2

theorem head_putHash {s : State} (hwf : s.session.mf.hash.wf 0 = true) {i v : Nat} (hv : v < 2 ^ 32) :
    (s.putHash i v).session.mf.head = Function.update s.session.mf.head i (s.session.mf.names v) :=
  names_read_write hwf hv

/-- The current position is live. -/
theorem names_mfPos {m : MatchFinder} (hcbs : 1 ≤ m.cbs) (hone : 1 ≤ m.mfPos.toNat) :
    m.names m.mfPos.toNat = some m.mfAbs := names_of_live (by rw [matchMinPos_eq]; omega)

theorem liveAt_iff {s : State} {q : Nat} : s.liveAt q = true ↔
    ∃ a, s.session.mf.names q = some a ∧ s.inp[a]? = s.inp[s.session.mf.mfAbs]? := by
  unfold State.liveAt MatchFinder.names
  rw [decide_eq_true_iff]
  split
  · next h => simp [h]
  · next h => simp [h]

/-! ### Short candidates -/

/-- A short candidate: a good pair at the newest position with its bytes. -/
structure ShortPair (inp : List Byte) (lim cur cbs : Nat) (p : MatchPair) : Prop where
  good : GoodPair inp lim cur cbs p
  newest : ∀ r, Window cbs cur r → key inp p.len r = key inp p.len cur → p.dist.toNat + r < cur

section Short

variable {inp : List Byte} {lim cur cbs len : Nat} {old heads : Links} {root : Option Nat} {p p' : MatchPair}

/-- A head that is exact for `len` bytes gives a short candidate where its first byte is the current one. -/
theorem shortPair_of_head {cell : Nat → Nat} (hnew : Newest (Window cbs cur) cell heads) (hexact : ExactHead inp len cell)
    (hinside : cur + lim ≤ inp.length) (hcbs : cbs ≤ 2 ^ 30 + 1) (htwo : 2 ≤ len) (hlen : len ≤ lim) {a : Nat}
    (hwin : Window cbs cur a) (ha : heads (cell cur) = some a) (hbyte : inp[a]? = inp[cur]?) :
    ShortPair inp lim cur cbs { len := len, dist := u32 (cur - a - 1) } ∧ key inp len a = key inp len cur ∧
      (u32 (cur - a - 1)).toNat + a + 1 = cur := by
  have hlt := hwin.1
  have hkey : key inp len a = key inp len cur := (hexact a cur (by omega) (by omega)).mpr
    ⟨(byteAt_eq_iff (by omega) (by omega)).mpr hbyte, hnew.cell cur a ha⟩
  obtain ⟨hgood, hdist⟩ := goodPair_of_candidate hcbs hwin htwo hlen hkey
  refine ⟨⟨hgood, fun r hr hrkey => ?_⟩, hkey, hdist⟩
  have hrlt := hr.1
  obtain ⟨-, hcell⟩ := (hexact r cur (by omega) (by omega)).mp hrkey
  obtain ⟨b, hb, hrb⟩ := hnew.newest r hr
  rw [hcell, ha] at hb
  cases hb
  dsimp only
  omega

/-- A shorter short candidate is no farther than a longer match. -/
theorem ShortPair.dist_le (h : ShortPair inp lim cur cbs p) (h' : GoodPair inp lim cur cbs p') (hlen : p.len ≤ p'.len)
    (hinside : cur + lim ≤ inp.length) : p.dist.toNat ≤ p'.dist.toNat := by
  have hbefore := h'.before
  have hnear := h'.near
  have hmost := h'.most
  have := h.newest (cur - (p'.dist.toNat + 1)) (by unfold Window; omega)
    (key_eq_of_le hlen (by omega) (by omega) h'.equal)
  omega

/-- Short candidates are a report on its way. -/
theorem reporting_of_short {start maxLen : Nat} {pairs : List MatchPair} (hinside : cur + lim ≤ inp.length)
    (hroot : ∀ r, Below cbs cur old root r → Window cbs cur r) (hone : 1 ≤ maxLen) (hbelow : maxLen < lim)
    (hshort : ∀ p ∈ pairs, ShortPair inp lim cur cbs p ∧ p.len ≤ maxLen + 1) (hsorted : InOrder pairs)
    (hlonger : ∀ p ∈ pairs, p.len ≤ maxLen ∨ ∀ c, root = some c →
      start ≤ p.len ∧ p.len < lim ∧ key inp (p.len + 1) c = key inp (p.len + 1) cur) :
    Reporting inp lim cur cbs old root start maxLen pairs := by
  refine ⟨fun p hp => (hshort p hp).1.good, hsorted, hone, hbelow, hlonger, fun p hp r hr hrkey => ?_⟩
  have hwin := hroot r hr
  have hlt := hwin.1
  exact (hshort p hp).1.newest r hwin (key_eq_of_le (hshort p hp).2 (by omega) (by omega) hrkey)

theorem reporting_nil {start maxLen : Nat} (hone : 1 ≤ maxLen) (hbelow : maxLen < lim) :
    Reporting inp lim cur cbs old root start maxLen [] :=
  ⟨by simp, List.Pairwise.nil, hone, hbelow, by simp, by simp⟩

end Short

theorem dropWalked_nil (cm short maxLen : Nat) : dropWalked cm (short, maxLen, []) = (cm, maxLen, []) := by
  simp [dropWalked]

theorem dropWalked_concat (cm short maxLen : Nat) (pairs : List MatchPair) (p : MatchPair) :
    dropWalked cm (short, maxLen, pairs ++ [p]) =
      if short = cm then (cm, 1, pairs) else (cm, maxLen, pairs ++ [p]) := by
  by_cases h : short = cm <;> simp [dropWalked, h]

/-- The short candidates of BT4 are a report on its way, where each live head gives one. If the longest is dropped, the walk
meets it first, and it beats the one kept. -/
theorem reporting_shortReport {inp : List Byte} {lim cur cbs pos cm cm2 cm3 : Nat} {old : Links} {names : Nat → Option Nat}
    {live2 live3 : Bool} (hinside : cur + lim ≤ inp.length) (hlim : 4 ≤ lim)
    (hroot : ∀ r, Below cbs cur old (names cm) r → Window cbs cur r)
    (h2 : live2 = true → ShortPair inp lim cur cbs { len := 2, dist := u32 (pos - cm2 - 1) })
    (h3 : live3 = true → ShortPair inp lim cur cbs { len := 3, dist := u32 (pos - cm3 - 1) } ∧
      ∃ a, names cm3 = some a ∧ key inp 3 a = key inp 3 cur) :
    Reporting inp lim cur cbs old (names cm) 0 (dropWalked cm (shortReport pos cm2 cm3 live2 live3)).2.1
      (dropWalked cm (shortReport pos cm2 cm3 live2 live3)).2.2 := by
  set p2 : MatchPair := { len := 2, dist := u32 (pos - cm2 - 1) } with hp2
  set p3 : MatchPair := { len := 3, dist := u32 (pos - cm3 - 1) } with hp3
  have nothing : Reporting inp lim cur cbs old (names cm) 0 1 [] := reporting_nil le_rfl (by omega)
  cases live3 with
  | false =>
    cases live2 with
    | false =>
      rw [show shortReport pos cm2 cm3 false false = (cm2, 1, []) from rfl, dropWalked_nil]
      exact nothing
    | true =>
      rw [show shortReport pos cm2 cm3 true false = (cm2, 2, [] ++ [p2]) from rfl, dropWalked_concat]
      split
      · exact nothing
      · exact reporting_of_short hinside hroot (show 1 ≤ 2 by decide) (show 2 < lim by omega)
          (by simpa using ⟨h2 rfl, by simp [hp2]⟩) (List.pairwise_singleton _ _) (by simp [hp2])
  | true =>
    obtain ⟨hshort3, a, ha, hkey⟩ := h3 rfl
    rw [show shortReport pos cm2 cm3 live2 true =
      (cm3, 3, (if live2 && !(true && decide (cm3 = cm2)) then [p2] else []) ++ [p3]) from rfl, dropWalked_concat]
    have hmem (p : MatchPair) (hp : p ∈ if live2 && !(true && decide (cm3 = cm2)) then [p2] else []) :
        p = p2 ∧ ShortPair inp lim cur cbs p2 := by
      obtain ⟨hcond, hp⟩ := List.mem_ite_nil_right.mp hp
      exact ⟨List.mem_singleton.mp hp, h2 (Bool.and_eq_true_iff.mp hcond).1⟩
    have hsorted : InOrder (if live2 && !(true && decide (cm3 = cm2)) then [p2] else []) := by
      split
      · exact List.pairwise_singleton _ _
      · exact List.Pairwise.nil
    generalize (if live2 && !(true && decide (cm3 = cm2)) then [p2] else []) = pairs at hmem hsorted
    split
    · next hsame =>
      refine reporting_of_short hinside hroot le_rfl (show 1 < lim by omega) (fun p hp => ?_) hsorted
        fun p hp => .inr fun c hc => ?_
      · obtain ⟨rfl, hshort⟩ := hmem p hp
        exact ⟨hshort, le_rfl⟩
      · obtain ⟨rfl, -⟩ := hmem p hp
        rw [← hsame, ha] at hc
        cases hc
        exact ⟨Nat.zero_le _, show 2 < lim by omega, hkey⟩
    · refine reporting_of_short hinside hroot (show 1 ≤ 3 by decide) (show 3 < lim by omega) (fun p hp => ?_)
        (List.pairwise_append.mpr ⟨hsorted, List.pairwise_singleton _ _, fun p hp b hb => ?_⟩) fun p hp => .inl ?_
      · rcases List.mem_append.mp hp with hold | hlast
        · obtain ⟨rfl, hshort⟩ := hmem p hold
          exact ⟨hshort, show 2 ≤ 3 + 1 by decide⟩
        · rw [List.mem_singleton.mp hlast]
          exact ⟨hshort3, show 3 ≤ 3 + 1 by decide⟩
      · obtain ⟨rfl, hshort⟩ := hmem p hp
        rw [List.mem_singleton.mp hb]
        exact ⟨show 2 < 3 by decide, hshort.dist_le hshort3.good (show 2 ≤ 3 by decide) hinside⟩
      · rcases List.mem_append.mp hp with hold | hlast
        · rw [(hmem p hold).1]
          exact show 2 ≤ 3 by decide
        · rw [List.mem_singleton.mp hlast]

/-! ### The start of a search -/

/-- What holds where a position is searched. -/
structure Searched (s : State) : Prop where
  index : Indexes s.inp s.session.enc.mfKind s.session.mf
  long : s.session.mf.mfAbs + s.session.mf.minMatchCheck ≤ s.inp.length

section Start

variable {s : State}

theorem Searched.inside (h : Searched s) : s.session.mf.mfAbs + s.session.mf.limit s.inp ≤ s.inp.length ∧
    s.session.mf.minMatchCheck ≤ s.session.mf.limit s.inp ∧ s.session.mf.limit s.inp ≤ s.session.mf.matchMaxLen := by
  have hlong := h.long
  have hlengths := h.index.constants.lengths
  unfold MatchFinder.limit
  omega

theorem Searched.below_window (h : Searched s) {v i : Nat} (hv : s.session.mf.names v = s.session.mf.head i) {r : Nat}
    (hr : Below s.session.mf.cbs s.session.mf.mfAbs s.session.mf.link (s.session.mf.names v) r) :
    Window s.session.mf.cbs s.session.mf.mfAbs r :=
  hr.window (h.index.trees h.long) fun c hc => (h.index.heads h.long).known i c (hv ▸ hc)

/-- A live head is a position before the current one. -/
theorem Searched.head_inside (h : Searched s) (i : Nat)
    (hlive : s.session.mf.matchMinPos < (s.session.mf.hash.read 0 i).toNat) :
    (s.session.mf.hash.read 0 i).toNat - 1 + s.session.mf.mfBase < s.session.mf.mfAbs :=
  ((h.index.heads h.long).known i _ (names_of_live hlive)).1

/-- How far back a live stored position is. -/
theorem Searched.distance (h : Searched s) {q a : Nat} (ha : s.session.mf.names q = some a) :
    s.session.mf.mfPos.toNat - q - 1 = s.session.mf.mfAbs - a - 1 := by
  have hone := h.index.started
  unfold MatchFinder.names at ha
  split at ha
  · cases ha
    unfold MatchFinder.mfAbs
    omega
  · cases ha

theorem dropWalked_fst (cm : Nat) (r : Nat × Nat × List MatchPair) : (dropWalked cm r).1 = cm := by
  unfold dropWalked
  split <;> rfl

/-- A live short head with the current first byte gives a short candidate. -/
theorem Searched.short (h : Searched s) {cell : Nat → Nat} {len : Nat}
    (hnew : Newest (Window s.session.mf.cbs s.session.mf.mfAbs) cell s.session.mf.head) (hexact : ExactHead s.inp len cell)
    (htwo : 2 ≤ len) (hlen : len ≤ s.session.mf.limit s.inp)
    (hlive : s.liveAt (s.session.mf.hash.read 0 (cell s.session.mf.mfAbs)).toNat = true) :
    ShortPair s.inp (s.session.mf.limit s.inp) s.session.mf.mfAbs s.session.mf.cbs
      { len := len
        dist := u32 (s.session.mf.mfPos.toNat - (s.session.mf.hash.read 0 (cell s.session.mf.mfAbs)).toNat - 1) } ∧
      ∃ a, s.session.mf.names (s.session.mf.hash.read 0 (cell s.session.mf.mfAbs)).toNat = some a ∧
        key s.inp len a = key s.inp len s.session.mf.mfAbs := by
  obtain ⟨a, ha, hbyte⟩ := liveAt_iff.mp hlive
  obtain ⟨hshort, hkey, -⟩ := shortPair_of_head hnew hexact h.inside.1 h.index.constants.cyclic.2 htwo hlen
    ((h.index.heads h.long).known _ a ha) ha hbyte
  rw [h.distance ha]
  exact ⟨hshort, a, ha, hkey⟩

theorem bt4Short_started (h : Searched s) (hk : s.session.enc.mfKind = .bt4) :
    ∃ r u, bt4Short s = .ok r u ∧ Started s u r := by
  obtain ⟨hinside, hmin, hmax⟩ := h.inside
  obtain ⟨-, hfour, hdirect, hfix⟩ : _ ∧ s.session.mf.minMatchCheck = 4 ∧ s.session.mf.numHashDirectBytes = 0 ∧
      s.session.mf.fixHashSize = 66560 := h.index.constants.kind.resolve_right fun hbt2 => by
    rw [hk] at hbt2
    cases hbt2.1
  have hheads := h.index.heads h.long
  set cur := s.session.mf.mfAbs with hcur
  set mask := s.session.mf.hashMask with hmask
  have h2 := twoHead_lt s.inp cur
  have h3 := threeHead_bounds s.inp cur
  have ht := treeHead_bt4_bounds mask s.inp cur
  have hh : currentHeads s = .ok (twoHead s.inp cur, threeHead s.inp cur, treeHead .bt4 mask s.inp cur) s :=
    currentHeads_ok.mpr ⟨_, _, _, _, getElem?_byteAt (by omega), getElem?_byteAt (by omega), getElem?_byteAt (by omega),
      getElem?_byteAt (by omega), rfl, rfl⟩
  have hrun := bt4Short_run (by omega) hh (by dsimp only; omega) (by dsimp only; omega) (by dsimp only; omega) (by omega)
    fun i hi => (h.head_inside i hi).trans (by omega)
  have hpos : s.session.mf.mfPos.toNat < 2 ^ 32 := BitVec.isLt _
  refine ⟨_, _, hrun, rfl, memory_write_wf (memory_write_wf (memory_write_wf h.index.hash)), ?_, ?_, ?_, ?_⟩
  · rw [State.putHeads, head_putHash (memory_write_wf (memory_write_wf h.index.hash)) hpos,
      head_putHash (memory_write_wf h.index.hash) hpos, head_putHash h.index.hash hpos, hk]
    change Function.update (Function.update (Function.update s.session.mf.head (twoHead s.inp cur)
      (s.session.mf.names s.session.mf.mfPos.toNat)) (threeHead s.inp cur) (s.session.mf.names s.session.mf.mfPos.toNat))
      (treeHead .bt4 mask s.inp cur) (s.session.mf.names s.session.mf.mfPos.toNat) = _
    rw [names_mfPos h.index.constants.cyclic.1 h.index.started]
    rfl
  · rw [dropWalked_fst, hk]
    rfl
  · rw [dropWalked_fst]
    exact BitVec.isLt _
  · rw [dropWalked_fst, hdirect]
    exact reporting_shortReport hinside (by omega) (fun r hr => h.below_window rfl hr)
      (fun hlive => (h.short (hheads.two hk) (twoHead_exact _) le_rfl (by omega) hlive).1)
      fun hlive => h.short (hheads.three hk) (threeHead_exact _) (by decide) (by omega) hlive

/-- What BT2 does before its walk, whatever it reports. -/
theorem bt2_started (h : Searched s) (hk : s.session.enc.mfKind = .bt2) {maxLen : Nat} {pairs : List MatchPair}
    (hrep : Reporting s.inp (s.session.mf.limit s.inp) s.session.mf.mfAbs s.session.mf.cbs s.session.mf.link
      (s.session.mf.head (treeHead .bt2 s.session.mf.hashMask s.inp s.session.mf.mfAbs))
      s.session.mf.numHashDirectBytes maxLen pairs) :
    Started s (s.putHash (treeHead .bt2 s.session.mf.hashMask s.inp s.session.mf.mfAbs) s.session.mf.mfPos.toNat)
      ((s.session.mf.hash.read 0 (treeHead .bt2 s.session.mf.hashMask s.inp s.session.mf.mfAbs)).toNat, maxLen, pairs) where
  frame := rfl
  hash := memory_write_wf h.index.hash
  heads := by
    rw [head_putHash h.index.hash (BitVec.isLt _), names_mfPos h.index.constants.cyclic.1 h.index.started, hk]
    rfl
  root := by
    rw [hk]
    rfl
  stored := BitVec.isLt _
  reporting := hrep

/-- The candidates of the BT2 head share two bytes with the current position. -/
theorem Searched.key_two (h : Searched s) (hk : s.session.enc.mfKind = .bt2) {r : Nat}
    (hr : Below s.session.mf.cbs s.session.mf.mfAbs s.session.mf.link
      (s.session.mf.head (treeHead .bt2 s.session.mf.hashMask s.inp s.session.mf.mfAbs)) r) :
    key s.inp 2 r = key s.inp 2 s.session.mf.mfAbs := by
  obtain ⟨hinside, hmin, -⟩ := h.inside
  have hthree := h.index.constants.lengths.1
  have hlt := (h.below_window (v := (s.session.mf.hash.read 0 (treeHead .bt2 s.session.mf.hashMask s.inp
    s.session.mf.mfAbs)).toNat) rfl hr).1
  obtain ⟨a, ha, har⟩ := hr
  exact (treeHead_bt2_eq_iff (by omega) (by omega)).mp ((h.index.heads h.long).tree hk _ a r ha har)

theorem bt2Direct_started (h : Searched s) (hk : s.session.enc.mfKind = .bt2) :
    ∃ r u, bt2Direct s = .ok r u ∧ Started s u r := by
  obtain ⟨hinside, hmin, hmax⟩ := h.inside
  obtain ⟨-, hthree, hdirect, hfix, hmask⟩ : _ ∧ s.session.mf.minMatchCheck = 3 ∧ s.session.mf.numHashDirectBytes = 2 ∧
      s.session.mf.fixHashSize = 0 ∧ s.session.mf.hashMask = 0xFFFF := h.index.constants.kind.resolve_left fun hbt4 => by
    rw [hk] at hbt4
    cases hbt4.1
  set cur := s.session.mf.mfAbs with hcur
  set cell := treeHead .bt2 s.session.mf.hashMask s.inp cur with hcell
  set cm := (s.session.mf.hash.read 0 cell).toNat with hcm
  have hcellLt : cell < 65536 := treeHead_bt2_lt _ _ _
  have hi : cell ≤ s.session.mf.fixHashSize + s.session.mf.hashMask := by omega
  have hh : currentHead2 s = .ok cell s :=
    currentHead2_ok.mpr ⟨_, _, getElem?_byteAt (by omega), getElem?_byteAt (by omega), rfl, rfl⟩
  have nothing : Started s (s.putHash cell s.session.mf.mfPos.toNat) (cm, 1, []) :=
    bt2_started h hk (reporting_nil le_rfl (by omega))
  rw [bt2Direct, act_bind_of_ok hh, act_bind, act_get]
  dsimp only
  rw [act_bind_of_ok (readHash_run hi), act_bind_of_ok (writeHash_run _ hi), ← hcm, ← hcur]
  by_cases hlive : s.session.mf.matchMinPos < cm
  swap
  · rw [if_neg hlive]
    exact ⟨_, _, rfl, nothing⟩
  obtain ⟨a, ha⟩ : ∃ a, a = cm - 1 + s.session.mf.mfBase := ⟨_, rfl⟩
  have hname : s.session.mf.head cell = some a := by rw [ha]; exact names_of_live hlive
  have hwin := (h.index.heads h.long).known _ a hname
  have hlt := hwin.1
  obtain ⟨x, hx⟩ := exists_byte (show a + 2 < s.inp.length by omega)
  obtain ⟨y, hy⟩ := exists_byte (show cur + 2 < s.inp.length by omega)
  rw [if_pos hlive, act_bind_of_ok (storedByte_ok.mpr ⟨by rw [ha] at hx; exact hx, rfl⟩),
    act_bind_of_ok ((inByte_ok (s := s.putHash cell s.session.mf.mfPos.toNat)).mpr ⟨hy, rfl⟩)]
  by_cases hxy : x = y
  · rw [if_pos hxy]
    exact ⟨_, _, rfl, nothing⟩
  · have hkey : key s.inp 2 a = key s.inp 2 cur := h.key_two hk ⟨a, hname, .refl⟩
    have htwo : 2 ≤ s.session.mf.limit s.inp := by omega
    obtain ⟨hgood, hdist⟩ := goodPair_of_candidate h.index.constants.cyclic.2 hwin le_rfl htwo hkey
    rw [if_neg hxy, act_bind_of_ok
      ((reportPair_ok (s := s.putHash cell s.session.mf.mfPos.toNat)).mpr ⟨htwo.trans hmax, rfl, rfl⟩), h.distance hname]
    refine ⟨_, _, rfl, bt2_started h hk ⟨?_, List.pairwise_singleton _ _, by decide, by omega, ?_, ?_⟩⟩
    · simpa using hgood
    · simp
    · rintro p hp r ⟨b, hb, hbr⟩ -
      rw [List.mem_singleton.mp hp]
      rw [hname] at hb
      cases hb
      have hra := (h.index.trees h.long).reaches hwin hbr
      dsimp only
      omega

end Start

end Sys2Proof.Machine
end

section
/-!
PROOFS. A whole search on the index of the positions before (`42_match_finder.md` R240, R246, R250): it answers, what it
reports is good and in order, and what it leaves indexes one position more.
-/

namespace Sys2Proof.Machine

/-! ### The index after a move -/

section Moved

variable {m : MatchFinder}

theorem names_eq_some {v b : Nat} : m.names v = some b ↔ m.matchMinPos < v ∧ v - 1 + m.mfBase = b := by
  unfold MatchFinder.names
  split
  · next h => simp [h]
  · next h => simp [h]

/-- A stored position that a move keeps live names the same position; the others are dropped. -/
theorem MatchFinder.CellsMoved.names_iff {mem mem' : Memory Word} (h : m.CellsMoved mem mem') (hlow : 1 ≤ m.mfPos.toNat)
    (hpos : m.mfPos.toNat < 2 ^ 31 - 1) (hone : 1 ≤ m.cbs) (hcbs : m.cbs ≤ 2 ^ 30 + 1) {i b : Nat} :
    m.moved.names (mem'.read 0 i).toNat = some b ↔
      m.names (mem.read 0 i).toNat = some b ∧ m.mfAbs + 1 < b + m.cbs := by
  obtain ⟨hlt, hlast⟩ := h i
  rw [names_eq_some, names_eq_some, matchMinPos_eq, matchMinPos_eq, MatchFinder.mfAbs]
  rcases Nat.lt_or_ge (m.mfPos.toNat + 1) (2 ^ 31 - 1) with hcase | hcase
  · rw [hlt hcase, moved_of_lt hcase]
    dsimp only
    rw [word_add_one_toNat hpos]
    omega
  · have hkept := hlast (by omega)
    rw [moved_of_last (by omega)]
    dsimp only
    rw [u32_toNat (by omega)]
    unfold MatchFinder.excess at hkept ⊢
    split at hkept <;> omega

theorem nextSlot_eq {cur : Nat} (hone : 1 ≤ m.cbs) (h : m.cyclicPos = cur % m.cbs) : m.nextSlot = (cur + 1) % m.cbs := by
  have hlt := Nat.mod_lt cur (show m.cbs > 0 by omega)
  unfold MatchFinder.nextSlot
  rw [← Nat.mod_add_mod, ← h]
  split
  · next heq => rw [heq, Nat.mod_self]
  · next hne => exact (Nat.mod_eq_of_lt (by omega)).symm

theorem moved_constants (m : MatchFinder) : m.moved.cbs = m.cbs ∧ m.moved.matchMaxLen = m.matchMaxLen ∧
    m.moved.minMatchCheck = m.minMatchCheck ∧ m.moved.numHashDirectBytes = m.numHashDirectBytes ∧
    m.moved.fixHashSize = m.fixHashSize ∧ m.moved.hashMask = m.hashMask := by
  unfold MatchFinder.moved
  split <;> exact ⟨rfl, rfl, rfl, rfl, rfl, rfl⟩

variable {inp : List Byte} {kind : MfKind}

theorem Constants.moved (h : Constants kind m) : Constants kind m.moved := by
  obtain ⟨hcbs, hmax, hmin, hdirect, hfix, hmask⟩ := moved_constants m
  exact ⟨hcbs ▸ h.cyclic, hmax ▸ h.long, by rw [hmin, hdirect, hfix, hmask]; exact h.kind⟩

/-- A move after the current position is inserted leaves an index of the positions before the next. -/
theorem IndexOf.moved (h : Inserted inp kind m) : Indexes inp kind m.moved := by
  obtain ⟨hone, hcyclic⟩ := h.constants.cyclic
  obtain ⟨hsons, hhashes⟩ := moved_cells h.son h.hash
  obtain ⟨hlow, hhigh⟩ := moved_mfPos_bounds h.bounded hcyclic hone
  obtain ⟨hson, hhash⟩ := moved_wf h.son h.hash
  obtain ⟨hcbs, hmax, hmin, -, -, hmask⟩ := moved_constants m
  have hlengths := h.constants.lengths
  have habs := moved_mfAbs h.started h.bounded hcyclic hone
  have hlinks (i b : Nat) : m.moved.link i = some b ↔ m.link i = some b ∧ m.mfAbs + 1 < b + m.cbs :=
    hsons.names_iff h.started h.bounded hone hcyclic
  have hheads (i b : Nat) : m.moved.head i = some b ↔ m.head i = some b ∧ m.mfAbs + 1 < b + m.cbs :=
    hhashes.names_iff h.started h.bounded hone hcyclic
  have hkept (i b : Nat) (hb : m.moved.link i = some b) : m.link i = some b := ((hlinks i b).mp hb).1
  refine ⟨h.constants.moved, hlow, hhigh, ?_, hson, hhash, fun hlong => ?_, fun hlong => ?_⟩
  · rw [moved_cyclicPos, nextSlot_eq hone h.slot, habs, hcbs]
  · rw [habs, hmin] at hlong
    rw [MatchFinder.limit, habs, hcbs, hmax]
    refine (h.trees (by omega)).mono (fun a ha => ?_) hkept (fun a ha i b hb hlt => ⟨?_, ?_⟩) fun a b ha hb hab => ?_
    · unfold Window at ha ⊢
      omega
    · exact hlt.trans ha.1
    · exact ((hlinks i b).mp hb).2
    · unfold Window MatchFinder.limit at *
      exact key_le_of_le (by omega) (by omega) (by omega) hab
  · rw [habs, hmin] at hlong
    rw [habs, hcbs, hmask]
    exact (h.heads (by omega)).move hkept hheads

/-- Where too few bytes are left to search, any index will do. -/
theorem IndexOf.inserted_of_short (h : Indexes inp kind m) (hshort : ¬m.mfAbs + m.minMatchCheck ≤ inp.length) :
    Inserted inp kind m :=
  ⟨h.constants, h.started, h.bounded, h.slot, h.son, h.hash, fun hlong => absurd hlong hshort,
    fun hlong => absurd hlong hshort⟩

end Moved

/-! ### A search -/

section Search

variable {s u v : State} {r : Nat × Nat × List MatchPair} {pairs : List MatchPair}

theorem searchStart_started (h : Searched s) :
    ∃ r u, searchStart s.session.enc.mfKind s = .ok r u ∧ Started s u r := by
  cases hk : s.session.enc.mfKind with
  | bt4 => exact bt4Short_started h hk
  | bt2 => exact bt2Direct_started h hk

/-- The root of the tree in which the current position is searched. -/
def State.root (s : State) : Option Nat :=
  s.session.mf.head (treeHead s.session.enc.mfKind s.session.mf.hashMask s.inp s.session.mf.mfAbs)

theorem Searched.root_inside (h : Searched s) (c : Nat) (hc : s.root = some c) :
    Window s.session.mf.cbs s.session.mf.mfAbs c := (h.index.heads h.long).known _ c hc

/-- A candidate of the tree shares the bytes the head stands for. -/
theorem Searched.key_direct (h : Searched s) {c : Nat}
    (hc : Below s.session.mf.cbs s.session.mf.mfAbs s.session.mf.link s.root c) :
    key s.inp s.session.mf.numHashDirectBytes c = key s.inp s.session.mf.numHashDirectBytes s.session.mf.mfAbs := by
  rcases h.index.constants.kind with ⟨-, -, hdirect, -⟩ | ⟨hk, -, hdirect, -⟩
  · rw [hdirect, key_zero, key_zero]
  · rw [hdirect]
    unfold State.root at hc
    rw [hk] at hc
    exact h.key_two hk hc

theorem Started.walkAt (h : Searched s) (hu : Started s u r) :
    WalkAt s.inp (s.session.mf.limit s.inp) s.session.mf.mfAbs s.session.mf.cbs s.session.mf.link s.root u r.1
      (2 * s.session.mf.cyclicPos + 1) (2 * s.session.mf.cyclicPos) s.session.mf.numHashDirectBytes
      s.session.mf.numHashDirectBytes := by
  obtain ⟨hinside, hmin, hmax⟩ := h.inside
  have hlengths := h.index.constants.lengths
  have hcyclic := h.index.constants.cyclic
  have hframe := hu.frame
  have hroot : s.session.mf.names r.1 = s.root := hu.root
  generalize u.session.mf.hash = hash at hframe
  subst hframe
  have hcand (side : Nat) (hs : side < 2) := childSlot_lt (a := s.session.mf.mfAbs) hcyclic.1 hs
  rw [h.index.slot]
  refine ⟨⟨rfl, rfl, rfl, h.index.slot, h.index.started, h.index.son, hcyclic, hinside, hmax⟩,
    TreeWalking.start _ _ _ _ _ _, fun c hc => ⟨c, hroot.symm.trans hc, .refl⟩, fun c hc => ?_, fun c hc => ?_, hu.stored,
    hcand 1 (by decide), hcand 0 (by decide), by omega, by omega⟩
  · exact (h.key_direct (hroot ▸ hc)).ge
  · exact (h.key_direct (hroot ▸ hc)).le

/-- The walk inserts the current position. -/
theorem Started.walk (h : Searched s) (hu : Started s u r) :
    ∃ pairs v, walkFrom (s.session.mf.limit s.inp) true r.1 r.2.1 r.2.2 u = .ok pairs v ∧
      Walked s.inp (s.session.mf.limit s.inp) s.session.mf.mfAbs s.session.mf.cbs s.session.mf.link s.root u v pairs := by
  have hwalk := hu.walkAt h
  have hrep := hu.reporting
  have hframe := hu.frame
  generalize u.session.mf.hash = hash at hframe
  subst hframe
  exact treeWalk_inserts (h.index.trees h.long) h.root_inside _ hwalk (by rw [Nat.min_self]; exact hrep)

/-- What a walk leaves is the index with the current position inserted. -/
theorem Started.inserted (h : Searched s) (hu : Started s u r)
    (hv : Walked s.inp (s.session.mf.limit s.inp) s.session.mf.mfAbs s.session.mf.cbs s.session.mf.link s.root u v pairs) :
    Inserted s.inp s.session.enc.mfKind v.session.mf := by
  obtain ⟨cand, hinserted⟩ := hv.inserted
  obtain ⟨htrees, hold, hcur⟩ := hinserted.inserted (h.index.trees h.long) h.root_inside
  have hheads := (h.index.heads h.long).insert hold hcur
  have hson := hv.son
  have hhash := hu.hash
  have hframe := hu.frame
  have hframe' := hv.frame
  rw [← hu.heads] at hheads
  generalize v.session.mf.son = son at hframe' hson
  generalize u.session.mf.hash = hash at hframe hhash
  subst hframe
  subst hframe'
  obtain ⟨hcyclic, hlong, hkind⟩ := h.index.constants
  exact ⟨⟨hcyclic, hlong, hkind⟩, h.index.started, h.index.bounded, h.index.slot, hson, hhash,
    fun _ => htrees, fun _ => hheads⟩

theorem Walked.withMf {inp : List Byte} {lim cur cbs : Nat} {old : Links} {root : Option Nat}
    (hv : Walked inp lim cur cbs old root u v pairs) (hu : Started s u r) :
    ∃ m, m.mfAbs = s.session.mf.mfAbs ∧ v = s.withMf m := by
  have hframe := hv.frame
  rw [hu.frame] at hframe
  exact ⟨{ s.session.mf with son := v.session.mf.son, hash := u.session.mf.hash }, rfl, hframe⟩

/-- What a search answers. -/
structure Answers (s t : State) (pairs : List MatchPair) : Prop where
  frame : t = s.withMf t.session.mf
  index : Indexes s.inp s.session.enc.mfKind t.session.mf
  position : t.session.mf.mfAbs = s.session.mf.mfAbs + 1
  good : ∀ p ∈ pairs, GoodPair s.inp (s.session.mf.limit s.inp) s.session.mf.mfAbs s.session.mf.cbs p
  sorted : InOrder pairs

/-- After the current position is inserted, the move ends the search. -/
theorem IndexOf.search_ends {m : MatchFinder} (h : Inserted s.inp s.session.enc.mfKind m)
    (habs : m.mfAbs = s.session.mf.mfAbs)
    (hgood : ∀ p ∈ pairs, GoodPair s.inp (s.session.mf.limit s.inp) s.session.mf.mfAbs s.session.mf.cbs p)
    (hsorted : InOrder pairs) :
    ∃ ps t, (movePos >>= fun _ => pure pairs) (s.withMf m) = .ok ps t ∧ Answers s t ps := by
  obtain ⟨hone, hcyclic⟩ := h.constants.cyclic
  rw [act_bind_of_ok (movePos_eq (s := s.withMf m) h.bounded hcyclic rfl)]
  exact ⟨pairs, _, rfl, rfl, h.moved, habs ▸ moved_mfAbs h.started h.bounded hcyclic hone, hgood, hsorted⟩

/-- On the index of the positions before, GetMatches answers. -/
theorem IndexOf.getMatches_answers (h : Indexes s.inp s.session.enc.mfKind s.session.mf) :
    ∃ pairs t, getMatches s = .ok pairs t ∧ Answers s t pairs := by
  have hlengths := h.constants.lengths
  have hlimit := lengthLimit_eq (s := s) (by omega) (by omega)
  by_cases hlong : s.session.mf.mfAbs + s.session.mf.minMatchCheck ≤ s.inp.length
  · rw [if_pos hlong, ← MatchFinder.limit] at hlimit
    obtain ⟨r, u, hstart, hu⟩ := searchStart_started ⟨h, hlong⟩
    obtain ⟨pairs, v, hwalk, hv⟩ := hu.walk ⟨h, hlong⟩
    have hinserted := hu.inserted ⟨h, hlong⟩ hv
    obtain ⟨m, habs, rfl⟩ := hv.withMf hu
    rw [getMatches_searched hlimit, act_bind_of_ok hstart, act_bind_of_ok hwalk]
    exact hinserted.search_ends habs hv.good hv.sorted
  · rw [if_neg hlong] at hlimit
    rw [getMatches_unsearched hlimit]
    exact (h.inserted_of_short hlong).search_ends rfl (by simp) List.Pairwise.nil

end Search

end Sys2Proof.Machine
end

section
/-!
PROOFS. GetMatches reads `In`, the match finder and its kind only (`42_match_finder.md` R240): two states that agree on these
run alike.
-/

namespace Sys2Proof.Machine

/-- `s` where the match finder reads, `r` elsewhere. -/
def State.onto (r s : State) : State :=
  { r with
    inp := s.inp
    session := { r.session with
      mf := s.session.mf, enc := { r.session.enc with mfKind := s.session.enc.mfKind } } }

/-- The result of an action with the state it ends or stops in put onto `r`. -/
def ontoResult {α : Type} (r : State) : EStateM.Result Abort State α → EStateM.Result Abort State α
  | .ok x t => .ok x (r.onto t)
  | .error e t => .error e (r.onto t)

/-- The action reads and writes nothing but what the match finder reads. -/
def Act.Searches {α : Type} (a : Act α) : Prop := ∀ r s, a (r.onto s) = ontoResult r (a s)

/-! ### The rules -/

theorem Act.Searches.pure {α : Type} (x : α) : Act.Searches (Pure.pure x : Act α) := fun _ _ => rfl

theorem Act.Searches.raise {α : Type} (c : FaultClass) (k : Nat) : Act.Searches (Machine.raise c k : Act α) :=
  fun _ _ => rfl

theorem Act.Searches.bind {α β : Type} {a : Act α} {f : α → Act β} (ha : Act.Searches a) (hf : ∀ x, Act.Searches (f x)) :
    Act.Searches (a >>= f) := by
  intro r s
  rw [act_bind, act_bind, ha r s]
  cases a s with
  | ok x t => exact hf x r t
  | error e t => rfl

/-- An action that goes on with what it reads of the state. -/
theorem Act.Searches.get_bind {α : Type} {f : State → Act α} (hread : ∀ r s : State, f (r.onto s) = f s)
    (hf : ∀ s, Act.Searches (f s)) : Act.Searches (MonadState.get >>= f) := by
  intro r s
  rw [act_bind, act_bind, act_get, act_get]
  dsimp only
  rw [hread]
  exact hf s r s

theorem Act.Searches.ite {α : Type} {c : Prop} [Decidable c] {a b : Act α} (ha : Act.Searches a) (hb : Act.Searches b) :
    Act.Searches (if c then a else b) := by
  split
  · exact ha
  · exact hb

/-- A step taken where `c` holds. -/
theorem Act.Searches.when {α β : Type} {c : Prop} [Decidable c] {a : Act α} {x : α} {f : α → Act β} (ha : Act.Searches a)
    (hf : ∀ x, Act.Searches (f x)) : Act.Searches (if c then a >>= f else Pure.pure x >>= f) :=
  .ite (.bind ha hf) (.bind (.pure x) hf)

/-- A run of a state that another is put onto. -/
theorem Act.Searches.of_onto {α : Type} {a : Act α} (h : Act.Searches a) {r s v : State} {x : α}
    (ha : a (r.onto s) = .ok x v) : ∃ t, a s = .ok x t ∧ r.onto t = v := by
  rw [h r s] at ha
  cases hs : a s with
  | error e t => rw [hs] at ha; cases ha
  | ok y t => rw [hs] at ha; cases ha; exact ⟨t, rfl, rfl⟩

/-! ### The operations of the match finder -/

theorem mapMf_searches (f : MatchFinder → MatchFinder) : Act.Searches (mapMf f) := fun _ _ => rfl

theorem inByte_searches (a : Nat) : Act.Searches (inByte a) :=
  .get_bind (fun _ _ => rfl) fun s => by
    cases s.inp[a]? with
    | none => exact .raise _ _
    | some b => exact .pure b

theorem storedByte_searches (q k : Nat) : Act.Searches (storedByte q k) :=
  .get_bind (fun _ _ => rfl) fun _ => inByte_searches _

theorem readSon_searches (i : Nat) : Act.Searches (readSon i) :=
  .get_bind (fun _ _ => rfl) fun _ => .ite (.pure _) (.raise _ _)

theorem readHash_searches (i : Nat) : Act.Searches (readHash i) :=
  .get_bind (fun _ _ => rfl) fun _ => .ite (.pure _) (.raise _ _)

theorem writeSon_searches (i v : Nat) : Act.Searches (writeSon i v) :=
  .get_bind (fun _ _ => rfl) fun _ => .ite (mapMf_searches _) (.raise _ _)

theorem writeHash_searches (i v : Nat) : Act.Searches (writeHash i v) :=
  .get_bind (fun _ _ => rfl) fun _ => .ite (mapMf_searches _) (.raise _ _)

theorem reportPair_searches (ps : List MatchPair) (len dist : Nat) : Act.Searches (reportPair ps len dist) :=
  .get_bind (fun _ _ => rfl) fun _ => .ite (.raise _ _) (.pure _)

theorem extendMatch_searches (q len lim : Nat) : Act.Searches (extendMatch q len lim) :=
  .get_bind (fun _ _ => rfl) fun _ => .pure _

theorem closeWalk_searches (i j : Nat) : Act.Searches (closeWalk i j) :=
  .bind (writeSon_searches _ _) fun _ => writeSon_searches _ _

theorem graft_searches (i j c : Nat) : Act.Searches (graft i j c) :=
  .bind (readSon_searches _) fun _ => .bind (writeSon_searches _ _) fun _ =>
    .bind (readSon_searches _) fun _ => writeSon_searches _ _

theorem movePos_searches : Act.Searches movePos :=
  .bind (mapMf_searches _) fun _ => .get_bind (fun _ _ => rfl) fun _ => .ite (mapMf_searches _) (.pure _)

theorem treeWalk_searches (lim low : Nat) (report : Bool) (count q i j len0 len1 maxLen : Nat) (ps : List MatchPair) :
    Act.Searches (treeWalk lim low report count q i j len0 len1 maxLen ps) := by
  induction count generalizing q i j len0 len1 maxLen ps with
  | zero => exact .bind (closeWalk_searches _ _) fun _ => .pure _
  | succ count ih =>
    unfold treeWalk
    refine .ite (.bind (closeWalk_searches _ _) fun _ => .pure _) (.get_bind (fun _ _ => rfl) fun s => ?_)
    refine .bind (storedByte_searches _ _) fun x => .bind (inByte_searches _) fun y => ?_
    refine .when (extendMatch_searches _ _ _) fun len => .when (reportPair_searches _ _ _) fun ps => ?_
    refine .ite (.bind (graft_searches _ _ _) fun _ => .pure _) (.bind (storedByte_searches _ _) fun x => ?_)
    refine .bind (inByte_searches _) fun y => .ite ?_ ?_
    · exact .bind (writeSon_searches _ _) fun _ => .bind (readSon_searches _) fun _ => ih _ _ _ _ _ _ _
    · exact .bind (writeSon_searches _ _) fun _ => .bind (readSon_searches _) fun _ => ih _ _ _ _ _ _ _

theorem walkFrom_searches (lim : Nat) (report : Bool) (q maxLen : Nat) (ps : List MatchPair) :
    Act.Searches (walkFrom lim report q maxLen ps) :=
  .get_bind (fun _ _ => rfl) fun _ => treeWalk_searches _ _ _ _ _ _ _ _ _ _ _

theorem currentHeads_searches : Act.Searches currentHeads :=
  .get_bind (fun _ _ => rfl) fun _ => .bind (inByte_searches _) fun _ => .bind (inByte_searches _) fun _ =>
    .bind (inByte_searches _) fun _ => .bind (inByte_searches _) fun _ => .pure _

theorem currentHead2_searches : Act.Searches currentHead2 :=
  .get_bind (fun _ _ => rfl) fun _ => .bind (inByte_searches _) fun _ => .bind (inByte_searches _) fun _ => .pure _

theorem liveShort_searches (q : Nat) : Act.Searches (liveShort q) :=
  .get_bind (fun _ _ => rfl) fun _ =>
    .ite (.bind (storedByte_searches _ _) fun _ => .bind (inByte_searches _) fun _ => .pure _) (.pure _)

theorem bt4Short_searches : Act.Searches bt4Short := by
  refine .bind currentHeads_searches fun heads => .get_bind (fun _ _ => rfl) fun s => ?_
  refine .bind (readHash_searches _) fun cm => .bind (readHash_searches _) fun cm2 => ?_
  refine .bind (readHash_searches _) fun cm3 => .bind (writeHash_searches _ _) fun _ => ?_
  refine .bind (writeHash_searches _ _) fun _ => .bind (liveShort_searches _) fun live2 => ?_
  refine .when (reportPair_searches _ _ _) fun ps => .bind (liveShort_searches _) fun live3 => ?_
  refine .when (reportPair_searches _ _ _) fun ps => ?_
  exact .bind (writeHash_searches _ _) fun _ => .ite (.pure _) (.pure _)

theorem bt2Direct_searches : Act.Searches bt2Direct := by
  refine .bind currentHead2_searches fun head => .get_bind (fun _ _ => rfl) fun s => ?_
  refine .bind (readHash_searches _) fun cm => .bind (writeHash_searches _ _) fun _ => .ite ?_ (.pure _)
  refine .bind (storedByte_searches _ _) fun x => .bind (inByte_searches _) fun y => .ite (.pure _) ?_
  exact .bind (reportPair_searches _ _ _) fun _ => .pure _

theorem getMatches_searches : Act.Searches getMatches := by
  refine .get_bind (fun _ _ => rfl) fun s => ?_
  dsimp only
  cases lengthLimit s with
  | none => exact .bind movePos_searches fun _ => .pure _
  | some lim =>
    dsimp only
    cases s.session.enc.mfKind with
    | bt4 =>
      exact .bind bt4Short_searches fun _ => .bind (walkFrom_searches _ _ _ _ _) fun _ =>
        .bind movePos_searches fun _ => .pure _
    | bt2 =>
      exact .bind bt2Direct_searches fun _ => .bind (walkFrom_searches _ _ _ _ _) fun _ =>
        .bind movePos_searches fun _ => .pure _

end Sys2Proof.Machine
end

section
/-!
PROOFS. The report of GetMatches on the index of the positions before (`42_match_finder.md` R246, R250).
-/

namespace Sys2Proof.Machine

/-! ### Indexing from the start -/

/-- The match finder as ENC_OPEN opens it indexes nothing. -/
theorem indexes_opened (inp : List Byte) (kind : MfKind) {dict numFastBytes : Nat} (hdict : dict ≤ 2 ^ 30)
    (hfast : 5 ≤ numFastBytes) : Indexes inp kind (MatchFinder.opened kind dict numFastBytes) := by
  set m := MatchFinder.opened kind dict numFastBytes
  have hcbs : m.cbs = dict + 1 := rfl
  have noNode (a : Nat) : ¬Window m.cbs m.mfAbs a := fun ha => Nat.not_lt_zero a ha.1
  have noHead {i a : Nat} : ¬m.head i = some a := fun h => by cases h
  have newest (cell : Nat → Nat) : Newest (Window m.cbs m.mfAbs) cell m.head :=
    ⟨fun a ha => absurd ha (noNode a), fun _ _ h => absurd h noHead⟩
  refine ⟨⟨by omega, hfast, ?_⟩, Nat.le_refl 1, show 1 < 2 ^ 31 - 1 by decide, (Nat.zero_mod _).symm, rfl, rfl, fun _ => ?_,
    fun _ => ⟨fun _ _ h => absurd h noHead, fun _ => newest _, fun _ => newest _, fun _ _ _ _ h => absurd h noHead⟩⟩
  · cases kind with
    | bt4 => exact .inl ⟨rfl, rfl, rfl, rfl⟩
    | bt2 => exact .inr ⟨rfl, rfl, rfl, rfl, rfl⟩
  · exact ⟨fun a ha => absurd ha (noNode a), fun a ha => absurd ha (noNode a), fun a ha => absurd ha (noNode a)⟩

theorem indexes_of_tabulate {n i : Nat} {s t : State} {reports : List (List MatchPair)}
    (h : Indexes s.inp s.session.enc.mfKind s.session.mf) (hrun : tabulate (fun _ => getMatches) i n s = .ok reports t) :
    Indexes s.inp s.session.enc.mfKind t.session.mf := by
  induction n generalizing i s reports with
  | zero => rwa [(pure_ok.mp hrun).2]
  | succ n ih =>
    obtain ⟨pairs, u, hone, h0⟩ := act_bind_ok hrun
    obtain ⟨rest, v, hrest, h1⟩ := act_bind_ok h0
    obtain ⟨-, rfl⟩ := pure_ok.mp h1
    obtain ⟨ps, u', hone', hanswers⟩ := h.getMatches_answers
    cases hone'.symm.trans hone
    have hindex := hanswers.index
    obtain ⟨m, rfl⟩ : ∃ m, u = s.withMf m := ⟨_, hanswers.frame⟩
    exact ih (s := s.withMf m) hindex hrest

theorem tabulate_concat {α : Type} {f : Nat → Act α} {i n : Nat} {s t u : State} {xs : List α} {x : α}
    (h : tabulate f i n s = .ok xs t) (hlast : f (i + n) t = .ok x u) : tabulate f i (n + 1) s = .ok (xs ++ [x]) u := by
  induction n generalizing i s xs with
  | zero =>
    obtain ⟨rfl, rfl⟩ := pure_ok.mp h
    rw [Nat.add_zero] at hlast
    rw [tabulate, act_bind_of_ok hlast]
    rfl
  | succ n ih =>
    obtain ⟨y, v, hfirst, h0⟩ := act_bind_ok h
    obtain ⟨ys, w, hrest, h1⟩ := act_bind_ok h0
    obtain ⟨rfl, rfl⟩ := pure_ok.mp h1
    rw [tabulate, act_bind_of_ok hfirst, act_bind_of_ok (ih hrest (by rwa [Nat.succ_add_eq_add_succ]))]
    rfl

/-- The index of the positions before, and GetMatches from it. -/
theorem indexes_of_indexed {s : State} (hc : constantsOk s.session) (h : Indexed s) :
    Indexes s.inp s.session.enc.mfKind s.session.mf := by
  obtain ⟨-, hdict, -, hfast, -⟩ := hc
  obtain ⟨-, s0, t, reports, hinp, hkind, hmf, hrun, ht⟩ := h
  have := indexes_of_tabulate (s := s0) (by rw [hmf, hkind]; exact indexes_opened _ _ hdict hfast) hrun
  rwa [hinp, hkind, ht] at this

/-- GetMatches leaves an index again: from the state that the indexing left, it runs alike. -/
theorem Indexed.getMatches {s : State} {m : MatchFinder} {pairs : List MatchPair} (h : Indexed s)
    (hrun : getMatches s = .ok pairs (s.withMf m)) (habs : m.mfAbs = s.session.mf.mfAbs + 1) : Indexed (s.withMf m) := by
  obtain ⟨hdict, s0, t, reports, hinp, hkind, hmf, htab, ht⟩ := h
  obtain ⟨m', rfl⟩ : ∃ m', t = s0.withMf m' :=
    ⟨_, (Act.Within.tabulate mfFrame_preorder (fun _ => getMatches_frame) _ _).ok htab⟩
  have honto : s.onto (s0.withMf m') = s := by
    rw [State.onto, withMf_inp, withMf_enc, hinp, hkind, ht]
  rw [← honto] at hrun
  obtain ⟨w, hw, hwm⟩ := getMatches_searches.of_onto hrun
  refine ⟨hdict, s0, w, reports ++ [pairs], hinp, hkind, hmf, ?_, congrArg (·.session.mf) hwm⟩
  rw [withMf_mf, habs]
  exact tabulate_concat htab hw

/-- Settles O56: a position that is searched on the index of the positions before reports matches only, in order, and the
index with this position inserted is again one. -/
theorem reportedPairs : Obligations.ReportedPairs := by
  intro s hc hindexed p
  obtain ⟨pairs, t, hrun, hanswers⟩ := (indexes_of_indexed hc hindexed).getMatches_answers
  have hposition := hanswers.position
  have hgood := hanswers.good
  have hsorted := hanswers.sorted
  obtain ⟨m, rfl⟩ : ∃ m, t = s.withMf m := ⟨_, hanswers.frame⟩
  refine ⟨pairs, _, hrun, hindexed.getMatches hrun hposition, fun q hq => ?_, hsorted⟩
  obtain ⟨hleast, hmost, hbefore, hnear, hequal⟩ := hgood q hq
  obtain ⟨hcbs, -⟩ := hc
  unfold MatchFinder.limit at hmost
  refine ⟨fun j hj => ?_, hleast, by omega, by omega, hbefore, by omega⟩
  rw [← getElem?_eq_of_key (by omega) (by omega) hequal hj]
  congr 1
  omega

end Sys2Proof.Machine
end

section
/-!
PROOFS. The pos-slots of the distances (`43_state_and_symbols.md` R310, `30_encoding.md` R128).
-/

namespace Sys2Proof

/-- Settles O5: a distance from 4 on is the base of its slot and a footer, and that slot is the only one. -/
theorem posSlotCoversDistances : Obligations.PosSlotCoversDistances :=
  ⟨fun _ hd => ⟨posSlot_lt hd, posSlot_of_lt, posSlot_bounds⟩, fun _ _ hs _ hr => posSlot_slotBase_add hs hr⟩

end Sys2Proof
end

section
/-!
PROOFS. The coder state and the rep set after a symbol (`43_state_and_symbols.md` R270, R273), also where it faults.
-/

namespace Sys2Proof.Machine

/-! ### CheckAndCopy leaves the session (R410, R411) -/

/-- No part of the session is changed. -/
def SessionKept (s t : State) : Prop := t.session = s.session

theorem sessionKept_preorder : Act.Preorder SessionKept where
  refl _ := rfl
  trans _ _ _ h1 h2 := h2.trans h1

theorem copyBytes_sessionKept (d n : Nat) : Act.Within SessionKept (copyBytes d n) := by
  have hR := sessionKept_preorder
  induction n with
  | zero => exact Act.Within.pure hR _
  | succ n ih =>
    refine Act.Within.bind hR (Act.Within.get hR) fun _ => Act.Within.bind hR (winRead_within hR _) fun _ => ?_
    exact Act.Within.bind hR (Act.Within.ofModify fun _ => rfl) fun _ => ih

theorem checkAndCopy_sessionKept (len : Nat) (isMatch : Bool) : Act.Within SessionKept (checkAndCopy len isMatch) := by
  have hR := sessionKept_preorder
  have hdone : Act.Within SessionKept (setPhase .done) := fun _ => rfl
  refine Act.Within.bind hR (Act.Within.get hR) fun _ => Act.Within.ite (Act.Within.ite ?_ (Act.Within.raise hR _ _)) ?_
  · split
    · exact Act.Within.ite hdone (Act.Within.raise hR _ _)
    · exact hdone
  · split
    · exact Act.Within.ite (Act.Within.raise hR _ _) (copyBytes_sessionKept _ _)
    · exact copyBytes_sessionKept _ _

/-! ### The rep set -/

/-- SHORTREP from before the start of the output faults before it changes anything (R403). -/
theorem symbolAct_shortRep_raises {s : State} (h : s.outPos ≤ s.session.reps.r0.toNat) :
    symbolAct .shortRep s = raise .dataError 2 s := by
  simp only [symbolAct, actShortRep, act_bind, act_get, act_ite, if_pos h]

/-- A symbol moves the rep set before any of its checks but SHORTREP's, and SHORTREP leaves it. -/
theorem symbolAct_reps (i : Instr) :
    Act.Within (fun s t => t.session.reps = symbolReps i s.session.reps) (symbolAct i) := by
  intro s
  have copies (len : Nat) (isMatch : Bool) :
      (finalState (checkAndCopy len isMatch (s.moved i))).session.reps = symbolReps i s.session.reps :=
    congrArg Session.reps (checkAndCopy_sessionKept len isMatch (s.moved i))
  cases i with
  | lit v =>
    rw [symbolAct_lit]
    rfl
  | shortRep =>
    rcases Nat.lt_or_ge s.session.reps.r0.toNat s.outPos with hnear | hfar
    · rw [symbolAct_shortRep hnear]
      rfl
    · rw [symbolAct_shortRep_raises hfar]
      rfl
  | matchSym len _ | endMark len => exact copies len true
  | rep0 len | rep1 len | rep2 len | rep3 len => exact copies len false
  | nop | encOpen | encStep | decOpen | decStep | close => rfl

/-- A fault leaves the rep set where the symbol has moved it (R273, R451). -/
theorem exec_reps {i : Instr} (hi : i.isCommand = false) {s t : State} (h : exec i s = .next t) :
    t.session.reps = symbolReps i s.session.reps := by
  rw [exec_symbol hi] at h
  rcases (symbolAct_reps i).outcome h with hreps | ⟨c, k, u, hreps, rfl⟩
  · exact hreps
  · rwa [enterFault_session]

/-- Settles O40: the rows of the table are the cases of `symbolReps`. -/
theorem repSetUpdates : Obligations.RepSetUpdates :=
  fun _ _ => ⟨fun _ => exec_reps rfl, fun _ _ => exec_reps rfl, fun _ => exec_reps rfl, exec_reps rfl,
    fun _ => exec_reps rfl, fun _ => exec_reps rfl, fun _ => exec_reps rfl, fun _ => exec_reps rfl⟩

/-! ### The coder state -/

/-- Settles O41, by evaluation: the automaton has twelve states. -/
theorem stateTable : Obligations.StateTable := by
  unfold Obligations.StateTable
  decide

end Sys2Proof.Machine
end

section
/-!
PROOFS. The pending chain of GetOptimum (`44_optimal_parse.md` R329).
-/

namespace Sys2Proof.Machine

/-- A node inside the window is read without a fault. -/
theorem readNode_ok {s : State} {i : Nat} (h : i < 4096) :
    readNode i s = .ok (s.session.opt.nodes.read optZero i) s := by
  simp only [readNode, act_bind, act_get, if_pos h, act_pure]

/-- Settles O58: the pending branch of GetOptimum reads one node and moves the cursor to its `posPrev`. -/
theorem pendingChainServed : Obligations.PendingChainServed := by
  intro s position hpending hcursor n
  rw [getOptimum, act_bind_of_ok (act_get s)]
  dsimp only
  rw [if_pos hpending, act_bind_of_ok (readNode_ok hcursor)]
  rfl

end Sys2Proof.Machine
end

section
/-!
PROOFS. The prices of symbols while every cell holds its start value (`41_bit_tree_and_prices.md` R201, R209;
`43_state_and_symbols.md` R303): a bit costs 64 whichever way it goes, so a tree of `k` bits costs `64 * k`.
-/

namespace Sys2Proof.Machine

/-! ### Sequences of actions that change nothing -/

theorem elemAt_ok {α : Type} {xs : List α} {i : Nat} {x : α} (h : xs[i]? = some x) (s : State) :
    elemAt xs i s = .ok x s := by
  rw [elemAt, h]
  rfl

theorem tabulate_range'_ok {α : Type} {f : Nat → Act α} {g : Nat → α} {s : State} {i n : Nat}
    (h : ∀ j, j < i + n → f j s = .ok (g j) s) : tabulate f i n s = .ok ((List.range' i n).map g) s := by
  induction n generalizing i with
  | zero => rfl
  | succ n ih =>
    rw [tabulate, act_bind_of_ok (h i (by omega)), act_bind_of_ok (ih fun j hj => h j (by omega))]
    rfl

/-- The table of an action that gives `g j` at each `j` and changes nothing. -/
theorem tabulate_ok {α : Type} {f : Nat → Act α} {g : Nat → α} {s : State} {n : Nat}
    (h : ∀ j, j < n → f j s = .ok (g j) s) : tabulate f 0 n s = .ok ((List.range n).map g) s := by
  rw [List.range_eq_range']
  exact tabulate_range'_ok fun j hj => h j (by omega)

/-- A table whose entries are all `x`. -/
theorem tabulate_const_ok {α : Type} {f : Nat → Act α} {x : α} {s : State} {n : Nat}
    (h : ∀ j, j < n → f j s = .ok x s) : tabulate f 0 n s = .ok (List.replicate n x) s := by
  rw [tabulate_ok h, List.map_const', List.length_range]

/-! ### Prices with fresh cells -/

theorem priceBit_probInit (b : Bool) : priceBit probInit b = 64 := by
  cases b <;> decide

/-- The cell lies inside its array (R49). -/
def State.HasCell (s : State) (c : Cell) : Prop := c.idx < c.arr.size s.session.props

/-- A walk of `n` bits from node `m` stays below node `top` where `2 ^ n * (m + 1) ≤ 2 * top`: its first node does. -/
theorem node_lt_of_walk {n m top : Nat} (h : 2 ^ (n + 1) * (m + 1) ≤ 2 * top) : m < top := by
  have : 2 ^ 1 * (m + 1) ≤ 2 ^ (n + 1) * (m + 1) :=
    Nat.mul_le_mul_right _ (Nat.pow_le_pow_right (by omega) (by omega))
  omega

/-- The rest of such a walk, after the bit `b`, stays below `top` as well. -/
theorem walk_child {n m top : Nat} (h : 2 ^ (n + 1) * (m + 1) ≤ 2 * top) (b : Bool) :
    2 ^ n * (2 * m + b.toNat + 1) ≤ 2 * top :=
  have := b.toNat_le
  calc 2 ^ n * (2 * m + b.toNat + 1) ≤ 2 ^ n * (2 * (m + 1)) := Nat.mul_le_mul_left _ (by omega)
    _ = 2 ^ (n + 1) * (m + 1) := by ring
    _ ≤ 2 * top := h

/-- The price of a length symbol with fresh cells (R303). -/
def freshLenPrice (sym : Nat) : Nat := if sym < 8 then 256 else if sym < 16 then 320 else 640

/-- The price of a pos-slot and its direct bits with fresh cells (R322). -/
def freshSlotPrice (slot : Nat) : Nat := if slot < 14 then 384 else 384 + 64 * (slotFooterBits slot - 4)

/-- The price of the footer of a distance below 128 with fresh cells (`temp` of R322). -/
def freshFooterPrice (d : Nat) : Nat := if d < 4 then 0 else 64 * slotFooterBits (posSlot d)

theorem posSlot_lt_14 {d : Nat} (h : d < 128) : posSlot d < 14 := by
  revert d
  decide

theorem footerNode_idx_lt {slot j : Nat} (hlo : 4 ≤ slot) (hhi : slot < 14) (hj : j < 2 ^ slotFooterBits slot) :
    (footerNode slot j).idx < 114 := by
  have hall : ∀ slot, slot < 14 → 4 ≤ slot → ∀ j, j < 2 ^ slotFooterBits slot → (footerNode slot j).idx < 114 := by
    decide
  exact hall slot hhi hlo j hj

section Fresh

variable {s : State} (hs : s.session.cells = Cells.init)
include hs

theorem cellPrice_fresh {c : Cell} (hc : s.HasCell c) (b : Bool) : cellPrice c b s = .ok 64 s := by
  have hget : s.session.cells.get c = probInit := by rw [hs, cells_init_get]
  have hread := readCell_ok hc (by rw [hs]; exact init_cells_reachable c)
  rw [cellPrice, act_bind_of_ok hread, hget, priceBit_probInit]
  rfl

theorem treePriceFrom_fresh {A : CellArray} {b top : Nat} (hA : b + top ≤ A.size s.session.props) (sym : Nat)
    {n m : Nat} (hm : 2 ^ n * (m + 1) ≤ 2 * top) : treePriceFrom A b sym n m s = .ok (64 * n) s := by
  induction n generalizing m with
  | zero => rfl
  | succ n ih =>
    have hc : s.HasCell ⟨A, b + m⟩ := (Nat.add_lt_add_left (node_lt_of_walk hm) b).trans_le hA
    rw [treePriceFrom, act_bind_of_ok (cellPrice_fresh hs hc _), act_bind_of_ok (ih (walk_child hm _)), act_pure,
      Nat.mul_succ, Nat.add_comm]

theorem bitTreePrice_fresh {A : CellArray} {b k : Nat} (hA : b + 2 ^ k ≤ A.size s.session.props) (sym : Nat) :
    bitTreePrice A b k sym s = .ok (64 * k) s :=
  treePriceFrom_fresh hs hA sym (by omega)

theorem treeReversePriceFrom_fresh {node : Nat → Cell} {top : Nat} (hnode : ∀ j, j < top → s.HasCell (node j))
    {n m : Nat} (sym : Nat) (hm : 2 ^ n * (m + 1) ≤ 2 * top) :
    treeReversePriceFrom node n m sym s = .ok (64 * n) s := by
  induction n generalizing m sym with
  | zero => rfl
  | succ n ih =>
    have hc := hnode m (node_lt_of_walk hm)
    rw [treeReversePriceFrom, act_bind_of_ok (cellPrice_fresh hs hc _), act_bind_of_ok (ih _ (walk_child hm _)),
      act_pure, Nat.mul_succ, Nat.add_comm]

theorem bitTreeReversePrice_fresh {node : Nat → Cell} {k : Nat} (hnode : ∀ j, j < 2 ^ k → s.HasCell (node j))
    (sym : Nat) : bitTreeReversePrice node k sym s = .ok (64 * k) s :=
  treeReversePriceFrom_fresh hs hnode sym (by omega)

/-- The three ranges of a length have one, two and two choice bits, before a tree of 3, 3 and 8 bits. -/
theorem lenPrice_fresh {L : CellArray} (hL : L.size s.session.props = 514) (sym : Nat) {ps : Nat} (hps : ps < 16) :
    lenPrice L sym ps s = .ok (freshLenPrice sym) s := by
  have choice {i : Nat} (hi : i < 2) (b : Bool) : cellPrice ⟨L, i⟩ b s = .ok 64 s :=
    cellPrice_fresh hs (c := ⟨L, i⟩) (show i < L.size s.session.props by omega) b
  have tree {b k : Nat} (hb : b + 2 ^ k ≤ 514) (v : Nat) : bitTreePrice L b k v s = .ok (64 * k) s :=
    bitTreePrice_fresh hs (hL ▸ hb) v
  unfold lenPrice freshLenPrice
  split
  · rw [act_bind_of_ok (choice (by omega) _), act_bind_of_ok (tree (by rw [lenLow]; omega) _)]
    rfl
  split
  · rw [act_bind_of_ok (choice (by omega) _), act_bind_of_ok (choice (by omega) _),
      act_bind_of_ok (tree (by rw [lenMid]; omega) _)]
    rfl
  · rw [act_bind_of_ok (choice (by omega) _), act_bind_of_ok (choice (by omega) _),
      act_bind_of_ok (tree (by rw [lenHigh]; omega) _)]
    rfl

theorem posSlotPrice_fresh {lps : Nat} (hlps : lps < 4) (slot : Nat) :
    posSlotPrice lps slot s = .ok (freshSlotPrice slot) s := by
  have hA : 64 * lps + 2 ^ 6 ≤ CellArray.posSlot.size s.session.props := by
    show _ ≤ 256
    omega
  rw [posSlotPrice, act_bind_of_ok (bitTreePrice_fresh hs hA slot), act_pure, freshSlotPrice, Nat.shiftLeft_eq]
  congr 1
  split <;> split <;> omega

theorem footerPrice_fresh {d : Nat} (hd : d < 128) : footerPrice d s = .ok (freshFooterPrice d) s := by
  unfold footerPrice freshFooterPrice
  split
  · rfl
  · next h =>
    obtain ⟨hslot, -⟩ := posSlot_bounds (Nat.not_lt.mp h)
    exact bitTreeReversePrice_fresh hs (fun j hj => footerNode_idx_lt hslot (posSlot_lt_14 hd) hj) _

end Fresh

end Sys2Proof.Machine
end

section
/-!
PROOFS. The price tables of a session that opens (`44_optimal_parse.md` R321 to R323, `70_reset_and_hazards.md` R485), in
closed form: what each fill leaves while the cells are fresh, and so what ENC_OPEN leaves.
-/

namespace Sys2Proof.Machine

/-! ### The price tables of a state -/

/-- `s` with the price tables `p`. -/
def State.withPrices (s : State) (p : Prices) : State := { s with session := { s.session with prices := p } }

theorem mapPrices_ok (f : Prices → Prices) (s : State) :
    mapPrices f s = .ok () (s.withPrices (f s.session.prices)) := rfl

/-! ### The distance and align tables (R322, R323) -/

/-- `dictLogFrom` does not stop below the logarithm it looks for. -/
theorem le_dictLogFrom {dictSize k fuel n : Nat} (hd : 2 ^ k ≤ dictSize) (hfuel : k ≤ n + fuel) :
    k ≤ dictLogFrom dictSize fuel n := by
  induction fuel generalizing n with
  | zero => exact hfuel
  | succ fuel ih =>
    unfold dictLogFrom
    split
    · next h => exact (Nat.pow_le_pow_iff_right (by omega)).mp (hd.trans h)
    · exact ih (by omega)

/-- The slots of a legal dictionary reach past those of the distances below 128. -/
theorem distTableSize_ge {dictSize : Nat} (hd : 2 ^ 12 ≤ dictSize) : 24 ≤ distTableSize dictSize :=
  Nat.mul_le_mul_left 2 (le_dictLogFrom hd (by omega))

theorem getElem?_map_range {i n : Nat} (h : i < n) (f : Nat → Nat) : ((List.range n).map f)[i]? = some (f i) := by
  rw [List.getElem?_map, List.getElem?_range h]
  rfl

/-- A row of `posSlotPrices` with fresh cells. -/
def freshSlotRow (tableSize : Nat) : List Nat :=
  (List.range tableSize).map freshSlotPrice ++ List.replicate (64 - tableSize) 0

theorem freshSlotRow_getElem? {tableSize slot : Nat} (h : slot < tableSize) :
    (freshSlotRow tableSize)[slot]? = some (freshSlotPrice slot) := by
  rw [freshSlotRow, List.getElem?_append_left (by simpa using h), getElem?_map_range h]

/-- An entry of `distancesPrices` with fresh cells. -/
def freshDistancePrice (d : Nat) : Nat := 384 + freshFooterPrice d

/-- `FillDistancesPrices()` with fresh cells. -/
def Prices.distancesFilled (tableSize : Nat) (p : Prices) : Prices :=
  { p with
    posSlotPrices := List.replicate 4 (freshSlotRow tableSize)
    distancesPrices := List.replicate 4 ((List.range 128).map freshDistancePrice)
    matchPriceCount := 0 }

/-- `FillAlignPrices()` with fresh cells. -/
def Prices.alignFilled (p : Prices) : Prices :=
  { p with alignPrices := List.replicate 16 256, alignPriceCount := 0 }

section Fresh

variable {s : State} (hs : s.session.cells = Cells.init)
include hs

theorem posSlotRow_fresh {lps : Nat} (hlps : lps < 4) (tableSize : Nat) :
    posSlotRow tableSize lps s = .ok (freshSlotRow tableSize) s := by
  rw [posSlotRow, act_bind_of_ok (tabulate_ok fun slot _ => posSlotPrice_fresh hs hlps slot)]
  rfl

theorem fillDistancesPrices_fresh (hdict : 2 ^ 12 ≤ s.session.props.dictSize) : fillDistancesPrices s =
    .ok () (s.withPrices (s.session.prices.distancesFilled (distTableSize s.session.props.dictSize))) := by
  have hsize := distTableSize_ge hdict
  rw [fillDistancesPrices, act_bind_of_ok (act_get s), act_bind_of_ok (tabulate_ok fun d hd => footerPrice_fresh hs hd),
    act_bind_of_ok (tabulate_const_ok fun lps hlps => posSlotRow_fresh hs hlps _),
    act_bind_of_ok (tabulate_const_ok (x := (List.range 128).map freshDistancePrice) fun lps hlps => ?_), mapPrices_ok]
  · rfl
  · rw [act_bind_of_ok (elemAt_ok (List.getElem?_replicate_of_lt hlps) s)]
    refine tabulate_ok fun d hd => ?_
    have hslot := posSlot_lt_14 hd
    rw [act_bind_of_ok (elemAt_ok (freshSlotRow_getElem? (by omega)) s),
      act_bind_of_ok (elemAt_ok (getElem?_map_range hd _) s), freshSlotPrice, if_pos hslot]
    rfl

theorem fillAlignPrices_fresh (p : Prices) : fillAlignPrices (s.withPrices p) = .ok () (s.withPrices p.alignFilled) := by
  have align (v : Nat) : bitTreeReversePrice alignNode 4 v (s.withPrices p) = .ok 256 (s.withPrices p) :=
    bitTreeReversePrice_fresh (s := s.withPrices p) hs (fun j hj => hj) v
  rw [fillAlignPrices, act_bind_of_ok (tabulate_const_ok fun v _ => align v)]
  rfl

end Fresh

/-! ### The length tables (R321) -/

/-- Of the 16 entries of a table, the first `n` are `new` and the others still `old`. -/
def filledTo {α : Type} (n : Nat) (new old : α) : List α := List.replicate n new ++ List.replicate (16 - n) old

theorem filledTo_getElem? {α : Type} {n i : Nat} (h : i < n) (new old : α) : (filledTo n new old)[i]? = some new := by
  rw [filledTo, List.getElem?_append_left (by simpa using h), List.getElem?_replicate_of_lt h]

theorem filledTo_set {α : Type} {n : Nat} (h : n < 16) (new old : α) :
    (filledTo n new old).set n new = filledTo (n + 1) new old := by
  obtain ⟨k, hk⟩ : ∃ k, 16 - n = k + 1 := ⟨15 - n, by omega⟩
  have hk' : 16 - (n + 1) = k := by omega
  rw [filledTo, filledTo, hk, hk', List.set_append_right _ _ (by simp), List.length_replicate, Nat.sub_self,
    List.replicate_succ, List.set_cons_zero, List.replicate_succ', List.append_assoc]
  rfl

/-- A row of `lenPrices` or `repLenPrices` with fresh cells. -/
def freshLenRow (n : Nat) : List Nat := (List.range n).map freshLenPrice

/-- The length tables with the first `k` pos-states filled and the others as they are cleared. -/
def Prices.lenFilledTo (k : Nat) (p : Prices) : Prices :=
  { p with
    lenPrices := filledTo k (freshLenRow p.lenTableSize) (List.replicate p.lenTableSize 0)
    repLenPrices := filledTo k (freshLenRow p.lenTableSize) (List.replicate p.lenTableSize 0)
    lenCounter := filledTo k p.lenTableSize 0
    repLenCounter := filledTo k p.lenTableSize 0 }

/-- `UpdateLenTable(LenC, ps)` with fresh cells. -/
def Prices.lenUpdated (ps : Nat) (p : Prices) : Prices :=
  { p with
    lenPrices := p.lenPrices.set ps (freshLenRow p.lenTableSize)
    lenCounter := p.lenCounter.set ps p.lenTableSize }

/-- `UpdateLenTable(RepLenC, ps)` with fresh cells. -/
def Prices.repLenUpdated (ps : Nat) (p : Prices) : Prices :=
  { p with
    repLenPrices := p.repLenPrices.set ps (freshLenRow p.lenTableSize)
    repLenCounter := p.repLenCounter.set ps p.lenTableSize }

theorem lenFilledTo_succ {ps : Nat} (hps : ps < 16) (p : Prices) :
    ((p.lenFilledTo ps).lenUpdated ps).repLenUpdated ps = p.lenFilledTo (ps + 1) := by
  simp only [Prices.lenFilledTo, Prices.lenUpdated, Prices.repLenUpdated, filledTo_set hps]

/-- The price tables of a session that opens with `2 ^ pb` pos-states. -/
def Prices.opened (numFastBytes dictSize pb : Nat) : Prices :=
  (((Prices.cleared numFastBytes).distancesFilled (distTableSize dictSize)).alignFilled).lenFilledTo (2 ^ pb)

section Fresh

variable {s : State} (hs : s.session.cells = Cells.init)
include hs

theorem lenRow_fresh {L : CellArray} (hL : L.size s.session.props = 514) {ps : Nat} (hps : ps < 16) (n : Nat)
    (p : Prices) : tabulate (fun i => lenPrice L i ps) 0 n (s.withPrices p) = .ok (freshLenRow n) (s.withPrices p) :=
  tabulate_ok fun i _ => lenPrice_fresh (s := s.withPrices p) hs hL i hps

theorem updateLenTable_fresh {ps : Nat} (hps : ps < 16) (p : Prices) :
    updateLenTable ps (s.withPrices p) = .ok () (s.withPrices (p.lenUpdated ps)) := by
  rw [updateLenTable, act_bind_of_ok (act_get _), act_bind_of_ok (lenRow_fresh hs rfl hps _ p)]
  rfl

theorem updateRepLenTable_fresh {ps : Nat} (hps : ps < 16) (p : Prices) :
    updateRepLenTable ps (s.withPrices p) = .ok () (s.withPrices (p.repLenUpdated ps)) := by
  rw [updateRepLenTable, act_bind_of_ok (act_get _), act_bind_of_ok (lenRow_fresh hs rfl hps _ p)]
  rfl

theorem fillLenTables_fresh {ps n : Nat} (h : ps + n ≤ 16) (p : Prices) :
    fillLenTables ps n (s.withPrices (p.lenFilledTo ps)) = .ok () (s.withPrices (p.lenFilledTo (ps + n))) := by
  induction n generalizing ps with
  | zero => rfl
  | succ n ih =>
    have hps : ps < 16 := by omega
    rw [fillLenTables, act_bind_of_ok (updateLenTable_fresh hs hps _),
      act_bind_of_ok (updateRepLenTable_fresh hs hps _), lenFilledTo_succ hps, ih (by omega), Nat.add_right_comm,
      Nat.add_assoc]

/-! ### The session start (R370, R485) -/

theorem fillPrices_fresh {numFastBytes : Nat} (hcleared : s.session.prices = Prices.cleared numFastBytes)
    (hdict : 2 ^ 12 ≤ s.session.props.dictSize) (hpb : s.session.props.pb ≤ 4) :
    fillPrices s =
      .ok () (s.withPrices (Prices.opened numFastBytes s.session.props.dictSize s.session.props.pb)) := by
  have hstates : 0 + 2 ^ s.session.props.pb ≤ 16 := by
    rw [Nat.zero_add]
    exact Nat.pow_le_pow_right (n := 2) (by omega) hpb
  rw [fillPrices, act_bind_of_ok (fillDistancesPrices_fresh hs hdict), hcleared,
    act_bind_of_ok (fillAlignPrices_fresh hs _), act_bind_of_ok (act_get _)]
  -- No pos-state is filled yet, and the length tables are still cleared: they are at `lenFilledTo 0`.
  have hlen := fillLenTables_fresh hs hstates
    ((Prices.cleared numFastBytes).distancesFilled (distTableSize s.session.props.dictSize)).alignFilled
  rw [Nat.zero_add] at hlen
  exact hlen

end Fresh

/-- A configuration passes the checks of ENC_OPEN when it is within their bounds (R453). -/
theorem configCheck_none_iff {cfg dict : Word} : configCheck cfg dict = none ↔
    cfgLc cfg ≤ 8 ∧ cfgLp cfg ≤ 4 ∧ cfgPb cfg ≤ 4 ∧ (5 ≤ cfgNumFastBytes cfg ∧ cfgNumFastBytes cfg ≤ 273) ∧
      (2 ^ 12 ≤ dict.toNat ∧ dict.toNat ≤ 2 ^ 30) ∧ cfgReserved cfg = 0 := by
  simp [configCheck, ite_eq_iff]

/-- The state ENC_OPEN fills the price tables in. -/
def State.encOpening (s : State) : State :=
  { s with regs := openEncRegs s.regs, session := encoderSession s.regs.cfg s.regs.dict s.session, out := [] }

/-- The state a legal ENC_OPEN ends in. -/
def State.encOpened (s : State) : State :=
  (s.encOpening.withPrices (Prices.opened (cfgNumFastBytes s.regs.cfg) s.regs.dict.toNat (cfgPb s.regs.cfg))).mapRegs
    fun r => { r with phase := .encReady }

/-- ENC_OPEN with a legal configuration opens the session. -/
theorem exec_encOpen {s : State} (hphase : mayOpen s.regs.phase = true)
    (hcheck : configCheck s.regs.cfg s.regs.dict = none) : exec .encOpen s = .next s.encOpened := by
  obtain ⟨-, -, hpb, -, ⟨hdict, -⟩, -⟩ := configCheck_none_iff.mp hcheck
  apply outcome_ok
  rw [actEncOpen, inPhase, act_bind_of_ok (act_get s), if_pos hphase, act_bind_of_ok (act_get s), hcheck]
  have hfill := fillPrices_fresh (s := s.encOpening) rfl rfl hdict hpb
  -- The three writes before the fills lead to `encOpening`.
  exact (act_bind_of_ok (act_modify _ _) _).trans <| (act_bind_of_ok (act_modify _ _) _).trans <|
    (act_bind_of_ok (act_modify _ _) _).trans <| act_bind_of_ok hfill _

/-- ENC_OPEN with an illegal configuration takes the fault of the check that fails (R453). -/
theorem exec_encOpen_refused {s : State} {k : Nat} (hphase : mayOpen s.regs.phase = true)
    (hcheck : configCheck s.regs.cfg s.regs.dict = some k) :
    exec .encOpen s = .next (enterFault .configError (u8 k) s) := by
  apply outcome_raised
  rw [actEncOpen, inPhase, act_bind_of_ok (act_get s), if_pos hphase, act_bind_of_ok (act_get s), hcheck]
  rfl

/-- An entry of a table by rows. -/
theorem row_bind {rows : List (List Nat)} {row : List Nat} {k i x : Nat} (hrow : rows[k]? = some row)
    (hx : row[i]? = some x) : (rows[k]?.bind fun row => row[i]?) = some x := by
  rw [hrow]
  exact hx

theorem freshDistancePrice_eq (d : Nat) :
    freshDistancePrice d = if d < 4 then 384 else 384 + 64 * slotFooterBits (posSlot d) := by
  unfold freshDistancePrice freshFooterPrice
  split <;> rfl

/-- The length symbol is the length less 2 (R126). -/
theorem freshLenPrice_sub_two {len : Nat} (h : 2 ≤ len) :
    freshLenPrice (len - 2) = if len < 10 then 256 else if len < 18 then 320 else 640 := by
  have h8 : len - 2 < 8 ↔ len < 10 := by omega
  have h16 : len - 2 < 16 ↔ len < 18 := by omega
  simp only [freshLenPrice, h8, h16]

/-- The entry of a length in a length table of an opened session. -/
theorem lenTable_entry {n k ps len : Nat} (hps : ps < k) (hlo : 2 ≤ len) (hhi : len ≤ n) (old : List Nat) :
    ((filledTo k (freshLenRow (n - 1)) old)[ps]?.bind fun row => row[len - 2]?) =
      some (if len < 10 then 256 else if len < 18 then 320 else 640) := by
  rw [← freshLenPrice_sub_two hlo]
  exact row_bind (filledTo_getElem? hps _ _) (getElem?_map_range (by omega) _)

/-- Settles O16: an ENC_OPEN that opens a session passed its checks, and the tables are those of `Prices.opened`. -/
theorem encOpenFillsPrices : Obligations.EncOpenFillsPrices := by
  intro s t hphase hexec hready
  cases hcheck : configCheck s.regs.cfg s.regs.dict with
  | some k =>
    cases (exec_encOpen_refused hphase hcheck).symm.trans hexec
    cases hready
  | none =>
    cases (exec_encOpen hphase hcheck).symm.trans hexec
    refine ⟨fun lps d hlps hd => ?_, fun lps slot hlps hslot => ?_, fun i hi => List.getElem?_replicate_of_lt hi,
      fun ps len hps hlo hhi => ⟨lenTable_entry hps hlo hhi _, lenTable_entry hps hlo hhi _⟩,
      fun ps hps => ⟨filledTo_getElem? hps _ _, filledTo_getElem? hps _ _⟩, rfl, rfl⟩
    · rw [← freshDistancePrice_eq]
      exact row_bind (List.getElem?_replicate_of_lt hlps) (getElem?_map_range hd _)
    · exact row_bind (List.getElem?_replicate_of_lt hlps) (freshSlotRow_getElem? hslot)

end Sys2Proof.Machine
end

section
/-!
PROOFS. What the range encoder codes (`40_range_coder.md` R174, R176; `41_bit_tree_and_prices.md` R205, R206;
`43_state_and_symbols.md` R290 to R312): under the coder's invariant a field is coded without a fault, and two states with the
same cells, range encoder, `Out` and literal properties code it alike.
-/

namespace Sys2Proof.Machine

/-! ### Two states that code alike -/

/-- The cells and the range encoder allow any bit to be coded. -/
structure CoderOk (s : State) : Prop where
  coder : s.session.renc.valid
  reachable : s.session.cells.reachable
  canonical : s.session.cells.wf = true

/-- Two states with the same cells, range encoder, `Out` and literal properties. -/
structure CodesAs (s c : State) : Prop where
  cells : c.session.cells = s.session.cells
  coder : c.session.renc = s.session.renc
  lc : c.session.props.lc = s.session.props.lc
  lp : c.session.props.lp = s.session.props.lp
  out : c.out = s.out

theorem CodesAs.refl (s : State) : CodesAs s s := ⟨rfl, rfl, rfl, rfl, rfl⟩

theorem CodesAs.size {s c : State} (h : CodesAs s c) (a : CellArray) :
    a.size c.session.props = a.size s.session.props := by
  unfold CellArray.size
  rw [h.lc, h.lp]

/-- OUT_COUNT stays the length of `Out` (R39). -/
def Counted (s t : State) : Prop := s.regs.outCount = u32 s.out.length → t.regs.outCount = u32 t.out.length

theorem counted_preorder : Act.Preorder Counted where
  refl _ := id
  trans _ _ _ h h' := h' ∘ h

theorem emitByte_counted (b : Byte) : Act.Within Counted (emitByte b) := fun s _ => by
  simp [emitByte]

theorem mapRenc_counted (f : RangeEnc → RangeEnc) : Act.Within Counted (mapRenc f) := fun _ h => h

theorem emitRun_counted (carry n : Nat) (b : Byte) : Act.Within Counted (emitRun carry b n) := by
  induction n generalizing b with
  | zero => exact .pure counted_preorder _
  | succ n ih => exact .bind counted_preorder (emitByte_counted _) fun _ => ih _

theorem shiftLow_counted : Act.Within Counted shiftLow :=
  .bind counted_preorder (.get counted_preorder) fun _ =>
    .ite (.bind counted_preorder (emitRun_counted _ _ _) fun _ => mapRenc_counted _) (mapRenc_counted _)

theorem shiftLows_counted (n : Nat) : Act.Within Counted (shiftLows n) := by
  induction n with
  | zero => exact .pure counted_preorder _
  | succ n ih => exact .bind counted_preorder shiftLow_counted fun _ => ih

theorem encNormalize_counted : Act.Within Counted encNormalize :=
  .bind counted_preorder (.get counted_preorder) fun _ =>
    .ite (.bind counted_preorder (mapRenc_counted _) fun _ => shiftLow_counted) (.pure counted_preorder _)

/-- What an action that codes under the properties `p` does from two states that code alike. -/
structure Emitted (a : Act Unit) (s c t u : State) : Prop where
  run : a s = .ok () t
  run' : a c = .ok () u
  ok : CoderOk t
  alike : CodesAs t u
  frame : codeFrame s t
  frame' : codeFrame c u
  counted : Counted s t
  grows : s.out <+: t.out

/-- Under the properties `p` the action codes without a fault, and alike from states that code alike. -/
def Act.Emits (p : Props) (a : Act Unit) : Prop :=
  ∀ s c, s.session.props = p → CoderOk s → CodesAs s c → ∃ t u, Emitted a s c t u

theorem codeFrame_props {s t : State} (h : codeFrame s t) : t.session.props = s.session.props := by
  rw [h]

theorem Act.Emits.pure (p : Props) : Act.Emits p (Pure.pure ()) :=
  fun s c _ hok h => ⟨s, c, rfl, rfl, hok, h, rfl, rfl, id, List.prefix_rfl⟩

theorem Act.Emits.bind {p : Props} {a b : Act Unit} (ha : Act.Emits p a) (hb : Act.Emits p b) :
    Act.Emits p (a >>= fun _ => b) := by
  intro s c hp hok h
  obtain ⟨t, u, ht⟩ := ha s c hp hok h
  obtain ⟨v, w, hv⟩ := hb t u ((codeFrame_props ht.frame).trans hp) ht.ok ht.alike
  exact ⟨v, w, (act_bind_of_ok ht.run _).trans hv.run, (act_bind_of_ok ht.run' _).trans hv.run', hv.ok, hv.alike,
    codeFrame_preorder.trans _ _ _ ht.frame hv.frame, codeFrame_preorder.trans _ _ _ ht.frame' hv.frame', hv.counted ∘ ht.counted, ht.grows.trans hv.grows⟩

/-! ### The normalisation -/

/-- States whose coders and `Out` are alike stay so over the normalisation. -/
theorem encNormalize_alike {s c t u : State} (hholds : 1 ≤ s.session.renc.cacheSize) (h : CodesAs s c)
    (ht : encNormalize s = .ok () t) (hu : encNormalize c = .ok () u) : CodesAs t u := by
  obtain ⟨htcells, htcoder⟩ := encNormalize_coder hholds ht
  obtain ⟨hucells, hucoder⟩ := encNormalize_coder (h.coder ▸ hholds) hu
  have htprops := codeFrame_props (encNormalize_frame.ok ht)
  have huprops := codeFrame_props (encNormalize_frame.ok hu)
  rw [h.coder, h.out, ← htcoder, Prod.mk.injEq] at hucoder
  exact ⟨by rw [htcells, hucells, h.cells], hucoder.1, by rw [htprops, huprops, h.lc], by rw [htprops, huprops, h.lp],
    hucoder.2⟩

/-- The normalisation only appends to `Out`. -/
theorem encNormalize_grows {s t : State} (hholds : 1 ≤ s.session.renc.cacheSize) (h : encNormalize s = .ok () t) :
    s.out <+: t.out := by
  have hcoder := (encNormalize_coder hholds h).2
  split at hcoder
  · exact ⟨_, (congrArg Prod.snd hcoder).symm⟩
  · exact ⟨[], (List.append_nil _).trans (congrArg Prod.snd hcoder).symm⟩

theorem encodedBit_alike {s c : State} (h : CodesAs s c) (cell : Cell) (b : Bool) :
    CodesAs (encodedBit s cell b) (encodedBit c cell b) := by
  refine ⟨?_, ?_, h.lc, h.lp, h.out⟩
  · simp only [encodedBit, mapSession_session, h.cells]
  · simp only [encodedBit, mapSession_session, h.cells, h.coder]

/-! ### Bits -/

/-- A bit under a cell of the session. -/
theorem encodeBit_emits {p : Props} {cell : Cell} (hcell : cell.idx < cell.arr.size p) (b : Bool) :
    Act.Emits p (encodeBit cell b) := by
  intro s c hp hok h
  have hs : cell.idx < cell.arr.size s.session.props := hp ▸ hcell
  have hc : cell.idx < cell.arr.size c.session.props := by rwa [h.size]
  have hreach : probReachable (c.session.cells.get cell) := h.cells ▸ hok.reachable cell
  obtain ⟨t, ht, hvalid, hsession, -⟩ := encodeBit_ok b hs (hok.reachable cell) hok.coder
  obtain ⟨u, hu, -⟩ := encodeBit_ok b hc hreach (h.coder ▸ hok.coder)
  have hnt := (encodeBit_eq b hs (hok.reachable cell)).symm.trans ht
  have hnu := (encodeBit_eq b hc hreach).symm.trans hu
  refine ⟨t, u, ht, hu, ⟨hvalid, ?_, ?_⟩, ?_, (encodeBit_frame cell b).ok ht, (encodeBit_frame cell b).ok hu,
    encNormalize_counted.ok (s := encodedBit s cell b) hnt, encNormalize_grows (s := encodedBit s cell b) hok.coder.2.2 hnt⟩
  · rw [hsession]
    exact cells_put_reachable hok.canonical hok.reachable b
  · rw [hsession]
    exact cells_put_wf hok.canonical _ _
  · exact encNormalize_alike (s := encodedBit s cell b) hok.coder.2.2 (encodedBit_alike h cell b) hnt hnu

/-- The state after one direct bit and before its normalisation keeps the coder's invariant but for the width. -/
theorem encodedDirect_bounds {s : State} (h : s.session.renc.valid) (b : Bool) :
    2 ^ 16 ≤ (encodedDirect s b).session.renc.range.toNat ∧
      (encodedDirect s b).session.renc.low.toNat + (encodedDirect s b).session.renc.range.toNat < 2 ^ 33 ∧
      1 ≤ (encodedDirect s b).session.renc.cacheSize := by
  obtain ⟨hrange, hfits, hholds⟩ := h
  have hlt := s.session.renc.range.isLt
  have hoff : bitOffset (s.session.renc.range.toNat / 2) b ≤ s.session.renc.range.toNat / 2 := by
    unfold bitOffset
    split <;> omega
  simp only [encodedDirect, mapSession_session, RangeEnc.narrow, BitVec.toNat_ofNat]
  exact ⟨by omega, by omega, hholds⟩

theorem encodedDirect_alike {s c : State} (h : CodesAs s c) (b : Bool) :
    CodesAs (encodedDirect s b) (encodedDirect c b) :=
  ⟨h.cells, by simp only [encodedDirect, mapSession_session, h.coder], h.lc, h.lp, h.out⟩

theorem encodeDirectBits_emits (p : Props) (v n : Nat) : Act.Emits p (encodeDirectBits v n) := by
  induction n with
  | zero => exact Act.Emits.pure p
  | succ n ih =>
    intro s c hp hok h
    obtain ⟨hwide, hfits, hholds⟩ := encodedDirect_bounds hok.coder (v.testBit n)
    obtain ⟨hwide', hfits', hholds'⟩ := encodedDirect_bounds (s := c) (h.coder ▸ hok.coder) (v.testBit n)
    obtain ⟨t, ht, hvalid, hsession, -⟩ := encNormalize_ok hwide hfits hholds
    obtain ⟨u, hu, -⟩ := encNormalize_ok hwide' hfits' hholds'
    have hcells : t.session.cells = s.session.cells := by rw [hsession]; rfl
    have hok' : CoderOk t := ⟨hvalid, hcells ▸ hok.reachable, hcells ▸ hok.canonical⟩
    have halike := encNormalize_alike hholds (encodedDirect_alike h (v.testBit n)) ht hu
    obtain ⟨t', u', hrest⟩ := ih t u (by rw [hsession]; exact hp) hok' halike
    have hrun : encodeDirectBits v (n + 1) s = .ok () t' := by
      rw [encodeDirectBits_succ, act_bind_of_ok ht, hrest.run]
    have hrun' : encodeDirectBits v (n + 1) c = .ok () u' := by
      rw [encodeDirectBits_succ, act_bind_of_ok hu, hrest.run']
    exact ⟨t', u', hrun, hrun', hrest.ok, hrest.alike, (encodeDirectBits_frame v _).ok hrun,
      (encodeDirectBits_frame v _).ok hrun', hrest.counted ∘ encNormalize_counted.ok (s := encodedDirect s _) ht,
      (encNormalize_grows (s := encodedDirect s _) hholds ht).trans hrest.grows⟩

/-! ### Bit trees -/

/-- A walk of `n` bits from node `m` in a tree whose nodes below `top` are cells of the session. -/
theorem treeEncodeFrom_emits {p : Props} {A : CellArray} {b top : Nat} (htop : b + top ≤ A.size p) (sym : Nat) {n m : Nat}
    (hm : 2 ^ n * (m + 1) ≤ 2 * top) : Act.Emits p (treeEncodeFrom A b sym n m) := by
  induction n generalizing m with
  | zero => exact Act.Emits.pure p
  | succ n ih =>
    have := node_lt_of_walk hm
    exact (encodeBit_emits (show b + m < A.size p by omega) _).bind (ih (walk_child hm _))

theorem bitTreeEncode_emits {p : Props} {A : CellArray} {b k : Nat} (hsize : b + 2 ^ k ≤ A.size p) (sym : Nat) :
    Act.Emits p (bitTreeEncode A b k sym) := treeEncodeFrom_emits hsize sym (by omega)

theorem treeReverseEncodeFrom_emits {p : Props} {node : Nat → Cell} {top : Nat}
    (hnode : ∀ j, j < top → (node j).idx < (node j).arr.size p) {n m : Nat} (sym : Nat) (hm : 2 ^ n * (m + 1) ≤ 2 * top) :
    Act.Emits p (treeReverseEncodeFrom node n m sym) := by
  induction n generalizing m sym with
  | zero => exact Act.Emits.pure p
  | succ n ih => exact (encodeBit_emits (hnode m (node_lt_of_walk hm)) _).bind (ih _ (walk_child hm _))

theorem bitTreeReverseEncode_emits {p : Props} {node : Nat → Cell} {k : Nat}
    (hnode : ∀ j, j < 2 ^ k → (node j).idx < (node j).arr.size p) (sym : Nat) :
    Act.Emits p (bitTreeReverseEncode node k sym) := treeReverseEncodeFrom_emits hnode sym (by omega)

/-! ### The fields of a symbol -/

/-- The literal coder of a position lies inside the literal array (R44, R290). -/
theorem litBase_le {p : Props} (hlc : p.lc ≤ 8) (pos : Nat) (prev : Byte) :
    litBase p pos prev + 0x300 ≤ CellArray.literal.size p := by
  have hprev : prev.toNat >>> (8 - p.lc) < 2 ^ p.lc := by
    rw [Nat.shiftRight_eq_div_pow, Nat.div_lt_iff_lt_mul (Nat.two_pow_pos _), ← Nat.pow_add, Nat.add_sub_cancel' hlc]
    exact prev.isLt
  have hpos := Nat.mod_lt pos (Nat.two_pow_pos p.lp)
  have hcoder : pos % 2 ^ p.lp * 2 ^ p.lc + prev.toNat >>> (8 - p.lc) + 1 ≤ 2 ^ (p.lc + p.lp) := by
    calc pos % 2 ^ p.lp * 2 ^ p.lc + prev.toNat >>> (8 - p.lc) + 1
        ≤ (pos % 2 ^ p.lp + 1) * 2 ^ p.lc := by rw [Nat.add_mul]; omega
      _ ≤ 2 ^ p.lp * 2 ^ p.lc := Nat.mul_le_mul_right _ hpos
      _ = 2 ^ (p.lc + p.lp) := by rw [Nat.pow_add, Nat.mul_comm]
  show 0x300 * _ + 0x300 ≤ 0x300 * 2 ^ (p.lc + p.lp)
  omega

/-- A literal without a match byte (R290). -/
theorem litEncode_emits {p : Props} {base : Nat} (hbase : base + 0x300 ≤ CellArray.literal.size p) (v : Byte) :
    Act.Emits p (litEncode base v) := bitTreeEncode_emits (by omega) _

theorem litEncodeMatchedFrom_emits {p : Props} {base : Nat} (hbase : base + 0x300 ≤ CellArray.literal.size p) (mb v : Byte)
    {n m : Nat} (hm : 2 ^ n * (m + 1) ≤ 2 * 0x100) (same : Bool) :
    Act.Emits p (litEncodeMatchedFrom base mb v n m same) := by
  induction n generalizing m same with
  | zero => exact Act.Emits.pure p
  | succ n ih =>
    have hnode := node_lt_of_walk hm
    refine (encodeBit_emits (show base + _ < CellArray.literal.size p from ?_) _).bind (ih (walk_child hm _) _)
    have := Bool.toNat_le (mb.toNat.testBit n)
    split <;> omega

/-- A literal under a match byte (R291). -/
theorem litEncodeMatched_emits {p : Props} {base : Nat} (hbase : base + 0x300 ≤ CellArray.literal.size p) (mb v : Byte) :
    Act.Emits p (litEncodeMatched base mb v) := litEncodeMatchedFrom_emits hbase mb v (by decide) true

/-- A length field (R301); `sym` is the length less 2. -/
theorem lenEncode_emits {p : Props} {L : CellArray} (hL : L.size p = 514) (sym : Nat) {ps : Nat} (hps : ps < 16) :
    Act.Emits p (lenEncode L sym ps) := by
  have hchoice {i : Nat} (hi : i < 514) (b : Bool) : Act.Emits p (encodeBit ⟨L, i⟩ b) :=
    encodeBit_emits (show i < L.size p by omega) b
  unfold lenEncode
  split
  · exact (hchoice (by decide) _).bind (bitTreeEncode_emits (by rw [hL]; unfold lenLow; omega) _)
  · split
    · exact (hchoice (by decide) _).bind ((hchoice (by decide) _).bind
        (bitTreeEncode_emits (by rw [hL]; unfold lenMid; omega) _))
    · exact (hchoice (by decide) _).bind ((hchoice (by decide) _).bind
        (bitTreeEncode_emits (by rw [hL]; decide) _))

/-- The prefix of SHORTREP and REPk after `IsRep` (R375). -/
theorem encodeRepPrefix_emits {p : Props} (k : Nat) (long : Bool) (st : CoderState) {ps : Nat} (hps : ps < 16) :
    Act.Emits p (encodeRepPrefix k long st ps) := by
  have hst := st.isLt
  have hg0 (b : Bool) : Act.Emits p (encodeBit (isRepG0Cell st) b) := encodeBit_emits hst b
  have hg1 (b : Bool) : Act.Emits p (encodeBit (isRepG1Cell st) b) := encodeBit_emits hst b
  unfold encodeRepPrefix
  split
  · exact (hg0 _).bind (encodeBit_emits (show st.val * 16 + ps < 192 by omega) _)
  · split
    · exact (hg0 _).bind (hg1 _)
    · exact (hg0 _).bind ((hg1 _).bind (encodeBit_emits hst _))

theorem isMatch_emits {p : Props} (st : CoderState) {ps : Nat} (hps : ps < 16) (b : Bool) :
    Act.Emits p (encodeBit (isMatchCell st ps) b) :=
  encodeBit_emits (show st.val * 16 + ps < 192 by omega) b

theorem isRep_emits {p : Props} (st : CoderState) (b : Bool) : Act.Emits p (encodeBit (isRepCell st) b) :=
  encodeBit_emits st.isLt b

/-! ### The distance field (R312) -/

/-- The bits of DistEncode: the slot and the footer. -/
def distBits (d len : Nat) : Act Unit := do
  bitTreeEncode .posSlot (64 * lenToPosState len) 6 (posSlot d)
  if 4 ≤ posSlot d then
    if posSlot d < 14 then bitTreeReverseEncode (footerNode (posSlot d)) (slotFooterBits (posSlot d)) (d - slotBase (posSlot d))
    else do
      encodeDirectBits ((d - slotBase (posSlot d)) / 16) (slotFooterBits (posSlot d) - 4)
      bitTreeReverseEncode alignNode 4 ((d - slotBase (posSlot d)) % 16)
  else pure ()

/-- The count of aligned distances after DistEncode. -/
def Prices.distCounted (d : Nat) (p : Prices) : Prices :=
  if 14 ≤ posSlot d then { p with alignPriceCount := p.alignPriceCount + 1 } else p

/-- DistEncode is its bits, then the count. -/
theorem distEncode_eq (d len : Nat) :
    distEncode d len = (distBits d len >>= fun _ => mapPrices (Prices.distCounted d)) := by
  have hkeep (h : ¬14 ≤ posSlot d) : mapPrices (Prices.distCounted d) = pure () := by
    simp only [mapPrices, mapSession, Prices.distCounted, if_neg h]
    rfl
  unfold distEncode distBits
  by_cases h4 : 4 ≤ posSlot d
  · by_cases h14 : posSlot d < 14
    · simp only [if_pos h4, if_pos h14, hkeep (by omega), bind_assoc, bind_pure_unit]
    · have hcount : Prices.distCounted d = fun p => { p with alignPriceCount := p.alignPriceCount + 1 } :=
        funext fun p => if_pos (Nat.not_lt.mp h14)
      simp only [if_pos h4, if_neg h14, bind_assoc, hcount]
  · simp only [if_neg h4, hkeep (by omega), bind_pure_unit]

theorem lenToPosState_lt (len : Nat) : lenToPosState len < 4 := by
  unfold lenToPosState
  omega

theorem distBits_emits (p : Props) (d len : Nat) : Act.Emits p (distBits d len) := by
  have hlps := lenToPosState_lt len
  refine (bitTreeEncode_emits (show 64 * lenToPosState len + 2 ^ 6 ≤ 256 by omega) _).bind ?_
  split
  · next h4 =>
    split
    · next h14 => exact bitTreeReverseEncode_emits (fun j hj => footerNode_idx_lt h4 h14 hj) _
    · exact (encodeDirectBits_emits p _ _).bind (bitTreeReverseEncode_emits (fun j hj => hj) _)
  · exact Act.Emits.pure p

end Sys2Proof.Machine
end

section
/-!
PROOFS. ENC_STEP around its main loop (`45_encoder_driver.md` R371, R372, R378, R379): the command, the end of the stream, and
what a step that leaves the session open has done.
-/

namespace Sys2Proof.Machine

/-! ### The command (R433) -/

/-- ENC_STEP in phase ENC_READY is one CodeOneBlock. -/
theorem execEncStep_ready {s : State} (h : s.regs.phase = .encReady) :
    exec .encStep s = outcome (codeOneBlock >>= endStep) s := by
  show outcome actEncStep s = _
  unfold outcome actEncStep inPhase
  simp only [act_bind, act_get, h, decide_true, if_true]

/-- ENC_STEP in another phase is an illegal command. -/
theorem execEncStep_illegal {s : State} (h : s.regs.phase ≠ .encReady) :
    exec .encStep s = .next (enterFault .illegalCommand 3 s) := by
  refine outcome_raised (a := actEncStep) ?_
  simp only [actEncStep, inPhase, act_bind, act_get, h, decide_false, Bool.false_eq_true, if_false, act_raise]
  rfl

/-- A block that is done ends the session. -/
theorem execEncStep_done {s t : State} (h : s.regs.phase = .encReady) (hrun : codeOneBlock s = .ok .done t) :
    exec .encStep s = .next (t.mapRegs fun r => { r with phase := .done }) := by
  rw [execEncStep_ready h]
  exact outcome_ok (act_bind_of_ok hrun _)

/-- A block that yields leaves the session open. -/
theorem execEncStep_more {s t : State} (h : s.regs.phase = .encReady) (hrun : codeOneBlock s = .ok .more t) :
    exec .encStep s = .next t := by
  rw [execEncStep_ready h]
  exact outcome_ok (act_bind_of_ok hrun _)

/-- A step that leaves the session open is a block that yields. -/
theorem execEncStep_open {s t : State} (h : exec .encStep s = .next t) (hopen : t.regs.phase = .encReady) :
    s.regs.phase = .encReady ∧ codeOneBlock s = .ok .more t := by
  by_cases hphase : s.regs.phase = .encReady
  · rw [execEncStep_ready hphase] at h
    rcases outcome_next h with h | ⟨c, k, u, -, rfl⟩
    · obtain ⟨p, u, hblock, hend⟩ := act_bind_ok h
      cases p with
      | more => exact ⟨hphase, (pure_ok.mp hend).2 ▸ hblock⟩
      | done =>
        cases hend
        cases hopen
    · cases hopen
  · rw [execEncStep_illegal hphase] at h
    cases h
    cases hopen

/-! ### The loop -/

/-- The main loop after a symbol (R377, R378): refresh, flush, yield or go on. -/
def codeTail (fuel : Nat) : Act Progress := do
  let s ← get
  if s.session.enc.additionalOffset = 0 then
    refreshPrices
    let avail ← getNumAvailableBytes
    if avail = 0 then
      encFlush
      pure .done
    else
      if Config.progressChunk ≤ s.session.enc.nowPos - s.session.enc.progressStart then
        mapEnc fun e => { e with finished := false }
        pure .more
      else codeLoop fuel
  else codeLoop fuel

/-- One turn of the main loop (R373). -/
theorem codeLoop_succ (fuel : Nat) (s : State) : codeLoop (fuel + 1) s =
    (getOptimum s.session.enc.nowPos >>= fun r =>
      if r.1 = 0 then throw .stuck
      else encodeStep r.1 r.2 (posStateOf s.session.props.pb s.session.enc.nowPos) >>= fun _ =>
        postStep r.1 (r.1 = 1 && r.2 = backChar) >>= fun _ => codeTail fuel) s := by
  rw [codeLoop, act_bind_of_ok (act_get s), act_bind, act_bind]
  cases getOptimum s.session.enc.nowPos s with
  | error e t => rfl
  | ok r t =>
    dsimp only
    split <;> rfl

section Tail

variable {fuel : Nat} {s : State}

/-- Inside a chain the loop goes on. -/
theorem codeTail_inside (h : s.session.enc.additionalOffset ≠ 0) : codeTail fuel s = codeLoop fuel s := by
  rw [codeTail, act_bind_of_ok (act_get s), if_neg h]

variable (h : s.session.enc.additionalOffset = 0) {t : State} (hrefresh : refreshPrices s = .ok () t)
include h hrefresh

/-- At the end of a chain with no input left the stream is flushed. -/
theorem codeTail_drained (hdrained : t.inp.length - t.session.mf.mfAbs = 0) :
    codeTail fuel s = (encFlush >>= fun _ => pure .done) t := by
  rw [codeTail, act_bind_of_ok (act_get s), if_pos h, act_bind_of_ok hrefresh, getNumAvailableBytes, bind_assoc,
    act_bind_of_ok (act_get t), pure_bind, if_pos hdrained]

/-- At the end of a chain after a whole chunk the loop yields. -/
theorem codeTail_yields (hleft : t.inp.length - t.session.mf.mfAbs ≠ 0)
    (hchunk : Config.progressChunk ≤ s.session.enc.nowPos - s.session.enc.progressStart) :
    codeTail fuel s = .ok .more (t.mapSession fun ss => { ss with enc := { ss.enc with finished := false } }) := by
  rw [codeTail, act_bind_of_ok (act_get s), if_pos h, act_bind_of_ok hrefresh, getNumAvailableBytes, bind_assoc,
    act_bind_of_ok (act_get t), pure_bind, if_neg hleft, if_pos hchunk]
  rfl

/-- At the end of a chain before a whole chunk the loop goes on. -/
theorem codeTail_goes_on (hleft : t.inp.length - t.session.mf.mfAbs ≠ 0)
    (hchunk : ¬Config.progressChunk ≤ s.session.enc.nowPos - s.session.enc.progressStart) :
    codeTail fuel s = codeLoop fuel t := by
  rw [codeTail, act_bind_of_ok (act_get s), if_pos h, act_bind_of_ok hrefresh, getNumAvailableBytes, bind_assoc,
    act_bind_of_ok (act_get t), pure_bind, if_neg hleft, if_neg hchunk]

end Tail

/-! ### CodeOneBlock (R371, R372) -/

/-- The state in which a block begins: `finished` set until the block yields, and the start of the chunk noted. -/
def State.blockBegun (s : State) : State :=
  s.mapSession fun ss => { ss with enc := { ss.enc with finished := true, progressStart := ss.enc.nowPos } }

/-- A block after its first byte: it flushes where no input is left. -/
def codeRest (inputLength : Nat) : Act Progress := do
  let avail ← getNumAvailableBytes
  if avail = 0 then
    encFlush
    pure .done
  else codeLoop (inputLength + 1)

theorem codeOneBlock_finished {s : State} (h : s.session.enc.finished = true) : codeOneBlock s = .ok .done s := by
  rw [codeOneBlock, act_bind_of_ok (act_get s), if_pos h, act_pure]

section Begun

variable {s : State} (h : s.session.enc.finished = false)
include h

theorem codeOneBlock_eq : codeOneBlock s =
    (if (decide (s.session.enc.nowPos = 0) && decide (s.inp.length - s.session.mf.mfAbs = 0)) = true then
      encFlush >>= fun _ => pure .done
    else if s.session.enc.nowPos = 0 then codeFirstByte >>= fun _ => codeRest s.inp.length
    else codeRest s.inp.length) s.blockBegun := by
  rw [codeOneBlock, act_bind_of_ok (act_get s), if_neg (by rw [h]; decide)]
  rfl

/-- A block with no input at all flushes. -/
theorem codeOneBlock_empty (hpos : s.session.enc.nowPos = 0) (hinp : s.inp.length - s.session.mf.mfAbs = 0) :
    codeOneBlock s = (encFlush >>= fun _ => pure .done) s.blockBegun := by
  rw [codeOneBlock_eq h, decide_eq_true hpos, decide_eq_true hinp, if_pos (Bool.and_self true)]

/-- A block at the start of the input codes its first byte. -/
theorem codeOneBlock_first (hpos : s.session.enc.nowPos = 0) (hinp : s.inp.length - s.session.mf.mfAbs ≠ 0) :
    codeOneBlock s = (codeFirstByte >>= fun _ => codeRest s.inp.length) s.blockBegun := by
  rw [codeOneBlock_eq h, decide_eq_false hinp, Bool.and_false, if_neg Bool.false_ne_true, if_pos hpos]

/-- A later block goes on where the last one yielded. -/
theorem codeOneBlock_later (hpos : s.session.enc.nowPos ≠ 0) : codeOneBlock s = codeRest s.inp.length s.blockBegun := by
  rw [codeOneBlock_eq h, decide_eq_false hpos, Bool.false_and, if_neg Bool.false_ne_true, if_neg hpos]

end Begun

theorem codeRest_drained {n : Nat} {s : State} (h : s.inp.length - s.session.mf.mfAbs = 0) :
    codeRest n s = (encFlush >>= fun _ => pure .done) s := by
  rw [codeRest, getNumAvailableBytes, bind_assoc, act_bind_of_ok (act_get s), pure_bind, if_pos h]

theorem codeRest_left {n : Nat} {s : State} (h : s.inp.length - s.session.mf.mfAbs ≠ 0) :
    codeRest n s = codeLoop (n + 1) s := by
  rw [codeRest, getNumAvailableBytes, bind_assoc, act_bind_of_ok (act_get s), pure_bind, if_neg h]

/-! ### What a block that yields has done (R378) -/

/-- The start of the chunk stays. -/
def StartKept (s t : State) : Prop := t.session.enc.progressStart = s.session.enc.progressStart

theorem startKept_preorder : Act.Preorder StartKept where
  refl _ := rfl
  trans _ _ _ h h' := h'.trans h

theorem code_startKept {α : Type} {a : Act α} (h : Act.Within codeFrame a) : Act.Within StartKept a :=
  h.mono fun s t hf => by rw [StartKept, hf]

theorem parse_startKept {α : Type} {a : Act α} (h : Act.Within parseFrame a) : Act.Within StartKept a :=
  h.mono fun s t hf => by rw [StartKept, hf]

theorem price_startKept {α : Type} {a : Act α} (h : Act.Within priceFrame a) : Act.Within StartKept a :=
  h.mono fun s t hf => by rw [StartKept, hf]

theorem litEncode_frame (base : Nat) (v : Byte) : Act.Within codeFrame (litEncode base v) :=
  treeEncodeFrom_frame _ _ _ _ _

theorem litEncodeMatched_frame (base : Nat) (mb v : Byte) : Act.Within codeFrame (litEncodeMatched base mb v) :=
  litEncodeMatchedFrom_frame _ _ _ _ _ _

theorem distEncode_startKept (d len : Nat) : Act.Within StartKept (distEncode d len) := by
  have hP := startKept_preorder
  have hcount : Act.Within StartKept (mapPrices (Prices.distCounted d)) := price_startKept (mapPrices_frame _)
  rw [distEncode_eq]
  refine .bind hP (.bind hP (code_startKept (treeEncodeFrom_frame _ _ _ _ _)) fun _ => .ite (.ite ?_ ?_) (.pure hP _))
    fun _ => hcount
  · exact code_startKept (treeReverseEncodeFrom_frame _ _ _ _)
  · exact .bind hP (code_startKept (encodeDirectBits_frame _ _)) fun _ =>
      code_startKept (treeReverseEncodeFrom_frame _ _ _ _)

theorem encodeLiteral_startKept (ps : Nat) : Act.Within StartKept (encodeLiteral ps) := by
  have hP := startKept_preorder
  refine .bind hP (.get hP) fun _ => .bind hP (code_startKept (encodeBit_frame _ _)) fun _ =>
    .bind hP (getIndexByte_within hP _) fun _ => .ite (.bind hP (code_startKept (litEncode_frame _ _)) fun _ => ?_)
      (.bind hP (getIndexByte_within hP _) fun _ => .bind hP (code_startKept (litEncodeMatched_frame _ _ _)) fun _ => ?_)
  all_goals exact fun _ => rfl

theorem encodeRep_startKept (len k ps : Nat) : Act.Within StartKept (encodeRep len k ps) := by
  have hP := startKept_preorder
  have hend (st : CoderState) (r : Reps) : Act.Within StartKept (setCoderState st >>= fun _ => setReps r) := fun _ => rfl
  have hbits (s : State) : Act.Within StartKept (encodeBit (isMatchCell s.session.state ps) true >>= fun _ =>
      encodeBit (isRepCell s.session.state) true >>= fun _ =>
        encodeRepPrefix k (decide (len ≠ 1)) s.session.state ps >>= fun _ =>
          if len = 1 then setCoderState (updateShortRep s.session.state) >>= fun _ => setReps (s.session.reps.promote k)
          else lenEncode .repLenC (len - 2) ps >>= fun _ => countRepLen ps >>= fun _ =>
            setCoderState (updateRep s.session.state) >>= fun _ => setReps (s.session.reps.promote k)) :=
    .bind hP (code_startKept (encodeBit_frame _ _)) fun _ => .bind hP (code_startKept (encodeBit_frame _ _)) fun _ =>
      .bind hP (code_startKept (encodeRepPrefix_frame _ _ _ _)) fun _ => .ite (hend _ _)
        (.bind hP (code_startKept (lenEncode_frame _ _ _)) fun _ => .bind hP (price_startKept (countRepLen_frame _)) fun _ =>
          hend _ _)
  exact .bind hP (.get hP) fun s => .ite (.bind hP (.raise hP _ _) fun _ => hbits s) (hbits s)

theorem encodeMatch_startKept (len : Nat) (d : Word) (ps : Nat) : Act.Within StartKept (encodeMatch len d ps) := by
  have hP := startKept_preorder
  have hend (r : Reps) (f : Prices → Prices) : Act.Within StartKept (setReps r >>= fun _ => mapPrices f) := fun _ => rfl
  have hbits (s : State) : Act.Within StartKept (encodeBit (isMatchCell s.session.state ps) true >>= fun _ =>
      encodeBit (isRepCell s.session.state) false >>= fun _ => setCoderState (updateMatch s.session.state) >>= fun _ =>
        lenEncode .lenC (len - 2) ps >>= fun _ => countLen ps >>= fun _ => distEncode d.toNat len >>= fun _ =>
          setReps (s.session.reps.push d) >>= fun _ => mapPrices fun p => { p with matchPriceCount := p.matchPriceCount + 1 }) :=
    .bind hP (code_startKept (encodeBit_frame _ _)) fun _ => .bind hP (code_startKept (encodeBit_frame _ _)) fun _ =>
      .bind hP (fun _ => rfl) fun _ => .bind hP (code_startKept (lenEncode_frame _ _ _)) fun _ =>
        .bind hP (price_startKept (countLen_frame _)) fun _ => .bind hP (distEncode_startKept _ _) fun _ => hend _ _
  exact .bind hP (.get hP) fun s => .ite (.bind hP (.raise hP _ _) fun _ => hbits s) (hbits s)

theorem encodeStep_startKept (len : Nat) (back : Word) (ps : Nat) : Act.Within StartKept (encodeStep len back ps) :=
  .ite (encodeLiteral_startKept _) (.ite (encodeRep_startKept _ _ _) (encodeMatch_startKept _ _ _))

theorem postStep_startKept (len : Nat) (isLit : Bool) : Act.Within StartKept (postStep len isLit) := by
  have hP := startKept_preorder
  refine .bind hP (.get hP) fun _ => .ite (.bind hP (getIndexByte_within hP _) fun _ => ?_) ?_
  all_goals exact fun _ => rfl

/-- What a loop that yields has come to. -/
structure Yielded (start : Nat) (t : State) : Prop where
  notFinished : t.session.enc.finished = false
  chunk : start + Config.progressChunk ≤ t.session.enc.nowPos
  noOffset : t.session.enc.additionalOffset = 0
  left : t.session.mf.mfAbs < t.inp.length

theorem codeLoop_yields {fuel : Nat} {s t : State} (h : codeLoop fuel s = .ok .more t) :
    Yielded s.session.enc.progressStart t := by
  induction fuel generalizing s with
  | zero => cases h
  | succ fuel ih =>
    rw [codeLoop_succ] at h
    obtain ⟨r, u, hopt, h⟩ := act_bind_ok h
    split at h
    · cases h
    · obtain ⟨_, v, hstep, h⟩ := act_bind_ok h
      obtain ⟨_, w, hpost, h⟩ := act_bind_ok h
      have hstart : w.session.enc.progressStart = s.session.enc.progressStart :=
        ((postStep_startKept _ _).ok hpost).trans (((encodeStep_startKept _ _ _).ok hstep).trans
          ((parse_startKept (getOptimum_frame _)).ok hopt))
      by_cases hoff : w.session.enc.additionalOffset = 0
      · cases hrefresh : refreshPrices w with
        | error e x =>
          rw [codeTail, act_bind_of_ok (act_get w), if_pos hoff, act_bind, hrefresh] at h
          cases h
        | ok _ x =>
          have hframe := refreshPrices_frame.ok hrefresh
          have henc : x.session.enc = w.session.enc := by rw [hframe]
          by_cases hleft : x.inp.length - x.session.mf.mfAbs = 0
          · rw [codeTail_drained hoff hrefresh hleft] at h
            obtain ⟨_, _, _, h⟩ := act_bind_ok h
            cases h
          · by_cases hchunk : Config.progressChunk ≤ w.session.enc.nowPos - w.session.enc.progressStart
            · rw [codeTail_yields hoff hrefresh hleft hchunk] at h
              cases h
              have hpos : 1 ≤ Config.progressChunk := by decide
              refine ⟨rfl, ?_, congrArg EncRegs.additionalOffset henc ▸ hoff, show x.session.mf.mfAbs < x.inp.length by omega⟩
              show _ ≤ x.session.enc.nowPos
              rw [henc]
              omega
            · rw [codeTail_goes_on hoff hrefresh hleft hchunk] at h
              rw [← hstart, ← henc]
              exact ih h
      · rw [codeTail_inside hoff] at h
        rw [← hstart]
        exact ih h

/-- Settles O25: only the loop yields, and where it yields it has just tested the chunk, the offset and the input. -/
theorem encStepYields : Obligations.EncStepYields := by
  intro s t h hopen
  obtain ⟨hphase, hblock⟩ := execEncStep_open h hopen
  cases hfin : s.session.enc.finished with
  | true =>
    rw [codeOneBlock_finished hfin] at hblock
    cases hblock
  | false =>
    have hrest {u : State} (hstart : u.session.enc.progressStart = s.session.enc.nowPos)
        (hrun : codeRest s.inp.length u = .ok .more t) : Yielded s.session.enc.nowPos t := by
      by_cases hleft : u.inp.length - u.session.mf.mfAbs = 0
      · rw [codeRest_drained hleft] at hrun
        obtain ⟨_, _, _, hrun⟩ := act_bind_ok hrun
        cases hrun
      · rw [codeRest_left hleft] at hrun
        exact hstart ▸ codeLoop_yields hrun
    suffices hy : Yielded s.session.enc.nowPos t from ⟨hphase, rfl, hy.notFinished, hy.chunk, hy.noOffset, hy.left⟩
    by_cases hpos : s.session.enc.nowPos = 0
    · by_cases hinp : s.inp.length - s.session.mf.mfAbs = 0
      · rw [codeOneBlock_empty hfin hpos hinp] at hblock
        obtain ⟨_, _, _, hblock⟩ := act_bind_ok hblock
        cases hblock
      · rw [codeOneBlock_first hfin hpos hinp] at hblock
        obtain ⟨_, u, hfirst, hrun⟩ := act_bind_ok hblock
        have hkept : Act.Within StartKept codeFirstByte :=
          .bind startKept_preorder (parse_startKept readMatchDistances_frame) fun _ =>
            .bind startKept_preorder (encodeLiteral_startKept _) fun _ => fun _ => rfl
        exact hrest (hkept.ok hfirst) hrun
    · rw [codeOneBlock_later hfin hpos] at hblock
      exact hrest rfl hblock

end Sys2Proof.Machine
end

section
/-!
PROOFS. The end of the stream (`45_encoder_driver.md` R379): END as the encoder writes it is the symbol `endMark 2`, and the
flush drains the range encoder (`40_range_coder.md` R177).
-/

namespace Sys2Proof.Machine

/-! ### The fields of MATCH and END (R123, R376) -/

/-- The prefix bits of MATCH and END. -/
def matchPrefix (st : CoderState) (ps : Nat) : Act Unit := do
  encodeBit (isMatchCell st ps) true
  encodeBit (isRepCell st) false

/-- The length and distance bits of END with length 2. -/
def endFields (ps : Nat) : Act Unit := do
  lenEncode .lenC 0 ps
  distBits endDistance.toNat 2

theorem matchPrefix_emits (p : Props) (st : CoderState) {ps : Nat} (hps : ps < 16) : Act.Emits p (matchPrefix st ps) :=
  (isMatch_emits st hps true).bind (isRep_emits st false)

theorem endFields_emits (p : Props) {ps : Nat} (hps : ps < 16) : Act.Emits p (endFields ps) :=
  (lenEncode_emits rfl 0 hps).bind (distBits_emits p _ 2)

theorem posState_lt {pb : Nat} (hpb : pb ≤ 4) (pos : Nat) : posStateOf pb pos < 16 :=
  (Nat.mod_lt pos (Nat.two_pow_pos pb)).trans_le (Nat.pow_le_pow_right (by decide) hpb)

/-! ### END -/

/-- The distance bits of END: slot 63, 26 direct bits of 1, align 15 (R130). -/
theorem distBits_end : distBits endDistance.toNat 2 =
    (bitTreeEncode .posSlot (64 * lenToPosState 2) 6 63 >>= fun _ => encodeDirectBits 0x3FFFFFF 26 >>= fun _ =>
      bitTreeReverseEncode alignNode 4 15) := by
  have hslot : posSlot endDistance.toNat = 63 := by decide
  have hbase : endDistance.toNat - slotBase 63 = 0x3FFFFFFF := by decide
  rw [distBits, hslot, if_pos (by decide), if_neg (by decide), hbase]
  rfl

theorem encodeEndMarker_eq (s : State) : encodeEndMarker s =
    (matchPrefix s.session.state (posStateOf s.session.props.pb s.session.enc.nowPos) >>= fun _ =>
      setCoderState (updateMatch s.session.state) >>= fun _ =>
        endFields (posStateOf s.session.props.pb s.session.enc.nowPos)) s := by
  rw [endFields, distBits_end, encodeEndMarker, act_bind_of_ok (act_get s), matchPrefix, bind_assoc]

theorem codeSymbol_endMark (c : State) : codeSymbol (.endMark 2) c =
    (matchPrefix c.session.state (posStateOf c.session.props.pb c.outPos) >>= fun _ =>
      endFields (posStateOf c.session.props.pb c.outPos) >>= fun _ => mapPrices (Prices.distCounted endDistance.toNat)) c := by
  rw [codeSymbol, act_bind_of_ok (act_get c)]
  dsimp only
  rw [distEncode_eq, endFields, matchPrefix]
  simp only [bind_assoc]

/-- What a change of `state` and of what coding does not read leaves. -/
theorem CoderOk.congr {s t : State} (h : CoderOk s) (hcells : t.session.cells = s.session.cells)
    (hcoder : t.session.renc = s.session.renc) : CoderOk t :=
  ⟨hcoder ▸ h.coder, hcells ▸ h.reachable, hcells ▸ h.canonical⟩

/-- END in the encoder and in the coder of a program at the same point. -/
theorem encodeEndMarker_codes {s c : State} (hok : CoderOk s) (h : CodesAs s c) (hpb : s.session.props.pb ≤ 4)
    (hstate : c.session.state = s.session.state)
    (hps : posStateOf c.session.props.pb c.outPos = posStateOf s.session.props.pb s.session.enc.nowPos) :
    ∃ t u, encodeEndMarker s = .ok () t ∧ codeSymbol (.endMark 2) c = .ok () u ∧ CoderOk t ∧ CodesAs t u ∧
      codeFrame (s.withCoderState fun _ => updateMatch s.session.state) t ∧ Counted s t ∧ s.out <+: t.out := by
  have hlt := posState_lt hpb s.session.enc.nowPos
  obtain ⟨s1, c1, h1⟩ := matchPrefix_emits _ s.session.state hlt s c rfl hok h
  have hprops := codeFrame_props h1.frame
  obtain ⟨s2, c2, h2⟩ := endFields_emits _ hlt (s1.withCoderState fun _ => updateMatch s.session.state) c1 rfl
    (h1.ok.congr rfl rfl) ⟨h1.alike.cells, h1.alike.coder, h1.alike.lc, h1.alike.lp, h1.alike.out⟩
  refine ⟨s2, c2.withPrices (c2.session.prices.distCounted endDistance.toNat), ?_, ?_, h2.ok,
    ⟨h2.alike.cells, h2.alike.coder, h2.alike.lc, h2.alike.lp, h2.alike.out⟩, ?_, h2.counted ∘ h1.counted,
    h1.grows.trans h2.grows⟩
  · rw [encodeEndMarker_eq, act_bind_of_ok h1.run]
    exact h2.run
  · rw [codeSymbol_endMark, hps, hstate, act_bind_of_ok h1.run', act_bind_of_ok h2.run']
    exact mapPrices_ok _ _
  · have hframe : codeFrame (s.withCoderState fun _ => updateMatch s.session.state)
        (s1.withCoderState fun _ => updateMatch s.session.state) := by
      unfold codeFrame State.withCoderState State.mapSession
      rw [h1.frame]
    exact codeFrame_preorder.trans _ _ _ hframe h2.frame

/-! ### The flush -/

theorem flushEncoder_counted : Act.Within Counted flushEncoder := shiftLows_counted 5

theorem encFlush_plain {s : State} (h : s.session.enc.writeEndMarker = false) : encFlush s = flushEncoder s := by
  rw [encFlush, act_bind_of_ok (act_get s), if_neg (by rw [h]; decide)]

theorem encFlush_end {s : State} (h : s.session.enc.writeEndMarker = true) :
    encFlush s = (encodeEndMarker >>= fun _ => flushEncoder) s := by
  rw [encFlush, act_bind_of_ok (act_get s), if_pos h]

/-- Where nothing is left to code, a block is the flush. -/
theorem codeOneBlock_drained {s : State} (h : s.session.enc.finished = false)
    (hinp : s.inp.length ≤ s.session.mf.mfAbs) :
    codeOneBlock s = (encFlush >>= fun _ => pure .done) s.blockBegun := by
  have hleft : s.inp.length - s.session.mf.mfAbs = 0 := Nat.sub_eq_zero_of_le hinp
  by_cases hpos : s.session.enc.nowPos = 0
  · exact codeOneBlock_empty h hpos hleft
  · rw [codeOneBlock_later h hpos]
    exact codeRest_drained (s := s.blockBegun) hleft

/-- What the flush of `s` leaves in `t`. -/
structure Flushed (s t : State) : Prop where
  frame : t = { s with
    regs := { s.regs with outCount := t.regs.outCount }
    session := { s.session with cells := t.session.cells, state := t.session.state, renc := t.session.renc }
    out := t.out }
  counted : Counted s t
  grows : ∃ bytes, t.out = s.out ++ bytes ∧
    (s.session.enc.writeEndMarker = false → bytes.length = s.session.renc.cacheSize + 4)
  plain : s.session.enc.writeEndMarker = false → t.session.cells = s.session.cells ∧ t.session.state = s.session.state
  ended : s.session.enc.writeEndMarker = true → t.session.state = updateMatch s.session.state

/-- The flush answers from any coder that can code. -/
theorem encFlush_flushed {s : State} (hok : CoderOk s) (hpb : s.session.props.pb ≤ 4) :
    ∃ t, encFlush s = .ok () t ∧ Flushed s t := by
  cases hend : s.session.enc.writeEndMarker with
  | false =>
    obtain ⟨t, ht, hshifted, hempty⟩ := flushEncoder_drains hok.coder.2.2
    have hframe := hshifted.frame
    obtain ⟨bytes, hout, hlen⟩ := hshifted.emits
    have hcells : t.session.cells = s.session.cells := by rw [hframe]
    have hstate : t.session.state = s.session.state := by rw [hframe]
    refine ⟨t, (encFlush_plain hend).trans ht, ?_, flushEncoder_counted.ok ht, ⟨bytes, hout, fun _ => ?_⟩,
      fun _ => ⟨hcells, hstate⟩, fun h => absurd (hend.symm.trans h) Bool.false_ne_true⟩
    · rw [hcells, hstate]
      exact hframe
    · rw [hempty] at hlen
      exact Nat.add_right_cancel hlen
  | true =>
    have halike : CodesAs s (s.withWin (List.replicate s.session.enc.nowPos 0)) := ⟨rfl, rfl, rfl, rfl, rfl⟩
    obtain ⟨u, _, hmark, -, huok, -, hframe, hcounted, hgrows⟩ := encodeEndMarker_codes hok halike hpb rfl
      (congrArg (posStateOf s.session.props.pb) List.length_replicate)
    obtain ⟨t, ht, hshifted, -⟩ := flushEncoder_drains huok.coder.2.2
    have hframe' := hshifted.frame
    obtain ⟨rest, hout, -⟩ := hshifted.emits
    obtain ⟨bytes, hbytes⟩ := hgrows
    refine ⟨t, ?_, ?_, flushEncoder_counted.ok ht ∘ hcounted, ⟨bytes ++ rest, ?_, fun h => ?_⟩,
      fun h => ?_, fun _ => ?_⟩
    · rw [encFlush_end hend, act_bind_of_ok hmark, ht]
    · rw [hframe', hframe]
      rfl
    · rw [hout, ← hbytes, List.append_assoc]
    · exact absurd (hend.symm.trans h) Bool.noConfusion
    · exact absurd (hend.symm.trans h) Bool.noConfusion
    · rw [hframe', hframe]
      rfl

/-- Settles O20: the block is the flush, and the command records DONE. -/
theorem encStepDrainedCompletes : Obligations.EncStepDrainedCompletes := by
  intro s hphase hinv hwf hpb hinp
  have hcells : s.session.cells.wf = true := by
    rw [Session.wf, Bool.and_eq_true, Bool.and_eq_true, Bool.and_eq_true] at hwf
    exact hwf.1.1.1
  obtain ⟨t, ht, hflushed⟩ := encFlush_flushed (s := s.blockBegun) ⟨hinv.coder, hinv.cells, hcells⟩ hpb
  have hrun : codeOneBlock s = .ok .done t := by
    rw [codeOneBlock_drained hinv.notFinished hinp, act_bind_of_ok ht, act_pure]
  refine ⟨_, execEncStep_done hphase hrun, ?_, hflushed.grows, hflushed.plain, hflushed.ended, ?_⟩
  · have hcount := hflushed.counted hinv.outCount
    have hframe := hflushed.frame
    rw [mapRegs_regs, mapRegs_out, ← hcount, hframe]
    rfl
  · rw [mapRegs_session, mapRegs_inp, mapRegs_cin, mapRegs_win, mapRegs_pending, mapRegs_readData, mapRegs_freeCount]
    have hframe := hflushed.frame
    generalize t.session.cells = cells, t.session.state = st, t.session.renc = renc at hframe ⊢
    rw [hframe]
    exact ⟨rfl, rfl, rfl, rfl, rfl, rfl, rfl⟩

end Sys2Proof.Machine
end

section
/-!
PROOFS. The price tables while the cells are reachable (`41_bit_tree_and_prices.md` R201, R209; `44_optimal_parse.md` R321 to
R323): every price answers, a refresh answers, and the tables keep their shape.
-/

namespace Sys2Proof.Machine

/-! ### Prices of symbols -/

/-- The price answers in `s`, leaves it, and is at most `b`. -/
def Act.Costs (a : Act Nat) (b : Nat) (s : State) : Prop := ∃ n, a s = .ok n s ∧ n ≤ b

theorem Act.Costs.pure {n b : Nat} (h : n ≤ b) (s : State) : Act.Costs (Pure.pure n) b s := ⟨n, rfl, h⟩

theorem Act.Costs.mono {a : Act Nat} {b b' : Nat} {s : State} (h : a.Costs b s) (hb : b ≤ b') : a.Costs b' s :=
  h.imp fun _ ⟨hrun, hn⟩ => ⟨hrun, hn.trans hb⟩

/-- A price that goes on with another one. -/
theorem Act.Costs.bind {a : Act Nat} {f : Nat → Act Nat} {b b' : Nat} {s : State} (ha : a.Costs b s)
    (hf : ∀ n, n ≤ b → (f n).Costs b' s) : Act.Costs (a >>= f) b' s := by
  obtain ⟨n, hrun, hn⟩ := ha
  obtain ⟨m, hrun', hm⟩ := hf n hn
  exact ⟨m, (act_bind_of_ok hrun f).trans hrun', hm⟩

theorem Act.Costs.ite {c : Prop} [Decidable c] {a a' : Act Nat} {b : Nat} {s : State} (ha : c → a.Costs b s)
    (ha' : ¬c → a'.Costs b s) : Act.Costs (if c then a else a') b s := by
  split
  · next h => exact ha h
  · next h => exact ha' h

section Reachable

variable {s : State} (hs : s.session.cells.reachable)
include hs

theorem cellPrice_costs {c : Cell} (hc : s.HasCell c) (b : Bool) : (cellPrice c b).Costs 576 s := by
  refine ⟨_, act_bind_of_ok (readCell_ok hc (hs c)) _, ?_⟩
  unfold priceBit
  split <;> exact probPrice_le_576 _

theorem treePriceFrom_costs {A : CellArray} {b top : Nat} (hA : b + top ≤ A.size s.session.props) (sym : Nat) {n m : Nat}
    (hm : 2 ^ n * (m + 1) ≤ 2 * top) : (treePriceFrom A b sym n m).Costs (576 * n) s := by
  induction n generalizing m with
  | zero => exact .pure (Nat.le_refl 0) s
  | succ n ih =>
    have := node_lt_of_walk hm
    have hcell : s.HasCell ⟨A, b + m⟩ := show b + m < A.size s.session.props by omega
    exact (cellPrice_costs hs hcell _).bind fun c hc => (ih (walk_child hm _)).bind fun r hr => .pure (by omega) s

theorem bitTreePrice_costs {A : CellArray} {b k : Nat} (hA : b + 2 ^ k ≤ A.size s.session.props) (sym : Nat) :
    (bitTreePrice A b k sym).Costs (576 * k) s := treePriceFrom_costs hs hA sym (by omega)

theorem treeReversePriceFrom_costs {node : Nat → Cell} {top : Nat} (hnode : ∀ j, j < top → s.HasCell (node j)) {n m : Nat}
    (sym : Nat) (hm : 2 ^ n * (m + 1) ≤ 2 * top) : (treeReversePriceFrom node n m sym).Costs (576 * n) s := by
  induction n generalizing m sym with
  | zero => exact .pure (Nat.le_refl 0) s
  | succ n ih =>
    exact (cellPrice_costs hs (hnode m (node_lt_of_walk hm)) _).bind fun c hc =>
      (ih _ (walk_child hm _)).bind fun r hr => .pure (by omega) s

theorem bitTreeReversePrice_costs {node : Nat → Cell} {k : Nat} (hnode : ∀ j, j < 2 ^ k → s.HasCell (node j)) (sym : Nat) :
    (bitTreeReversePrice node k sym).Costs (576 * k) s := treeReversePriceFrom_costs hs hnode sym (by omega)

/-- The price of a length (R303). -/
theorem lenPrice_costs {L : CellArray} (hL : L.size s.session.props = 514) (sym : Nat) {ps : Nat} (hps : ps < 16) :
    (lenPrice L sym ps).Costs (576 * 10) s := by
  have hchoice {i : Nat} (hi : i < 514) (b : Bool) : (cellPrice ⟨L, i⟩ b).Costs 576 s :=
    cellPrice_costs hs (c := ⟨L, i⟩) (show i < L.size s.session.props by omega) b
  have hlow : lenLow ps + 2 ^ 3 ≤ L.size s.session.props := by rw [hL]; unfold lenLow; omega
  have hmid : lenMid ps + 2 ^ 3 ≤ L.size s.session.props := by rw [hL]; unfold lenMid; omega
  have hhigh : lenHigh + 2 ^ 8 ≤ L.size s.session.props := by rw [hL]; decide
  unfold lenPrice
  refine .ite (fun _ => ?_) fun _ => .ite (fun _ => ?_) fun _ => ?_
  · exact (hchoice (by decide) _).bind fun _ _ => (bitTreePrice_costs hs hlow _).bind fun _ _ => .pure (by omega) s
  · exact (hchoice (by decide) _).bind fun _ _ => (hchoice (by decide) _).bind fun _ _ =>
      (bitTreePrice_costs hs hmid _).bind fun _ _ => .pure (by omega) s
  · exact (hchoice (by decide) _).bind fun _ _ => (hchoice (by decide) _).bind fun _ _ =>
      (bitTreePrice_costs hs hhigh _).bind fun _ _ => .pure (by omega) s

theorem posSlotPrice_costs {lps : Nat} (hlps : lps < 4) (slot : Nat) :
    ∃ n, posSlotPrice lps slot s = .ok n s := by
  obtain ⟨n, hrun, -⟩ := bitTreePrice_costs (A := .posSlot) (b := 64 * lps) (k := 6) hs
    (show 64 * lps + 2 ^ 6 ≤ 256 by omega) slot
  exact ⟨_, act_bind_of_ok hrun _⟩

theorem footerPrice_costs {d : Nat} (hd : d < 128) : ∃ n, footerPrice d s = .ok n s := by
  unfold footerPrice
  split
  · exact ⟨0, rfl⟩
  · next h4 =>
    have hslot : 4 ≤ posSlot d := by
      have hlog : 2 ≤ d.log2 := (Nat.le_log2 (by omega)).mpr (by omega)
      rw [posSlot, if_neg h4]
      omega
    obtain ⟨n, hrun, -⟩ := bitTreeReversePrice_costs hs (node := footerNode (posSlot d)) (k := slotFooterBits (posSlot d))
      (fun j hj => footerNode_idx_lt hslot (posSlot_lt_14 hd) hj) (d - slotBase (posSlot d))
    exact ⟨n, hrun⟩

end Reachable

/-! ### Tabulating -/

/-- A table of answers of actions that leave the state. -/
theorem tabulate_answers {α : Type} {f : Nat → Act α} {P : α → Prop} {s : State} {i n : Nat}
    (h : ∀ j, j < i + n → ∃ x, f j s = .ok x s ∧ P x) :
    ∃ xs, tabulate f i n s = .ok xs s ∧ xs.length = n ∧ ∀ x ∈ xs, P x := by
  induction n generalizing i with
  | zero => exact ⟨[], rfl, rfl, nofun⟩
  | succ n ih =>
    obtain ⟨x, hx, hPx⟩ := h i (by omega)
    obtain ⟨xs, hxs, hlen, hPxs⟩ := ih (i := i + 1) fun j hj => h j (by omega)
    refine ⟨x :: xs, ?_, by rw [List.length_cons, hlen], List.forall_mem_cons.mpr ⟨hPx, hPxs⟩⟩
    rw [tabulate, act_bind_of_ok hx, act_bind_of_ok hxs, act_pure]

/-! ### The shape of the tables -/

/-- A table of `rows` rows of `cols` entries. -/
def IsTable (rows cols : Nat) (t : List (List Nat)) : Prop := t.length = rows ∧ ∀ row ∈ t, row.length = cols

theorem IsTable.set {rows cols : Nat} {t : List (List Nat)} (h : IsTable rows cols t) (i : Nat) {row : List Nat}
    (hrow : row.length = cols) : IsTable rows cols (t.set i row) := by
  refine ⟨List.length_set.trans h.1, fun r hr => ?_⟩
  rcases List.mem_or_eq_of_mem_set hr with hr | rfl
  · exact h.2 r hr
  · exact hrow

theorem IsTable.row {rows cols : Nat} {t : List (List Nat)} (h : IsTable rows cols t) {i : Nat} (hi : i < rows) (s : State) :
    ∃ row, elemAt t i s = .ok row s ∧ row.length = cols := by
  have hlt : i < t.length := h.1 ▸ hi
  exact ⟨t[i], elemAt_ok (List.getElem?_eq_getElem hlt) s, h.2 _ (List.getElem_mem hlt)⟩

theorem elemAt_answers {α : Type} {xs : List α} {i : Nat} (hi : i < xs.length) (s : State) : ∃ x, elemAt xs i s = .ok x s :=
  ⟨xs[i], elemAt_ok (List.getElem?_eq_getElem hi) s⟩

/-- The tables of a session with `numFastBytes` (R57, R321 to R323). -/
structure Prices.Shaped (numFastBytes : Nat) (p : Prices) : Prop where
  lenTableSize : p.lenTableSize = numFastBytes - 1
  lenPrices : IsTable 16 (numFastBytes - 1) p.lenPrices
  repLenPrices : IsTable 16 (numFastBytes - 1) p.repLenPrices
  lenCounter : p.lenCounter.length = 16
  repLenCounter : p.repLenCounter.length = 16
  posSlotPrices : IsTable 4 64 p.posSlotPrices
  distancesPrices : IsTable 4 128 p.distancesPrices
  alignPrices : p.alignPrices.length = 16

/-- What coding a symbol leaves of the tables, the count of matches aside. -/
structure TablesKept (p p' : Prices) : Prop where
  lenTableSize : p'.lenTableSize = p.lenTableSize
  lenCounter : p'.lenCounter.length = p.lenCounter.length
  repLenCounter : p'.repLenCounter.length = p.repLenCounter.length
  matchPriceCount : p'.matchPriceCount = p.matchPriceCount
  shaped : ∀ n, p.Shaped n → p'.Shaped n

theorem TablesKept.refl (p : Prices) : TablesKept p p := ⟨rfl, rfl, rfl, rfl, fun _ => id⟩

theorem TablesKept.trans {p p' p'' : Prices} (h : TablesKept p p') (h' : TablesKept p' p'') : TablesKept p p'' :=
  ⟨h'.lenTableSize.trans h.lenTableSize, h'.lenCounter.trans h.lenCounter, h'.repLenCounter.trans h.repLenCounter,
    h'.matchPriceCount.trans h.matchPriceCount, fun n => h'.shaped n ∘ h.shaped n⟩

theorem distCounted_kept (d : Nat) (p : Prices) : TablesKept p (p.distCounted d) := by
  unfold Prices.distCounted
  split
  · exact ⟨rfl, rfl, rfl, rfl, fun _ ⟨h1, h2, h3, h4, h5, h6, h7, h8⟩ => ⟨h1, h2, h3, h4, h5, h6, h7, h8⟩⟩
  · exact .refl p

/-! ### Refreshing the length tables (R321) -/

theorem lenCounter_kept {p : Prices} (ps n : Nat) : TablesKept p { p with lenCounter := p.lenCounter.set ps n } :=
  ⟨rfl, List.length_set, rfl, rfl, fun _ ⟨h1, h2, h3, h4, h5, h6, h7, h8⟩ =>
    ⟨h1, h2, h3, List.length_set.trans h4, h5, h6, h7, h8⟩⟩

theorem repLenCounter_kept {p : Prices} (ps n : Nat) : TablesKept p { p with repLenCounter := p.repLenCounter.set ps n } :=
  ⟨rfl, rfl, List.length_set, rfl, fun _ ⟨h1, h2, h3, h4, h5, h6, h7, h8⟩ =>
    ⟨h1, h2, h3, h4, List.length_set.trans h5, h6, h7, h8⟩⟩

theorem lenPrices_kept {p : Prices} (ps : Nat) {row : List Nat} (hrow : row.length = p.lenTableSize) :
    TablesKept p { p with lenPrices := p.lenPrices.set ps row } :=
  ⟨rfl, rfl, rfl, rfl, fun _ ⟨h1, h2, h3, h4, h5, h6, h7, h8⟩ =>
    ⟨h1, h2.set ps (hrow.trans h1), h3, h4, h5, h6, h7, h8⟩⟩

theorem repLenPrices_kept {p : Prices} (ps : Nat) {row : List Nat} (hrow : row.length = p.lenTableSize) :
    TablesKept p { p with repLenPrices := p.repLenPrices.set ps row } :=
  ⟨rfl, rfl, rfl, rfl, fun _ ⟨h1, h2, h3, h4, h5, h6, h7, h8⟩ =>
    ⟨h1, h2, h3.set ps (hrow.trans h1), h4, h5, h6, h7, h8⟩⟩

section Len

variable {s : State} (hs : s.session.cells.reachable) {ps : Nat} (hps : ps < 16)
include hs hps

theorem updateLenTable_ok : ∃ p, updateLenTable ps s = .ok () (s.withPrices p) ∧ TablesKept s.session.prices p := by
  obtain ⟨row, hrow, hlen, -⟩ := tabulate_answers (f := fun i => lenPrice .lenC i ps) (P := fun _ => True) (i := 0)
    (n := s.session.prices.lenTableSize) fun j _ => (lenPrice_costs hs (L := .lenC) rfl j hps).imp fun _ h => ⟨h.1, trivial⟩
  refine ⟨_, ?_, (lenPrices_kept ps hlen).trans (lenCounter_kept ps s.session.prices.lenTableSize)⟩
  rw [updateLenTable, act_bind_of_ok (act_get s), act_bind_of_ok hrow]
  exact mapPrices_ok _ s

theorem updateRepLenTable_ok : ∃ p, updateRepLenTable ps s = .ok () (s.withPrices p) ∧ TablesKept s.session.prices p := by
  obtain ⟨row, hrow, hlen, -⟩ := tabulate_answers (f := fun i => lenPrice .repLenC i ps) (P := fun _ => True) (i := 0)
    (n := s.session.prices.lenTableSize) fun j _ => (lenPrice_costs hs (L := .repLenC) rfl j hps).imp fun _ h => ⟨h.1, trivial⟩
  refine ⟨_, ?_, (repLenPrices_kept ps hlen).trans (repLenCounter_kept ps s.session.prices.lenTableSize)⟩
  rw [updateRepLenTable, act_bind_of_ok (act_get s), act_bind_of_ok hrow]
  exact mapPrices_ok _ s

/-- The count after a LenEncode under `LenC`. -/
theorem countLen_ok (hcounter : s.session.prices.lenCounter.length = 16) :
    ∃ p, countLen ps s = .ok () (s.withPrices p) ∧ TablesKept s.session.prices p := by
  obtain ⟨n, hn⟩ := elemAt_answers (hcounter ▸ hps) s
  have hkept := lenCounter_kept (p := s.session.prices) ps (n - 1)
  rw [countLen, act_bind_of_ok (act_get s), act_bind_of_ok hn, act_bind_of_ok (mapPrices_ok _ s)]
  split
  · obtain ⟨p, hp, hkept'⟩ := updateLenTable_ok
      (s := s.withPrices { s.session.prices with lenCounter := s.session.prices.lenCounter.set ps (n - 1) }) hs hps
    exact ⟨p, hp, hkept.trans hkept'⟩
  · exact ⟨_, rfl, hkept⟩

/-- The count after a LenEncode under `RepLenC`. -/
theorem countRepLen_ok (hcounter : s.session.prices.repLenCounter.length = 16) :
    ∃ p, countRepLen ps s = .ok () (s.withPrices p) ∧ TablesKept s.session.prices p := by
  obtain ⟨n, hn⟩ := elemAt_answers (hcounter ▸ hps) s
  have hkept := repLenCounter_kept (p := s.session.prices) ps (n - 1)
  rw [countRepLen, act_bind_of_ok (act_get s), act_bind_of_ok hn, act_bind_of_ok (mapPrices_ok _ s)]
  split
  · obtain ⟨p, hp, hkept'⟩ := updateRepLenTable_ok
      (s := s.withPrices { s.session.prices with repLenCounter := s.session.prices.repLenCounter.set ps (n - 1) }) hs hps
    exact ⟨p, hp, hkept.trans hkept'⟩
  · exact ⟨_, rfl, hkept⟩

end Len

end Sys2Proof.Machine
end

section
/-!
PROOFS. Emitting one symbol (`45_encoder_driver.md` R373 to R377): the encoder codes the bits the assembler codes (R134), and
moves `state`, `reps`, `prevByte` and the position as the symbol says.
-/

namespace Sys2Proof.Machine

/-! ### Bytes of the input -/

theorem getIndexByte_eq {s : State} {idx : Int} {a : Nat} {b : Byte} (ha : (s.session.mf.mfAbs : Int) + idx = a)
    (hb : s.inp[a]? = some b) : getIndexByte idx s = .ok b s := by
  rw [getIndexByte, act_bind_of_ok (act_get s)]
  simp only [ha]
  rw [if_neg (by omega), Int.toNat_natCast]
  exact inByte_ok.mpr ⟨hb, rfl⟩

/-- A copy of input that repeats gives the input (R109). -/
theorem copyOnto_take {inp : List Byte} {d n len : Nat} (hd : d < n) (hlen : n + len ≤ inp.length)
    (h : ∀ j, j < len → inp[n + j]? = inp[n + j - (d + 1)]?) : copyOnto d len (inp.take n) = inp.take (n + len) := by
  induction len generalizing n with
  | zero => rfl
  | succ len ih =>
    have hn : n < inp.length := by omega
    have hback : (inp.take n).getD ((inp.take n).length - d - 1) 0 = inp[n] := by
      have hbyte := h 0 (Nat.succ_pos len)
      rw [Nat.add_zero, List.getElem?_eq_getElem hn] at hbyte
      rw [List.length_take, Nat.min_eq_left hn.le, List.getD_eq_getElem?_getD, List.getElem?_take_of_lt (by omega),
        Nat.sub_sub, ← hbyte, Option.getD_some]
    rw [copyOnto, hback, List.take_concat_get' inp n hn, ih (by omega) (by omega), Nat.add_right_comm, Nat.add_assoc]
    intro j hj
    rw [show n + 1 + j = n + (j + 1) by omega]
    exact h (j + 1) (by omega)

/-! ### The parts of a symbol -/

/-- The prefix bits of SHORTREP and REPk. -/
def repPrefix (k : Nat) (long : Bool) (st : CoderState) (ps : Nat) : Act Unit := do
  encodeBit (isMatchCell st ps) true
  encodeBit (isRepCell st) true
  encodeRepPrefix k long st ps

theorem repPrefix_emits (p : Props) (k : Nat) (long : Bool) (st : CoderState) {ps : Nat} (hps : ps < 16) :
    Act.Emits p (repPrefix k long st ps) :=
  (isMatch_emits st hps true).bind ((isRep_emits st true).bind (encodeRepPrefix_emits k long st hps))

/-- REPk of length `len`. -/
def repSymbol (k len : Nat) : Instr :=
  match k with
  | 0 => .rep0 len
  | 1 => .rep1 len
  | 2 => .rep2 len
  | _ => .rep3 len

theorem codeSymbol_repSymbol {k len : Nat} (hk : k < 4) (c : State) : codeSymbol (repSymbol k len) c =
    (repPrefix k true c.session.state (posStateOf c.session.props.pb c.outPos) >>= fun _ =>
      lenEncode .repLenC (len - 2) (posStateOf c.session.props.pb c.outPos)) c := by
  have hcases : k = 0 ∨ k = 1 ∨ k = 2 ∨ k = 3 := by omega
  rw [codeSymbol, act_bind_of_ok (act_get c), repPrefix]
  rcases hcases with rfl | rfl | rfl | rfl <;> simp only [repSymbol, bind_assoc, if_true]

theorem codeSymbol_shortRep (c : State) : codeSymbol .shortRep c =
    repPrefix 0 false c.session.state (posStateOf c.session.props.pb c.outPos) c := by
  rw [codeSymbol, act_bind_of_ok (act_get c), repPrefix]
  simp only [Bool.false_eq_true, if_false, bind_pure_unit]

theorem codeSymbol_matchSym (len : Nat) (d : Word) (c : State) : codeSymbol (.matchSym len d) c =
    (matchPrefix c.session.state (posStateOf c.session.props.pb c.outPos) >>= fun _ =>
      lenEncode .lenC (len - 2) (posStateOf c.session.props.pb c.outPos) >>= fun _ => distEncode d.toNat len) c := by
  rw [codeSymbol, act_bind_of_ok (act_get c), matchPrefix, bind_assoc]

theorem codeSymbol_lit (v : Byte) (c : State) : codeSymbol (.lit v) c =
    (encodeBit (isMatchCell c.session.state (posStateOf c.session.props.pb c.outPos)) false >>= fun _ =>
      codeLiteral v) c := by
  rw [codeSymbol, act_bind_of_ok (act_get c)]

/-- EncodeRep with a length that fits (R375). -/
theorem encodeRep_eq {len : Nat} (hlen : len ≤ 273) (k ps : Nat) (s : State) : encodeRep len k ps s =
    (repPrefix k (len ≠ 1) s.session.state ps >>= fun _ =>
      if len = 1 then setCoderState (updateShortRep s.session.state) >>= fun _ => setReps (s.session.reps.promote k)
      else lenEncode .repLenC (len - 2) ps >>= fun _ => countRepLen ps >>= fun _ =>
        setCoderState (updateRep s.session.state) >>= fun _ => setReps (s.session.reps.promote k)) s := by
  rw [encodeRep, act_bind_of_ok (act_get s), if_neg (Nat.not_lt.mpr hlen), repPrefix]
  simp only [bind_assoc]

/-- EncodeMatch with a length that fits (R376). -/
theorem encodeMatch_eq {len : Nat} (hlen : len ≤ 273) (d : Word) (ps : Nat) (s : State) : encodeMatch len d ps s =
    (matchPrefix s.session.state ps >>= fun _ => setCoderState (updateMatch s.session.state) >>= fun _ =>
      lenEncode .lenC (len - 2) ps >>= fun _ => countLen ps >>= fun _ => distEncode d.toNat len >>= fun _ =>
        setReps (s.session.reps.push d) >>= fun _ =>
          mapPrices fun p => { p with matchPriceCount := p.matchPriceCount + 1 }) s := by
  rw [encodeMatch, act_bind_of_ok (act_get s), if_neg (Nat.not_lt.mpr hlen), matchPrefix, bind_assoc]

/-! ### A symbol in the encoder and in the coder of a program -/

/-- `s` with the fields that coding a symbol writes. -/
structure Coded (st : CoderState) (r : Reps) (b : Byte) (s t : State) : Prop where
  frame : t = { s with
    regs := { s.regs with outCount := t.regs.outCount }
    session := { s.session with
      state := st, reps := r, cells := t.session.cells, renc := t.session.renc, prices := t.session.prices
      enc := { s.session.enc with prevByte := b } }
    out := t.out }
  ok : CoderOk t
  counted : Counted s t
  grows : s.out <+: t.out

/-- The count of matches after a symbol (R376). -/
def Prices.symbolCounted (p : Prices) : Instr → Prices
  | .matchSym _ _ => { p with matchPriceCount := p.matchPriceCount + 1 }
  | _ => p

/-- The encoder `s` codes `i` in `t`, and the coder `c` of a program codes it alike in `u`. -/
structure CodedAs (i : Instr) (b : Byte) (s c t u : State) : Prop where
  coded : Coded (symbolState i s.session.state) (symbolReps i s.session.reps) b s t
  alike : CodesAs t u
  context : SameContext c u
  tables : ∃ p, TablesKept s.session.prices p ∧ t.session.prices = p.symbolCounted i

theorem SameContext.of_prices {c u : State} (h : SameContext c u) (p : Prices) : SameContext c (u.withPrices p) :=
  ⟨h.win, h.state, h.reps, h.lc, h.lp, h.pb⟩

theorem prevOutByte_eq (c : State) : prevOutByte c = .ok (c.win.getLast?.getD 0) c := by
  rw [prevOutByte, act_bind_of_ok (act_get c), List.getLast?_eq_getElem?]
  by_cases h : c.outPos = 0
  · rw [if_pos h, List.getElem?_eq_none (by rw [show c.win.length = 0 from h])]
    rfl
  · have hlt : c.outPos - 1 < c.outPos := by omega
    rw [if_neg h, winRead_eq hlt, List.getD_eq_getElem?_getD]
    rfl

/-- A chain of frames: bits, then writes of `state`, then bits. -/
theorem Emitted.withCoderState {a : Act Unit} {s c t u : State} (h : Emitted a s c t u) (st : CoderState) :
    CoderOk (t.withCoderState fun _ => st) ∧ CodesAs (t.withCoderState fun _ => st) u :=
  ⟨h.ok.congr rfl rfl, h.alike.cells, h.alike.coder, h.alike.lc, h.alike.lp, h.alike.out⟩

section Symbol

variable {s c : State}

theorem SameCoder.codesAs (h : SameCoder s c) : CodesAs s c := ⟨h.cells, h.coder, h.lc, h.lp, h.out⟩

theorem SameCoder.outPos (h : SameCoder s c) : c.outPos = s.session.enc.nowPos := by
  rw [State.outPos, h.window, List.length_take, Nat.min_eq_left h.inInput]

theorem CanCode.coderOk (h : CanCode s) : CoderOk s := ⟨h.coder, h.cells, h.canonical⟩

theorem SameCoder.posState (h : SameCoder s c) : posStateOf c.session.props.pb c.outPos =
    posStateOf s.session.props.pb s.session.enc.nowPos := by
  rw [h.pb, h.outPos]

variable (hsame : SameCoder s c)
include hsame

/-- The byte before and the match byte of a literal, as the encoder and as the assembler read them. -/
theorem codeLiteral_reads (v : Byte) : ∃ mb : Byte,
    (isChar s.session.state = false → ∀ s1, s1.session.mf = s.session.mf → s1.inp = s.inp →
      s.session.mf.mfAbs = s.session.enc.nowPos + s.session.enc.additionalOffset →
      getIndexByte (-(s.session.reps.r0.toNat : Int) - 1 - s.session.enc.additionalOffset) s1 = .ok mb s1) ∧
    ∀ c1, SameContext c c1 → codeLiteral v c1 =
      (if isChar s.session.state then litEncode (litBase s.session.props s.session.enc.nowPos s.session.enc.prevByte) v
        else litEncodeMatched (litBase s.session.props s.session.enc.nowPos s.session.enc.prevByte) mb v) c1 := by
  have hprev (c1 : State) (hctx : SameContext c c1) : prevOutByte c1 = .ok s.session.enc.prevByte c1 := by
    rw [prevOutByte_eq, hctx.win, hsame.prevByte]
  have hbase (c1 : State) (hctx : SameContext c c1) (prev : Byte) :
      litBase c1.session.props c1.outPos prev = litBase s.session.props s.session.enc.nowPos prev := by
    rw [litBase, litBase, hctx.lc, hctx.lp, hctx.outPos, hsame.lc, hsame.lp, hsame.outPos]
  cases hchar : isChar s.session.state with
  | true =>
    refine ⟨0, nofun, fun c1 hctx => ?_⟩
    rw [codeLiteral, act_bind_of_ok (act_get c1), act_bind_of_ok (hprev c1 hctx)]
    simp only [hbase c1 hctx, hctx.state, hsame.state, hchar, if_true]
  | false =>
    have hback := hsame.matchByte hchar
    have hin := hsame.inInput
    have hmb : s.inp[s.session.enc.nowPos - s.session.reps.r0.toNat - 1]? =
        some s.inp[s.session.enc.nowPos - s.session.reps.r0.toNat - 1] := List.getElem?_eq_getElem (by omega)
    refine ⟨_, fun _ s1 hmf hinp hpos => getIndexByte_eq ?_ (by rw [hinp, hmb]),
      fun c1 hctx => ?_⟩
    · rw [hmf, hpos]
      omega
    · have hwin : backByte c1.session.reps.r0.toNat c1 =
          .ok s.inp[s.session.enc.nowPos - s.session.reps.r0.toNat - 1] c1 := by
        have hlt : c1.session.reps.r0.toNat < c1.outPos := by
          rw [hctx.reps, hctx.outPos, hsame.reps, hsame.outPos]
          exact hback
        rw [backByte_inside hlt, winRead_eq (by omega), hctx.win, hctx.outPos, hctx.reps, hsame.outPos, hsame.reps,
          hsame.window, List.getD_eq_getElem?_getD, List.getElem?_take_of_lt (by omega), hmb, Option.getD_some]
      rw [codeLiteral, act_bind_of_ok (act_get c1), act_bind_of_ok (hprev c1 hctx)]
      simp only [hbase c1 hctx, hctx.state, hsame.state, hchar, Bool.false_eq_true, if_false]
      rw [act_bind_of_ok hwin]

/-- LIT (R374). -/
theorem encodeLiteral_coded (hok : CoderOk s) (hlc : s.session.props.lc ≤ 8) (hpb : s.session.props.pb ≤ 4) {v : Byte}
    (hv : s.inp[s.session.enc.nowPos]? = some v)
    (hpos : s.session.mf.mfAbs = s.session.enc.nowPos + s.session.enc.additionalOffset) :
    ∃ t u, encodeLiteral (posStateOf s.session.props.pb s.session.enc.nowPos) s = .ok () t ∧
      codeSymbol (.lit v) c = .ok () u ∧ CodedAs (.lit v) v s c t u := by
  obtain ⟨s1, c1, h1⟩ := isMatch_emits s.session.state (posState_lt hpb s.session.enc.nowPos) false s c
    rfl hok hsame.codesAs
  have hbase := litBase_le hlc s.session.enc.nowPos s.session.enc.prevByte
  have hmf : s1.session.mf = s.session.mf := by rw [h1.frame]
  have hinp : s1.inp = s.inp := by rw [h1.frame]
  have hcontext := SameContext.of_codeFrame h1.frame'
  have hcur : getIndexByte (-(s.session.enc.additionalOffset : Int)) s1 = .ok v s1 :=
    getIndexByte_eq (a := s.session.enc.nowPos) (by rw [hmf, hpos]; omega) (hinp ▸ hv)
  obtain ⟨mb, hmb, hcode⟩ := codeLiteral_reads hsame v
  have hemits : Act.Emits s.session.props (if isChar s.session.state then
      litEncode (litBase s.session.props s.session.enc.nowPos s.session.enc.prevByte) v
      else litEncodeMatched (litBase s.session.props s.session.enc.nowPos s.session.enc.prevByte) mb v) := by
    split
    · exact litEncode_emits hbase v
    · exact litEncodeMatched_emits hbase mb v
  obtain ⟨s2, c2, h2⟩ := hemits s1 c1 (codeFrame_props h1.frame) h1.ok h1.alike
  have hframe := codeFrame_preorder.trans _ _ _ h1.frame h2.frame
  have hprices : s2.session.prices = s.session.prices := by rw [hframe]
  refine ⟨s2.mapSession fun ss => { ss with enc := { ss.enc with prevByte := v }, state := updateChar s.session.state }, c2,
    ?_, ?_, ⟨⟨?_, h2.ok.congr rfl rfl, h2.counted ∘ h1.counted, h1.grows.trans h2.grows⟩,
      ⟨h2.alike.cells, h2.alike.coder, h2.alike.lc, h2.alike.lp, h2.alike.out⟩,
      hcontext.trans (SameContext.of_codeFrame h2.frame'), _, .refl _, hprices⟩⟩
  · rw [encodeLiteral, act_bind_of_ok (act_get s), act_bind_of_ok h1.run, act_bind_of_ok hcur]
    have hrun := h2.run
    cases hchar : isChar s.session.state with
    | true =>
      simp only [hchar, if_true] at hrun ⊢
      rw [act_bind_of_ok hrun]
      rfl
    | false =>
      simp only [hchar, Bool.false_eq_true, if_false] at hrun ⊢
      rw [act_bind_of_ok (hmb hchar s1 hmf hinp hpos), act_bind_of_ok hrun]
      rfl
  · rw [codeSymbol_lit, hsame.posState, hsame.state, act_bind_of_ok h1.run', hcode c1 hcontext]
    exact h2.run'
  · rw [hframe]
    rfl

variable (hcan : CanCode s)
include hcan

/-- SHORTREP (R375). -/
theorem encodeShortRep_coded : ∃ t u, encodeRep 1 0 (posStateOf s.session.props.pb s.session.enc.nowPos) s = .ok () t ∧
    codeSymbol .shortRep c = .ok () u ∧ CodedAs .shortRep s.session.enc.prevByte s c t u := by
  obtain ⟨s1, c1, h1⟩ := repPrefix_emits s.session.props 0 false s.session.state
    (posState_lt hcan.pb s.session.enc.nowPos) s c rfl hcan.coderOk hsame.codesAs
  have hprices : s1.session.prices = s.session.prices := by rw [h1.frame]
  refine ⟨s1.mapSession fun ss => { ss with state := updateShortRep s.session.state, reps := s.session.reps }, c1, ?_, ?_,
    ⟨⟨?_, h1.ok.congr rfl rfl, h1.counted, h1.grows⟩,
      ⟨h1.alike.cells, h1.alike.coder, h1.alike.lc, h1.alike.lp, h1.alike.out⟩,
      SameContext.of_codeFrame h1.frame', _, .refl _, hprices⟩⟩
  · rw [encodeRep_eq (by decide)]
    exact act_bind_of_ok h1.run _
  · rw [codeSymbol_shortRep, hsame.posState, hsame.state]
    exact h1.run'
  · rw [h1.frame]
    rfl

/-- REPk with a length (R375). -/
theorem encodeRep_coded {k len : Nat} (hk : k < 4) (hlo : 2 ≤ len) (hhi : len ≤ 273) :
    ∃ t u, encodeRep len k (posStateOf s.session.props.pb s.session.enc.nowPos) s = .ok () t ∧
      codeSymbol (repSymbol k len) c = .ok () u ∧
      Coded (updateRep s.session.state) (s.session.reps.promote k) s.session.enc.prevByte s t ∧ CodesAs t u ∧
      SameContext c u ∧ TablesKept s.session.prices t.session.prices := by
  have hps := posState_lt hcan.pb s.session.enc.nowPos
  obtain ⟨s1, c1, h1⟩ := ((repPrefix_emits s.session.props k true s.session.state hps).bind
    (lenEncode_emits (L := .repLenC) rfl (len - 2) hps)) s c rfl hcan.coderOk hsame.codesAs
  have hprices : s1.session.prices = s.session.prices := by rw [h1.frame]
  obtain ⟨p, hcount, hkept⟩ := countRepLen_ok h1.ok.reachable hps (hprices ▸ hcan.repLenCounter)
  refine ⟨(s1.withPrices p).mapSession fun ss =>
    { ss with state := updateRep s.session.state, reps := s.session.reps.promote k }, c1, ?_, ?_,
    ⟨?_, h1.ok.congr rfl rfl, h1.counted, h1.grows⟩,
    ⟨h1.alike.cells, h1.alike.coder, h1.alike.lc, h1.alike.lp, h1.alike.out⟩, SameContext.of_codeFrame h1.frame', hprices ▸ hkept⟩
  · obtain ⟨_, s0, hprefix, hlen⟩ := act_bind_ok h1.run
    rw [encodeRep_eq hhi, show decide (len ≠ 1) = true by simp; omega, act_bind_of_ok hprefix, if_neg (by omega),
      act_bind_of_ok hlen, act_bind_of_ok hcount]
    rfl
  · rw [codeSymbol_repSymbol hk, hsame.posState, hsame.state]
    exact h1.run'
  · rw [h1.frame]
    rfl

/-- MATCH (R376). -/
theorem encodeMatch_coded {len : Nat} (hhi : len ≤ 273) (d : Word) :
    ∃ t u, encodeMatch len d (posStateOf s.session.props.pb s.session.enc.nowPos) s = .ok () t ∧
      codeSymbol (.matchSym len d) c = .ok () u ∧ CodedAs (.matchSym len d) s.session.enc.prevByte s c t u := by
  have hps := posState_lt hcan.pb s.session.enc.nowPos
  obtain ⟨s1, c1, h1⟩ := matchPrefix_emits s.session.props s.session.state hps s c rfl hcan.coderOk hsame.codesAs
  obtain ⟨hok1, halike1⟩ := h1.withCoderState (updateMatch s.session.state)
  obtain ⟨s2, c2, h2⟩ := lenEncode_emits (p := s.session.props) (L := .lenC) rfl (len - 2) hps
    (s1.withCoderState fun _ => updateMatch s.session.state) c1
    (codeFrame_props h1.frame : s1.session.props = _) hok1 halike1
  have hprices : s2.session.prices = s.session.prices := by rw [h2.frame]; show s1.session.prices = _; rw [h1.frame]
  obtain ⟨p, hcount, hkept⟩ := countLen_ok h2.ok.reachable hps (hprices ▸ hcan.lenCounter)
  obtain ⟨s3, c3, h3⟩ := distBits_emits (s2.withPrices p).session.props d.toNat len (s2.withPrices p) c2 rfl
    (h2.ok.congr rfl rfl) ⟨h2.alike.cells, h2.alike.coder, h2.alike.lc, h2.alike.lp, h2.alike.out⟩
  have hprices3 : s3.session.prices = p := by rw [h3.frame]; rfl
  have hkept3 := (hprices ▸ hkept).trans (distCounted_kept d.toNat p)
  refine ⟨s3.mapSession fun ss => { ss with reps := s.session.reps.push d, prices :=
    { p.distCounted d.toNat with matchPriceCount := (p.distCounted d.toNat).matchPriceCount + 1 } },
    c3.withPrices (c3.session.prices.distCounted d.toNat), ?_, ?_,
    ⟨⟨?_, h3.ok.congr rfl rfl, h3.counted ∘ h2.counted ∘ h1.counted, h1.grows.trans (h2.grows.trans h3.grows)⟩,
      ⟨h3.alike.cells, h3.alike.coder, h3.alike.lc, h3.alike.lp, h3.alike.out⟩, ?_, _, hkept3, rfl⟩⟩
  · rw [encodeMatch_eq hhi, act_bind_of_ok h1.run]
    calc _ = (lenEncode .lenC (len - 2) (posStateOf s.session.props.pb s.session.enc.nowPos) >>= fun _ =>
          countLen (posStateOf s.session.props.pb s.session.enc.nowPos) >>= fun _ => distEncode d.toNat len >>= fun _ =>
            setReps (s.session.reps.push d) >>= fun _ =>
              mapPrices fun p => { p with matchPriceCount := p.matchPriceCount + 1 })
          (s1.withCoderState fun _ => updateMatch s.session.state) := rfl
      _ = _ := by
        rw [act_bind_of_ok h2.run, act_bind_of_ok hcount, distEncode_eq, bind_assoc, act_bind_of_ok h3.run,
          act_bind_of_ok (mapPrices_ok _ s3), hprices3]
        rfl
  · rw [codeSymbol_matchSym, hsame.posState, hsame.state, act_bind_of_ok h1.run', act_bind_of_ok h2.run', distEncode_eq,
      act_bind_of_ok h3.run', mapPrices_ok]
  · rw [h3.frame, h2.frame, h1.frame]
    rfl
  · exact (((SameContext.of_codeFrame h1.frame').trans (SameContext.of_codeFrame h2.frame')).trans
      (SameContext.of_codeFrame h3.frame')).of_prices _

end Symbol

/-! ### The symbol of a step -/

theorem word_lt_four {w : Word} (h : w.toNat < 4) : w = 0 ∨ w = 1 ∨ w = 2 ∨ w = 3 := by
  have hcases : w.toNat = 0 ∨ w.toNat = 1 ∨ w.toNat = 2 ∨ w.toNat = 3 := by omega
  rcases hcases with h | h | h | h
  · exact .inl (BitVec.eq_of_toNat_eq h)
  · exact .inr (.inl (BitVec.eq_of_toNat_eq h))
  · exact .inr (.inr (.inl (BitVec.eq_of_toNat_eq h)))
  · exact .inr (.inr (.inr (BitVec.eq_of_toNat_eq h)))

theorem stepSymbol_lit (v : Byte) : stepSymbol v 1 backChar = .lit v := if_pos ⟨rfl, rfl⟩

theorem stepSymbol_shortRep (v : Byte) : stepSymbol v 1 0 = .shortRep := rfl

theorem stepSymbol_rep (v : Byte) {len : Nat} {back : Word} (hlen : 2 ≤ len) (hback : back.toNat < 4) :
    stepSymbol v len back = repSymbol back.toNat len := by
  have hne : len ≠ 1 := by omega
  rcases word_lt_four hback with rfl | rfl | rfl | rfl <;> simp [stepSymbol, repSymbol, hne]

theorem stepSymbol_match (v : Byte) {len : Nat} {back : Word} (hlen : 2 ≤ len) (hback : 4 ≤ back.toNat) :
    stepSymbol v len back = .matchSym len (u32 (back.toNat - 4)) := by
  rw [stepSymbol, if_neg (by omega), if_neg (by omega)]

theorem runs_lit (v : Byte) : Runs (.lit v) := ⟨rfl, nofun⟩

theorem runs_shortRep : Runs .shortRep := ⟨rfl, nofun⟩

theorem runs_repSymbol (k : Nat) {len : Nat} (hlo : 2 ≤ len) (hhi : len ≤ 273) : Runs (repSymbol k len) := by
  have hok : lenOk len = true := lenOk_iff.mpr ⟨hlo, hhi⟩
  unfold repSymbol
  split <;> exact ⟨by simp [isProgramSymbol, Instr.wellFormed, Instr.isCommand, hok], nofun⟩

theorem runs_matchSym {len : Nat} {d : Word} (hlo : 2 ≤ len) (hhi : len ≤ 273) (hd : d ≠ endDistance) :
    Runs (.matchSym len d) := by
  have hok : lenOk len = true := lenOk_iff.mpr ⟨hlo, hhi⟩
  have hnot : (d != endDistance) = true := bne_iff_ne.mpr hd
  exact ⟨by simp only [isProgramSymbol, Instr.wellFormed, Instr.isCommand, hok, hnot, Bool.and_self, Bool.not_false],
    nofun⟩

theorem repSymbol_length (k len : Nat) : symbolLength (repSymbol k len) = len := by
  unfold repSymbol
  split <;> rfl

theorem repSymbol_state (k len : Nat) (st : CoderState) : symbolState (repSymbol k len) st = updateRep st := by
  unfold repSymbol
  split <;> rfl

theorem repSymbol_reps {k : Nat} (hk : k < 4) (len : Nat) (r : Reps) : symbolReps (repSymbol k len) r = r.promote k := by
  have hcases : k = 0 ∨ k = 1 ∨ k = 2 ∨ k = 3 := by omega
  rcases hcases with rfl | rfl | rfl | rfl <;> rfl

theorem promote_r0 {k : Nat} (hk : k < 4) (r : Reps) : (r.promote k).r0 = r.get k := by
  have hcases : k = 0 ∨ k = 1 ∨ k = 2 ∨ k = 3 := by omega
  rcases hcases with rfl | rfl | rfl | rfl <;> rfl

theorem repSymbol_counted (k len : Nat) (p : Prices) : p.symbolCounted (repSymbol k len) = p := by
  unfold repSymbol
  split <;> rfl

theorem repSymbol_ne_lit (k len : Nat) (v : Byte) : repSymbol k len ≠ .lit v := by
  unfold repSymbol
  split <;> nofun

/-! ### The post-step (R377) -/

/-- `s` after the post-step of a symbol of `len` bytes whose last byte is `b`. -/
def State.stepped (s : State) (len : Nat) (b : Byte) : State :=
  { s with
    regs := { s.regs with inCount := u32 (s.session.enc.nowPos + len) }
    session := { s.session with
      enc := { s.session.enc with
        prevByte := b, nowPos := s.session.enc.nowPos + len
        additionalOffset := s.session.enc.additionalOffset - len } } }

theorem postStep_lit (s : State) : postStep 1 true s = .ok () (s.stepped 1 s.session.enc.prevByte) := by
  rw [postStep, act_bind_of_ok (act_get s)]
  rfl

theorem postStep_copy {s : State} {len : Nat} {b : Byte} (hlen : 1 ≤ len)
    (hpos : s.session.mf.mfAbs = s.session.enc.nowPos + s.session.enc.additionalOffset)
    (hb : s.inp[s.session.enc.nowPos + len - 1]? = some b) : postStep len false s = .ok () (s.stepped len b) := by
  have hbyte : getIndexByte ((len : Int) - 1 - s.session.enc.additionalOffset) s = .ok b s :=
    getIndexByte_eq (by rw [hpos]; omega) hb
  rw [postStep, act_bind_of_ok (act_get s)]
  simp only [Bool.not_false, if_true]
  rw [act_bind_of_ok hbyte]
  rfl

/-- A symbol coded and stepped over leaves encoder and coder at one point again. -/
theorem stepped_sameCoder {i : Instr} {len : Nat} {b last : Byte} {s c t u : State} (hsame : SameCoder s c)
    (hcoded : Coded (symbolState i s.session.state) (symbolReps i s.session.reps) b s t) (halike : CodesAs t u)
    (hctx : SameContext c u) (hlen : 1 ≤ len) (hin : s.session.enc.nowPos + len ≤ s.inp.length)
    (hwin : symbolWin i s.session.reps (s.inp.take s.session.enc.nowPos) = s.inp.take (s.session.enc.nowPos + len))
    (hlast : s.inp[s.session.enc.nowPos + len - 1]? = some last)
    (hreach : (∃ v, i = .lit v) ∨ (symbolReps i s.session.reps).r0.toNat < s.session.enc.nowPos) :
    SameCoder (t.stepped len last) (u.ran i) := by
  have hframe := hcoded.frame
  have hpos : t.session.enc.nowPos = s.session.enc.nowPos := by rw [hframe]
  have hinp : t.inp = s.inp := by rw [hframe]
  have hstate : t.session.state = symbolState i s.session.state := by rw [hframe]
  have hreps : t.session.reps = symbolReps i s.session.reps := by rw [hframe]
  have hpb : t.session.props.pb = s.session.props.pb := by rw [hframe]
  have huwin : (u.ran i).win = s.inp.take (s.session.enc.nowPos + len) := by
    show symbolWin i u.session.reps u.win = _
    rw [hctx.reps, hctx.win, hsame.reps, hsame.window, hwin]
  refine ⟨halike.cells, halike.coder, ?_, ?_, halike.lc, halike.lp, ?_, halike.out, ?_, ?_, ?_, fun hchar => ?_⟩
  · show symbolState i u.session.state = t.session.state
    rw [hctx.state, hsame.state, hstate]
  · show symbolReps i u.session.reps = t.session.reps
    rw [hctx.reps, hsame.reps, hreps]
  · show u.session.props.pb = t.session.props.pb
    rw [hctx.pb, hsame.pb, hpb]
  · show _ = t.inp.take (t.session.enc.nowPos + len)
    rw [huwin, hinp, hpos]
  · show t.session.enc.nowPos + len ≤ t.inp.length
    rw [hpos, hinp]
    exact hin
  · show last = _
    rw [huwin, List.getLast?_eq_getElem?, List.length_take, Nat.min_eq_left hin,
      List.getElem?_take_of_lt (by omega), hlast, Option.getD_some]
  · show t.session.reps.r0.toNat < t.session.enc.nowPos + len
    rw [hreps, hpos]
    rcases hreach with ⟨v, rfl⟩ | hreach
    · have hchar' : isChar t.session.state = false := hchar
      rw [hstate] at hchar'
      exact absurd ((isChar_updateChar s.session.state).symm.trans hchar') (by decide)
    · omega

/-- A coded symbol leaves a state that can code. -/
theorem stepped_canCode {i : Instr} {b : Byte} {s c t u : State} (hcan : CanCode s) (h : CodedAs i b s c t u) (len : Nat)
    (last : Byte) : CanCode (t.stepped len last) := by
  have hprops : t.session.props = s.session.props := by rw [h.coded.frame]
  obtain ⟨p, hkept, hprices⟩ := h.tables
  have hlc : t.session.props.lc ≤ 8 := hprops ▸ hcan.lc
  have hpb : t.session.props.pb ≤ 4 := hprops ▸ hcan.pb
  have hcounted : (p.symbolCounted i).lenCounter = p.lenCounter ∧ (p.symbolCounted i).repLenCounter = p.repLenCounter ∧
      (p.symbolCounted i).lenTableSize = p.lenTableSize := by
    cases i <;> exact ⟨rfl, rfl, rfl⟩
  rw [← hprices] at hcounted
  obtain ⟨hlen, hrep, hsize⟩ := hcounted
  exact ⟨h.coded.ok.coder, h.coded.ok.reachable, h.coded.ok.canonical, hlc, hpb,
    (congrArg List.length hlen).trans (hkept.lenCounter.trans hcan.lenCounter),
    (congrArg List.length hrep).trans (hkept.repLenCounter.trans hcan.repLenCounter),
    (hsize.trans hkept.lenTableSize).trans_le hcan.lenTableSize⟩

/-! ### A legal step -/

/-- The step (len, back) emitted from `s` to `t`: it codes the symbol `i`, which `c` codes alike to `u`. -/
structure Emission (i : Instr) (len : Nat) (back : Word) (s c t u : State) : Prop where
  run : (encodeStep len back (posStateOf s.session.props.pb s.session.enc.nowPos) >>= fun _ =>
    postStep len (len = 1 && back = backChar)) s = .ok () t
  runs : Runs i
  length : symbolLength i = len
  coded : ∃ b last t1 c1, CodedAs i b s c t1 c1 ∧ codeSymbol i c = .ok () c1 ∧
    s.inp[s.session.enc.nowPos + len - 1]? = some last ∧ t = t1.stepped len last ∧ u = c1.ran i
  reaches : (∃ v, i = .lit v) ∨ (symbolReps i s.session.reps).r0.toNat < s.session.enc.nowPos
  same : SameCoder t u

section Legal

variable {s c : State} {len : Nat} {back : Word} {v : Byte} (hcan : CanCode s) (hsame : SameCoder s c)
  (hpos : s.session.mf.mfAbs = s.session.enc.nowPos + s.session.enc.additionalOffset)
include hcan hsame hpos

/-- A literal step. -/
theorem lit_emission (hv : s.inp[s.session.enc.nowPos]? = some v) (hin : s.session.enc.nowPos + 1 ≤ s.inp.length) :
    ∃ t u, Emission (.lit v) 1 backChar s c t u := by
  obtain ⟨t, u, hrun, hcode, hcoded⟩ := encodeLiteral_coded hsame hcan.coderOk hcan.lc hcan.pb hv hpos
  have hprev : t.session.enc.prevByte = v := by rw [hcoded.coded.frame]
  have hwin : symbolWin (.lit v) s.session.reps (s.inp.take s.session.enc.nowPos) =
      s.inp.take (s.session.enc.nowPos + 1) := by
    have hn : s.session.enc.nowPos < s.inp.length := hin
    rw [List.getElem?_eq_getElem hn, Option.some.injEq] at hv
    rw [← List.take_concat_get' _ _ hn, hv]
    rfl
  refine ⟨_, _, ?_, runs_lit v, rfl, ⟨v, v, t, u, hcoded, hcode, hv, rfl, rfl⟩, .inl ⟨v, rfl⟩,
    stepped_sameCoder hsame hcoded.coded hcoded.alike hcoded.context (le_refl 1) hin hwin hv (.inl ⟨v, rfl⟩)⟩
  rw [encodeStep, if_pos (by decide), act_bind_of_ok hrun, ← hprev]
  exact postStep_lit t

omit hcan in
/-- A copy step: what coding the symbol leaves is stepped over. -/
theorem copy_emission {i : Instr} {t u : State} (hi : Runs i) (hlit : ∀ v, i ≠ .lit v) (hlen : symbolLength i = len)
    (hone : 1 ≤ len) (hnot : ¬(len = 1 ∧ back = backChar)) (hin : s.session.enc.nowPos + len ≤ s.inp.length)
    (hrep : repeatsFrom s (symbolReps i s.session.reps).r0.toNat len)
    (hrun : encodeStep len back (posStateOf s.session.props.pb s.session.enc.nowPos) s = .ok () t)
    (hcode : codeSymbol i c = .ok () u) (hcoded : CodedAs i s.session.enc.prevByte s c t u) :
    ∃ t u, Emission i len back s c t u := by
  have hframe := hcoded.coded.frame
  have hlast : s.inp[s.session.enc.nowPos + len - 1]? = some s.inp[s.session.enc.nowPos + len - 1] :=
    List.getElem?_eq_getElem (by omega)
  have hpost : postStep len false t = .ok () (t.stepped len s.inp[s.session.enc.nowPos + len - 1]) :=
    postStep_copy hone (by rw [hframe]; exact hpos) (by rw [hframe]; exact hlast)
  have hwin := copyOnto_take hrep.1 hin hrep.2
  rw [← hlen] at hwin
  rw [← symbolWin_copy hlit, hlen] at hwin
  refine ⟨_, _, ?_, hi, hlen, ⟨_, _, t, u, hcoded, hcode, hlast, rfl, rfl⟩, .inr hrep.1,
    stepped_sameCoder hsame hcoded.coded hcoded.alike hcoded.context hone hin hwin hlast (.inr hrep.1)⟩
  have hfalse : (decide (len = 1) && decide (back = backChar)) = false := by
    rw [Bool.eq_false_iff, ne_eq, Bool.and_eq_true, decide_eq_true_eq, decide_eq_true_eq]
    exact hnot
  rw [act_bind_of_ok hrun, hfalse]
  exact hpost

/-- Every legal step is emitted. -/
theorem legal_emission (hlegal : stepLegal s len back) (hv : s.inp[s.session.enc.nowPos]? = some v) :
    ∃ t u, Emission (stepSymbol v len back) len back s c t u := by
  obtain ⟨hin, ⟨rfl, rfl⟩ | ⟨hback, hlen, hrep⟩ | ⟨hback, hlo, hhi, hrep⟩⟩ := hlegal
  · exact lit_emission hcan hsame hpos hv hin
  · have hnot : ¬(len = 1 ∧ back = backChar) := fun h => by
      rw [h.2] at hback
      exact absurd hback (by decide)
    have hstep : encodeStep len back (posStateOf s.session.props.pb s.session.enc.nowPos) =
        encodeRep len back.toNat (posStateOf s.session.props.pb s.session.enc.nowPos) := by
      rw [encodeStep, if_neg (by simpa using hnot), if_pos hback]
    rcases hlen with ⟨rfl, rfl⟩ | ⟨hlo, hhi⟩
    · obtain ⟨t, u, hrun, hcode, hcoded⟩ := encodeShortRep_coded hsame hcan
      exact copy_emission hsame hpos runs_shortRep nofun rfl (le_refl 1) hnot hin hrep (hstep ▸ hrun) hcode hcoded
    · obtain ⟨t, u, hrun, hcode, hcoded, halike, hctx, hkept⟩ := encodeRep_coded hsame hcan hback hlo hhi
      rw [← repSymbol_state back.toNat len, ← repSymbol_reps hback len] at hcoded
      rw [stepSymbol_rep v hlo hback]
      refine copy_emission hsame hpos (runs_repSymbol _ hlo hhi) (repSymbol_ne_lit _ _) (repSymbol_length _ _) (by omega)
        hnot hin ?_ (hstep ▸ hrun) hcode ⟨hcoded, halike, hctx, _, hkept,
          (repSymbol_counted _ _ _).symm⟩
      rw [repSymbol_reps hback, promote_r0 hback]
      exact hrep
  · have hne : len ≠ 1 := by omega
    have hstep : encodeStep len back (posStateOf s.session.props.pb s.session.enc.nowPos) =
        encodeMatch len (u32 (back.toNat - 4)) (posStateOf s.session.props.pb s.session.enc.nowPos) := by
      rw [encodeStep, if_neg (by simp [hne]), if_neg (by omega)]
    have hd : (u32 (back.toNat - 4)).toNat = back.toNat - 4 := u32_toNat (by omega)
    have hend : u32 (back.toNat - 4) ≠ endDistance := fun h => by
      have := congrArg BitVec.toNat h
      rw [hd] at this
      have := back.isLt
      have : endDistance.toNat = 2 ^ 32 - 1 := rfl
      omega
    obtain ⟨t, u, hrun, hcode, hcoded⟩ := encodeMatch_coded hsame hcan hhi (u32 (back.toNat - 4))
    rw [stepSymbol_match v hlo hback]
    refine copy_emission hsame hpos (runs_matchSym hlo hhi hend) nofun rfl (by omega) (fun h => hne h.1) hin ?_
      (hstep ▸ hrun) hcode hcoded
    show repeatsFrom s (u32 (back.toNat - 4)).toNat len
    rw [hd]
    exact hrep

end Legal

/-- The rules of a step in the terms of its symbol. -/
theorem symbolState_eq (i : Instr) (st : CoderState) : Runs i → symbolState i st =
    (match i with
      | .lit _ => updateChar st
      | .matchSym _ _ => updateMatch st
      | .shortRep => updateShortRep st
      | _ => updateRep st) := by
  intro ⟨hsymbol, hend⟩
  cases i with
  | endMark len => exact absurd rfl (hend len)
  | nop | encOpen | encStep | decOpen | decStep | close => cases hsymbol
  | lit | matchSym | shortRep | rep0 | rep1 | rep2 | rep3 => rfl

theorem stepSymbol_reps {s : State} {len : Nat} {back : Word} (hlegal : stepLegal s len back) (v : Byte) (r : Reps) :
    symbolReps (stepSymbol v len back) r =
      (match stepSymbol v len back with
        | .lit _ => r
        | .matchSym _ d => r.push d
        | _ => r.promote back.toNat) := by
  obtain ⟨-, ⟨rfl, rfl⟩ | ⟨hback, ⟨rfl, rfl⟩ | ⟨hlo, -⟩, -⟩ | ⟨hback, hlo, -⟩⟩ := hlegal
  · rw [stepSymbol_lit]
    rfl
  · rw [stepSymbol_shortRep]
    rfl
  · rw [stepSymbol_rep v hlo hback]
    rcases word_lt_four hback with rfl | rfl | rfl | rfl <;> rfl
  · rw [stepSymbol_match v hlo hback]
    rfl

theorem symbolCounted_matches (i : Instr) (p : Prices) : (p.symbolCounted i).matchPriceCount =
    (match i with
      | .matchSym _ _ => p.matchPriceCount + 1
      | _ => p.matchPriceCount) := by
  cases i <;> rfl

/-- Settles O22: a legal step is emitted as its symbol, and the post-step is the move of the position. -/
theorem encodeStepEmitsSymbol : Obligations.EncodeStepEmitsSymbol := by
  intro s c len back v hcan hsame hlegal hv hpos hoff st i
  obtain ⟨t, u, h⟩ := legal_emission hcan hsame hpos hlegal hv
  have hrun := h.run
  have hsame' := h.same
  have hi := h.runs
  obtain ⟨b, last, t1, c1, hcoded, hcode, hlast, rfl, rfl⟩ := h.coded
  have hframe := hcoded.coded.frame
  have hreach : c1.reaches i := by
    rw [State.reaches, hcoded.context.reps, hsame.reps, hcoded.context.outPos, hsame.outPos]
    exact h.reaches
  have hprogram : codeProgram [i] c = .ok () (c1.ran i) := by
    rw [codeProgram, act_bind_of_ok hcode, act_bind_of_ok (followSymbol_of_reaches hi hreach)]
    rfl
  obtain ⟨p, hkept, hprices⟩ := hcoded.tables
  refine ⟨_, _, hrun, hprogram, hsame', stepped_canCode hcan hcoded _ _, ?_, ?_, ?_, ?_, hlast, ?_, ?_, ?_, ?_⟩
  · refine Eq.trans ?_ (symbolState_eq i st hi)
    rw [hframe]
    rfl
  · refine Eq.trans ?_ (stepSymbol_reps hlegal v s.session.reps)
    rw [hframe]
    rfl
  · rw [← hkept.matchPriceCount]
    exact (congrArg Prices.matchPriceCount hprices).trans (symbolCounted_matches i p)
  all_goals
    rw [hframe]
    rfl

end Sys2Proof.Machine
end

section
/-!
PROOFS. A finished stream is an assembled program (`30_encoding.md` R134; `45_encoder_driver.md` R372, R379): the flush of the
encoder is the assembler's, with END where it is enabled, and the first byte is a LIT.
-/

namespace Sys2Proof.Machine

/-! ### The flush in two states that code alike -/

theorem shiftLow_emits (p : Props) : Act.Emits p shiftLow := by
  intro s c _ hok h
  obtain ⟨hrange, hfits, hholds⟩ := hok.coder
  have hcoder : c.session.renc = s.session.renc := h.coder
  have hrun : shiftLow s = .ok () (shiftedLow s) := shiftLow_eq hholds
  have hrun' : shiftLow c = .ok () (shiftedLow c) := shiftLow_eq (hcoder ▸ hholds)
  have hcells (x : State) : (shiftedLow x).session.cells = x.session.cells := by
    rw [shiftedLow, mapSession_session, withEmitted_session]
  have hprops (x : State) : (shiftedLow x).session.props = x.session.props := by
    rw [shiftedLow, mapSession_session, withEmitted_session]
  have hvalid : (shiftedLow s).session.renc.valid := by
    have hlt := s.session.renc.range.isLt
    rw [shiftedLow_renc]
    exact ⟨by rwa [shiftLowEnc_range], by rw [shiftLowEnc_range, shiftLowEnc_low]; omega, shiftLowEnc_cacheSize _⟩
  refine ⟨_, _, hrun, hrun', ⟨hvalid, hcells s ▸ hok.reachable, hcells s ▸ hok.canonical⟩, ⟨?_, ?_, ?_, ?_, ?_⟩,
    shiftLow_frame.ok hrun, shiftLow_frame.ok hrun', shiftLow_counted.ok hrun, ⟨_, (shiftedLow_out s).symm⟩⟩
  · rw [hcells, hcells, h.cells]
  · rw [shiftedLow_renc, shiftedLow_renc, h.coder]
  · rw [hprops, hprops, h.lc]
  · rw [hprops, hprops, h.lp]
  · rw [shiftedLow_out, shiftedLow_out, h.coder, h.out]

theorem shiftLows_emits (p : Props) (n : Nat) : Act.Emits p (shiftLows n) := by
  induction n with
  | zero => exact .pure p
  | succ n ih => exact (shiftLow_emits p).bind ih

theorem flushEncoder_emits (p : Props) : Act.Emits p flushEncoder := shiftLows_emits p 5

/-! ### Programs -/

theorem codeProgram_append (is js : List Instr) :
    codeProgram (is ++ js) = (codeProgram is >>= fun _ => codeProgram js) := by
  induction is with
  | nil => rfl
  | cons i is ih => simp only [List.cons_append, codeProgram, ih, bind_assoc]

theorem codeProgram_single {i : Instr} {c c1 c2 : State} (hcode : codeSymbol i c = .ok () c1)
    (hfollow : followSymbol i c1 = .ok () c2) : codeProgram [i] c = .ok () c2 := by
  rw [codeProgram, act_bind_of_ok hcode, act_bind_of_ok hfollow]
  rfl

/-- The symbol that ends a stream (R379). -/
def endSymbols (marker : Bool) : List Instr := if marker then [.endMark 2] else []

/-- The state after END in the coder of a program (log entry 24). -/
theorem followSymbol_endMark (len : Nat) (c : State) : followSymbol (.endMark len) c = .ok () (c.moved (.endMark len)) := rfl

/-- The flush of an encoder is the end of the program that a coder at the same point has coded. -/
theorem encFlush_alike {s c : State} (hcan : CanCode s) (h : SameCoder s c) :
    ∃ t u, encFlush s = .ok () t ∧
      (codeProgram (endSymbols s.session.enc.writeEndMarker) >>= fun _ => flushEncoder) c = .ok () u ∧ u.out = t.out := by
  cases hend : s.session.enc.writeEndMarker with
  | false =>
    obtain ⟨t, u, hflush⟩ := flushEncoder_emits _ s c rfl hcan.coderOk h.codesAs
    exact ⟨t, u, (encFlush_plain hend).trans hflush.run, hflush.run', hflush.alike.out⟩
  | true =>
    obtain ⟨s1, c1, hmark, hcode, hok, halike, -⟩ :=
      encodeEndMarker_codes hcan.coderOk h.codesAs hcan.pb h.state h.posState
    obtain ⟨t, u, hflush⟩ := flushEncoder_emits _ s1 (c1.moved (.endMark 2)) rfl hok
      ⟨halike.cells, halike.coder, halike.lc, halike.lp, halike.out⟩
    refine ⟨t, u, ?_, ?_, hflush.alike.out⟩
    · rw [encFlush_end hend, act_bind_of_ok hmark, hflush.run]
    · rw [endSymbols, if_pos rfl, act_bind_of_ok (codeProgram_single hcode (followSymbol_endMark 2 c1))]
      exact hflush.run'

/-- The bytes of a program that is coded and flushed. -/
theorem assemble_eq {lc lp pb : Nat} {prog : List Instr} {u : State} (hprog : ∀ i ∈ prog, isProgramSymbol i = true)
    (hrun : (codeProgram prog >>= fun _ => flushEncoder) (codingState lc lp pb) = .ok () u) :
    assemble lc lp pb prog = some u.out := by
  rw [assemble, if_pos (List.all_eq_true.mpr hprog)]
  simp only [hrun]

/-- An encoder that stands where a program has been coded flushes to the assembled program. -/
theorem encFlush_assembles {lc lp pb : Nat} {prog : List Instr} {s c : State} (hcan : CanCode s) (h : SameCoder s c)
    (hprog : ∀ i ∈ prog, isProgramSymbol i = true) (hcode : codeProgram prog (codingState lc lp pb) = .ok () c) :
    ∃ t, encFlush s = .ok () t ∧
      some t.out = assemble lc lp pb (prog ++ endSymbols s.session.enc.writeEndMarker) := by
  obtain ⟨t, u, hflush, hrun, hout⟩ := encFlush_alike hcan h
  refine ⟨t, hflush, ?_⟩
  rw [assemble_eq (u := u), hout]
  · intro i hi
    rcases List.mem_append.mp hi with hi | hi
    · exact hprog i hi
    · unfold endSymbols at hi
      split at hi
      · rw [List.mem_singleton.mp hi]
        rfl
      · cases hi
  · rw [codeProgram_append, bind_assoc, act_bind_of_ok hcode, hrun]

/-! ### The first byte (R372) -/

/-- `s` with the match finder one position further. -/
def State.oneAhead (s : State) (m : MatchFinder) : State :=
  { s with session := { s.session with
    mf := m, enc := { s.session.enc with additionalOffset := s.session.enc.additionalOffset + 1 } } }

/-- A report with nothing in it (R326). -/
theorem readMatchDistances_empty {s : State} {m : MatchFinder} (h : getMatches s = .ok [] (s.withMf m)) :
    readMatchDistances s = .ok (0, []) (s.oneAhead m) := by
  rw [readMatchDistances, act_bind_of_ok h]
  rfl

theorem SameCoder.oneAhead {s c : State} (h : SameCoder s c) (m : MatchFinder) : SameCoder (s.oneAhead m) c :=
  ⟨h.cells, h.coder, h.state, h.reps, h.lc, h.lp, h.pb, h.out, h.window, h.inInput, h.prevByte, h.matchByte⟩

/-- The byte at position 0 is emitted as a LIT. -/
theorem codeFirstByte_ok {s c : State} {m : MatchFinder} {v : Byte} (hok : CoderOk s) (hlc : s.session.props.lc ≤ 8)
    (hpb : s.session.props.pb ≤ 4) (h : SameCoder s c)
    (hget : getMatches s = .ok [] (s.withMf m)) (hm : m.mfAbs = 1) (hoff : s.session.enc.additionalOffset = 0)
    (hpos : s.session.enc.nowPos = 0) (hv : s.inp[0]? = some v) :
    ∃ t c1, codeFirstByte s = .ok () (t.stepped 1 v) ∧ codeSymbol (.lit v) c = .ok () c1 ∧
      CodedAs (.lit v) v (s.oneAhead m) c t c1 ∧ SameCoder (t.stepped 1 v) (c1.ran (.lit v)) := by
  have hin : 1 ≤ s.inp.length := by
    obtain ⟨hlt, -⟩ := List.getElem?_eq_some_iff.mp hv
    exact hlt
  have hv' : (s.oneAhead m).inp[(s.oneAhead m).session.enc.nowPos]? = some v := by
    show s.inp[s.session.enc.nowPos]? = _
    rw [hpos, hv]
  obtain ⟨t, c1, hlit, hcode, hcoded⟩ := encodeLiteral_coded (h.oneAhead m) (hok.congr rfl rfl) hlc hpb hv' (by
    show m.mfAbs = s.session.enc.nowPos + (s.session.enc.additionalOffset + 1)
    rw [hm, hpos, hoff])
  have hps : posStateOf (s.oneAhead m).session.props.pb (s.oneAhead m).session.enc.nowPos = 0 := by
    show posStateOf _ s.session.enc.nowPos = 0
    rw [hpos, posStateOf, Nat.zero_mod]
  have hprev : t.session.enc.prevByte = v := by rw [hcoded.coded.frame]
  have hnow : t.session.enc.nowPos = 0 := by
    rw [hcoded.coded.frame]
    exact hpos
  have hwin : symbolWin (.lit v) (s.oneAhead m).session.reps ((s.oneAhead m).inp.take (s.oneAhead m).session.enc.nowPos) =
      (s.oneAhead m).inp.take ((s.oneAhead m).session.enc.nowPos + 1) := by
    show s.inp.take s.session.enc.nowPos ++ [v] = s.inp.take (s.session.enc.nowPos + 1)
    rw [List.take_add_one, hpos, hv]
    rfl
  refine ⟨t, c1, ?_, hcode, hcoded, stepped_sameCoder (h.oneAhead m) hcoded.coded hcoded.alike hcoded.context (le_refl 1)
    (by show s.session.enc.nowPos + 1 ≤ s.inp.length; omega) hwin hv' (.inl ⟨v, rfl⟩)⟩
  rw [hps] at hlit
  rw [codeFirstByte, act_bind_of_ok (readMatchDistances_empty hget), act_bind_of_ok hlit, State.stepped, ← hprev, hnow]
  rfl

/-! ### An input of one byte -/

/-- A LIT at the start of a program has no match byte and no byte before it, whatever the rep set. -/
theorem codeSymbol_lit_start {c : State} (hstate : c.session.state = 0) (hwin : c.win = []) (v : Byte) :
    codeSymbol (.lit v) c = (encodeBit (isMatchCell 0 0) false >>= fun _ => litEncode (litBase c.session.props 0 0) v) c := by
  have hpos : c.outPos = 0 := congrArg List.length hwin
  rw [codeSymbol_lit, hstate, hpos, posStateOf, Nat.zero_mod, act_bind, act_bind]
  cases hbit : encodeBit (isMatchCell 0 0) false c with
  | error e t => rfl
  | ok _ t =>
    have hframe := (encodeBit_frame _ _).ok hbit
    have hwin' : t.win = [] := by rw [hframe, hwin]
    have hchar : isChar t.session.state = true := by
      rw [hframe, hstate]
      rfl
    have hprops := codeFrame_props hframe
    dsimp only
    rw [codeLiteral, act_bind_of_ok (act_get t), act_bind_of_ok (prevOutByte_eq t), hwin']
    simp only [hchar, if_true, State.outPos, hwin', hprops]
    rfl

/-- A memory in canonical form that lists nothing but unlisted values is empty. -/
theorem memory_eq_nil {m : Memory Prob} (hwf : m.wf probInit = true) (h : ∀ k, m.read probInit k = probInit) : m = [] := by
  cases m with
  | nil => rfl
  | cons e m =>
    obtain ⟨k, v⟩ := e
    have hread := h k
    rw [Memory.read, if_neg (Nat.lt_irrefl k), if_pos rfl] at hread
    exact absurd hread (memory_wf_cons.mp hwf).1

/-- Cells that all have the start value are the fresh cells. -/
theorem cells_eq_init {c : Cells} (hwf : c.wf = true) (h : ∀ cell, c.get cell = 1024) : c = Cells.init := by
  have hnil (a : CellArray) : c.memory a = [] := memory_eq_nil (cells_memory_wf hwf a) fun k => h ⟨a, k⟩
  obtain ⟨c1, c2, c3, c4, c5, c6, c7, c8, c9, c10, c11, c12⟩ := c
  exact Cells.mk.injEq .. ▸ ⟨hnil .isMatch, hnil .isRep, hnil .isRepG0, hnil .isRepG1, hnil .isRepG2, hnil .isRep0Long,
    hnil .literal, hnil .posSlot, hnil .posSpecial, hnil .align, hnil .lenC, hnil .repLenC⟩

/-- A position with too few bytes left is passed without a search. -/
theorem getMatches_oneByte {s : State} (hconst : constantsOk s.session) (hmf : 1 ≤ s.session.mf.mfPos.toNat ∧
    s.session.mf.mfPos.toNat < 2 ^ 31 - 1) (habs : s.session.mf.mfAbs = 0) (hlen : s.inp.length = 1) :
    getMatches s = .ok [] (s.withMf s.session.mf.moved) ∧ s.session.mf.moved.mfAbs = 1 := by
  obtain ⟨hcbs, hdict, hmax, hfast, -, hkind⟩ := hconst
  have hcheck : 3 ≤ s.session.mf.minMatchCheck ∧ s.session.mf.minMatchCheck ≤ 4 := by
    rcases hkind with ⟨-, h, -⟩ | ⟨-, h, -⟩ <;> omega
  have hlimit : lengthLimit s = none := by
    rw [lengthLimit_eq (by omega) (by omega), if_neg (by omega)]
  constructor
  · rw [getMatches_unsearched hlimit, act_bind_of_ok (movePos_eq (m := s.session.mf) hmf.2 (by omega) rfl), act_pure]
  · rw [moved_mfAbs hmf.1 hmf.2 (by omega) (by omega), habs]

/-- The moves of a coded symbol write nothing that coding reads. -/
theorem CodesAs.moved {s c : State} (h : CodesAs s c) (len : Nat) (b : Byte) (i : Instr) :
    CodesAs (s.stepped len b) (c.ran i) := ⟨h.cells, h.coder, h.lc, h.lp, h.out⟩

theorem CodesAs.trans {s c d : State} (h : CodesAs s c) (h' : CodesAs c d) : CodesAs s d :=
  ⟨h'.cells.trans h.cells, h'.coder.trans h.coder, h'.lc.trans h.lc, h'.lp.trans h.lp, h'.out.trans h.out⟩

/-- What the assembler codes for a LIT at the start does not depend on the rep set. -/
theorem codeSymbol_lit_start_alike {c d c1 : State} {v : Byte} (hok : CoderOk c) (h : CodesAs c d)
    (hlc : c.session.props.lc ≤ 8) (hstate : c.session.state = 0) (hstate' : d.session.state = 0) (hwin : c.win = [])
    (hwin' : d.win = []) (hcode : codeSymbol (.lit v) c = .ok () c1) :
    ∃ d1, codeSymbol (.lit v) d = .ok () d1 ∧ CodesAs c1 d1 := by
  have hemits : Act.Emits c.session.props (encodeBit (isMatchCell 0 0) false >>= fun _ =>
      litEncode (litBase c.session.props 0 0) v) :=
    (isMatch_emits 0 (by decide) false).bind (litEncode_emits (litBase_le hlc 0 0) v)
  obtain ⟨c2, d1, hemitted⟩ := hemits c d rfl hok h
  have hbase : litBase d.session.props 0 0 = litBase c.session.props 0 0 := by rw [litBase, litBase, h.lc, h.lp]
  rw [codeSymbol_lit_start hstate hwin, hemitted.run] at hcode
  cases hcode
  exact ⟨d1, by rw [codeSymbol_lit_start hstate' hwin', hbase, hemitted.run'], hemitted.alike⟩

/-- Settles O21: the first byte is the LIT, and the block flushes after it; the assembler codes the same LIT, since a literal
at the start reads no rep distance. -/
theorem encStepOneByteCompletes : Obligations.EncStepOneByteCompletes := by
  intro s v hphase hinv hwf hinp hpos hlc hlp hpb hstate hprev hcells hrenc hout hmark
  have hcanonical : s.session.cells.wf = true := by
    rw [Session.wf, Bool.and_eq_true, Bool.and_eq_true, Bool.and_eq_true] at hwf
    exact hwf.1.1.1
  set p := s.session.props
  set c0 := codingState p.lc p.lp p.pb
  set c := c0.withReps fun _ => s.session.reps
  have hinit := cells_eq_init hcanonical hcells
  have hsame : SameCoder s.blockBegun c := by
    refine ⟨hinit.symm, hrenc.symm, hstate.symm, rfl, rfl, rfl, rfl, hout.symm, ?_, ?_, hprev, fun h => ?_⟩
    · show [] = s.inp.take s.session.enc.nowPos
      rw [hpos]
      rfl
    · show s.session.enc.nowPos ≤ _
      omega
    · have hchar : isChar s.session.state = false := h
      rw [hstate] at hchar
      cases hchar
  have hok : CoderOk s.blockBegun := ⟨hinv.coder, hinv.cells, hcanonical⟩
  have hlen : s.inp.length = 1 := congrArg List.length hinp
  have hmfAbs : s.session.mf.mfAbs = 0 := hinv.position.trans hpos
  obtain ⟨hget, habs⟩ := getMatches_oneByte (s := s.blockBegun) hinv.constants hinv.mfPos hmfAbs hlen
  obtain ⟨t, c1, hfirst, hcode, hcoded, -⟩ := codeFirstByte_ok hok hlc hpb hsame hget (v := v) habs hinv.noOffset hpos
    (by show s.inp[0]? = _; rw [hinp]; rfl)
  obtain ⟨d1, hcode0, halike⟩ := codeSymbol_lit_start_alike (c := c) (d := c0)
    (hok.congr hsame.cells hsame.coder)
    ⟨rfl, rfl, rfl, rfl, rfl⟩ hlc rfl rfl rfl rfl hcode
  obtain ⟨w, x, hflush⟩ := flushEncoder_emits _ (t.stepped 1 v) (d1.ran (.lit v)) rfl (hcoded.coded.ok.congr rfl rfl)
    ((hcoded.alike.trans halike).moved 1 v (.lit v))
  have hframe := hcoded.coded.frame
  have hinp' : (t.stepped 1 v).inp.length = 1 := by
    show t.inp.length = 1
    rw [hframe]
    exact hlen
  have hdrained : (t.stepped 1 v).inp.length - (t.stepped 1 v).session.mf.mfAbs = 0 := by
    have habs' : (t.stepped 1 v).session.mf.mfAbs = 1 := by
      show t.session.mf.mfAbs = 1
      rw [hframe]
      exact habs
    omega
  have hplain : (t.stepped 1 v).session.enc.writeEndMarker = false := by
    show t.session.enc.writeEndMarker = false
    rw [hframe]
    exact hmark
  have hblock : codeOneBlock s = .ok .done w := by
    rw [codeOneBlock_first hinv.notFinished hpos (by omega), act_bind_of_ok hfirst, codeRest_drained hdrained,
      act_bind_of_ok ((encFlush_plain hplain).trans hflush.run), act_pure]
  have hrun : codeProgram [.lit v] c0 = .ok () (d1.ran (.lit v)) :=
    codeProgram_single hcode0 (followSymbol_of_reaches (runs_lit v) (.inl ⟨v, rfl⟩))
  refine ⟨_, execEncStep_done hphase hblock, ?_, ?_, ?_⟩
  · rw [assemble_eq (u := x), hflush.alike.out]
    · rfl
    · intro i hi
      rw [List.mem_singleton.mp hi]
      rfl
    · rw [act_bind_of_ok hrun, hflush.run']
  · have hcount : w.regs.outCount = u32 w.out.length := hflush.counted (hcoded.coded.counted hinv.outCount)
    have hframe' := hflush.frame
    rw [mapRegs_regs, mapRegs_out, ← hcount, hframe', hframe]
    show { s.regs with phase := Phase.done, inCount := u32 (s.session.enc.nowPos + 1), outCount := w.regs.outCount } = _
    rw [hpos]
    rfl
  · have hframe' := hflush.frame
    rw [mapRegs_session, mapRegs_inp, mapRegs_cin, mapRegs_win, hframe', hframe]
    refine ⟨congrArg (· + 1) hpos, rfl, ?_, rfl, habs, rfl, rfl, rfl⟩
    show updateChar s.session.state = 0
    rw [hstate]
    rfl

end Sys2Proof.Machine
end

section
/-!
PROOFS. Legal steps of a parse and the chains they form (`44_optimal_parse.md` R343): a step from a position of `In` is legal
where `In` repeats at its distance; it moves the rep set, and the distances of the rep set stay inside the dictionary.
-/

namespace Sys2Proof.Machine

/-! ### Legal steps -/

/-- A step of a parse: its length and its back. -/
structure Hop where
  len : Nat
  back : Word

/-- `inp` repeats at `n`, for `len` bytes, the bytes from `d + 1` back. -/
structure RepeatsAt (inp : List Byte) (n d len : Nat) : Prop where
  before : d < n
  inside : n + len ≤ inp.length
  equal : ∀ j, j < len → inp[n + j]? = inp[n + j - (d + 1)]?

theorem RepeatsAt.mono {inp : List Byte} {n d len len' : Nat} (h : RepeatsAt inp n d len) (hlen : len' ≤ len) :
    RepeatsAt inp n d len' :=
  ⟨h.before, by have := h.inside; omega, fun j hj => h.equal j (by omega)⟩

/-- What a parse works on: `In`, the dictionary size and the position of its node 0. -/
structure Ground where
  inp : List Byte
  dict : Nat
  start : Nat

/-- The step `h` is legal at node `i` under the rep set `r`: LIT; SHORTREP or REPk; or a MATCH inside the dictionary. -/
def Ground.Legal (g : Ground) (i : Nat) (r : Reps) (h : Hop) : Prop :=
  (h.len = 1 ∧ h.back = backChar ∧ g.start + i + 1 ≤ g.inp.length) ∨
  (h.back.toNat < 4 ∧ (h.len = 1 ∧ h.back = 0 ∨ 2 ≤ h.len ∧ h.len ≤ 273) ∧
    RepeatsAt g.inp (g.start + i) (r.get h.back.toNat).toNat h.len) ∨
  (4 ≤ h.back.toNat ∧ h.back.toNat - 4 < g.dict ∧ 2 ≤ h.len ∧ h.len ≤ 273 ∧
    RepeatsAt g.inp (g.start + i) (h.back.toNat - 4) h.len)

/-- The rep set after a step (R273). -/
def repsAfter (b : Word) (r : Reps) : Reps := if b = backChar then r else stepReps b r

/-- Every distance of the rep set lies before node `i` and inside the dictionary. -/
def Ground.RepsOk (g : Ground) (i : Nat) (r : Reps) : Prop :=
  ∀ k, (r.get k).toNat < g.start + i ∧ (r.get k).toNat < g.dict

/-- A chain of steps from node `i` with the reps `r` to node `j` with the reps `r'`. -/
def Ground.Chain (g : Ground) : Nat → Reps → List Hop → Nat → Reps → Prop
  | i, r, [], j, r' => i = j ∧ r = r'
  | i, r, h :: hs, j, r' => g.Legal i r h ∧ g.Chain (i + h.len) (repsAfter h.back r) hs j r'

section Legal

variable {g : Ground} {i j : Nat} {r r' : Reps} {h : Hop}

theorem Ground.Legal.pos (hl : g.Legal i r h) : 1 ≤ h.len := by
  rcases hl with hl | hl | hl <;> omega

theorem Ground.Legal.inside (hl : g.Legal i r h) : g.start + (i + h.len) ≤ g.inp.length := by
  rcases hl with ⟨hlen, -, hin⟩ | ⟨-, -, hrep⟩ | ⟨-, -, -, -, hrep⟩
  · omega
  all_goals
    have := hrep.inside
    omega

theorem Ground.legal_lit (hin : g.start + i + 1 ≤ g.inp.length) : g.Legal i r ⟨1, backChar⟩ := .inl ⟨rfl, rfl, hin⟩

theorem Ground.legal_shortRep (hrep : RepeatsAt g.inp (g.start + i) r.r0.toNat 1) : g.Legal i r ⟨1, 0⟩ :=
  .inr (.inl ⟨by decide, .inl ⟨rfl, rfl⟩, hrep⟩)

theorem Ground.legal_rep {k len : Nat} (hk : k < 4) (hlo : 2 ≤ len) (hhi : len ≤ 273)
    (hrep : RepeatsAt g.inp (g.start + i) (r.get k).toNat len) : g.Legal i r ⟨len, u32 k⟩ := by
  have hword : (u32 k).toNat = k := u32_toNat (by omega)
  exact .inr (.inl ⟨by rw [hword]; exact hk, .inr ⟨hlo, hhi⟩, by rw [hword]; exact hrep⟩)

theorem backMatch_toNat {d : Word} (hd : d.toNat < 2 ^ 32 - 4) : (backMatch d).toNat = d.toNat + 4 := u32_toNat (by omega)

theorem Ground.legal_match {d : Word} {len : Nat} (hd : d.toNat < g.dict) (hdict : g.dict ≤ 2 ^ 30) (hlo : 2 ≤ len)
    (hhi : len ≤ 273) (hrep : RepeatsAt g.inp (g.start + i) d.toNat len) : g.Legal i r ⟨len, backMatch d⟩ := by
  have hword : (backMatch d).toNat = d.toNat + 4 := backMatch_toNat (by omega)
  refine .inr (.inr ⟨by rw [hword]; omega, ?_, hlo, hhi, ?_⟩) <;> rw [hword, Nat.add_sub_cancel]
  · exact hd
  · exact hrep

/-- Only a step of one byte is LIT. -/
theorem Ground.Legal.back_ne (hl : g.Legal i r h) (hlen : 2 ≤ h.len) (hdict : g.dict ≤ 2 ^ 30) : h.back ≠ backChar := by
  intro hback
  have hword : h.back.toNat = 2 ^ 32 - 1 := by rw [hback]; rfl
  rcases hl with hl | hl | hl <;> omega

/-! ### The rep set -/

theorem promote_get {k : Nat} (k' : Nat) : ∃ j, (r.promote k).get k' = r.get j := by
  unfold Reps.promote
  split <;> rcases k' with _ | _ | _ | k'
  · exact ⟨0, rfl⟩
  · exact ⟨1, rfl⟩
  · exact ⟨2, rfl⟩
  · exact ⟨3, rfl⟩
  · exact ⟨1, rfl⟩
  · exact ⟨0, rfl⟩
  · exact ⟨2, rfl⟩
  · exact ⟨3, rfl⟩
  · exact ⟨2, rfl⟩
  · exact ⟨0, rfl⟩
  · exact ⟨1, rfl⟩
  · exact ⟨3, rfl⟩
  · exact ⟨3, rfl⟩
  · exact ⟨0, rfl⟩
  · exact ⟨1, rfl⟩
  · exact ⟨2, rfl⟩

theorem push_get (d : Word) (k : Nat) : (r.push d).get k = d ∨ ∃ j, (r.push d).get k = r.get j := by
  rcases k with _ | _ | _ | k
  · exact .inl rfl
  · exact .inr ⟨0, rfl⟩
  · exact .inr ⟨1, rfl⟩
  · exact .inr ⟨2, rfl⟩

theorem Ground.RepsOk.mono (hr : g.RepsOk i r) (hij : i ≤ j) : g.RepsOk j r := fun k =>
  ⟨by have := (hr k).1; omega, (hr k).2⟩

/-- A legal step keeps the distances of the rep set inside. -/
theorem Ground.Legal.repsOk (hl : g.Legal i r h) (hr : g.RepsOk i r) : g.RepsOk (i + h.len) (repsAfter h.back r) := by
  have hkept := hr.mono (Nat.le_add_right i h.len)
  unfold repsAfter stepReps
  split
  · exact hkept
  · split
    · intro k
      obtain ⟨j, hj⟩ := promote_get (r := r) (k := h.back.toNat) k
      exact hj ▸ hkept j
    · next hlit hback =>
      rcases hl with hl | hl | ⟨h4, hdict, -, -, hrep⟩
      · exact absurd hl.2.1 hlit
      · exact absurd hl.1 hback
      · intro k
        rcases push_get (r := r) (u32 (h.back.toNat - 4)) k with hk | ⟨j, hj⟩
        · have := hrep.before
          have := h.back.isLt
          rw [hk, u32_toNat (by omega)]
          omega
        · exact hj ▸ hkept j

theorem repsAfter_lit : repsAfter backChar r = r := if_pos rfl

theorem repsAfter_zero : repsAfter 0 r = r := rfl

theorem repsAfter_of_ne {b : Word} (hb : b ≠ backChar) : repsAfter b r = stepReps b r := if_neg hb

/-- A step of one byte keeps the rep set (R335). -/
theorem Ground.Legal.repsAfter_one (hl : g.Legal i r h) (hlen : h.len = 1) : repsAfter h.back r = r := by
  rcases hl with ⟨-, hback, -⟩ | ⟨-, ⟨-, hback⟩ | ⟨hlo, -⟩, -⟩ | ⟨-, -, hlo, -⟩
  · rw [hback, repsAfter_lit]
  · rw [hback, repsAfter_zero]
  · omega
  · omega

/-- The distance of a copy is the first of the rep set after it. -/
theorem stepReps_rep {k : Nat} (hk : k < 4) : stepReps (u32 k) r = r.promote k := by
  have hword : (u32 k).toNat = k := u32_toNat (by omega)
  rw [stepReps, hword, if_pos hk]

theorem stepReps_match {d : Word} (hd : d.toNat < 2 ^ 32 - 4) : stepReps (backMatch d) r = r.push d := by
  rw [stepReps, backMatch_toNat hd, if_neg (by omega), Nat.add_sub_cancel]
  rw [u32, BitVec.ofNat_toNat, BitVec.setWidth_eq]

end Legal

end Sys2Proof.Machine
end

section
/-!
PROOFS. The links of the optimal-parse nodes (`44_optimal_parse.md` R328, R335, R341): a node stands for a chain of legal steps
from an earlier node, and Backward turns the links around into the chain that GetOptimum serves.
-/

namespace Sys2Proof.Machine

/-! ### The node store -/

/-- `s` with the nodes `M`. -/
def State.withNodes (s : State) (M : Memory OptNode) : State :=
  { s with session := { s.session with opt := { s.session.opt with nodes := M } } }

/-- `Opt[i]` of a node store. -/
abbrev nodeAt (M : Memory OptNode) (i : Nat) : OptNode := M.read optZero i

theorem readNode_withNodes {s : State} {M : Memory OptNode} {i : Nat} (hi : i < 4096) :
    readNode i (s.withNodes M) = .ok (nodeAt M i) (s.withNodes M) := readNode_ok hi

theorem writeNode_withNodes {s : State} {M : Memory OptNode} {i : Nat} (n : OptNode) (hi : i < 4096) :
    writeNode i n (s.withNodes M) = .ok () (s.withNodes (M.write optZero i n)) := by
  rw [writeNode, if_pos hi]
  rfl

theorem modifyNode_withNodes {s : State} {M : Memory OptNode} {i : Nat} (f : OptNode → OptNode) (hi : i < 4096) :
    modifyNode i f (s.withNodes M) = .ok () (s.withNodes (M.write optZero i (f (nodeAt M i)))) := by
  rw [modifyNode, act_bind_of_ok (readNode_withNodes hi), writeNode_withNodes _ hi]

theorem nodeAt_write {M : Memory OptNode} (hM : M.wf optZero = true) (i : Nat) (n : OptNode) :
    nodeAt (M.write optZero i n) = Function.update (nodeAt M) i n := by
  funext j
  by_cases hj : j = i
  · rw [hj, Function.update_self, nodeAt, memory_read_write_same hM]
  · rw [Function.update_of_ne hj, nodeAt, memory_read_write_other hM hj]

/-! ### Links -/

/-- The node that the last steps of `n` start from. -/
def OptNode.source (n : OptNode) : Nat :=
  if n.prev1IsChar then (if n.prev2 then n.posPrev2 else n.posPrev - 1) else n.posPrev

/-- The last steps into node `i`: one, or a combination that ends with LIT and REP0 (R338 to R340). -/
def OptNode.hops (n : OptNode) (i : Nat) : List Hop :=
  let last : Hop := ⟨i - n.posPrev, n.backPrev⟩
  if n.prev1IsChar then
    (if n.prev2 then [⟨n.posPrev - 1 - n.posPrev2, n.backPrev2⟩, ⟨1, backChar⟩, last] else [⟨1, backChar⟩, last])
  else [last]

/-- `n`, as node `i` of the nodes `N`, stands for legal steps from its source, which is at most node `c`, to the rep set `r`. -/
structure Linked (g : Ground) (N : Nat → OptNode) (c : Nat) (n : OptNode) (i : Nat) (r : Reps) : Prop where
  source : n.source ≤ c
  rep0 : n.prev1IsChar = true → n.backPrev = 0
  notLit : n.prev1IsChar = true → n.prev2 = true → n.backPrev2 ≠ backChar
  chain : g.Chain n.source (N n.source).backs (n.hops i) i r

theorem Linked.congr {g : Ground} {N N' : Nat → OptNode} {c c' : Nat} {n : OptNode} {i : Nat} {r : Reps}
    (h : Linked g N c n i r) (hN : ∀ j, j ≤ c → (N' j).backs = (N j).backs) (hc : c ≤ c') : Linked g N' c' n i r :=
  ⟨h.source.trans hc, h.rep0, h.notLit, by rw [hN _ h.source]; exact h.chain⟩

/-- A node that one step reaches. -/
theorem Linked.of_step {g : Ground} {N : Nat → OptNode} {c i : Nat} {n : OptNode} (hone : n.prev1IsChar = false)
    (hsource : n.posPrev ≤ c) (hlt : n.posPrev < i)
    (hlegal : g.Legal n.posPrev (N n.posPrev).backs ⟨i - n.posPrev, n.backPrev⟩) :
    Linked g N c n i (repsAfter n.backPrev (N n.posPrev).backs) := by
  have hs : n.source = n.posPrev := by rw [OptNode.source, hone]; rfl
  have hh : n.hops i = [⟨i - n.posPrev, n.backPrev⟩] := by rw [OptNode.hops, hone]; rfl
  refine ⟨hs ▸ hsource, by rw [hone]; nofun, by rw [hone]; nofun, ?_⟩
  rw [hs, hh]
  exact ⟨hlegal, Nat.add_sub_cancel' hlt.le, rfl⟩

/-- The shapes of a linked node. -/
theorem Linked.cases {g : Ground} {N : Nat → OptNode} {c i : Nat} {n : OptNode} {r : Reps} (h : Linked g N c n i r) :
    (n.prev1IsChar = false ∧ n.source = n.posPrev ∧ n.posPrev < i ∧
      g.Legal n.posPrev (N n.source).backs ⟨i - n.posPrev, n.backPrev⟩ ∧
      r = repsAfter n.backPrev (N n.source).backs) ∨
    (n.prev1IsChar = true ∧ n.prev2 = false ∧ n.posPrev = n.source + 1 ∧ n.posPrev < i ∧
      g.Legal n.source (N n.source).backs ⟨1, backChar⟩ ∧
      g.Legal n.posPrev (N n.source).backs ⟨i - n.posPrev, n.backPrev⟩ ∧ r = (N n.source).backs) ∨
    (n.prev1IsChar = true ∧ n.prev2 = true ∧ n.source = n.posPrev2 ∧ n.posPrev2 + 1 < n.posPrev ∧ n.posPrev < i ∧
      g.Legal n.posPrev2 (N n.source).backs ⟨n.posPrev - 1 - n.posPrev2, n.backPrev2⟩ ∧
      g.Legal (n.posPrev - 1) (stepReps n.backPrev2 (N n.source).backs) ⟨1, backChar⟩ ∧
      g.Legal n.posPrev (stepReps n.backPrev2 (N n.source).backs) ⟨i - n.posPrev, n.backPrev⟩ ∧
      r = stepReps n.backPrev2 (N n.source).backs) := by
  have hchain := h.chain
  cases hone : n.prev1IsChar with
  | false =>
    have hs : n.source = n.posPrev := by rw [OptNode.source, hone]; rfl
    rw [OptNode.hops, hone] at hchain
    obtain ⟨hlegal, hend, hr⟩ := hchain
    have hpos := hlegal.pos
    rw [hs] at hlegal
    dsimp only at hend hpos
    exact .inl ⟨rfl, hs, by omega, hs ▸ hlegal, hr.symm⟩
  | true =>
    have hzero := h.rep0 hone
    cases htwo : n.prev2 with
    | false =>
      have hs : n.source = n.posPrev - 1 := by rw [OptNode.source, hone, htwo]; rfl
      rw [OptNode.hops, hone, htwo] at hchain
      obtain ⟨hlit, hlegal, hend, hr⟩ := hchain
      have hpos := hlegal.pos
      dsimp only [repsAfter_lit] at hend hpos hlegal hr
      rw [repsAfter_lit] at hlegal hr
      rw [hzero, repsAfter_zero] at hr
      have heq : n.posPrev = n.source + 1 := by omega
      rw [← heq] at hlegal
      exact .inr (.inl ⟨rfl, rfl, heq, by omega, hlit, hlegal, hr.symm⟩)
    | true =>
      have hs : n.source = n.posPrev2 := by rw [OptNode.source, hone, htwo]; rfl
      rw [OptNode.hops, hone, htwo] at hchain
      obtain ⟨hfirst, hlit, hlegal, hend, hr⟩ := hchain
      have hpos := hlegal.pos
      have hpos' := hfirst.pos
      dsimp only at hend hpos hpos' hlegal hr hfirst hlit
      rw [repsAfter_lit, repsAfter_of_ne (h.notLit hone htwo)] at hlegal hr
      rw [repsAfter_of_ne (h.notLit hone htwo)] at hlit
      rw [hzero, repsAfter_zero] at hr
      have hmid : n.source + (n.posPrev - 1 - n.posPrev2) = n.posPrev - 1 := by omega
      have hend' : n.posPrev - 1 + 1 = n.posPrev := by omega
      rw [hmid] at hlit hlegal
      rw [hend'] at hlegal
      exact .inr (.inr ⟨rfl, rfl, hs, by omega, by omega, hs ▸ hfirst, hlit, hlegal, hr.symm⟩)

theorem Linked.source_lt {g : Ground} {N : Nat → OptNode} {c i : Nat} {n : OptNode} {r : Reps} (h : Linked g N c n i r) :
    n.source < i := by
  rcases h.cases with ⟨-, hs, hlt, -⟩ | ⟨-, -, hs, hlt, -⟩ | ⟨-, -, hs, hmid, hlt, -⟩ <;> omega

/-- The reps at the end of a linked node are inside where those of its source are. -/
theorem Ground.Chain.repsOk {g : Ground} {i j : Nat} {r r' : Reps} {hs : List Hop} (h : g.Chain i r hs j r')
    (hr : g.RepsOk i r) : g.RepsOk j r' := by
  induction hs generalizing i r with
  | nil =>
    obtain ⟨rfl, rfl⟩ := h
    exact hr
  | cons hop hs ih => exact ih h.2 (h.1.repsOk hr)

/-- The end of a chain is inside `In`. -/
theorem Ground.Chain.inside {g : Ground} {i j : Nat} {r r' : Reps} {hs : List Hop} (h : g.Chain i r hs j r')
    (hin : g.start + i ≤ g.inp.length) : g.start + j ≤ g.inp.length := by
  induction hs generalizing i r with
  | nil =>
    obtain ⟨rfl, -⟩ := h
    exact hin
  | cons hop hs ih => exact ih h.2 h.1.inside

/-! ### The chain that is served (R329) -/

/-- From node `i` with the reps `r`, the links `posPrev` and `backPrev` lead over legal steps to node `e`. -/
inductive Route (g : Ground) (N : Nat → OptNode) (e : Nat) : Nat → Reps → Prop where
  | done (r : Reps) : Route g N e e r
  | step {i : Nat} {r : Reps} (hlt : i < (N i).posPrev)
      (hlegal : g.Legal i r ⟨(N i).posPrev - i, (N i).backPrev⟩)
      (hrest : Route g N e (N i).posPrev (repsAfter (N i).backPrev r)) : Route g N e i r

theorem Route.le {g : Ground} {N : Nat → OptNode} {e i : Nat} {r : Reps} (h : Route g N e i r) : i ≤ e := by
  induction h with
  | done => exact Nat.le_refl e
  | step hlt _ _ ih => omega

/-- A route depends on the nodes from its start on. -/
theorem Route.congr {g : Ground} {N N' : Nat → OptNode} {e i : Nat} {r : Reps} (h : Route g N e i r)
    (hN : ∀ j, i ≤ j → N' j = N j) : Route g N' e i r := by
  induction h with
  | done r => exact .done r
  | step hlt hlegal hrest ih =>
    rename_i j r
    have hj := hN j (Nat.le_refl j)
    refine .step (hj ▸ hlt) (hj ▸ hlegal) ?_
    rw [hj]
    exact ih fun k hk => hN k (by omega)

/-- A step in front of a route. -/
theorem Route.cons {g : Ground} {N : Nat → OptNode} {e i j : Nat} {r : Reps} {b : Word} {n : OptNode}
    (h : Route g N e j (repsAfter b r)) (hlt : i < j) (hlegal : g.Legal i r ⟨j - i, b⟩) (hpos : n.posPrev = j)
    (hback : n.backPrev = b) : Route g (Function.update N i n) e i r := by
  subst hpos hback
  have hi : Function.update N i n i = n := Function.update_self ..
  refine .step (hi.symm ▸ hlt) (hi.symm ▸ hlegal) ?_
  rw [hi]
  exact h.congr fun k hk => Function.update_of_ne (by omega) _ _

end Sys2Proof.Machine
end

section
/-!
PROOFS. Backward (`44_optimal_parse.md` R341) turns the links of a node into the route from node 0 to it.
-/

namespace Sys2Proof.Machine

/-! ### One turn of Backward in closed form -/

/-- The nodes after the splitting of a combination node `n` whose last step starts at `p`. -/
def splitNodes (n : OptNode) (p : Nat) (M : Memory OptNode) : Memory OptNode :=
  if n.prev1IsChar then
    let M' := M.write optZero p { nodeAt M p with backPrev := backChar, prev1IsChar := false, posPrev := p - 1 }
    if n.prev2 then
      M'.write optZero (p - 1)
        { nodeAt M' (p - 1) with prev1IsChar := false, posPrev := n.posPrev2, backPrev := n.backPrev2 }
    else M'
  else M

/-- The nodes with the step (`cur - p`, `b`) from node `p` recorded in it. -/
def recordStep (M : Memory OptNode) (p cur : Nat) (b : Word) : Memory OptNode :=
  M.write optZero p { nodeAt M p with backPrev := b, posPrev := cur }

/-- Backward goes on from node `p` with the links of `o`, up to node 0. -/
def backwardOn (fuel p : Nat) (o : OptNode) : Act Unit :=
  if p = 0 then pure () else backwardFrom fuel p o.posPrev o.backPrev

theorem splitCombination_withNodes {s : State} {M : Memory OptNode} (n : OptNode) {p : Nat} (hp : p < 4096) :
    splitCombination n p (s.withNodes M) = .ok () (s.withNodes (splitNodes n p M)) := by
  unfold splitCombination splitNodes
  split
  · rw [act_bind_of_ok (modifyNode_withNodes _ hp)]
    split
    · exact modifyNode_withNodes _ (by omega)
    · rfl
  · rfl

theorem backwardFrom_succ {s : State} {M : Memory OptNode} {fuel cur p : Nat} {b : Word} (hp : p < cur) (hcur : cur < 4096) :
    backwardFrom (fuel + 1) cur p b (s.withNodes M) =
      backwardOn fuel p (nodeAt (splitNodes (nodeAt M cur) p M) p)
        (s.withNodes (recordStep (splitNodes (nodeAt M cur) p M) p cur b)) := by
  have hlt : p < 4096 := by omega
  rw [backwardFrom, if_neg (Nat.not_le.mpr hp)]
  dsimp only
  rw [act_bind_of_ok (readNode_withNodes hcur), act_bind_of_ok (splitCombination_withNodes _ hlt), act_bind_of_ok (readNode_withNodes hlt),
    act_bind_of_ok (modifyNode_withNodes _ hlt)]
  rfl

/-! ### The links below a node -/

/-- The fields of a node that Backward does not write when it records a step. -/
structure SameShape (n n' : OptNode) : Prop where
  prev1IsChar : n'.prev1IsChar = n.prev1IsChar
  prev2 : n'.prev2 = n.prev2
  posPrev2 : n'.posPrev2 = n.posPrev2
  backPrev2 : n'.backPrev2 = n.backPrev2

/-- Backward has come down to node `i`: below it the nodes are still `N`, and from it a route leads to `e`. -/
structure Down (g : Ground) (N : Nat → OptNode) (e : Nat) (M : Memory OptNode) (i : Nat) (r : Reps) : Prop where
  canonical : M.wf optZero = true
  below : ∀ j, j < i → nodeAt M j = N j
  route : Route g (nodeAt M) e i r

section Turn

variable {g : Ground} {N : Nat → OptNode} {e cur p : Nat} {M : Memory OptNode} {r : Reps} {b : Word}

theorem nodeAt_recordStep (hM : M.wf optZero = true) : nodeAt (recordStep M p cur b) =
    Function.update (nodeAt M) p { nodeAt M p with backPrev := b, posPrev := cur } := nodeAt_write hM _ _

theorem Down.write (h : Down g N e M cur r) (hp : p < cur) (n : OptNode) : Down g
    (Function.update N p n) e (M.write optZero p n) cur r := by
  have hwrite := nodeAt_write h.canonical p n
  refine ⟨memory_write_wf h.canonical, fun j hj => ?_, h.route.congr fun j hj => ?_⟩
  · rw [hwrite]
    by_cases hjp : j = p
    · rw [hjp, Function.update_self, Function.update_self]
    · rw [Function.update_of_ne hjp, Function.update_of_ne hjp, h.below j hj]
  · rw [hwrite, Function.update_of_ne (by omega)]

/-- Recording a legal step. -/
theorem Down.record (h : Down g N e M cur (repsAfter b r)) (hp : p < cur) (hlegal : g.Legal p r ⟨cur - p, b⟩) :
    Down g N e (recordStep M p cur b) p r ∧ SameShape (nodeAt M p) (nodeAt (recordStep M p cur b) p) := by
  have hrecord := nodeAt_recordStep (p := p) (cur := cur) (b := b) h.canonical
  refine ⟨⟨memory_write_wf h.canonical, fun j hj => ?_, ?_⟩, ?_⟩
  · rw [hrecord, Function.update_of_ne (by omega), h.below j (by omega)]
  · rw [hrecord]
    exact h.route.cons hp hlegal rfl rfl
  · rw [hrecord, Function.update_self]
    exact ⟨rfl, rfl, rfl, rfl⟩

variable {s : State} {c fuel : Nat} {n : OptNode}

/-- One turn of Backward, once the node is split. -/
theorem backwardFrom_turn (h : Down g N e (splitNodes (nodeAt M cur) p M) cur (repsAfter b r)) (hp : p < cur)
    (hcur : cur < 4096) (hlegal : g.Legal p r ⟨cur - p, b⟩) :
    ∃ M', backwardFrom (fuel + 1) cur p b (s.withNodes M) = backwardOn fuel p (N p) (s.withNodes M') ∧
      SameShape (N p) (nodeAt M' p) ∧ Down g N e M' p r := by
  obtain ⟨hdown, hsame⟩ := h.record hp hlegal
  have hbelow := h.below p hp
  exact ⟨_, by rw [backwardFrom_succ hp hcur, hbelow], hbelow ▸ hsame, hdown⟩

/-- A turn at a node that is no combination. -/
theorem backwardFrom_plain (hone : (nodeAt M cur).prev1IsChar = false) (h : Down g N e M cur (repsAfter b r)) (hp : p < cur)
    (hcur : cur < 4096) (hlegal : g.Legal p r ⟨cur - p, b⟩) :
    ∃ M', backwardFrom (fuel + 1) cur p b (s.withNodes M) = backwardOn fuel p (N p) (s.withNodes M') ∧
      SameShape (N p) (nodeAt M' p) ∧ Down g N e M' p r :=
  backwardFrom_turn (by rwa [splitNodes, if_neg (by rw [hone]; decide)]) hp hcur hlegal

/-- Backward goes on at a node that is not node 0. -/
theorem backwardOn_pos (fuel : Nat) {p : Nat} (hp : p ≠ 0) (o : OptNode) :
    backwardOn fuel p o = backwardFrom fuel p o.posPrev o.backPrev := if_neg hp

/-- What is known of the nodes below `i` does not depend on the ones from it on. -/
theorem Down.congr {N' : Nat → OptNode} (h : Down g N e M cur r) (hN : ∀ j, j < cur → N j = N' j) : Down g N' e M cur r :=
  ⟨h.canonical, fun j hj => (h.below j hj).trans (hN j hj), h.route⟩

/-- The turn at a node that has become a LIT. -/
theorem backwardOn_lit (h : Down g N e M p r) (hshape : SameShape (N p) (nodeAt M p)) (hone : (N p).prev1IsChar = false)
    (hpos : (N p).posPrev = p - 1) (hback : (N p).backPrev = backChar) (hp : 1 ≤ p) (hp' : p < 4096)
    (hlegal : g.Legal (p - 1) r ⟨1, backChar⟩) :
    ∃ M', backwardOn (fuel + 1) p (N p) (s.withNodes M) = backwardOn fuel (p - 1) (N (p - 1)) (s.withNodes M') ∧
      SameShape (N (p - 1)) (nodeAt M' (p - 1)) ∧ Down g N e M' (p - 1) r := by
  rw [backwardOn_pos _ (by omega), hpos, hback]
  exact backwardFrom_plain (hshape.prev1IsChar.trans hone) (by rwa [repsAfter_lit]) (by omega) hp'
    (by rwa [show p - (p - 1) = 1 by omega])

/-- The node `o` as a LIT from the node before it. -/
def OptNode.asLit (o : OptNode) (p : Nat) : OptNode :=
  { o with backPrev := backChar, prev1IsChar := false, posPrev := p - 1 }

/-- The node `o` as the end of the first step of the combination node `n`. -/
def OptNode.asFirst (o n : OptNode) : OptNode :=
  { o with prev1IsChar := false, posPrev := n.posPrev2, backPrev := n.backPrev2 }

/-- Backward from a linked node comes down to its source. -/
theorem backwardFrom_link (hlinked : Linked g N c n cur r) (hshape : SameShape n (nodeAt M cur)) (h : Down g N e M cur r)
    (hcur : cur < 4096) (hfuel : cur < fuel) :
    ∃ fuel' M', backwardFrom fuel cur n.posPrev n.backPrev (s.withNodes M) =
        backwardOn fuel' n.source (N n.source) (s.withNodes M') ∧ n.source < fuel' ∧
      SameShape (N n.source) (nodeAt M' n.source) ∧ Down g N e M' n.source (N n.source).backs := by
  obtain ⟨f, rfl⟩ : ∃ f, fuel = f + 1 := ⟨fuel - 1, by omega⟩
  rcases hlinked.cases with ⟨hone, hs, hlt, hlegal, hr⟩ | ⟨hone, htwo, hs, hlt, hlit, hlegal, hr⟩ |
    ⟨hone, htwo, hs, hmid, hlt, hfirst, hlit, hlegal, hr⟩
  · rw [← hs] at hlt hlegal ⊢
    obtain ⟨M', hturn, hsame, hdown⟩ := backwardFrom_plain (s := s) (fuel := f) (hshape.prev1IsChar.trans hone) (hr ▸ h) hlt
      hcur hlegal
    exact ⟨f, M', hturn, by omega, hsame, hdown⟩
  · -- LIT and REP0: the node between them becomes a LIT.
    obtain ⟨f, rfl⟩ : ∃ f', f = f' + 1 := ⟨f - 1, by omega⟩
    have hsplit := h.write hlt ((nodeAt M n.posPrev).asLit n.posPrev)
    set N' := Function.update N n.posPrev _
    have hnode : N' n.posPrev = _ := Function.update_self ..
    have hbelow (j : Nat) (hj : j < n.posPrev) : N' j = N j := Function.update_of_ne (by omega) _ _
    have hnodes : splitNodes (nodeAt M cur) n.posPrev M =
        M.write optZero n.posPrev ((nodeAt M n.posPrev).asLit n.posPrev) := by
      rw [splitNodes, if_pos (hshape.prev1IsChar.trans hone), if_neg (by rw [hshape.prev2, htwo]; decide)]
      rfl
    obtain ⟨M1, hturn1, hsame1, hdown1⟩ := backwardFrom_turn (s := s) (fuel := f + 1) (M := M) (N := N')
      (r := (N n.source).backs) (by rwa [hnodes, hlinked.rep0 hone, repsAfter_zero, ← hr]) hlt hcur hlegal
    have hpred : n.posPrev - 1 = n.source := by omega
    obtain ⟨M2, hturn2, hsame2, hdown2⟩ := backwardOn_lit (s := s) (fuel := f) hdown1 hsame1 (by rw [hnode]; rfl)
      (by rw [hnode]; rfl) (by rw [hnode]; rfl) (by omega) (by omega) (hpred ▸ hlit)
    rw [hpred, hbelow n.source (by omega)] at hturn2 hsame2
    exact ⟨f, M2, hturn1.trans hturn2, by omega, hsame2, hpred ▸ hdown2.congr fun j hj => hbelow j (by omega)⟩
  · -- A copy, LIT and REP0: the nodes after the copy and after the LIT become their ends.
    obtain ⟨f, rfl⟩ : ∃ f', f = f' + 1 + 1 := ⟨f - 2, by omega⟩
    have hsplit := (h.write hlt ((nodeAt M n.posPrev).asLit n.posPrev)).write (show n.posPrev - 1 < cur by omega)
      ((nodeAt M (n.posPrev - 1)).asFirst n)
    set N' := Function.update (Function.update N n.posPrev _) (n.posPrev - 1) _
    have hmidNode : N' (n.posPrev - 1) = _ := Function.update_self ..
    have hnode : N' n.posPrev = (nodeAt M n.posPrev).asLit n.posPrev :=
      (Function.update_of_ne (by omega) _ _).trans (Function.update_self ..)
    have hbelow (j : Nat) (hj : j < n.posPrev - 1) : N' j = N j :=
      (Function.update_of_ne (by omega) _ _).trans (Function.update_of_ne (by omega) _ _)
    have hnodes : splitNodes (nodeAt M cur) n.posPrev M =
        (M.write optZero n.posPrev ((nodeAt M n.posPrev).asLit n.posPrev)).write optZero (n.posPrev - 1)
          ((nodeAt M (n.posPrev - 1)).asFirst n) := by
      rw [splitNodes, if_pos (hshape.prev1IsChar.trans hone), if_pos (hshape.prev2.trans htwo), nodeAt_write h.canonical,
        Function.update_of_ne (by omega), hshape.posPrev2, hshape.backPrev2]
      rfl
    obtain ⟨M1, hturn1, hsame1, hdown1⟩ := backwardFrom_turn (s := s) (fuel := f + 1 + 1) (M := M) (N := N')
      (r := stepReps n.backPrev2 (N n.source).backs) (by rwa [hnodes, hlinked.rep0 hone, repsAfter_zero, ← hr]) hlt hcur hlegal
    obtain ⟨M2, hturn2, hsame2, hdown2⟩ := backwardOn_lit (s := s) (fuel := f + 1) hdown1 hsame1 (by rw [hnode]; rfl)
      (by rw [hnode]; rfl) (by rw [hnode]; rfl) (by omega) (by omega) hlit
    obtain ⟨M3, hturn3, hsame3, hdown3⟩ := backwardFrom_plain (s := s) (fuel := f) (p := n.posPrev2) (b := n.backPrev2)
      (hsame2.prev1IsChar.trans (by rw [hmidNode]; rfl)) (r := (N n.source).backs)
      (by rwa [repsAfter_of_ne (hlinked.notLit hone htwo)]) (by omega) (by omega) hfirst
    rw [← hs, hbelow n.source (by omega)] at hturn3 hsame3
    refine ⟨f, M3, ?_, by omega, hsame3, hs ▸ hdown3.congr fun j hj => hbelow j (by omega)⟩
    rw [hturn1, hturn2, backwardOn_pos _ (by omega), hmidNode]
    exact hs ▸ hturn3

end Turn

/-! ### Backward -/

/-- The nodes up to `c` are linked to node 0, and each holds the rep set that its steps lead to (R335). -/
def Settled (g : Ground) (N : Nat → OptNode) (c : Nat) : Prop := ∀ i, 1 ≤ i → i ≤ c → Linked g N c (N i) i (N i).backs

section Backward

variable {g : Ground} {N : Nat → OptNode} {e c : Nat} {s : State}

/-- Backward comes down to node 0. -/
theorem backwardOn_settled (hsettled : Settled g N c) {i fuel : Nat} {M : Memory OptNode} (hi : i ≤ c) (hmax : i < 4096)
    (hfuel : i < fuel) (hshape : SameShape (N i) (nodeAt M i)) (h : Down g N e M i (N i).backs) :
    ∃ M', backwardOn fuel i (N i) (s.withNodes M) = .ok () (s.withNodes M') ∧ Down g N e M' 0 (N 0).backs := by
  induction i using Nat.strong_induction_on generalizing fuel M with
  | _ i ih =>
    by_cases hzero : i = 0
    · subst hzero
      exact ⟨M, rfl, h⟩
    · have hlinked := hsettled i (by omega) hi
      have hlt := hlinked.source_lt
      obtain ⟨fuel', M', hrun, hfuel', hshape', hdown⟩ := backwardFrom_link (s := s) hlinked hshape h hmax hfuel
      obtain ⟨M'', hrun', hdown'⟩ := ih _ hlt (by omega) (by omega) hfuel' hshape' hdown
      exact ⟨M'', (congrFun (backwardOn_pos fuel hzero (N i)) _).trans (hrun.trans hrun'), hdown'⟩

/-- The parse store after Backward from node `cur`. -/
def OptStore.backed (o : OptStore) (cur : Nat) (M : Memory OptNode) : OptStore :=
  { o with nodes := M, optimumEndIndex := cur, optimumCurrentIndex := (nodeAt M 0).posPrev }

/-- Backward from a linked node gives the first step of a route to it, and leaves the rest of the route to be served. -/
theorem backward_routes {M : Memory OptNode} {cur : Nat} {r : Reps} (hM : M.wf optZero = true)
    (hsettled : Settled g (nodeAt M) c) (hlinked : Linked g (nodeAt M) c (nodeAt M cur) cur r) (hcur : cur < 4096) :
    ∃ M', backward cur (s.withNodes M) =
        .ok ((nodeAt M' 0).posPrev, (nodeAt M' 0).backPrev)
          { s with session := { s.session with opt := s.session.opt.backed cur M' } } ∧
      M'.wf optZero = true ∧ Route g (nodeAt M') cur 0 (nodeAt M 0).backs := by
  have hlt := hlinked.source_lt
  set s' : State := { s with session := { s.session with opt := { s.session.opt with optimumEndIndex := cur } } }
  obtain ⟨fuel', M1, hrun, hfuel, hshape, hdown⟩ := backwardFrom_link (s := s') (fuel := cur + 1) hlinked ⟨rfl, rfl, rfl, rfl⟩
    ⟨hM, fun _ _ => rfl, .done r⟩ hcur (Nat.lt_succ_self cur)
  have hsource := hlinked.source
  obtain ⟨M', hrun', hdown'⟩ := backwardOn_settled (s := s') hsettled hsource (by omega) hfuel hshape hdown
  refine ⟨M', ?_, hdown'.canonical, hdown'.route⟩
  rw [backward, act_bind_of_ok (show mapOpt _ (s.withNodes M) = .ok () (s'.withNodes M) from rfl),
    act_bind_of_ok (readNode_withNodes hcur), act_bind_of_ok (hrun.trans hrun'),
    act_bind_of_ok (readNode_withNodes (by decide))]
  rfl

end Backward

end Sys2Proof.Machine
end

section
/-!
PROOFS. What the optimal parse reads (`44_optimal_parse.md` R320, R324; `42_match_finder.md` R245, R247): bytes of `In`, run
lengths and prices are answered, and the state stays.
-/

namespace Sys2Proof.Machine

/-! ### Reading -/

/-- The action answers in `s` with a value that has `P`, and leaves the state. -/
def Act.Reads {α : Type} (a : Act α) (s : State) (P : α → Prop) : Prop := ∃ x, a s = .ok x s ∧ P x

theorem Act.Reads.pure {α : Type} {x : α} {P : α → Prop} (h : P x) (s : State) : Act.Reads (Pure.pure x) s P := ⟨x, rfl, h⟩

theorem Act.Reads.bind {α β : Type} {a : Act α} {f : α → Act β} {s : State} {P : α → Prop} {Q : β → Prop}
    (ha : a.Reads s P) (hf : ∀ x, P x → (f x).Reads s Q) : Act.Reads (a >>= f) s Q := by
  obtain ⟨x, hx, hPx⟩ := ha
  obtain ⟨y, hy, hQy⟩ := hf x hPx
  exact ⟨y, (act_bind_of_ok hx f).trans hy, hQy⟩

theorem Act.Reads.get_bind {β : Type} {f : State → Act β} {s : State} {Q : β → Prop} (hf : (f s).Reads s Q) :
    Act.Reads (MonadState.get >>= f) s Q := by
  obtain ⟨y, hy, hQy⟩ := hf
  exact ⟨y, (act_bind_of_ok (act_get s) f).trans hy, hQy⟩

theorem Act.Costs.reads {a : Act Nat} {b : Nat} {s : State} (h : a.Costs b s) : a.Reads s fun n => n ≤ b := h

/-- The price answers. -/
abbrev Act.Priced (a : Act Nat) (s : State) : Prop := a.Reads s fun _ => True

theorem Act.Costs.priced {a : Act Nat} {b : Nat} {s : State} (h : a.Costs b s) : a.Priced s :=
  h.imp fun _ h => ⟨h.1, trivial⟩

/-! ### Bytes and runs -/

/-- A byte of `In`. -/
theorem getIndexByte_reads {s : State} {idx : Int} {a : Nat} (ha : (s.session.mf.mfAbs : Int) + idx = a)
    (hlt : a < s.inp.length) : (getIndexByte idx).Reads s fun b => s.inp[a]? = some b :=
  ⟨s.inp[a], getIndexByte_eq ha (List.getElem?_eq_getElem hlt), List.getElem?_eq_getElem hlt⟩

/-- A run of equal bytes. -/
theorem getMatchLen_reads {s : State} {idx : Int} {d limit a : Nat} (ha : (s.session.mf.mfAbs : Int) + idx = a)
    (hd : d < a) (hlen : a ≤ s.inp.length) :
    (getMatchLen idx d limit).Reads s fun n => n ≤ limit ∧ RepeatsAt s.inp a d n := by
  obtain ⟨hlim, hrun, -⟩ := matchRun_le (min limit (s.inp.length - a)) (s.inp.drop a) (s.inp.drop (a - (d + 1)))
  refine ⟨_, getMatchLen_inside ha hd hlen, by omega, hd, by omega, fun j hj => ?_⟩
  have := matchRun_getElem? hj
  rwa [List.getElem?_drop, List.getElem?_drop, show a - (d + 1) + j = a + j - (d + 1) by omega] at this

/-! ### Prices -/

/-- What the prices of a session read. -/
structure Priceable (s : State) : Prop where
  cells : s.session.cells.reachable
  lc : s.session.props.lc ≤ 8
  pb : s.session.props.pb ≤ 4
  fast : 5 ≤ s.session.enc.numFastBytes ∧ s.session.enc.numFastBytes ≤ 273
  shaped : s.session.prices.Shaped s.session.enc.numFastBytes

section Prices

variable {s : State} (hs : Priceable s)
include hs

/-- A cell of the decisions of a state. -/
theorem stateCell_costs {A : CellArray} (hA : A.size s.session.props = 12) (st : CoderState) (b : Bool) :
    (cellPrice ⟨A, st.val⟩ b).Costs 576 s :=
  cellPrice_costs hs.cells (c := ⟨A, st.val⟩) (show st.val < A.size s.session.props by omega) b

/-- A cell of the decisions of a state and a position. -/
theorem statePosCell_costs {A : CellArray} (hA : A.size s.session.props = 192) (st : CoderState) {ps : Nat} (hps : ps < 16)
    (b : Bool) : (cellPrice ⟨A, st.val * 16 + ps⟩ b).Costs 576 s :=
  cellPrice_costs hs.cells (c := ⟨A, st.val * 16 + ps⟩) (show st.val * 16 + ps < A.size s.session.props by omega) b

theorem isMatch_costs (st : CoderState) {ps : Nat} (hps : ps < 16) (b : Bool) : (cellPrice (isMatchCell st ps) b).Costs 576 s :=
  statePosCell_costs hs rfl st hps b

theorem isRep_costs (st : CoderState) (b : Bool) : (cellPrice (isRepCell st) b).Costs 576 s :=
  stateCell_costs hs rfl st b

theorem repLen1Price_priced (st : CoderState) {ps : Nat} (hps : ps < 16) : (repLen1Price st ps).Priced s :=
  .bind (stateCell_costs hs rfl st _).priced fun _ _ =>
    .bind (statePosCell_costs hs rfl st hps _).priced fun _ _ => .pure trivial s

theorem pureRepPrice_priced (k : Nat) (st : CoderState) {ps : Nat} (hps : ps < 16) : (pureRepPrice k st ps).Priced s := by
  have hg0 (b : Bool) : (cellPrice (isRepG0Cell st) b).Priced s := (stateCell_costs hs rfl st b).priced
  have hg1 (b : Bool) : (cellPrice (isRepG1Cell st) b).Priced s := (stateCell_costs hs rfl st b).priced
  have hg2 (b : Bool) : (cellPrice (isRepG2Cell st) b).Priced s := (stateCell_costs hs rfl st b).priced
  have hlong (b : Bool) : (cellPrice (isRep0LongCell st ps) b).Priced s :=
    (statePosCell_costs hs rfl st hps b).priced
  unfold pureRepPrice
  split
  · exact .bind (hg0 _) fun _ _ => .bind (hlong _) fun _ _ => .pure trivial s
  · split
    · exact .bind (hg0 _) fun _ _ => .bind (hg1 _) fun _ _ => .pure trivial s
    · exact .bind (hg0 _) fun _ _ => .bind (hg1 _) fun _ _ => .bind (hg2 _) fun _ _ => .pure trivial s

/-- A length of at most `numFastBytes` is in the length tables. -/
theorem lenTablePrice_priced {len ps : Nat} (hlen : 2 ≤ len) (hfast : len ≤ s.session.enc.numFastBytes) (hps : ps < 16) :
    (lenTablePrice len ps).Priced s := by
  obtain ⟨row, hrow, hcols⟩ := hs.shaped.lenPrices.row hps s
  obtain ⟨x, hx⟩ := elemAt_answers (show len - 2 < row.length by omega) s
  exact .get_bind ⟨x, (act_bind_of_ok hrow _).trans hx, trivial⟩

theorem repLenTablePrice_priced {len ps : Nat} (hlen : 2 ≤ len) (hfast : len ≤ s.session.enc.numFastBytes) (hps : ps < 16) :
    (repLenTablePrice len ps).Priced s := by
  obtain ⟨row, hrow, hcols⟩ := hs.shaped.repLenPrices.row hps s
  obtain ⟨x, hx⟩ := elemAt_answers (show len - 2 < row.length by omega) s
  exact .get_bind ⟨x, (act_bind_of_ok hrow _).trans hx, trivial⟩

theorem repPrice_priced (k : Nat) {len ps : Nat} (st : CoderState) (hlen : 2 ≤ len)
    (hfast : len ≤ s.session.enc.numFastBytes) (hps : ps < 16) : (repPrice k len st ps).Priced s :=
  .bind (repLenTablePrice_priced hs hlen hfast hps) fun _ _ =>
    .bind (pureRepPrice_priced hs k st hps) fun _ _ => .pure trivial s

theorem posLenPrice_priced {d len ps : Nat} (hd : d < 2 ^ 32) (hlen : 2 ≤ len)
    (hfast : len ≤ s.session.enc.numFastBytes) (hps : ps < 16) : (posLenPrice d len ps).Priced s := by
  have hshaped := hs.shaped
  refine .get_bind (.bind (lenTablePrice_priced hs hlen hfast hps) fun l _ => ?_)
  have hlps := lenToPosState_lt len
  split
  · obtain ⟨row, hrow, hcols⟩ := hshaped.distancesPrices.row hlps s
    obtain ⟨x, hx⟩ := elemAt_answers (show d < row.length by omega) s
    exact ⟨_, (act_bind_of_ok hrow _).trans (act_bind_of_ok hx _), trivial⟩
  · obtain ⟨row, hrow, hcols⟩ := hshaped.posSlotPrices.row hlps s
    obtain ⟨x, hx⟩ := elemAt_answers (hcols ▸ posSlot_lt hd) s
    have halign := hshaped.alignPrices
    obtain ⟨y, hy⟩ := elemAt_answers (show d % 16 < s.session.prices.alignPrices.length by omega) s
    exact ⟨_, (act_bind_of_ok hrow _).trans ((act_bind_of_ok hx _).trans (act_bind_of_ok hy _)), trivial⟩

/-- The two prefix bits of a rep step. -/
theorem repStartPrice_priced (base : Nat) (st : CoderState) {ps : Nat} (hps : ps < 16) : (repStartPrice base st ps).Priced s :=
  .bind (isMatch_costs hs st hps _).priced fun _ _ => .bind (isRep_costs hs st _).priced fun _ _ => .pure trivial s

theorem litPriceMatchedFrom_costs {base : Nat} (hbase : base + 0x300 ≤ CellArray.literal.size s.session.props) (mb v : Byte)
    {n m : Nat} (hm : 2 ^ n * (m + 1) ≤ 2 * 0x100) : (litPriceMatchedFrom base mb v n m).Costs (576 * n) s := by
  induction n generalizing m with
  | zero => exact .pure (Nat.le_refl 0) s
  | succ n ih =>
    have hnode := node_lt_of_walk hm
    have hbit := (mb.toNat.testBit n).toNat_le
    have hcell : base + 0x100 * (1 + (mb.toNat.testBit n).toNat) + m < CellArray.literal.size s.session.props := by omega
    refine (cellPrice_costs hs.cells (c := ⟨.literal, _⟩) hcell _).bind fun c hc => .ite (fun _ => ?_) fun _ => ?_
    · exact (ih (walk_child hm _)).bind fun r hr => .pure (by omega) s
    · exact (treePriceFrom_costs hs.cells (top := 0x100) (by omega) _ (walk_child hm _)).bind fun r hr => .pure (by omega) s

/-- The price of a literal is at most that of its eight bits. -/
theorem literalPrice_costs (pos : Nat) (prev : Byte) (st : CoderState) (mb v : Byte) :
    (literalPrice pos prev st mb v).Costs (576 * 8) s := by
  have hbase := litBase_le hs.lc pos prev
  have hlit : (litPrice (litBase s.session.props pos prev) (!isChar st) mb v).Costs (576 * 8) s :=
    .ite (fun _ => litPriceMatchedFrom_costs hs hbase mb v (by decide)) fun _ =>
      treePriceFrom_costs hs.cells (top := 0x100) (by omega) _ (by decide)
  exact hlit.imp fun _ h => ⟨(act_bind_of_ok (act_get s) _).trans h.1, h.2⟩

end Prices

theorem Priceable.withNodes {s : State} (h : Priceable s) (M : Memory OptNode) : Priceable (s.withNodes M) :=
  ⟨h.cells, h.lc, h.pb, h.fast, h.shaped⟩

end Sys2Proof.Machine
end

section
/-!
PROOFS. The forward pass of the optimal parse keeps its nodes linked (`44_optimal_parse.md` R328, R335, R342): every node with a
finite price is reached by legal steps from a node that is done, and the price of the next node is finite.
-/

namespace Sys2Proof.Machine

/-! ### Actions on the nodes -/

/-- From `s` with the nodes `M`, the action answers, and changes only the nodes; `Q` holds of its answer and of these. -/
def Act.Relaxes {α : Type} (a : Act α) (s : State) (M : Memory OptNode) (Q : α → Memory OptNode → Prop) : Prop :=
  ∃ x M', a (s.withNodes M) = .ok x (s.withNodes M') ∧ Q x M'

section Rules

variable {α β : Type} {a : Act α} {f : α → Act β} {s : State} {M : Memory OptNode} {Q : α → Memory OptNode → Prop}
  {R : β → Memory OptNode → Prop}

theorem Act.Relaxes.pure {x : α} (h : Q x M) : Act.Relaxes (Pure.pure x) s M Q := ⟨x, M, rfl, h⟩

theorem Act.Relaxes.bind (ha : a.Relaxes s M Q) (hf : ∀ x M', Q x M' → (f x).Relaxes s M' R) : (a >>= f).Relaxes s M R := by
  obtain ⟨x, M', hx, hQ⟩ := ha
  obtain ⟨y, M'', hy, hR⟩ := hf x M' hQ
  exact ⟨y, M'', (act_bind_of_ok hx f).trans hy, hR⟩

/-- The action goes on with what it has read. -/
theorem Act.Reads.then {P : α → Prop} (ha : a.Reads (s.withNodes M) P) (hf : ∀ x, P x → (f x).Relaxes s M R) :
    (a >>= f).Relaxes s M R := by
  obtain ⟨x, hx, hP⟩ := ha
  obtain ⟨y, M', hy, hR⟩ := hf x hP
  exact ⟨y, M', (act_bind_of_ok hx f).trans hy, hR⟩

theorem Act.Relaxes.get_bind {f : State → Act β} (hf : (f (s.withNodes M)).Relaxes s M R) :
    Act.Relaxes (MonadState.get >>= f) s M R := by
  obtain ⟨y, M', hy, hR⟩ := hf
  exact ⟨y, M', (act_bind_of_ok (act_get _) f).trans hy, hR⟩

theorem Act.Relaxes.mono {Q' : α → Memory OptNode → Prop} (ha : a.Relaxes s M Q) (h : ∀ x M', Q x M' → Q' x M') :
    a.Relaxes s M Q' := by
  obtain ⟨x, M', hx, hQ⟩ := ha
  exact ⟨x, M', hx, h x M' hQ⟩

end Rules

theorem readNode_reads {s : State} {M : Memory OptNode} {i : Nat} (hi : i < 4096) :
    (readNode i).Reads (s.withNodes M) fun n => n = nodeAt M i := ⟨_, readNode_withNodes hi, rfl⟩

theorem modifyNode_relaxes {s : State} {M : Memory OptNode} {i : Nat} (f : OptNode → OptNode) (hi : i < 4096) :
    (modifyNode i f).Relaxes s M fun _ M' => M' = M.write optZero i (f (nodeAt M i)) :=
  ⟨_, _, modifyNode_withNodes f hi, rfl⟩

/-! ### The nodes of the forward pass -/

/-- Where a parse is: what it works on, the reps at node 0, the last settled node and its reps, and a bound on the price of the
node after it. -/
structure Work where
  g : Ground
  first : Reps
  cur : Nat
  reps : Reps
  bound : Nat

/-- The nodes of a parse at work: those up to `e` are in use, those up to the current one are settled, and the others are linked
where their price is finite. -/
structure Forward (w : Work) (e : Nat) (M : Memory OptNode) : Prop where
  canonical : M.wf optZero = true
  origin : (nodeAt M 0).backs = w.first
  settled : Settled w.g (nodeAt M) w.cur
  linked : ∀ i, w.cur < i → i ≤ e → (nodeAt M i).price < Config.kInfinityPrice →
    ∃ r, Linked w.g (nodeAt M) w.cur (nodeAt M i) i r
  repsOk : ∀ j, j ≤ w.cur → w.g.RepsOk j (nodeAt M j).backs
  here : (nodeAt M w.cur).backs = w.reps
  left : w.cur < e
  next : (nodeAt M (w.cur + 1)).price ≤ w.bound
  most : e ≤ 4095
  inside : w.g.start + e ≤ w.g.inp.length

section Forward

variable {w : Work} {e i : Nat} {M : Memory OptNode} {s : State}

theorem Forward.reps (h : Forward w e M) : w.g.RepsOk w.cur w.reps := h.here ▸ h.repsOk w.cur (Nat.le_refl _)

/-- What a forward pass knows stays where the nodes up to the current one stay. -/
theorem Forward.linked_congr {M' : Memory OptNode} (hbelow : ∀ j, j ≤ w.cur → nodeAt M' j = nodeAt M j) {j : Nat}
    {n : OptNode} {r : Reps} (h : Linked w.g (nodeAt M) w.cur n j r) : Linked w.g (nodeAt M') w.cur n j r :=
  h.congr (fun k hk => by rw [hbelow k hk]) (Nat.le_refl _)

/-- A forward pass goes on where the nodes up to the current one stay. -/
theorem Forward.update (h : Forward w e M) {e' : Nat} {M' : Memory OptNode} (hwf : M'.wf optZero = true)
    (hbelow : ∀ j, j ≤ w.cur → nodeAt M' j = nodeAt M j) (hleft : w.cur < e')
    (hlinked : ∀ i, w.cur < i → i ≤ e' → (nodeAt M' i).price < Config.kInfinityPrice →
      ∃ r, Linked w.g (nodeAt M) w.cur (nodeAt M' i) i r)
    (hnext : (nodeAt M' (w.cur + 1)).price ≤ w.bound) (hmost : e' ≤ 4095) (hin : w.g.start + e' ≤ w.g.inp.length) :
    Forward w e' M' := by
  refine ⟨hwf, hbelow 0 (Nat.zero_le _) ▸ h.origin, fun j hj hjc => ?_, fun j hj hje hlt => ?_,
    fun j hj => hbelow j hj ▸ h.repsOk j hj, hbelow w.cur (Nat.le_refl _) ▸ h.here, hleft, hnext, hmost, hin⟩
  · rw [hbelow j hjc]
    exact linked_congr hbelow (h.settled j hj hjc)
  · obtain ⟨r, hr⟩ := hlinked j hj hje hlt
    exact ⟨r, linked_congr hbelow hr⟩

/-- A node past the current one gets a linked step at a price that is no higher. -/
theorem Forward.write (h : Forward w e M) (hc : w.cur < i) {n : OptNode} {r : Reps}
    (hlinked : Linked w.g (nodeAt M) w.cur n i r) (hprice : n.price ≤ (nodeAt M i).price) :
    Forward w e (M.write optZero i n) := by
  have hnodes := nodeAt_write h.canonical i n
  refine h.update (memory_write_wf h.canonical) (fun j hj => ?_) h.left (fun j hj hje hlt => ?_) ?_ h.most h.inside
  · rw [hnodes, Function.update_of_ne (by omega)]
  · by_cases hji : j = i
    · rw [hji, hnodes, Function.update_self]
      exact ⟨r, hlinked⟩
    · rw [hnodes, Function.update_of_ne hji] at hlt ⊢
      exact h.linked j hj hje hlt
  · rw [hnodes]
    by_cases hci : w.cur + 1 = i
    · rw [hci, Function.update_self]
      exact hprice.trans (hci ▸ h.next)
    · rw [Function.update_of_ne hci]
      exact h.next

/-- Relaxing a node to a linked step (R342). -/
theorem Forward.relax (h : Forward w e M) (hc : w.cur < i) (he : i ≤ e) {price : Nat} {st : Step} {f : OptNode → OptNode}
    {r : Reps} (hlinked : Linked w.g (nodeAt M) w.cur (f ((nodeAt M i).withStep price st)) i r)
    (hprice : (f ((nodeAt M i).withStep price st)).price = price) :
    (Machine.relax i price st f).Relaxes s M fun _ M' => Forward w e M' ∧ (nodeAt M' i).price ≤ price := by
  have hi : i < 4096 := by
    have := h.most
    omega
  refine (readNode_reads hi).then fun n hn => ?_
  subst hn
  split
  · next hlt =>
    refine ⟨true, _, act_bind_of_ok (writeNode_withNodes _ hi) _, h.write hc hlinked (by omega), ?_⟩
    rw [nodeAt_write h.canonical, Function.update_self]
    exact hprice.le
  · next hge => exact .pure ⟨h, by omega⟩

/-- A legal step from the current node as the new step of a node. -/
theorem Forward.linked_withStep (h : Forward w e M) {n : OptNode} {len price : Nat} {back : Word}
    (hlegal : w.g.Legal w.cur w.reps ⟨len, back⟩) :
    Linked w.g (nodeAt M) w.cur (n.withStep price ⟨w.cur, back, false⟩) (w.cur + len)
      (repsAfter back (nodeAt M w.cur).backs) := by
  have hpos : 1 ≤ len := hlegal.pos
  refine .of_step rfl (Nat.le_refl _) (show w.cur < w.cur + len by omega) ?_
  show w.g.Legal w.cur (nodeAt M w.cur).backs ⟨w.cur + len - w.cur, back⟩
  rwa [h.here, Nat.add_sub_cancel_left]

/-- Relaxing a node to a legal step from the current node. -/
theorem Forward.relax_step (h : Forward w e M) {len : Nat} (he : w.cur + len ≤ e) (price : Nat) {back : Word}
    (hlegal : w.g.Legal w.cur w.reps ⟨len, back⟩) :
    (Machine.relax (w.cur + len) price ⟨w.cur, back, false⟩).Relaxes s M fun _ M' =>
      Forward w e M' ∧ (nodeAt M' (w.cur + len)).price ≤ price := by
  have hpos : 1 ≤ len := hlegal.pos
  exact h.relax (by omega) he (h.linked_withStep hlegal) rfl

/-! ### Extending (R328) -/

/-- Nodes with infinite prices. -/
theorem infinitePrices_relaxes (hM : M.wf optZero = true) {n : Nat} (hi : i + n ≤ 4096) :
    (infinitePrices i n).Relaxes s M fun _ M' => M'.wf optZero = true ∧
      ∀ j, nodeAt M' j = if i ≤ j ∧ j < i + n then { nodeAt M j with price := Config.kInfinityPrice } else nodeAt M j := by
  induction n generalizing i M with
  | zero => exact .pure ⟨hM, fun j => by rw [if_neg (by omega)]⟩
  | succ n ih =>
    refine (modifyNode_relaxes _ (by omega)).bind fun _ M' hM' => ?_
    subst hM'
    refine (ih (memory_write_wf hM) (by omega)).mono fun _ M' ⟨hwf, hnodes⟩ => ⟨hwf, fun j => ?_⟩
    rw [hnodes j, nodeAt_write hM]
    by_cases hj : j = i
    · subst hj
      rw [if_neg (by omega), if_pos (by omega), Function.update_self]
    · rw [Function.update_of_ne hj]
      by_cases hin : i + 1 ≤ j ∧ j < i + 1 + n
      · rw [if_pos hin, if_pos (by omega)]
      · rw [if_neg hin, if_neg (by omega)]

/-- Nodes in use up to `last`, too. -/
theorem Forward.extend (h : Forward w e M) {last : Nat} (hmost : last ≤ 4095) (hin : w.g.start + last ≤ w.g.inp.length) :
    (Machine.extend e last).Relaxes s M fun e' M' => e ≤ e' ∧ last ≤ e' ∧ Forward w e' M' := by
  have hleft := h.left
  have hmost' := h.most
  have hin' := h.inside
  refine (infinitePrices_relaxes h.canonical (by omega)).bind fun _ M' ⟨hwf, hnodes⟩ =>
    .pure ⟨Nat.le_max_left .., Nat.le_max_right .., ?_⟩
  have hsame (j : Nat) (hj : j ≤ e) : nodeAt M' j = nodeAt M j := by rw [hnodes, if_neg (by omega)]
  refine h.update hwf (fun j hj => hsame j (by omega)) (by omega) (fun j hj hje hlt => ?_)
    (hsame (w.cur + 1) hleft ▸ h.next) (by omega) (by omega)
  by_cases hjold : j ≤ e
  · rw [hsame j hjold] at hlt ⊢
    exact h.linked j hj hjold hlt
  · rw [hnodes, if_pos (by omega)] at hlt
    exact absurd hlt (Nat.lt_irrefl _)

end Forward

/-! ### Settling the next node (R335) -/

/-- The rep set of a linked node. -/
theorem nodeState_reads {g : Ground} {M : Memory OptNode} {s : State} {c cur : Nat} {r : Reps} (hdict : g.dict ≤ 2 ^ 30)
    (h : Linked g (nodeAt M) c (nodeAt M cur) cur r) (hcur : cur < 4096) :
    (nodeState cur).Reads (s.withNodes M) fun x => x.2 = r := by
  refine .bind (readNode_reads hcur) fun n hn => ?_
  subst hn
  rcases h.cases with ⟨hone, hs, hlt, hlegal, rfl⟩ | ⟨hone, htwo, hs, hlt, -, hlegal, rfl⟩ |
    ⟨hone, htwo, hs, hmid, hlt, hfirst, hlit, hlegal, rfl⟩
  all_goals generalize hn : nodeAt M cur = n at *
  · simp only [hone, Bool.false_eq_true, if_false, Bool.false_and]
    refine .bind (readNode_reads (by omega)) fun _ _ => ?_
    rw [pure_bind]
    split
    · next hadj =>
      refine .bind (readNode_reads (by omega)) fun o ho => .pure ?_ _
      have hpred : cur - 1 = n.source := by omega
      rw [hlegal.repsAfter_one (show cur - n.posPrev = 1 by omega), ho, hpred]
    · next hadj =>
      refine .bind (readNode_reads (by omega)) fun o ho => .pure ?_ _
      rw [repsAfter_of_ne (hlegal.back_ne (show 2 ≤ cur - n.posPrev by omega) hdict), ho, hs]
  · simp only [hone, htwo, if_true, Bool.false_eq_true, if_false, Bool.and_false]
    have hpred : n.posPrev - 1 = n.source := by omega
    refine .bind (readNode_reads (by omega)) fun _ _ => ?_
    rw [pure_bind, if_neg (by omega)]
    refine .bind (readNode_reads (by omega)) fun o ho => .pure ?_ _
    rw [h.rep0 hone, ho, hpred]
    rfl
  · simp only [hone, htwo, if_true, Bool.and_self]
    refine .bind (readNode_reads (by omega)) fun _ _ => ?_
    rw [pure_bind, if_neg (by omega)]
    refine .bind (readNode_reads (by omega)) fun o ho => .pure ?_ _
    rw [ho, hs]

end Sys2Proof.Machine
end

section
/-!
PROOFS. The work of one node of the optimal parse (`44_optimal_parse.md` R335 to R340): every relaxation is a legal step, so the
nodes stay linked, and the LIT step makes the price of the next node finite.
-/

namespace Sys2Proof.Machine

/-! ### Settling a node -/

/-- The node that becomes the current one. -/
def OptNode.settledAs (n : OptNode) (st : CoderState) (r : Reps) : OptNode := { n with state := st, backs := r }

/-- The work after the next node is settled. -/
def Work.stepped (w : Work) (r : Reps) (b : Nat) : Work := { w with cur := w.cur + 1, reps := r, bound := b }

/-- The next node has a finite price, so it is linked, and it is settled with the reps of its steps. -/
theorem Forward.settle {w : Work} {e : Nat} {M : Memory OptNode} (h : Forward w e M) (hlast : w.cur + 1 < e)
    (hb : w.bound < Config.kInfinityPrice) :
    ∃ r, Linked w.g (nodeAt M) w.cur (nodeAt M (w.cur + 1)) (w.cur + 1) r ∧ ∀ st,
      Forward (w.stepped r (nodeAt M (w.cur + 2)).price) e
        (M.write optZero (w.cur + 1) ((nodeAt M (w.cur + 1)).settledAs st r)) := by
  obtain ⟨r, hr⟩ := h.linked (w.cur + 1) (Nat.lt_succ_self _) h.left (h.next.trans_lt hb)
  refine ⟨r, hr, fun st => ?_⟩
  have hnodes := nodeAt_write h.canonical (w.cur + 1) ((nodeAt M (w.cur + 1)).settledAs st r)
  set M' := M.write optZero (w.cur + 1) ((nodeAt M (w.cur + 1)).settledAs st r)
  have hother (j : Nat) (hj : j ≠ w.cur + 1) : nodeAt M' j = nodeAt M j := by rw [hnodes, Function.update_of_ne hj]
  have hself : nodeAt M' (w.cur + 1) = (nodeAt M (w.cur + 1)).settledAs st r := by rw [hnodes, Function.update_self]
  have hlink {j : Nat} {o : OptNode} {q : Reps} (ho : Linked w.g (nodeAt M) w.cur o j q) :
      Linked w.g (nodeAt M') (w.cur + 1) o j q :=
    ho.congr (fun k hk => by rw [hother k (by omega)]) (Nat.le_succ _)
  have hrepsOk : w.g.RepsOk (w.cur + 1) r := hr.chain.repsOk (h.repsOk _ hr.source)
  refine ⟨memory_write_wf h.canonical, hother 0 (by omega) ▸ h.origin, fun j hj hjc => ?_, fun j hj hje hlt => ?_,
    fun j hj => ?_, ?_, hlast, ?_, h.most, h.inside⟩
  · by_cases hjs : j = w.cur + 1
    · subst hjs
      have hr' := hlink hr
      rw [hself]
      exact ⟨hr'.source, hr'.rep0, hr'.notLit, hr'.chain⟩
    · rw [hother j hjs]
      exact hlink (h.settled j hj (Nat.le_of_lt_succ (Nat.lt_of_le_of_ne hjc hjs)))
  · have hjs : w.cur + 1 < j := hj
    rw [hother j (by omega)] at hlt ⊢
    obtain ⟨q, hq⟩ := h.linked j (by omega) hje hlt
    exact ⟨q, hlink hq⟩
  · by_cases hjs : j = w.cur + 1
    · subst hjs
      rw [hself]
      exact hrepsOk
    · rw [hother j hjs]
      exact h.repsOk j (Nat.le_of_lt_succ (Nat.lt_of_le_of_ne hj hjs))
  · exact congrArg OptNode.backs hself
  · exact (congrArg OptNode.price (hother (w.cur + 2) (by omega))).le

/-! ### At a node -/

/-- The match finder stands just after node `cur` of the parse. -/
structure At (g : Ground) (cur : Nat) (s : State) : Prop where
  inp : s.inp = g.inp
  position : s.session.mf.mfAbs = g.start + cur + 1
  dict : g.dict ≤ 2 ^ 30
  prices : Priceable s

/-- What the relaxations of the current node share. -/
structure EnvOk (w : Work) (fast : Nat) (e : NodeEnv) : Prop where
  cur : e.cur = w.cur
  position : e.position = w.g.start + w.cur
  reps : e.reps = w.reps
  ps : e.ps < 16
  full : e.numAvailFull = min (4095 - w.cur) (w.g.inp.length - (w.g.start + w.cur))
  avail : e.numAvail = min e.numAvailFull fast

/-- At most the prices of a bit and of eight more. -/
abbrev litBound : Nat := 576 + 576 * 8

section Node

variable {w : Work} {e : Nat} {M : Memory OptNode} {s : State}

/-- A byte near the current node: `In[start + a]`. -/
theorem At.byte {g : Ground} {cur : Nat} (h : At g cur s) {idx : Int} {a : Nat} (ha : (g.start : Int) + cur + 1 + idx = a)
    (hlt : a < g.inp.length) (M : Memory OptNode) :
    (getIndexByte idx).Reads (s.withNodes M) fun b => g.inp[a]? = some b := by
  have hreads := getIndexByte_reads (s := s.withNodes M) (idx := idx) (a := a)
    (show (s.session.mf.mfAbs : Int) + idx = a by rw [h.position]; omega) (show a < s.inp.length by rw [h.inp]; exact hlt)
  rw [show (s.withNodes M).inp = g.inp from h.inp] at hreads
  exact hreads

/-- A run near the current node. -/
theorem At.run {g : Ground} {cur : Nat} (h : At g cur s) {idx : Int} {d limit i : Nat} (hi : (cur : Int) + 1 + idx = i)
    (hd : d < g.start + i) (hle : g.start + i ≤ g.inp.length) (M : Memory OptNode) :
    (getMatchLen idx d limit).Reads (s.withNodes M) fun n => n ≤ limit ∧ RepeatsAt g.inp (g.start + i) d n := by
  have hreads := getMatchLen_reads (s := s.withNodes M) (idx := idx) (d := d) (limit := limit) (a := g.start + i)
    (show (s.session.mf.mfAbs : Int) + idx = (g.start + i : Nat) by rw [h.position]; omega) hd
    (show g.start + i ≤ s.inp.length by rw [h.inp]; exact hle)
  rw [show (s.withNodes M).inp = g.inp from h.inp] at hreads
  exact hreads

/-- The bytes left tell the end of the work of a node. -/
theorem env_relaxes (hat : At w.g w.cur s) {b fast : Nat} (h : Forward { w with bound := b } e M)
    {f : Nat → NodeEnv × Bool} (hf : ∀ avail, avail = w.g.inp.length - (w.g.start + w.cur + 1) →
      EnvOk w fast (f avail).1) :
    (getNumAvailableBytes >>= fun avail => pure (f avail)).Relaxes s M fun x M' =>
      EnvOk w fast x.1 ∧ Forward { w with bound := b } e M' :=
  ⟨_, M, rfl, hf (s.inp.length - s.session.mf.mfAbs) (by rw [hat.inp, hat.position]), h⟩

/-- The LIT step and the SHORTREP step (R336). -/
theorem relaxOneByte_relaxes (hat : At w.g w.cur s) (h : Forward w e M) (st : CoderState) {p : Nat}
    (hprice : (nodeAt M w.cur).price ≤ p) :
    (relaxOneByte w.cur (w.g.start + w.cur) st w.reps).Relaxes s M fun x M' =>
      EnvOk w s.session.enc.numFastBytes x.1 ∧ Forward { w with bound := p + litBound } e M' := by
  have hleft := h.left
  have hmost := h.most
  have hin := h.inside
  have hps := posState_lt hat.prices.pb (w.g.start + w.cur)
  have hback : w.reps.r0.toNat < w.g.start + w.cur := (h.reps 0).1
  have hprices (M' : Memory OptNode) := hat.prices.withNodes M'
  rw [relaxOneByte]
  refine .get_bind ?_
  refine (readNode_reads (by omega)).then fun n hn => ?_
  subst hn
  refine (hat.byte (a := w.g.start + w.cur) (by omega) (by omega) M).then fun curByte hcurByte => ?_
  refine (hat.byte (a := w.g.start + w.cur - (w.reps.r0.toNat + 1)) (by omega) (by omega) M).then
    fun matchByte hmatchByte => ?_
  refine ((isMatch_costs (hprices M) st hps false).reads).then fun isLit hisLit => ?_
  refine (hat.byte (a := w.g.start + w.cur - 1) (by omega) (by omega) M).then fun prev _ => ?_
  refine ((literalPrice_costs (hprices M) _ prev st matchByte curByte).reads).then fun lit hlit => ?_
  refine (h.relax_step (len := 1) (by omega) _ (.inl ⟨rfl, rfl, by omega⟩)).bind fun wonChar M1 ⟨h1, hnext⟩ => ?_
  have h1 : Forward { w with bound := p + litBound } e M1 :=
    ⟨h1.canonical, h1.origin, h1.settled, h1.linked, h1.repsOk, h1.here, h1.left, by
      refine hnext.trans ?_
      show _ ≤ p + (576 + 576 * 8)
      omega, h1.most, h1.inside⟩
  refine ((isMatch_costs (hprices M1) st hps true).reads).then fun isM _ => ?_
  refine ((isRep_costs (hprices M1) st true).reads).then fun isR _ => ?_
  refine (readNode_reads (by omega)).then fun next hnext => ?_
  subst hnext
  have hfull : ∀ avail, avail = w.g.inp.length - (w.g.start + w.cur + 1) → min (4095 - w.cur) (avail + 1) =
      min (4095 - w.cur) (w.g.inp.length - (w.g.start + w.cur)) := fun avail havail => by omega
  split
  · next hshort =>
    have hequal : matchByte = curByte := by
      rw [Bool.and_eq_true, decide_eq_true_eq] at hshort
      exact hshort.1
    refine (repLen1Price_priced (hprices M1) st hps).then fun c _ => ?_
    simp only [pure_bind]
    split
    · next hwon =>
      have hrun := writeNode_withNodes (s := s) (M := M1) (i := w.cur + 1)
        ((nodeAt M1 (w.cur + 1)).withStep ((nodeAt M w.cur).price + isM + isR + c) (shortRepStep w.cur)) (by omega)
      refine Act.Relaxes.bind (Q := fun _ M2 => Forward { w with bound := p + litBound } e M2) ⟨_, _, hrun, ?_⟩
        fun _ M2 h2 => ?_
      · refine h1.write (i := w.cur + 1) (Nat.lt_succ_self w.cur) (h1.linked_withStep (len := 1) (Ground.legal_shortRep ?_)) ?_
        · refine ⟨hback, show w.g.start + w.cur + 1 ≤ w.g.inp.length by omega, fun j hj => ?_⟩
          obtain rfl : j = 0 := by omega
          rw [Nat.add_zero, hcurByte, hmatchByte, hequal]
        · rw [Bool.or_eq_true, Bool.and_eq_true, decide_eq_true_eq, decide_eq_true_eq] at hwon
          show (nodeAt M w.cur).price + isM + isR + c ≤ _
          omega
      · refine env_relaxes hat h2 fun avail havail => ?_
        exact ⟨rfl, rfl, rfl, hps, hfull avail havail, rfl⟩
    · refine env_relaxes hat h1 fun avail havail => ?_
      exact ⟨rfl, rfl, rfl, hps, hfull avail havail, rfl⟩
  · simp only [pure_bind]
    refine env_relaxes hat h1 fun avail havail => ?_
    exact ⟨rfl, rfl, rfl, hps, hfull avail havail, rfl⟩

end Node

end Sys2Proof.Machine
end

section
/-!
PROOFS. The relaxations of a node over several bytes (`44_optimal_parse.md` R338 to R340): the combinations with LIT and REP0, the
rep lengths and the match lengths.
-/

namespace Sys2Proof.Machine

/-! ### Combinations -/

section Combination

variable {w : Work} {e : Nat} {M : Memory OptNode} {n : OptNode} {len len2 : Nat} {back : Word}

theorem hop_rep0 {g : Ground} {i : Nat} {r : Reps} {n : Nat} (hlo : 2 ≤ n) (hhi : n ≤ 273)
    (hrep : RepeatsAt g.inp (g.start + i) r.r0.toNat n) : g.Legal i r ⟨n, 0⟩ := Ground.legal_rep (k := 0) (by decide) hlo hhi hrep

/-- LIT and REP0 from the current node (R338). -/
theorem Forward.linked_litRep0 (h : Forward w e M) (hone : n.prev1IsChar = true) (htwo : n.prev2 = false)
    (hprev : n.posPrev = w.cur + 1) (hback : n.backPrev = 0) (hlo : 2 ≤ len2) (hhi : len2 ≤ 273)
    (hrep : RepeatsAt w.g.inp (w.g.start + (w.cur + 1)) w.reps.r0.toNat len2) :
    Linked w.g (nodeAt M) w.cur n (w.cur + 1 + len2) w.reps := by
  have hs : n.source = w.cur := by rw [OptNode.source, hone, htwo, hprev]; rfl
  have hbefore := hrep.inside
  refine ⟨hs.le, fun _ => hback, by rw [htwo]; nofun, ?_⟩
  rw [hs, h.here, OptNode.hops, hone, htwo, hprev, hback]
  rw [Nat.add_sub_cancel_left]
  refine ⟨Ground.legal_lit (by omega), ?_, rfl, rfl⟩
  rw [repsAfter_lit]
  exact hop_rep0 hlo hhi hrep

/-- A copy, LIT and REP0 from the current node (R339, R340). -/
theorem Forward.linked_copyLitRep0 (h : Forward w e M) (hdict : w.g.dict ≤ 2 ^ 30) (hone : n.prev1IsChar = true)
    (htwo : n.prev2 = true) (hprev : n.posPrev = w.cur + len + 1) (hback : n.backPrev = 0) (hprev2 : n.posPrev2 = w.cur)
    (hback2 : n.backPrev2 = back) (hlen : 2 ≤ len) (hlegal : w.g.Legal w.cur w.reps ⟨len, back⟩) (hlo : 2 ≤ len2)
    (hhi : len2 ≤ 273)
    (hrep : RepeatsAt w.g.inp (w.g.start + (w.cur + len + 1)) (stepReps back w.reps).r0.toNat len2) :
    Linked w.g (nodeAt M) w.cur n (w.cur + (len + 1 + len2)) (stepReps back w.reps) := by
  have hs : n.source = w.cur := by rw [OptNode.source, hone, htwo, hprev2]; rfl
  have hne := hlegal.back_ne hlen hdict
  have hbefore := hrep.inside
  refine ⟨hs.le, fun _ => hback, fun _ _ => hback2 ▸ hne, ?_⟩
  rw [hs, h.here, OptNode.hops, hone, htwo, hprev, hback, hprev2, hback2]
  rw [show w.cur + len + 1 - 1 - w.cur = len by omega, show w.cur + (len + 1 + len2) - (w.cur + len + 1) = len2 by omega]
  refine ⟨hlegal, ?_⟩
  dsimp only
  rw [repsAfter_of_ne hne]
  refine ⟨Ground.legal_lit (by omega), ?_⟩
  rw [repsAfter_lit]
  exact ⟨hop_rep0 hlo hhi hrep, by dsimp only; omega, rfl⟩

end Combination

/-! ### The relaxations -/

/-- A relaxation may take more nodes into use, and keeps the pass. -/
def Onward (w : Work) (e : Nat) (e' : Nat) (M' : Memory OptNode) : Prop := e ≤ e' ∧ Forward w e' M'

section Relax

variable {w : Work} {e : Nat} {M : Memory OptNode} {s : State} {E : NodeEnv} (hat : At w.g w.cur s)
  (henv : EnvOk w s.session.enc.numFastBytes E)
include hat henv

omit hat in
/-- The available bytes end inside `In` and the node store. -/
theorem EnvOk.bounds (h : Forward w e M) : E.numAvailFull ≤ 4095 - w.cur ∧ w.g.start + w.cur + E.numAvailFull ≤ w.g.inp.length ∧
    E.numAvail ≤ E.numAvailFull ∧ E.numAvail ≤ s.session.enc.numFastBytes := by
  have hfull := henv.full
  have havail := henv.avail
  have hleft := h.left
  have hin := h.inside
  omega

/-- LIT and REP0 after a copy (R339, R340). -/
theorem literalThenRep0_relaxes (h : Forward w e M) {len : Nat} {back : Word} (hlen : 2 ≤ len)
    (hlegal : w.g.Legal w.cur w.reps ⟨len, back⟩) {d : Nat} (hd : (stepReps back w.reps).r0.toNat = d)
    (hbefore : d < w.g.start + w.cur) (st : CoderState) (price : Nat) :
    (literalThenRep0 E s.session.props.pb s.session.enc.numFastBytes e len d st price back).Relaxes s M (Onward w e) := by
  obtain ⟨hmost, hin, -, -⟩ := henv.bounds h
  have hprices (M' : Memory OptNode) := hat.prices.withNodes M'
  have hfast := hat.prices.fast
  have hps (i : Nat) := posState_lt hat.prices.pb i
  unfold literalThenRep0
  split
  · next hlt =>
    refine (hat.run (i := w.cur + len + 1) (by omega) (by omega) (by omega) M).then fun len2 ⟨hlim, hrep⟩ => ?_
    split
    · next htwo =>
      refine (isMatch_costs (hprices M) st (hps _) false).reads.then fun isLit _ => ?_
      refine (hat.byte (a := w.g.start + (w.cur + len - 1)) (by omega) (by omega) M).then fun prev _ => ?_
      refine (hat.byte (a := w.g.start + w.cur + len - d - 1) (by omega) (by omega) M).then fun mb _ => ?_
      refine (hat.byte (a := w.g.start + w.cur + len) (by omega) (by omega) M).then fun v _ => ?_
      refine (literalPrice_costs (hprices M) _ prev st mb v).reads.then fun lit _ => ?_
      refine (repStartPrice_priced (hprices M) _ _ (hps _)).then fun next _ => ?_
      rw [henv.cur]
      refine (h.extend (by omega) (by omega)).bind fun e' M1 ⟨hle, hlast, h1⟩ => ?_
      refine (repPrice_priced (hprices M1) 0 _ htwo (show len2 ≤ s.session.enc.numFastBytes by omega) (hps _)).then fun rep _ => ?_
      have hlinked := h1.linked_copyLitRep0 (n := { (nodeAt M1 (w.cur + (len + 1 + len2))).withStep (next + rep)
        { posPrev := w.cur + len + 1, backPrev := 0, prev1IsChar := true } with
          prev2 := true, posPrev2 := w.cur, backPrev2 := back }) hat.dict rfl rfl rfl rfl rfl rfl hlen hlegal htwo (by omega)
          (hd ▸ hrep)
      exact (h1.relax (by omega) hlast hlinked rfl).bind fun _ M2 ⟨h2, _⟩ => .pure ⟨hle, h2⟩
    · exact .pure ⟨Nat.le_refl e, h⟩
  · exact .pure ⟨Nat.le_refl e, h⟩

/-- LIT and REP0 (R338). -/
theorem relaxLiteralRep0_relaxes (h : Forward w e M) (hfull : 2 ≤ E.numAvailFull) :
    (relaxLiteralRep0 E s.session.props.pb s.session.enc.numFastBytes e).Relaxes s M (Onward w e) := by
  obtain ⟨hmost, hin, -, -⟩ := henv.bounds h
  have hprices (M' : Memory OptNode) := hat.prices.withNodes M'
  have hfast := hat.prices.fast
  have hps (i : Nat) := posState_lt hat.prices.pb i
  have hback : w.reps.r0.toNat < w.g.start + w.cur := (h.reps 0).1
  rw [relaxLiteralRep0, henv.reps]
  refine (hat.run (i := w.cur + 1) (by omega) (by omega) (by omega) M).then fun len2 ⟨hlim, hrep⟩ => ?_
  split
  · next htwo =>
    refine (repStartPrice_priced (hprices M) _ _ (hps _)).then fun next _ => ?_
    rw [henv.cur]
    refine (h.extend (by omega) (by omega)).bind fun e' M1 ⟨hle, hlast, h1⟩ => ?_
    refine (repPrice_priced (hprices M1) 0 _ htwo (show len2 ≤ s.session.enc.numFastBytes by omega) (hps _)).then fun rep _ => ?_
    have hlinked := h1.linked_litRep0 (n := { (nodeAt M1 (w.cur + 1 + len2)).withStep (next + rep)
      { posPrev := w.cur + 1, backPrev := 0, prev1IsChar := true } with prev2 := false }) rfl rfl rfl rfl htwo (by omega) hrep
    exact (h1.relax (by omega) hlast hlinked rfl).bind fun _ M2 ⟨h2, _⟩ => .pure ⟨hle, h2⟩
  · exact .pure ⟨Nat.le_refl e, h⟩

/-- The lengths of one rep (R339). -/
theorem relaxRepLens_relaxes (h : Forward w e M) {k l : Nat} (hk : k < 4) (hl : l ≤ E.numAvail)
    (hrep : RepeatsAt w.g.inp (w.g.start + w.cur) (w.reps.get k).toNat l) :
    (relaxRepLens E k l e).Relaxes s M (Onward w e) := by
  induction l generalizing e M with
  | zero => exact .pure ⟨Nat.le_refl e, h⟩
  | succ l ih =>
    obtain ⟨hmost, hin, havail, havail'⟩ := henv.bounds h
    have hfast := hat.prices.fast
    unfold relaxRepLens
    split
    · exact .pure ⟨Nat.le_refl e, h⟩
    · next htwo =>
      rw [henv.cur]
      refine (h.extend (by omega) (by omega)).bind fun e' M1 ⟨hle, hlast, h1⟩ => ?_
      refine (repPrice_priced (hat.prices.withNodes M1) k _ (by omega)
        (show l + 1 ≤ s.session.enc.numFastBytes by omega) henv.ps).then fun c _ => ?_
      have hlegal := Ground.legal_rep (g := w.g) hk (by omega) (by omega) hrep
      refine (h1.relax_step hlast _ hlegal).bind fun _ M2 ⟨h2, _⟩ => ?_
      exact (ih h2 (by omega) (hrep.mono (Nat.le_succ l))).mono fun e'' M3 ⟨hle', h3⟩ => ⟨hle.trans hle', h3⟩

/-- The four reps (R339). -/
theorem relaxReps_relaxes (h : Forward w e M) {n k : Nat} (hn : n + k = 4) (startLen : Nat) (hstart : 2 ≤ startLen) :
    (relaxReps E s.session.props.pb s.session.enc.numFastBytes n k startLen e).Relaxes s M fun x M' =>
      2 ≤ x.1 ∧ Onward w e x.2 M' := by
  induction n generalizing k startLen e M with
  | zero => exact .pure ⟨hstart, Nat.le_refl e, h⟩
  | succ n ih =>
    obtain ⟨hmost, hin, havail, havail'⟩ := henv.bounds h
    have hfast := hat.prices.fast
    have hleft := h.left
    have hinside := h.inside
    have hback : (w.reps.get k).toNat < w.g.start + w.cur := (h.reps k).1
    rw [relaxReps, henv.reps]
    refine (hat.run (i := w.cur) (by omega) hback (by omega) M).then fun len ⟨hlim, hrep⟩ => ?_
    split
    · exact ih h (by omega) _ hstart
    · next htwo =>
      have hlegal := Ground.legal_rep (g := w.g) (show k < 4 by omega) (show 2 ≤ len by omega) (by omega) hrep
      refine (relaxRepLens_relaxes hat henv h (by omega) hlim hrep).bind fun e1 M1 ⟨hle1, h1⟩ => ?_
      refine (repPrice_priced (hat.prices.withNodes M1) k _ (by omega)
        (show len ≤ s.session.enc.numFastBytes by omega) henv.ps).then fun c _ => ?_
      have hd : (stepReps (u32 k) w.reps).r0.toNat = (w.reps.get k).toNat := by
        rw [stepReps_rep (by omega), promote_r0 (by omega)]
      refine (literalThenRep0_relaxes hat henv h1 (by omega) hlegal hd hback _ _).bind fun e2 M2 ⟨hle2, h2⟩ => ?_
      refine (ih h2 (by omega) _ ?_).mono fun x M3 ⟨hx, hle3, h3⟩ => ⟨hx, by omega, h3⟩
      split <;> omega

end Relax

end Sys2Proof.Machine
end

section
/-!
PROOFS. The match relaxations of a node (`44_optimal_parse.md` R340), and all the work of a node (R335 to R340).
-/

namespace Sys2Proof.Machine

/-! ### Reports (R230, R326) -/

/-- A reported pair at node `i`: `In` repeats at its distance, inside the dictionary. -/
structure PairOk (g : Ground) (fast i : Nat) (p : MatchPair) : Prop where
  least : 2 ≤ p.len
  most : p.len ≤ fast
  near : p.dist.toNat < g.dict
  run : RepeatsAt g.inp (g.start + i) p.dist.toNat p.len

/-- Reported pairs in order. -/
structure PairsOk (g : Ground) (fast i : Nat) (pairs : List MatchPair) : Prop where
  all : ∀ p ∈ pairs, PairOk g fast i p
  sorted : pairs.Pairwise fun p q => p.len < q.len

/-- A report of node `i`: its pairs, and the length `lenMain` of the longest of them, measured on where it has `fast` bytes. -/
structure Report (g : Ground) (fast i lenMain : Nat) (pairs : List MatchPair) : Prop extends PairsOk g fast i pairs where
  none : pairs = [] → lenMain = 0
  last : ∀ p, pairs.getLast? = some p → p.len ≤ lenMain ∧ lenMain ≤ 273 ∧
    RepeatsAt g.inp (g.start + i) p.dist.toNat lenMain ∧ (lenMain < fast → lenMain = p.len)

/-- Pairs up to the length `len`, with one of that length. -/
structure UpTo (g : Ground) (fast i len : Nat) (pairs : List MatchPair) : Prop extends PairsOk g fast i pairs where
  most : ∀ p ∈ pairs, p.len ≤ len
  reached : len = 0 ∨ ∃ p ∈ pairs, p.len = len

section Pairs

variable {g : Ground} {fast i len : Nat} {pairs : List MatchPair}

/-- A report without a pair of `fast` bytes reaches its length. -/
theorem Report.upTo (h : Report g fast i len pairs) (hlen : len < fast) : UpTo g fast i len pairs := by
  rcases List.eq_nil_or_concat' pairs with rfl | ⟨init, p, rfl⟩
  · exact ⟨h.toPairsOk, nofun, .inl (h.none rfl)⟩
  · obtain ⟨-, -, -, hp⟩ := h.last p List.getLast?_concat
    have hlast := hp hlen
    refine ⟨h.toPairsOk, fun q hq => ?_, .inr ⟨p, by simp, hlast.symm⟩⟩
    rcases List.mem_append.mp hq with hq | hq
    · have := (List.pairwise_append.mp h.sorted).2.2 q hq p (List.mem_singleton_self p)
      omega
    · rw [List.mem_singleton.mp hq, hlast]

theorem mem_of_mem_pairsFrom {p : MatchPair} (hp : p ∈ pairsFrom len pairs) : p ∈ pairs :=
  (List.dropWhile_sublist _).subset hp

/-- The pairs from a length on have at least that length. -/
theorem le_of_mem_pairsFrom (hsorted : pairs.Pairwise fun p q => p.len < q.len) {p : MatchPair}
    (hp : p ∈ pairsFrom len pairs) : len ≤ p.len := by
  induction pairs with
  | nil => cases hp
  | cons q qs ih =>
    obtain ⟨hq, hqs⟩ := List.pairwise_cons.mp hsorted
    rw [pairsFrom, List.dropWhile_cons] at hp
    split at hp
    · exact ih hqs hp
    · next hlen =>
      have hlen : len ≤ q.len := by simpa using hlen
      rcases List.mem_cons.mp hp with rfl | hp
      · exact hlen
      · exact hlen.trans (hq p hp).le

theorem pairsFrom_ne_nil {p : MatchPair} (hp : p ∈ pairs) (hlen : len ≤ p.len) : pairsFrom len pairs ≠ [] := by
  rw [pairsFrom, ne_eq, List.dropWhile_eq_nil_iff]
  intro h
  have := h p hp
  simp only [decide_eq_true_eq] at this
  omega

/-- The report cut to the lengths available (R340). -/
theorem clipPairs_reads (h : UpTo g fast i len pairs) {numAvail : Nat} (htwo : 2 ≤ numAvail) (s : State) :
    (clipPairs numAvail len pairs).Reads s fun x => x.1 ≤ numAvail ∧ UpTo g fast i x.1 x.2 := by
  unfold clipPairs
  split
  · next hlt =>
    obtain ⟨p, hp, hplen⟩ : ∃ p ∈ pairs, p.len = len := h.reached.resolve_left (by omega)
    split
    · next hnil => exact absurd hnil (pairsFrom_ne_nil hp (by omega))
    · next q qs hq =>
      have hmem : q ∈ pairsFrom numAvail pairs := hq ▸ List.mem_cons_self
      have hqlen := le_of_mem_pairsFrom h.sorted hmem
      have hqok := h.all q (mem_of_mem_pairsFrom hmem)
      have hqmost := hqok.most
      have hshort {r : MatchPair} (hr : r ∈ pairs.takeWhile fun q => q.len < numAvail) : r.len < numAvail := by
        simpa using List.mem_takeWhile_imp hr
      have hkept {r : MatchPair} (hr : r ∈ pairs.takeWhile fun q => q.len < numAvail) : r ∈ pairs :=
        (List.takeWhile_sublist _).subset hr
      refine .pure ⟨Nat.le_refl _, ⟨⟨fun r hr => ?_, ?_⟩, fun r hr => ?_, .inr ⟨_, List.mem_concat_self, rfl⟩⟩⟩ s
      · rcases List.mem_append.mp hr with hr | hr
        · exact h.all r (hkept hr)
        · rw [List.mem_singleton.mp hr]
          exact ⟨htwo, hqlen.trans hqmost, hqok.near, hqok.run.mono hqlen⟩
      · refine List.pairwise_append.mpr ⟨h.sorted.sublist (List.takeWhile_sublist _), List.pairwise_singleton .., ?_⟩
        intro r hr r' hr'
        rw [List.mem_singleton.mp hr']
        exact hshort hr
      · rcases List.mem_append.mp hr with hr | hr
        · exact (hshort hr).le
        · rw [List.mem_singleton.mp hr]
  · next hge => exact .pure ⟨by omega, h⟩ s

end Pairs

/-! ### The match relaxations -/

section Relax

variable {w : Work} {e : Nat} {M : Memory OptNode} {s : State} {E : NodeEnv} (hat : At w.g w.cur s)
  (henv : EnvOk w s.session.enc.numFastBytes E)
include hat henv

/-- The lengths of the pairs from `len` on. -/
theorem relaxMatchLens_relaxes (h : Forward w e M) (price : Nat) {fuel len : Nat} {pairs : List MatchPair}
    (hpairs : PairsOk w.g s.session.enc.numFastBytes w.cur pairs) (hlen : 2 ≤ len) (hfuel : 1 ≤ fuel)
    (hbounds : ∀ p ∈ pairs, len ≤ p.len ∧ w.cur + p.len ≤ e ∧ p.len + 1 < len + fuel) :
    (relaxMatchLens E s.session.props.pb s.session.enc.numFastBytes price fuel len e pairs).Relaxes s M (Onward w e) := by
  induction fuel generalizing len e M pairs with
  | zero => omega
  | succ fuel ih =>
    cases pairs with
    | nil => exact .pure ⟨Nat.le_refl e, h⟩
    | cons p pairs =>
      obtain ⟨hp, hrest⟩ := List.forall_mem_cons.mp hpairs.all
      obtain ⟨hbelow, hsorted⟩ := List.pairwise_cons.mp hpairs.sorted
      obtain ⟨hle, hend, hlt⟩ := hbounds p List.mem_cons_self
      have hmost := hp.most
      have hfast := hat.prices.fast
      have hdict := hat.dict
      have hnear := hp.near
      have hrun := hp.run.mono hle
      have hlegal := Ground.legal_match (g := w.g) (i := w.cur) (r := w.reps) hnear hdict hlen (by omega) hrun
      rw [relaxMatchLens, henv.cur]
      refine (posLenPrice_priced (hat.prices.withNodes M) (by omega) hlen
        (show len ≤ s.session.enc.numFastBytes by omega) henv.ps).then fun c _ => ?_
      refine (h.relax_step (by omega) _ hlegal).bind fun _ M1 ⟨h1, _⟩ => ?_
      split
      · next heq =>
        have hd : (stepReps (backMatch p.dist) w.reps).r0.toNat = p.dist.toNat := by
          rw [stepReps_match (by omega)]
          rfl
        refine (literalThenRep0_relaxes hat henv h1 hlen hlegal hd hrun.before _ _).bind fun e' M2 ⟨hle', h2⟩ => ?_
        refine (ih h2 ⟨hrest, hsorted⟩ (by omega) (by omega) fun q hq => ?_).mono fun e'' M3 ⟨hle'', h3⟩ =>
          ⟨hle'.trans hle'', h3⟩
        have := hbelow q hq
        have := hbounds q (List.mem_cons_of_mem p hq)
        omega
      · next hne =>
        refine ih h1 hpairs (by omega) (by omega) fun q hq => ?_
        have hq' := hbounds q hq
        rcases List.mem_cons.mp hq with rfl | hq
        · omega
        · have := hbelow q hq
          omega

/-- The match relaxations (R340). -/
theorem relaxMatches_relaxes (h : Forward w e M) {startLen newLen : Nat} {pairs : List MatchPair}
    (hpairs : UpTo w.g s.session.enc.numFastBytes w.cur newLen pairs) (hstart : 2 ≤ startLen) (hfull : 2 ≤ E.numAvailFull) :
    (relaxMatches E s.session.props.pb s.session.enc.numFastBytes startLen newLen e pairs).Relaxes s M (Onward w e) := by
  obtain ⟨hmost, hin, havail, havail'⟩ := henv.bounds h
  have hfast := hat.prices.fast
  have htwo : 2 ≤ E.numAvail := by
    have := henv.avail
    omega
  refine (clipPairs_reads hpairs htwo _).then fun ⟨clen, clipped⟩ ⟨hx, hclipped⟩ => ?_
  dsimp only at hx hclipped ⊢
  split
  · next hle =>
    obtain ⟨p, hp, hplen⟩ : ∃ p ∈ clipped, p.len = clen := hclipped.reached.resolve_left (by omega)
    refine (isRep_costs (hat.prices.withNodes M) E.st false).reads.then fun c _ => ?_
    rw [henv.cur]
    refine (h.extend (by omega) (by omega)).bind fun e' M1 ⟨hle', hlast, h1⟩ => ?_
    have hne : pairsFrom startLen clipped ≠ [] := pairsFrom_ne_nil hp (by omega)
    split
    · next hnil => exact absurd hnil hne
    · next hcons =>
      have hsub {q : MatchPair} (hq : q ∈ pairsFrom startLen clipped) : q ∈ clipped := mem_of_mem_pairsFrom hq
      refine (relaxMatchLens_relaxes hat henv h1 _ ⟨fun q hq => hclipped.all q (hsub hq),
        hclipped.sorted.sublist (List.dropWhile_sublist _)⟩ hstart (by decide) fun q hq => ?_).mono
          fun e'' M2 ⟨hle'', h2⟩ => ⟨hle'.trans hle'', h2⟩
      have hq1 := le_of_mem_pairsFrom hclipped.sorted hq
      have hq2 := hclipped.most q (hsub hq)
      have hnum : Config.kNumOpts = 4096 := rfl
      omega
  · exact .pure ⟨Nat.le_refl e, h⟩

end Relax

/-! ### The work of a node -/

/-- The work of the next node (R335 to R340). -/
theorem processNode_relaxes {w : Work} {e : Nat} {M : Memory OptNode} {s : State} (hat : At w.g (w.cur + 1) s)
    (h : Forward w e M) (hlast : w.cur + 1 < e) (hb : w.bound < Config.kInfinityPrice) {newLen : Nat}
    {pairs : List MatchPair} (hpairs : UpTo w.g s.session.enc.numFastBytes (w.cur + 1) newLen pairs) :
    (processNode (w.cur + 1) (w.g.start + (w.cur + 1)) newLen e pairs).Relaxes s M fun e' M' =>
      ∃ r, Forward (w.stepped r (w.bound + litBound)) e' M' := by
  have hmost := h.most
  obtain ⟨r, hlinked, hsettle⟩ := h.settle hlast hb
  refine (nodeState_reads hat.dict hlinked (by omega)).then fun ⟨st, r'⟩ hr => ?_
  obtain rfl : r' = r := hr
  refine (modifyNode_relaxes _ (by omega)).bind fun _ M1 hM1 => ?_
  have h1 := hsettle st
  have hprice : (nodeAt M1 (w.cur + 1)).price ≤ w.bound := by
    rw [hM1, nodeAt_write h.canonical, Function.update_self]
    exact h.next
  rw [OptNode.settledAs, ← hM1] at h1
  refine (relaxOneByte_relaxes hat h1 st hprice).bind fun ⟨E, nextIsChar⟩ M2 ⟨henv, h2⟩ => .get_bind ?_
  have henv : EnvOk (w.stepped r' (w.bound + litBound)) s.session.enc.numFastBytes E :=
    ⟨henv.cur, henv.position, henv.reps, henv.ps, henv.full, henv.avail⟩
  dsimp only
  split
  · exact .pure ⟨r', h2⟩
  · next hfull =>
    have hrest {e1 : Nat} {M3 : Memory OptNode} (h3 : Forward (w.stepped r' (w.bound + litBound)) e1 M3) :
        (relaxReps E s.session.props.pb s.session.enc.numFastBytes 4 0 2 e1 >>= fun x =>
          relaxMatches E s.session.props.pb s.session.enc.numFastBytes x.1 newLen x.2 pairs).Relaxes s M3 fun e' M' =>
            ∃ r, Forward (w.stepped r (w.bound + litBound)) e' M' :=
      (relaxReps_relaxes hat henv h3 rfl 2 (Nat.le_refl 2)).bind fun x M4 ⟨hx, _, h4⟩ =>
        (relaxMatches_relaxes hat henv h4 hpairs hx (by omega)).mono fun _ _ h5 => ⟨r', h5.2⟩
    split
    · exact (relaxLiteralRep0_relaxes hat henv h2 (by omega)).bind fun _ _ ⟨_, h3⟩ => hrest h3
    · exact hrest h2

end Sys2Proof.Machine
end

section
/-!
PROOFS. The match finder under the parse (`44_optimal_parse.md` R326, R327): a report of the current position tells legal matches,
and skipped positions are indexed.
-/

namespace Sys2Proof.Machine

/-- The match finder of an open session answers: its index is one of the positions before (R250). -/
structure Searchable (s : State) : Prop where
  constants : constantsOk s.session
  index : Indexes s.inp s.session.enc.mfKind s.session.mf
  canonical : s.session.wf = true

/-- The state after a move of the match finder. -/
structure Advanced (s : State) (n : Nat) (m : MatchFinder) : Prop where
  search : Searchable (s.withMf m)
  position : m.mfAbs = s.session.mf.mfAbs + n

/-- The pairs GetMatches reports are runs inside the dictionary. -/
theorem Searchable.getMatches {g : Ground} {s : State} (h : Searchable s) (hinp : s.inp = g.inp)
    (hdict : s.session.props.dictSize = g.dict) {i : Nat} (hpos : s.session.mf.mfAbs = g.start + i)
    (hle : g.start + i ≤ g.inp.length) :
    ∃ pairs m, Machine.getMatches s = .ok pairs (s.withMf m) ∧ Advanced s 1 m ∧
      PairsOk g s.session.enc.numFastBytes i pairs := by
  obtain ⟨hcbs, -, hmax, -⟩ := h.constants
  obtain ⟨pairs, t, hrun, hanswers⟩ := h.index.getMatches_answers
  obtain ⟨-, hframe⟩ := skipOne_of_getMatches h.constants h.canonical hrun
  have hindex := hanswers.index
  have hposition := hanswers.position
  have hgood := hanswers.good
  have hconstants := searchFrame_constants hframe h.constants
  obtain ⟨m, rfl⟩ : ∃ m, t = s.withMf m := ⟨_, hanswers.frame⟩
  refine ⟨pairs, m, hrun, ⟨⟨hconstants, hindex, hframe.2 h.canonical⟩, hposition⟩, fun p hp => ?_,
    hanswers.sorted.imp And.left⟩
  obtain ⟨hleast, hmost, hbefore, hnear, hequal⟩ := hgood p hp
  unfold MatchFinder.limit at hmost
  rw [hinp, hpos] at hmost
  rw [hpos] at hbefore hequal
  rw [hinp] at hequal
  refine ⟨hleast, by omega, by omega, hbefore, by omega, fun j hj => ?_⟩
  rw [← getElem?_eq_of_key (by omega) (by omega) hequal hj]
  congr 1
  omega

/-- A run that goes on. -/
theorem RepeatsAt.append {inp : List Byte} {n d len more : Nat} (h : RepeatsAt inp n d len)
    (h' : RepeatsAt inp (n + len) d more) : RepeatsAt inp n d (len + more) := by
  refine ⟨h.before, by have := h'.inside; omega, fun j hj => ?_⟩
  rcases Nat.lt_or_ge j len with hlt | hge
  · exact h.equal j hlt
  · have := h'.equal (j - len) (by omega)
    rwa [show n + len + (j - len) = n + j by omega] at this

/-- The report of the current position (R326). -/
theorem Searchable.readMatchDistances {g : Ground} {s : State} (h : Searchable s) (hinp : s.inp = g.inp)
    (hdict : s.session.props.dictSize = g.dict) {i : Nat} (hpos : s.session.mf.mfAbs = g.start + i)
    (hle : g.start + i ≤ g.inp.length) :
    ∃ lenMain pairs m, Machine.readMatchDistances s = .ok (lenMain, pairs) (s.oneAhead m) ∧ Advanced s 1 m ∧
      Report g s.session.enc.numFastBytes i lenMain pairs := by
  obtain ⟨-, -, -, -, hfast, -⟩ := h.constants
  obtain ⟨pairs, m, hrun, hadvanced, hpairs⟩ := h.getMatches hinp hdict hpos hle
  rw [Machine.readMatchDistances, act_bind_of_ok hrun, act_bind_of_ok (act_get _)]
  rcases List.eq_nil_or_concat' pairs with rfl | ⟨init, p, rfl⟩
  · exact ⟨0, [], m, rfl, hadvanced, hpairs, fun _ => rfl, nofun⟩
  · obtain ⟨hleast, hmost, -, hp⟩ := hpairs.all p (by simp)
    rw [List.getLast?_concat]
    dsimp only
    by_cases hlong : p.len = (s.withMf m).session.enc.numFastBytes
    · rw [if_pos hlong]
      have hlong : p.len = s.session.enc.numFastBytes := hlong
      have hinside := hp.inside
      have hbefore := hp.before
      have hmpos := hadvanced.position
      obtain ⟨more, hmore, hlim, hrep⟩ := getMatchLen_reads (s := s.withMf m) (idx := (p.len : Int) - 1) (d := p.dist.toNat)
        (limit := Config.kMatchMaxLen - p.len) (a := g.start + i + p.len)
        (show (m.mfAbs : Int) + _ = _ by omega) (by omega) (show _ ≤ s.inp.length by rw [hinp]; omega)
      rw [show (s.withMf m).inp = g.inp from hinp] at hrep
      refine ⟨p.len + more, init ++ [p], m, ?_, hadvanced, hpairs, by simp, fun q hq => ?_⟩
      · rw [act_bind_of_ok hmore]
        rfl
      · obtain rfl : p = q := by simpa using hq
        have hmaxLen : Config.kMatchMaxLen = 273 := rfl
        exact ⟨by omega, by omega, hp.append hrep, by omega⟩
    · rw [if_neg hlong]
      refine ⟨p.len, init ++ [p], m, rfl, hadvanced, hpairs, by simp, fun q hq => ?_⟩
      obtain rfl : p = q := by simpa using hq
      exact ⟨Nat.le_refl _, by omega, hp, fun _ => rfl⟩

/-- Skipped positions are indexed. -/
theorem Searchable.skip {s : State} (h : Searchable s) (n : Nat) :
    ∃ m, Machine.skip n s = .ok () (s.withMf m) ∧ Advanced s n m := by
  induction n generalizing s with
  | zero => exact ⟨s.session.mf, rfl, h, rfl⟩
  | succ n ih =>
    obtain ⟨pairs, t, hrun, hanswers⟩ := h.index.getMatches_answers
    obtain ⟨hskip, hframe⟩ := skipOne_of_getMatches h.constants h.canonical hrun
    have hindex := hanswers.index
    have hposition := hanswers.position
    have hconstants := searchFrame_constants hframe h.constants
    obtain ⟨m, rfl⟩ : ∃ m, t = s.withMf m := ⟨_, hanswers.frame⟩
    obtain ⟨m', hrun', hadvanced⟩ := ih (s := s.withMf m) ⟨hconstants, hindex, hframe.2 h.canonical⟩
    have hposition' : m'.mfAbs = m.mfAbs + n := hadvanced.position
    have hposition : m.mfAbs = s.session.mf.mfAbs + 1 := hposition
    exact ⟨m', (act_bind_of_ok hskip _).trans hrun', hadvanced.search, by omega⟩

/-- `s` with the match finder `n` positions further. -/
def State.ahead (s : State) (n : Nat) (m : MatchFinder) : State :=
  { s with session := { s.session with
    mf := m, enc := { s.session.enc with additionalOffset := s.session.enc.additionalOffset + n } } }

theorem Searchable.movePosEnc {s : State} (h : Searchable s) (n : Nat) :
    ∃ m, Machine.movePosEnc n s = .ok () (s.ahead n m) ∧ Advanced s n m := by
  obtain ⟨m, hrun, hadvanced⟩ := h.skip n
  exact ⟨m, act_bind_of_ok hrun _, hadvanced⟩

/-- The match finder does not read the offset and the parse. -/
theorem Searchable.congr {s t : State} (h : Searchable s) (hconst : constantsOk s.session → constantsOk t.session)
    (hinp : t.inp = s.inp) (hkind : t.session.enc.mfKind = s.session.enc.mfKind) (hmf : t.session.mf = s.session.mf)
    (hcells : t.session.cells.wf = true) (hnodes : t.session.opt.nodes.wf optZero = true) : Searchable t := by
  obtain ⟨-, hson, hhash⟩ := (Session.wf_iff _).mp h.canonical
  refine ⟨hconst h.constants, hinp ▸ hkind ▸ hmf ▸ h.index, (Session.wf_iff _).mpr ⟨?_, hmf ▸ hson, hmf ▸ hhash⟩⟩
  rw [hcells, hnodes]
  rfl

theorem Searchable.cells {s : State} (h : Searchable s) : s.session.cells.wf = true := by
  obtain ⟨hboth, -, -⟩ := (Session.wf_iff _).mp h.canonical
  exact (Bool.and_eq_true_iff.mp hboth).1

theorem Searchable.nodes {s : State} (h : Searchable s) : s.session.opt.nodes.wf optZero = true := by
  obtain ⟨hboth, -, -⟩ := (Session.wf_iff _).mp h.canonical
  exact (Bool.and_eq_true_iff.mp hboth).2

end Sys2Proof.Machine
end

section
/-!
PROOFS. The forward loop (`44_optimal_parse.md` R334): it ends in Backward, at the last node or where a match of `numFastBytes` is
found, and so gives a legal step and leaves a legal chain to be served.
-/

namespace Sys2Proof.Machine

/-! ### What a parse leaves -/

/-- A chain of legal steps is pending from node `i` with the reps `r`, and where a long match ended it, its report. -/
structure Pending (g : Ground) (fast : Nat) (o : OptStore) (mfAbs i offset : Nat) (r : Reps) : Prop where
  route : Route g (nodeAt o.nodes) o.optimumEndIndex i r
  cursor : o.optimumCurrentIndex = i
  small : o.optimumEndIndex < 4096
  position : mfAbs = g.start + o.optimumEndIndex + o.longestMatchWasFound.toNat
  offset : i + offset = o.optimumEndIndex + o.longestMatchWasFound.toNat
  inside : mfAbs ≤ g.inp.length
  report : o.longestMatchWasFound = true → Report g fast o.optimumEndIndex o.longestMatchLength o.savedPairs

/-- The step `x` is a legal choice at node `i` with the reps `r`; a legal chain is pending after it. -/
structure Chosen (g : Ground) (fast i : Nat) (r : Reps) (x : Nat × Word) (t : State) : Prop where
  legal : g.Legal i r ⟨x.1, x.2⟩
  offset : x.1 ≤ t.session.enc.additionalOffset
  pending : ∃ g' i', g'.inp = g.inp ∧ g'.dict = g.dict ∧ g'.start + i' = g.start + (i + x.1) ∧
    Pending g' fast t.session.opt t.session.mf.mfAbs i' (t.session.enc.additionalOffset - x.1) (repsAfter x.2 r)
  search : Searchable t

/-- The action chooses a step at node `i` with the reps `r`. -/
def Act.Chooses (a : Act (Nat × Word)) (g : Ground) (i : Nat) (r : Reps) (s : State) : Prop :=
  ∃ x t, a s = .ok x t ∧ Chosen g s.session.enc.numFastBytes i r x t

theorem Act.Chooses.of_ok {α : Type} {a : Act α} {f : α → Act (Nat × Word)} {g : Ground} {i : Nat} {r : Reps} {s t : State}
    {x : α} (ha : a s = .ok x t) (hfast : t.session.enc.numFastBytes = s.session.enc.numFastBytes)
    (hf : (f x).Chooses g i r t) : (a >>= f).Chooses g i r s := by
  obtain ⟨y, u, hy, hchosen⟩ := hf
  exact ⟨y, u, (act_bind_of_ok ha f).trans hy, hfast ▸ hchosen⟩

/-- The parse stands at node `i`, and the match finder just after it. -/
structure Parsing (g : Ground) (i : Nat) (s : State) : Prop extends At g i s where
  dictSize : s.session.props.dictSize = g.dict
  offset : s.session.enc.additionalOffset = i + 1
  notFound : s.session.opt.longestMatchWasFound = false
  search : Searchable s

theorem Searchable.withNodes {s : State} (h : Searchable s) {M : Memory OptNode} (hM : M.wf optZero = true) :
    Searchable (s.withNodes M) := h.congr id rfl rfl rfl h.cells hM

theorem Searchable.withOpt {s : State} (h : Searchable s) {o : OptStore} (ho : o.nodes.wf optZero = true) :
    Searchable { s with session := { s.session with opt := o } } := h.congr id rfl rfl rfl h.cells ho

/-- The report of the next node moves the parse to it. -/
theorem Parsing.next {g : Ground} {i : Nat} {s : State} (h : Parsing g i s) {M : Memory OptNode}
    (hM : M.wf optZero = true) (hle : g.start + (i + 1) ≤ g.inp.length) :
    ∃ lenMain pairs m, readMatchDistances (s.withNodes M) = .ok (lenMain, pairs) ((s.oneAhead m).withNodes M) ∧
      Parsing g (i + 1) (s.oneAhead m) ∧ Report g s.session.enc.numFastBytes (i + 1) lenMain pairs := by
  obtain ⟨lenMain, pairs, m, hrun, hadvanced, hreport⟩ :=
    (h.search.withNodes hM).readMatchDistances (g := g) (i := i + 1) h.inp h.dictSize h.position hle
  have hpos : m.mfAbs = s.session.mf.mfAbs + 1 := hadvanced.position
  refine ⟨lenMain, pairs, m, hrun, ⟨⟨h.inp, ?_, h.dict, ?_⟩, h.dictSize, congrArg (· + 1) h.offset, h.notFound,
    hadvanced.search.congr id rfl rfl rfl h.search.cells h.search.nodes⟩, hreport⟩
  · show m.mfAbs = _
    rw [hpos, h.position]
    rfl
  · exact ⟨h.prices.cells, h.prices.lc, h.prices.pb, h.prices.fast, h.prices.shaped⟩

/-! ### The end of the loop -/

/-- Backward from the next node. -/
theorem Forward.backward_chooses {w : Work} {e : Nat} {M : Memory OptNode} {s : State} (h : Forward w e M)
    (hb : w.bound < Config.kInfinityPrice) (hsearch : Searchable s)
    (hpos : s.session.mf.mfAbs = w.g.start + (w.cur + 1) + s.session.opt.longestMatchWasFound.toNat)
    (hoff : s.session.enc.additionalOffset = w.cur + 1 + s.session.opt.longestMatchWasFound.toNat)
    (hin : s.session.mf.mfAbs ≤ w.g.inp.length)
    (hreport : s.session.opt.longestMatchWasFound = true → Report w.g s.session.enc.numFastBytes (w.cur + 1)
      s.session.opt.longestMatchLength s.session.opt.savedPairs) :
    (backward (w.cur + 1)).Chooses w.g 0 w.first (s.withNodes M) := by
  have hmost := h.most
  have hleft := h.left
  obtain ⟨r, hlinked⟩ := h.linked (w.cur + 1) (Nat.lt_succ_self _) h.left (h.next.trans_lt hb)
  obtain ⟨M', hrun, hM', hroute⟩ := backward_routes (s := s) h.canonical h.settled hlinked (by omega)
  rw [h.origin] at hroute
  refine ⟨_, _, hrun, ?_⟩
  rcases hroute with _ | ⟨hlt, hlegal, hrest⟩
  have hle := hrest.le
  rw [Nat.sub_zero] at hlegal
  refine ⟨hlegal, ?_, ⟨w.g, (nodeAt M' 0).posPrev, rfl, rfl, by rw [Nat.zero_add], hrest, rfl,
    by show w.cur + 1 < 4096; omega, hpos, ?_, hin, hreport⟩, hsearch.withOpt hM'⟩
  · show _ ≤ s.session.enc.additionalOffset
    omega
  · show _ + (s.session.enc.additionalOffset - _) = w.cur + 1 + s.session.opt.longestMatchWasFound.toNat
    omega

/-! ### The loop -/

theorem bound_lt_infinity {c b : Nat} (hc : c ≤ 4095) (hb : b ≤ (c + 1) * litBound) : b < Config.kInfinityPrice := by
  have hlit : litBound = 5184 := rfl
  have hinf : Config.kInfinityPrice = 268435455 := rfl
  rw [hlit] at hb
  omega

theorem forwardLoop_chooses {w : Work} {e fuel : Nat} {M : Memory OptNode} {s : State} (h : Forward w e M)
    (hat : Parsing w.g w.cur s) (hb : w.bound ≤ (w.cur + 1) * litBound) (hfuel : 4096 ≤ fuel + w.cur) :
    (forwardLoop fuel w.cur (w.g.start + w.cur) e).Chooses w.g 0 w.first (s.withNodes M) := by
  induction fuel generalizing w e M s with
  | zero =>
    have := h.most
    have := h.left
    omega
  | succ fuel ih =>
    have hmost := h.most
    have hleft := h.left
    have hinside := h.inside
    have hfinite := bound_lt_infinity (by omega) hb
    rw [forwardLoop]
    dsimp only
    by_cases hlast : w.cur + 1 = e
    · rw [if_pos hlast]
      have hnot : s.session.opt.longestMatchWasFound = false := hat.notFound
      refine h.backward_chooses hfinite hat.search ?_ ?_ ?_ (by rw [hnot]; nofun)
      · rw [hnot, hat.position]
        rfl
      · rw [hnot, hat.offset]
        rfl
      · rw [hat.position]
        omega
    · rw [if_neg hlast]
      obtain ⟨lenMain, pairs, m, hrun, hnext, hreport⟩ := hat.next h.canonical (by omega)
      refine .of_ok hrun rfl (.of_ok (act_get _) rfl ?_)
      by_cases hlong : ((s.oneAhead m).withNodes M).session.enc.numFastBytes ≤ lenMain
      · dsimp only
        rw [if_pos hlong]
        set u : State := { s.oneAhead m with session := { (s.oneAhead m).session with opt := { s.session.opt with
          savedPairs := pairs, longestMatchLength := lenMain, longestMatchWasFound := true } } }
        refine .of_ok (t := u.withNodes M) rfl rfl (h.backward_chooses hfinite ?_ ?_ ?_ ?_ fun _ => hreport)
        · exact hnext.search.congr id rfl rfl rfl hnext.search.cells hnext.search.nodes
        · exact hnext.position
        · exact hnext.offset
        · exact hnext.position.le.trans (by omega)
      · dsimp only
        rw [if_neg hlong]
        obtain ⟨e', M', hwork, r, h'⟩ := processNode_relaxes hnext.toAt h (by omega) hfinite
          (hreport.upTo (Nat.not_le.mp hlong))
        refine .of_ok hwork rfl (ih h' hnext ?_ ?_)
        · show w.bound + litBound ≤ (w.cur + 1 + 1) * litBound
          rw [Nat.succ_mul]
          omega
        · show 4096 ≤ fuel + (w.cur + 1)
          omega

end Sys2Proof.Machine
end

section
/-!
PROOFS. The seed of the optimal parse (`44_optimal_parse.md` R332, R333): the steps from node 0 are legal, and the forward loop goes
on from them.
-/

namespace Sys2Proof.Machine

/-- The work at the begin of a parse. -/
def Work.begin (g : Ground) (r : Reps) : Work := ⟨g, r, 0, r, litBound⟩

section Seed

variable {g : Ground} {r : Reps} {e : Nat} {M : Memory OptNode} {s : State} (hat : At g 0 s)

/-- Relaxing a node to a legal step from node 0. -/
theorem Forward.relax_seed (h : Forward (.begin g r) e M) {len : Nat} (he : len ≤ e) (price : Nat) {back : Word}
    (hlegal : g.Legal 0 r ⟨len, back⟩) :
    (Machine.relax len price ⟨0, back, false⟩).Relaxes s M fun _ M' => Forward (.begin g r) e M' := by
  have hstep := h.relax_step (s := s) (len := len) (by rw [Work.begin, Nat.zero_add]; exact he) price hlegal
  rw [show (Work.begin g r).cur = 0 from rfl, Nat.zero_add] at hstep
  exact hstep.mono fun _ _ => And.left

include hat

/-- The lengths of one rep (R333). -/
theorem seedRepLens_relaxes (h : Forward (.begin g r) e M) {i l ps : Nat} (hi : i < 4) (hl : l ≤ e)
    (hfast : l ≤ s.session.enc.numFastBytes) (hrep : RepeatsAt g.inp g.start (r.get i).toNat l) (hps : ps < 16) (price : Nat) :
    (seedRepLens i price ps l).Relaxes s M fun _ M' => Forward (.begin g r) e M' := by
  induction l generalizing M with
  | zero => exact .pure h
  | succ l ih =>
    have hmax := hat.prices.fast
    unfold seedRepLens
    split
    · exact .pure h
    · next htwo =>
      refine (repLenTablePrice_priced (hat.prices.withNodes M) (by omega) hfast hps).then fun c _ => ?_
      have hlegal := Ground.legal_rep (g := g) (i := 0) (r := r) hi (by omega) (by omega) hrep
      exact (h.relax_seed hl _ hlegal).bind fun _ M1 h1 => ih h1 (by omega) (by omega) (hrep.mono (Nat.le_succ l))

/-- The rep lengths (R333). -/
theorem seedReps_relaxes (h : Forward (.begin g r) e M) (st : CoderState) {ps : Nat} (hps : ps < 16) (price i : Nat)
    (ls : List Nat) (hls : ∀ j l, ls[j]? = some l → i + j < 4 ∧ l ≤ e ∧ l ≤ s.session.enc.numFastBytes ∧
      RepeatsAt g.inp g.start (r.get (i + j)).toNat l) :
    (seedReps price ps st i ls).Relaxes s M fun _ M' => Forward (.begin g r) e M' := by
  induction ls generalizing i M with
  | nil => exact .pure h
  | cons l ls ih =>
    obtain ⟨hi, hl, hfast, hrep⟩ := hls 0 l rfl
    have hrest (j l' : Nat) (hj : ls[j]? = some l') := hls (j + 1) l' hj
    simp only [← Nat.add_assoc, Nat.add_right_comm i _ 1] at hrest
    unfold seedReps
    split
    · refine (pureRepPrice_priced (hat.prices.withNodes M) i st hps).then fun c _ => ?_
      exact (seedRepLens_relaxes hat h hi hl hfast hrep hps _).bind fun _ M1 h1 => ih h1 (i + 1) hrest
    · exact ih h (i + 1) hrest

/-- The lengths of the pairs from `len` on (R333). -/
theorem seedMatchLens_relaxes (h : Forward (.begin g r) e M) (price : Nat) {ps fuel len : Nat} (hps : ps < 16)
    {pairs : List MatchPair} (hpairs : PairsOk g s.session.enc.numFastBytes 0 pairs) (hlen : 2 ≤ len) (hfuel : 1 ≤ fuel)
    (hbounds : ∀ p ∈ pairs, len ≤ p.len ∧ p.len ≤ e ∧ p.len + 1 < len + fuel) :
    (seedMatchLens price ps fuel len pairs).Relaxes s M fun _ M' => Forward (.begin g r) e M' := by
  induction fuel generalizing len M pairs with
  | zero => omega
  | succ fuel ih =>
    cases pairs with
    | nil => exact .pure h
    | cons p pairs =>
      obtain ⟨hp, hrest⟩ := List.forall_mem_cons.mp hpairs.all
      obtain ⟨hbelow, hsorted⟩ := List.pairwise_cons.mp hpairs.sorted
      obtain ⟨hle, hend, hlt⟩ := hbounds p List.mem_cons_self
      have hmost := hp.most
      have hfast := hat.prices.fast
      have hdict := hat.dict
      have hnear := hp.near
      have hlegal := Ground.legal_match (g := g) (i := 0) (r := r) hnear hdict hlen (by omega) (hp.run.mono hle)
      rw [seedMatchLens]
      refine (posLenPrice_priced (hat.prices.withNodes M) (by omega) hlen
        (show len ≤ s.session.enc.numFastBytes by omega) hps).then fun c _ => ?_
      refine (h.relax_seed (by omega) _ hlegal).bind fun _ M1 h1 => ?_
      split
      · next heq =>
        refine ih h1 ⟨hrest, hsorted⟩ (by omega) (by omega) fun q hq => ?_
        have := hbelow q hq
        have := hbounds q (List.mem_cons_of_mem p hq)
        omega
      · next hne =>
        refine ih h1 hpairs (by omega) (by omega) fun q hq => ?_
        have hq' := hbounds q hq
        rcases List.mem_cons.mp hq with rfl | hq
        · omega
        · have := hbelow q hq
          omega

/-- The match lengths (R333). -/
theorem seedMatches_relaxes (h : Forward (.begin g r) e M) (price : Nat) {ps len lenMain : Nat} (hps : ps < 16)
    {pairs : List MatchPair} (hpairs : UpTo g s.session.enc.numFastBytes 0 lenMain pairs) (hmain : lenMain ≤ e)
    (hlen : 2 ≤ len) : (seedMatches price ps len lenMain pairs).Relaxes s M fun _ M' => Forward (.begin g r) e M' := by
  have hmost := h.most
  unfold seedMatches
  split
  · next hle =>
    obtain ⟨p, hp, hplen⟩ : ∃ p ∈ pairs, p.len = lenMain := hpairs.reached.resolve_left (by omega)
    split
    · next hnil => exact absurd hnil (pairsFrom_ne_nil hp (by omega))
    · next hcons =>
      have hsub {q : MatchPair} (hq : q ∈ pairsFrom len pairs) : q ∈ pairs := mem_of_mem_pairsFrom hq
      refine seedMatchLens_relaxes hat h _ hps ⟨fun q hq => hpairs.all q (hsub hq),
        hpairs.sorted.sublist (List.dropWhile_sublist _)⟩ hlen (by decide) fun q hq => ?_
      have hq1 := le_of_mem_pairsFrom hpairs.sorted hq
      have hq2 := hpairs.most q (hsub hq)
      have hnum : Config.kNumOpts = 4096 := rfl
      omega
  · exact .pure h

end Seed

/-! ### The step to node 1 -/

/-- Node 1 holds a legal step of one byte at a finite price. -/
structure SeedOk (g : Ground) (r : Reps) (M : Memory OptNode) : Prop where
  canonical : M.wf optZero = true
  single : (nodeAt M 1).prev1IsChar = false
  legal : g.Legal 0 r ⟨1, (nodeAt M 1).backPrev⟩
  price : (nodeAt M 1).price ≤ litBound

/-- The nodes of the seed with nothing but node 1 reached. -/
theorem SeedOk.forward {g : Ground} {r : Reps} {M M' : Memory OptNode} (h : SeedOk g r M) (hr : g.RepsOk 0 r) {e : Nat}
    (htwo : 2 ≤ e) (hmost : e ≤ 4095) (hin : g.start + e ≤ g.inp.length) (hM' : M'.wf optZero = true)
    (hzero : (nodeAt M' 0).backs = r) (hone : nodeAt M' 1 = { nodeAt M 1 with posPrev := 0 })
    (hrest : ∀ j, 2 ≤ j → j ≤ e → (nodeAt M' j).price = Config.kInfinityPrice) : Forward (.begin g r) e M' := by
  refine ⟨hM', hzero, fun i hi hic => absurd hic (Nat.not_le.mpr hi), fun i hi hie hlt => ?_, fun j hj => ?_, hzero,
    show 0 < e by omega, ?_, hmost, hin⟩
  · have hpos : 0 < i := hi
    by_cases hi1 : i = 1
    · subst hi1
      refine ⟨_, .of_step (by rw [hone]; exact h.single) (by rw [hone]; exact Nat.zero_le _) (by rw [hone]; exact hpos) ?_⟩
      rw [hone]
      show g.Legal 0 (nodeAt M' 0).backs ⟨1, (nodeAt M 1).backPrev⟩
      rw [hzero]
      exact h.legal
    · rw [hrest i (by omega) hie] at hlt
      exact absurd hlt (Nat.lt_irrefl _)
  · obtain rfl : j = 0 := Nat.le_zero.mp hj
    rw [hzero]
    exact hr
  · show (nodeAt M' 1).price ≤ litBound
    rw [hone]
    exact h.price

/-! ### Choosing -/

section Chooses

variable {α : Type} {a : Act α} {f : α → Act (Nat × Word)} {g : Ground} {i : Nat} {r : Reps} {s : State} {M : Memory OptNode}

theorem Act.Relaxes.chooses {Q : α → Memory OptNode → Prop} (ha : a.Relaxes s M Q)
    (hf : ∀ x M', Q x M' → (f x).Chooses g i r (s.withNodes M')) : (a >>= f).Chooses g i r (s.withNodes M) := by
  obtain ⟨x, M', hx, hQ⟩ := ha
  exact .of_ok hx rfl (hf x M' hQ)

theorem Act.Reads.chooses {P : α → Prop} (ha : a.Reads s P) (hf : ∀ x, P x → (f x).Chooses g i r s) :
    (a >>= f).Chooses g i r s := by
  obtain ⟨x, hx, hP⟩ := ha
  exact .of_ok hx rfl (hf x hP)

/-- A step chosen with no chain after it. -/
theorem Act.Chooses.direct {len : Nat} {back : Word} (hlegal : g.Legal i r ⟨len, back⟩) (hsearch : Searchable s)
    (hend : s.session.opt.optimumEndIndex = 0) (hcur : s.session.opt.optimumCurrentIndex = 0)
    (hnot : s.session.opt.longestMatchWasFound = false) (hpos : s.session.mf.mfAbs = g.start + (i + len))
    (hoff : s.session.enc.additionalOffset = len) : Act.Chooses (Pure.pure (len, back)) g i r s := by
  refine ⟨_, s, rfl, hlegal, hoff.ge, ⟨⟨g.inp, g.dict, g.start + (i + len)⟩, 0, rfl, rfl, rfl, ?_, hcur, ?_, ?_, ?_,
    hpos.le.trans hlegal.inside, ?_⟩,
    hsearch⟩
  · rw [hend]
    exact .done _
  · rw [hend]
    decide
  · rw [hend, hnot, hpos]
    rfl
  · rw [hend, hnot, hoff, Nat.sub_self]
    rfl
  · rw [hnot]
    nofun

end Chooses

/-! ### Seed and search -/

/-- No chain is pending (R329). -/
structure Idle (s : State) : Prop where
  endIndex : s.session.opt.optimumEndIndex = 0
  cursor : s.session.opt.optimumCurrentIndex = 0

/-- Seeding after the step to node 1, and the search. -/
def seedTail (position lenMain : Nat) (pairs : List MatchPair) (l0 l1 l2 l3 repMax : Nat) (ss : Session) (ps matchPrice
    repMatchPrice : Nat) : Act (Nat × Word) := do
  let lenEnd := if repMax ≤ lenMain then lenMain else repMax
  if lenEnd < 2 then
    let n ← readNode 1
    pure (1, n.backPrev)
  else
    modifyNode 1 fun n => { n with posPrev := 0 }
    modifyNode 0 fun n => { n with backs := ss.reps }
    infinitePrices 2 (lenEnd - 1)
    seedReps repMatchPrice ps ss.state 0 [l0, l1, l2, l3]
    let isM ← cellPrice (isRepCell ss.state) false
    seedMatches (matchPrice + isM) ps (if 2 ≤ l0 then l0 + 1 else 2) lenMain pairs
    forwardLoop Config.kNumOpts 0 position lenEnd

/-- The rep lengths of a parse: runs at the four reps, of less than `fast` bytes, the longest of which is `repMax`. -/
structure RepLens (g : Ground) (r : Reps) (fast : Nat) (ls : List Nat) (repMax : Nat) : Prop where
  runs : ∀ j l, ls[j]? = some l → j < 4 ∧ l ≤ repMax ∧ RepeatsAt g.inp g.start (r.get j).toNat l
  short : repMax < fast
  inside : g.start + repMax ≤ g.inp.length

theorem seedTail_chooses {g : Ground} {s : State} {M : Memory OptNode} (hat : Parsing g 0 s) (hidle : Idle s)
    (hr : g.RepsOk 0 s.session.reps) (hseed : SeedOk g s.session.reps M) {l0 l1 l2 l3 repMax lenMain : Nat}
    {pairs : List MatchPair} (hreps : RepLens g s.session.reps s.session.enc.numFastBytes [l0, l1, l2, l3] repMax)
    (hmain : Report g s.session.enc.numFastBytes 0 lenMain pairs) (hshort : lenMain < s.session.enc.numFastBytes)
    (hinMain : g.start + lenMain ≤ g.inp.length) {ps : Nat} (hps : ps < 16) (matchPrice repMatchPrice : Nat) :
    (seedTail g.start lenMain pairs l0 l1 l2 l3 repMax s.session ps matchPrice repMatchPrice).Chooses g 0 s.session.reps
      (s.withNodes M) := by
  have hfast := hat.prices.fast
  have hrepMax := hreps.short
  have hinReps := hreps.inside
  unfold seedTail
  set e := if repMax ≤ lenMain then lenMain else repMax with he
  have hmainLe : lenMain ≤ e := by rw [he]; split <;> omega
  have hrepLe : repMax ≤ e := by rw [he]; split <;> omega
  have hlt : e < s.session.enc.numFastBytes := by rw [he]; split <;> assumption
  have hin : g.start + e ≤ g.inp.length := by rw [he]; split <;> assumption
  clear_value e
  dsimp only
  split
  · refine (readNode_reads (by decide)).chooses fun n hn => ?_
    subst hn
    exact .direct hseed.legal (hat.search.withNodes hseed.canonical) hidle.endIndex hidle.cursor hat.notFound hat.position
      hat.offset
  · next htwo =>
    refine (modifyNode_relaxes _ (by decide)).chooses fun _ M1 hM1 => ?_
    refine (modifyNode_relaxes _ (by decide)).chooses fun _ M2 hM2 => ?_
    have hwf1 : M1.wf optZero = true := hM1 ▸ memory_write_wf hseed.canonical
    have hwf2 : M2.wf optZero = true := hM2 ▸ memory_write_wf hwf1
    refine (infinitePrices_relaxes hwf2 (by omega)).chooses fun _ M3 ⟨hwf3, hnodes⟩ => ?_
    have hforward : Forward (.begin g s.session.reps) e M3 := by
      refine hseed.forward hr (by omega) (by omega) hin hwf3 ?_ ?_ fun j hj hje => ?_
      · rw [hnodes, if_neg (by omega), hM2, nodeAt_write hwf1, Function.update_self]
      · rw [hnodes, if_neg (by omega), hM2, nodeAt_write hwf1, Function.update_of_ne (by decide), hM1,
          nodeAt_write hseed.canonical, Function.update_self]
      · rw [hnodes, if_pos (by omega)]
    refine (seedReps_relaxes hat.toAt hforward _ hps _ 0 _ fun j l hj => ?_).chooses fun _ M4 h4 => ?_
    · obtain ⟨hj4, hl, hrep⟩ := hreps.runs j l hj
      exact ⟨by omega, by omega, by omega, by rwa [Nat.zero_add]⟩
    refine (isRep_costs (hat.prices.withNodes M4) _ false).reads.chooses fun isM _ => ?_
    refine (seedMatches_relaxes hat.toAt h4 _ hps (hmain.upTo hshort) hmainLe (by split <;> omega)).chooses fun _ M5 h5 => ?_
    exact forwardLoop_chooses h5 hat (by show litBound ≤ (0 + 1) * litBound; omega) (Nat.le_refl _)

/-- Seeding and the search (R332 to R334). -/
theorem seedAndSearch_chooses {g : Ground} {s : State} (hat : Parsing g 0 s) (hidle : Idle s)
    (hr : g.RepsOk 0 s.session.reps) {l0 l1 l2 l3 repMax lenMain : Nat}
    {pairs : List MatchPair} (hreps : RepLens g s.session.reps s.session.enc.numFastBytes [l0, l1, l2, l3] repMax)
    (hmain : Report g s.session.enc.numFastBytes 0 lenMain pairs) (hshort : lenMain < s.session.enc.numFastBytes)
    (hinMain : g.start + lenMain ≤ g.inp.length) (hlt : g.start < g.inp.length) {curByte matchByte : Byte}
    (hcur : g.inp[g.start]? = some curByte)
    (hmatch : g.inp[g.start - (s.session.reps.r0.toNat + 1)]? = some matchByte) :
    (seedAndSearch g.start lenMain pairs l0 l1 l2 l3 repMax curByte matchByte).Chooses g 0 s.session.reps s := by
  have hps := posState_lt hat.prices.pb g.start
  have hback : s.session.reps.r0.toNat < g.start := (hr 0).1
  have hprices (M : Memory OptNode) := hat.prices.withNodes M
  have htail {M : Memory OptNode} (hseed : SeedOk g s.session.reps M) (matchPrice repMatchPrice : Nat) :=
    seedTail_chooses hat hidle hr hseed hreps hmain hshort hinMain hps matchPrice repMatchPrice
  change Act.Chooses _ g 0 s.session.reps (s.withNodes s.session.opt.nodes)
  refine .of_ok (act_get _) rfl ?_
  refine (modifyNode_relaxes _ (by decide)).chooses fun _ M1 hM1 => ?_
  have hwf1 : M1.wf optZero = true := hM1 ▸ memory_write_wf hat.search.nodes
  refine (isMatch_costs (hprices M1) _ hps false).reads.chooses fun isLit hisLit => ?_
  refine (literalPrice_costs (hprices M1) _ _ _ matchByte curByte).reads.chooses fun lit hlit => ?_
  refine (modifyNode_relaxes _ (by decide)).chooses fun _ M2 hM2 => ?_
  have hwf2 : M2.wf optZero = true := hM2 ▸ memory_write_wf hwf1
  have hnode : nodeAt M2 1 =
      { nodeAt M1 1 with price := isLit + lit, backPrev := backChar, prev1IsChar := false } := by
    rw [hM2, nodeAt_write hwf1, Function.update_self]
  have hseed : SeedOk g s.session.reps M2 := by
    refine ⟨hwf2, by rw [hnode], by rw [hnode]; exact Ground.legal_lit hlt, ?_⟩
    rw [hnode]
    show isLit + lit ≤ 576 + 576 * 8
    omega
  refine (isMatch_costs (hprices M2) _ hps true).reads.chooses fun matchPrice _ => ?_
  refine (isRep_costs (hprices M2) _ true).reads.chooses fun isR _ => ?_
  dsimp only
  split
  · next hequal =>
    refine (repLen1Price_priced (hprices M2) _ hps).chooses fun c _ => ?_
    refine (readNode_reads (by decide)).chooses fun n hn => ?_
    subst hn
    split
    · next hwon =>
      have hrun := writeNode_withNodes (s := s) (M := M2) (i := 1)
        { nodeAt M2 1 with price := matchPrice + isR + c, backPrev := 0, prev1IsChar := false } (by decide)
      refine .of_ok hrun rfl (htail ⟨memory_write_wf hwf2, ?_, ?_, ?_⟩ _ _)
      all_goals rw [nodeAt_write hwf2, Function.update_self]
      · refine Ground.legal_shortRep ⟨hback, hlt, fun j hj => ?_⟩
        obtain rfl : j = 0 := by omega
        exact hcur.trans (hequal ▸ hmatch.symm)
      · exact hwon.le.trans hseed.price
    · exact htail hseed _ _
  · exact htail hseed _ _

end Sys2Proof.Machine
end

section
/-!
PROOFS. GetOptimum (`44_optimal_parse.md` R329 to R331, R343): from a session whose match finder indexes the positions before, it
chooses a legal step, and leaves a legal chain to be served.
-/

namespace Sys2Proof.Machine

/-! ### The greedy exits (R330, R331) -/

/-- A run is the report of its longest match. -/
theorem Report.longest {g : Ground} {fast i lenMain : Nat} {pairs : List MatchPair} (h : Report g fast i lenMain pairs)
    (hpos : 1 ≤ lenMain) : ∃ p, pairs.getLast? = some p ∧ PairOk g fast i p ∧
      2 ≤ lenMain ∧ lenMain ≤ 273 ∧ RepeatsAt g.inp (g.start + i) p.dist.toNat lenMain := by
  rcases List.eq_nil_or_concat' pairs with rfl | ⟨init, p, rfl⟩
  · have := h.none rfl
    omega
  · have hp := h.all p (by simp)
    have hleast := hp.least
    obtain ⟨hle, hmax, hrep, -⟩ := h.last p List.getLast?_concat
    exact ⟨p, List.getLast?_concat, hp, by omega, hmax, hrep⟩

theorem Report.inside {g : Ground} {fast i lenMain : Nat} {pairs : List MatchPair} (h : Report g fast i lenMain pairs)
    (hle : g.start + i ≤ g.inp.length) : g.start + i + lenMain ≤ g.inp.length := by
  rcases Nat.eq_zero_or_pos lenMain with rfl | hpos
  · exact hle
  · obtain ⟨p, -, -, -, -, hrep⟩ := h.longest hpos
    exact hrep.inside

/-- The least index of the largest rep length (R330). -/
theorem maxIndex_spec (a b c d : Nat) :
    maxIndex a b c d < 4 ∧ [a, b, c, d][maxIndex a b c d]? = some (max (max a b) (max c d)) := by
  unfold maxIndex
  dsimp only
  split
  · next h => exact ⟨by decide, by rw [← h]; rfl⟩
  · split
    · next h => exact ⟨by decide, by rw [← h]; rfl⟩
    · split
      · next h => exact ⟨by decide, by rw [← h]; rfl⟩
      · next ha hb hc =>
        have hd : d = max (max a b) (max c d) := by omega
        exact ⟨by decide, by rw [← hd]; rfl⟩

/-- The match finder moves on to the end of a greedy step. -/
theorem Parsing.greedy {g : Ground} {s : State} (hat : Parsing g 0 s) (hidle : Idle s) {r : Reps} {len : Nat} {back : Word}
    (hlegal : g.Legal 0 r ⟨len, back⟩) :
    (movePosEnc (len - 1) >>= fun _ => pure (len, back)).Chooses g 0 r s := by
  have hlen : 1 ≤ len := hlegal.pos
  obtain ⟨m, hrun, hadvanced⟩ := hat.search.movePosEnc (len - 1)
  have hmpos : m.mfAbs = s.session.mf.mfAbs + (len - 1) := hadvanced.position
  have hpos := hat.position
  have hoff := hat.offset
  refine .of_ok hrun rfl (.direct hlegal (hadvanced.search.congr id rfl rfl rfl hat.search.cells hat.search.nodes)
    hidle.endIndex hidle.cursor hat.notFound ?_ ?_)
  · show m.mfAbs = _
    omega
  · show s.session.enc.additionalOffset + (len - 1) = len
    omega

/-! ### A parse starts -/

/-- A session at the start of a parse (R330). -/
structure Start (g : Ground) (s : State) : Prop where
  inp : s.inp = g.inp
  dictSize : s.session.props.dictSize = g.dict
  dict : g.dict ≤ 2 ^ 30
  prices : Priceable s
  search : Searchable s
  inside : g.start < g.inp.length
  reps : g.RepsOk 0 s.session.reps
  position : s.session.mf.mfAbs = g.start + s.session.opt.longestMatchWasFound.toNat
  offset : s.session.enc.additionalOffset = s.session.opt.longestMatchWasFound.toNat
  report : s.session.opt.longestMatchWasFound = true →
    Report g s.session.enc.numFastBytes 0 s.session.opt.longestMatchLength s.session.opt.savedPairs

/-- The report of node 0, saved or read now (R330). -/
theorem Start.currentReport {g : Ground} {s : State} (h : Start g s) (hidle : Idle s) :
    ∃ lenMain pairs t, Machine.currentReport s = .ok (lenMain, pairs) t ∧ Parsing g 0 t ∧ Idle t ∧
      t.session.reps = s.session.reps ∧ t.session.enc.numFastBytes = s.session.enc.numFastBytes ∧
      Report g s.session.enc.numFastBytes 0 lenMain pairs := by
  rw [Machine.currentReport, act_bind_of_ok (act_get s)]
  cases hfound : s.session.opt.longestMatchWasFound with
  | true =>
    have hpos := h.position
    have hoff := h.offset
    rw [hfound] at hpos hoff
    exact ⟨_, _, { s with session := { s.session with opt := { s.session.opt with longestMatchWasFound := false } } }, rfl,
      ⟨⟨h.inp, hpos, h.dict, ⟨h.prices.cells, h.prices.lc, h.prices.pb, h.prices.fast, h.prices.shaped⟩⟩, h.dictSize, hoff,
        rfl, h.search.withOpt h.search.nodes⟩, ⟨hidle.endIndex, hidle.cursor⟩, rfl, rfl, h.report hfound⟩
  | false =>
    have hpos := h.position
    have hoff := h.offset
    rw [hfound] at hpos hoff
    obtain ⟨lenMain, pairs, m, hrun, hadvanced, hreport⟩ := h.search.readMatchDistances (g := g) (i := 0) h.inp h.dictSize hpos
      h.inside.le
    have hmpos : m.mfAbs = s.session.mf.mfAbs + 1 := hadvanced.position
    refine ⟨lenMain, pairs, s.oneAhead m, hrun, ⟨⟨h.inp, ?_, h.dict,
      ⟨h.prices.cells, h.prices.lc, h.prices.pb, h.prices.fast, h.prices.shaped⟩⟩, h.dictSize, congrArg (· + 1) hoff, hfound,
      hadvanced.search.congr id rfl rfl rfl h.search.cells h.search.nodes⟩, ⟨hidle.endIndex, hidle.cursor⟩, rfl, rfl, hreport⟩
    show m.mfAbs = _
    rw [hmpos, hpos]
    rfl

/-- GetOptimum with no chain pending (R330, R331). -/
theorem startOptimum_chooses {g : Ground} {s : State} (h : Start g s) (hidle : Idle s) :
    (startOptimum g.start).Chooses g 0 s.session.reps s := by
  obtain ⟨lenMain, pairs, t, hrun, hat, hidle, hreps, hfast, hreport⟩ := h.currentReport hidle
  have hr : g.RepsOk 0 t.session.reps := hreps ▸ h.reps
  rw [← hfast] at hreport
  refine .of_ok hrun hfast ?_
  rw [← hreps]
  have hin := h.inside
  have hback (k : Nat) : (t.session.reps.get k).toNat < g.start := (hr k).1
  have hmax : Config.kMatchMaxLen = 273 := rfl
  have hinMain := hreport.inside hin.le
  have hlit : g.Legal 0 t.session.reps ⟨1, backChar⟩ := Ground.legal_lit hin
  have hone : Act.Chooses (pure (1, backChar)) g 0 t.session.reps t :=
    .direct hlit hat.search hidle.endIndex hidle.cursor hat.notFound hat.position hat.offset
  refine .of_ok (x := t.inp.length - t.session.mf.mfAbs) rfl rfl ?_
  dsimp only
  split
  · exact hone
  refine .of_ok (act_get t) rfl ?_
  have hrun (k : Nat) : (getMatchLen (-1) (t.session.reps.get k).toNat Config.kMatchMaxLen).Reads t fun n =>
      n ≤ 273 ∧ RepeatsAt g.inp g.start (t.session.reps.get k).toNat n :=
    hat.run (i := 0) (by omega) (hback k) hin.le t.session.opt.nodes
  refine (hrun 0).chooses fun l0 ⟨hl0, hrep0⟩ => (hrun 1).chooses fun l1 ⟨hl1, hrep1⟩ =>
    (hrun 2).chooses fun l2 ⟨hl2, hrep2⟩ => (hrun 3).chooses fun l3 ⟨hl3, hrep3⟩ => ?_
  obtain ⟨hindex, hbest⟩ := maxIndex_spec l0 l1 l2 l3
  set repMax := max (max l0 l1) (max l2 l3)
  have hruns : ∀ j l, [l0, l1, l2, l3][j]? = some l →
      j < 4 ∧ l ≤ repMax ∧ l ≤ 273 ∧ RepeatsAt g.inp g.start (t.session.reps.get j).toNat l := by
    intro j l hj
    rcases j with _ | _ | _ | _ | j
    · obtain rfl : l0 = l := by simpa using hj
      exact ⟨by decide, by omega, hl0, hrep0⟩
    · obtain rfl : l1 = l := by simpa using hj
      exact ⟨by decide, by omega, hl1, hrep1⟩
    · obtain rfl : l2 = l := by simpa using hj
      exact ⟨by decide, by omega, hl2, hrep2⟩
    · obtain rfl : l3 = l := by simpa using hj
      exact ⟨by decide, by omega, hl3, hrep3⟩
    · simp at hj
  obtain ⟨-, -, hmaxLen, hbestRun⟩ := hruns _ _ hbest
  have hfive := hat.prices.fast
  split
  · next hlong =>
    exact hat.greedy hidle (Ground.legal_rep hindex (by omega) hmaxLen hbestRun)
  split
  · next hlong =>
    obtain ⟨p, hp, hpok, htwo, hmaxMain, hrep⟩ := hreport.longest (by omega)
    rw [hp]
    exact hat.greedy hidle (Ground.legal_match hpok.near hat.dict htwo hmaxMain hrep)
  have hzero := hback 0
  have hbyte := hat.byte (a := g.start) (idx := -1) (by omega) hin t.session.opt.nodes
  refine hbyte.chooses fun curByte hcur => ?_
  have hmatch := hat.byte (a := g.start - (t.session.reps.r0.toNat + 1)) (idx := -(t.session.reps.r0.toNat : Int) - 2)
    (by have : t.session.reps.r0.toNat < g.start := hzero; omega) (by omega) t.session.opt.nodes
  refine hmatch.chooses fun matchByte hmatch => ?_
  split
  · exact hone
  · exact seedAndSearch_chooses hat hidle hr
      ⟨fun j l hj => ⟨(hruns j l hj).1, (hruns j l hj).2.1, (hruns j l hj).2.2.2⟩, by omega, hbestRun.inside⟩ hreport (by omega)
      hinMain hin hcur hmatch

/-! ### GetOptimum -/

/-- A session before GetOptimum: its parse stands at node `i`. -/
structure Parse (g : Ground) (i : Nat) (s : State) : Prop where
  inp : s.inp = g.inp
  dictSize : s.session.props.dictSize = g.dict
  dict : g.dict ≤ 2 ^ 30
  prices : Priceable s
  search : Searchable s
  inside : g.start + i < g.inp.length
  reps : g.RepsOk i s.session.reps
  pending : Pending g s.session.enc.numFastBytes s.session.opt s.session.mf.mfAbs i s.session.enc.additionalOffset
    s.session.reps

/-- The pending chain gives its next step (R329). -/
theorem Pending.serve {g : Ground} {i : Nat} {s : State}
    (h : Pending g s.session.enc.numFastBytes s.session.opt s.session.mf.mfAbs i s.session.enc.additionalOffset s.session.reps)
    (hsearch : Searchable s) (hne : s.session.opt.optimumEndIndex ≠ i) (position : Nat) :
    (getOptimum position).Chooses g i s.session.reps s := by
  have hle := h.route.le
  have hsmall := h.small
  have hoff := h.offset
  have hread : readNode i s = .ok (nodeAt s.session.opt.nodes i) s := readNode_ok (by omega)
  rw [getOptimum]
  refine .of_ok (act_get s) rfl ?_
  dsimp only
  rw [h.cursor, if_pos hne]
  refine .of_ok hread rfl ⟨_, { s with session := { s.session with opt := { s.session.opt with
    optimumCurrentIndex := (nodeAt s.session.opt.nodes i).posPrev } } }, rfl, ?_⟩
  rcases h.route with _ | ⟨hlt, hlegal, hrest⟩
  · exact absurd rfl hne
  have hle' := hrest.le
  refine ⟨hlegal, ?_, ⟨g, _, rfl, rfl, ?_, hrest, rfl, h.small, h.position, ?_, h.inside, h.report⟩, hsearch.withOpt hsearch.nodes⟩
  · show _ ≤ s.session.enc.additionalOffset
    dsimp only
    omega
  · dsimp only
    omega
  · show _ + (s.session.enc.additionalOffset - _) = s.session.opt.optimumEndIndex + s.session.opt.longestMatchWasFound.toNat
    dsimp only
    omega

/-- The ground of a parse that starts at node `i`. -/
def Ground.from (g : Ground) (i : Nat) : Ground := ⟨g.inp, g.dict, g.start + i⟩

theorem Report.from {g : Ground} {fast i len : Nat} {pairs : List MatchPair} (h : Report g fast i len pairs) :
    Report (g.from i) fast 0 len pairs :=
  ⟨⟨fun p hp => ⟨(h.all p hp).least, (h.all p hp).most, (h.all p hp).near, (h.all p hp).run⟩, h.sorted⟩, h.none, h.last⟩

theorem Chosen.of_from {g : Ground} {fast i : Nat} {r : Reps} {x : Nat × Word} {t : State}
    (h : Chosen (g.from i) fast 0 r x t) : Chosen g fast i r x t := by
  obtain ⟨g', i', hinp, hdict, hstart, hpending⟩ := h.pending
  refine ⟨h.legal, h.offset, ⟨g', i', hinp, hdict, ?_, hpending⟩, h.search⟩
  rw [hstart, Ground.from, Nat.zero_add, Nat.add_assoc]

/-- Where the chain is served, the parse starts again at node `i`. -/
theorem Parse.start {g : Ground} {i : Nat} {s : State} (h : Parse g i s) (hend : s.session.opt.optimumEndIndex = i) :
    Start (g.from i) { s with session := { s.session with
      opt := { s.session.opt with optimumCurrentIndex := 0, optimumEndIndex := 0 } } } := by
  have hpos := h.pending.position
  have hoff := h.pending.offset
  have hreport := h.pending.report
  rw [hend] at hpos hoff hreport
  exact ⟨h.inp, h.dictSize, h.dict, ⟨h.prices.cells, h.prices.lc, h.prices.pb, h.prices.fast, h.prices.shaped⟩,
    h.search.withOpt h.search.nodes, h.inside, h.reps, hpos, Nat.add_left_cancel hoff, fun hfound => (hreport hfound).from⟩

/-- GetOptimum answers with a legal step (R343 item 1). -/
theorem getOptimum_chooses {g : Ground} {i : Nat} {s : State} (h : Parse g i s) :
    (getOptimum (g.start + i)).Chooses g i s.session.reps s := by
  by_cases hne : s.session.opt.optimumEndIndex = i
  · obtain ⟨x, t, hrun, hchosen⟩ := startOptimum_chooses (h.start hne) ⟨rfl, rfl⟩
    refine ⟨x, t, ?_, hchosen.of_from⟩
    rw [getOptimum, act_bind_of_ok (act_get s), h.pending.cursor, if_neg (not_not.mpr hne)]
    exact hrun
  · exact h.pending.serve h.search hne _

end Sys2Proof.Machine
end

section
/-!
PROOFS. The price refreshes of the post-step (`44_optimal_parse.md` R322, R323; `45_encoder_driver.md` R377): they answer, and the
tables keep their shape.
-/

namespace Sys2Proof.Machine

theorem dictLogFrom_le (dictSize fuel n : Nat) : dictLogFrom dictSize fuel n ≤ n + fuel := by
  induction fuel generalizing n with
  | zero => exact Nat.le_refl n
  | succ fuel ih =>
    unfold dictLogFrom
    split
    · omega
    · have := ih (n + 1)
      omega

theorem distTableSize_le (dictSize : Nat) : distTableSize dictSize ≤ 60 := by
  have := dictLogFrom_le dictSize 30 0
  unfold distTableSize
  omega

section Refresh

variable {s : State} (hs : s.session.cells.reachable)
include hs

/-- A row of the pos-slot prices. -/
theorem posSlotRow_answers {size lps : Nat} (hsize : size ≤ 64) (hlps : lps < 4) :
    ∃ row, posSlotRow size lps s = .ok row s ∧ row.length = 64 := by
  obtain ⟨row, hrow, hlen, -⟩ := tabulate_answers (f := posSlotPrice lps) (P := fun _ => True) (i := 0) (n := size)
    fun j _ => (posSlotPrice_costs hs hlps j).imp fun _ h => ⟨h, trivial⟩
  refine ⟨row ++ List.replicate (64 - size) 0, act_bind_of_ok hrow _, ?_⟩
  rw [List.length_append, List.length_replicate, hlen]
  omega

omit hs in
/-- A row of the prices of short distances. -/
theorem distancesRow_answers {rows : List (List Nat)} {temp : List Nat} (hrows : IsTable 4 64 rows)
    (htemp : temp.length = 128) {lps : Nat} (hlps : lps < 4) :
    ∃ row, (do
        let row ← elemAt rows lps
        tabulate (fun d => do
          let slotPrice ← elemAt row (posSlot d)
          let footer ← elemAt temp d
          pure (slotPrice + footer)) 0 128 : Act (List Nat)) s = .ok row s ∧ row.length = 128 := by
  obtain ⟨slots, hslots, hcols⟩ := hrows.row hlps s
  obtain ⟨row, hrow, hlen, -⟩ := tabulate_answers (s := s) (P := fun _ : Nat => True) (i := 0) (n := 128)
    (f := fun d => elemAt slots (posSlot d) >>= fun slotPrice => elemAt temp d >>= fun footer => pure (slotPrice + footer))
    fun d hd => by
      obtain ⟨a, ha⟩ := elemAt_answers (hcols ▸ posSlot_lt (show d < 2 ^ 32 by omega)) s
      obtain ⟨b, hb⟩ := elemAt_answers (show d < temp.length by omega) s
      exact ⟨_, (act_bind_of_ok ha _).trans (act_bind_of_ok hb _), trivial⟩
  exact ⟨row, (act_bind_of_ok hslots _).trans hrow, hlen⟩

theorem fillDistancesPrices_ok {n : Nat} (hshaped : s.session.prices.Shaped n) :
    ∃ p, fillDistancesPrices s = .ok () (s.withPrices p) ∧ p.Shaped n := by
  obtain ⟨temp, htemp, htempLen, -⟩ := tabulate_answers (s := s) (f := footerPrice) (P := fun _ => True) (i := 0) (n := 128)
    fun d hd => (footerPrice_costs hs (by omega)).imp fun _ h => ⟨h, trivial⟩
  have hsize := distTableSize_le s.session.props.dictSize
  obtain ⟨rows, hrows, hrowsLen, hcols⟩ := tabulate_answers (s := s) (f := posSlotRow (distTableSize s.session.props.dictSize))
    (P := fun row : List Nat => row.length = 64) (i := 0) (n := 4) fun lps hlps => posSlotRow_answers hs (by omega) (by omega)
  obtain ⟨dist, hdist, hdistLen, hdistCols⟩ := tabulate_answers (P := fun row : List Nat => row.length = 128) (i := 0) (n := 4)
    fun lps hlps => distancesRow_answers ⟨hrowsLen, hcols⟩ htempLen (lps := lps) (by omega)
  refine ⟨{ s.session.prices with posSlotPrices := rows, distancesPrices := dist, matchPriceCount := 0 }, ?_,
    ⟨hshaped.lenTableSize, hshaped.lenPrices, hshaped.repLenPrices, hshaped.lenCounter, hshaped.repLenCounter,
    ⟨hrowsLen, hcols⟩, ⟨hdistLen, hdistCols⟩, hshaped.alignPrices⟩⟩
  rw [fillDistancesPrices, act_bind_of_ok (act_get s), act_bind_of_ok htemp, act_bind_of_ok hrows, act_bind_of_ok hdist]
  exact mapPrices_ok _ s

theorem fillAlignPrices_ok {n : Nat} (hshaped : s.session.prices.Shaped n) :
    ∃ p, fillAlignPrices s = .ok () (s.withPrices p) ∧ p.Shaped n := by
  obtain ⟨row, hrow, hlen, -⟩ := tabulate_answers (s := s) (f := bitTreeReversePrice alignNode 4) (P := fun _ => True) (i := 0)
    (n := 16) fun j _ => by
      obtain ⟨c, hc, -⟩ := bitTreeReversePrice_costs hs (node := alignNode) (k := 4) (fun i hi => hi) j
      exact ⟨c, hc, trivial⟩
  refine ⟨{ s.session.prices with alignPrices := row, alignPriceCount := 0 }, ?_,
    ⟨hshaped.lenTableSize, hshaped.lenPrices, hshaped.repLenPrices, hshaped.lenCounter, hshaped.repLenCounter,
    hshaped.posSlotPrices, hshaped.distancesPrices, hlen⟩⟩
  rw [fillAlignPrices, act_bind_of_ok hrow]
  exact mapPrices_ok _ s

/-- The refreshes at the end of a chain. -/
theorem refreshPrices_ok {n : Nat} (hshaped : s.session.prices.Shaped n) :
    ∃ p, refreshPrices s = .ok () (s.withPrices p) ∧ p.Shaped n := by
  have halign {p : Prices} (hp : p.Shaped n) {q : Prices} : ∃ p', (if 16 ≤ q.alignPriceCount then fillAlignPrices else pure ())
      (s.withPrices p) = .ok () (s.withPrices p') ∧ p'.Shaped n := by
    split
    · exact fillAlignPrices_ok (s := s.withPrices p) hs hp
    · exact ⟨p, rfl, hp⟩
  rw [refreshPrices, act_bind_of_ok (act_get s)]
  split
  · obtain ⟨p, hfill, hp⟩ := fillDistancesPrices_ok hs hshaped
    obtain ⟨p', hfill', hp'⟩ := halign hp (q := s.session.prices)
    exact ⟨p', (act_bind_of_ok hfill _).trans hfill', hp'⟩
  · exact halign hshaped

end Refresh

end Sys2Proof.Machine
end

section
/-!
PROOFS. One symbol of an encode session (`44_optimal_parse.md` R343; `45_encoder_driver.md` R373 to R377): the step GetOptimum
chooses is coded as a legal symbol, which the assembler codes alike and a decoder executes to the same bytes of the input.
-/

namespace Sys2Proof.Machine

/-! ### The program of a session -/

/-- `prog` is a program of legal symbols: the assembler codes it to `c`, and a decoder with the dictionary executes it to the same
output. -/
structure Traced (p : Props) (prog : List Instr) (c : State) : Prop where
  runs : ∀ i ∈ prog, Runs i
  coded : codeProgram prog (codingState p.lc p.lp p.pb) = .ok () c
  executed : ∃ e, execute prog (executingState p.dictSize) = .ok () e ∧ SameOutput c e ∧
    e.session.dec = { dictCheck := max p.dictSize 1, outSize := none }

theorem traced_nil (p : Props) : Traced p [] (codingState p.lc p.lp p.pb) :=
  ⟨nofun, rfl, executingState p.dictSize, rfl, ⟨rfl, rfl, rfl⟩, rfl⟩

theorem execute_append (is js : List Instr) : execute (is ++ js) = (execute is >>= fun _ => execute js) := by
  rw [execute, List.foldlM_append]
  rfl

/-- A symbol at a distance inside the output and the dictionary goes on with the program. -/
theorem Traced.append {p : Props} {prog : List Instr} {c c1 : State} (h : Traced p prog c) {i : Instr} (hi : Runs i)
    (hcode : codeSymbol i c = .ok () c1) (hctx : SameContext c c1) (hreach : c.reaches i)
    (hdict : (∃ v, i = .lit v) ∨ i = .shortRep ∨ (symbolReps i c.session.reps).r0.toNat < p.dictSize) :
    Traced p (prog ++ [i]) (c1.ran i) := by
  obtain ⟨e, hexec, hsame, hdec⟩ := h.executed
  have hreach1 : c1.reaches i := hctx.output.reaches hreach
  have haccepts : e.Accepts i := by
    refine ⟨hsame.reaches hreach, hdict.imp_right (Or.imp_right fun hd => ?_), by rw [hdec]; nofun⟩
    rw [hsame.reps, hdec]
    exact lt_max_of_lt_left hd
  refine ⟨fun j hj => ?_, ?_, e.ran i, ?_, (hctx.output.symm.trans hsame).ran i, hdec⟩
  · rcases List.mem_append.mp hj with hj | hj
    · exact h.runs j hj
    · exact List.mem_singleton.mp hj ▸ hi
  · rw [codeProgram_append, act_bind_of_ok h.coded]
    exact codeProgram_single hcode (followSymbol_of_reaches hi hreach1)
  · rw [execute_append, act_bind_of_ok hexec, execute_cons, symbolAct_of_accepts hi haccepts]
    rfl

/-! ### The choice of the parse as a step of the session -/

section Step

variable {g : Ground} {i : Nat} {r : Reps} {len : Nat} {back : Word}

/-- The rep set after the symbol of a legal step. -/
theorem Ground.Legal.symbolReps (h : g.Legal i r ⟨len, back⟩) (hdict : g.dict ≤ 2 ^ 30) (v : Byte) (q : Reps) :
    Machine.symbolReps (stepSymbol v len back) q = repsAfter back q := by
  rcases h with ⟨rfl, rfl, -⟩ | ⟨hback, ⟨rfl, rfl⟩ | ⟨hlo, hhi⟩, -⟩ | ⟨hback, hd, hlo, hhi, -⟩
  · rw [stepSymbol_lit, repsAfter_lit]
    rfl
  · rw [stepSymbol_shortRep, repsAfter_zero]
    rfl
  · dsimp only at hback hlo
    have hne : back ≠ backChar := fun h => absurd (h ▸ hback) (by decide)
    rw [stepSymbol_rep v hlo hback, repSymbol_reps hback, repsAfter_of_ne hne, stepReps, if_pos hback]
  · dsimp only at hback hd hlo
    have hne : back ≠ backChar := fun h => by
      have hword : back.toNat = 2 ^ 32 - 1 := by rw [h]; rfl
      omega
    rw [stepSymbol_match v hlo hback, repsAfter_of_ne hne, stepReps, if_neg (Nat.not_lt.mpr hback)]
    rfl

/-- A legal step of the parse is a legal step at `nowPos`. -/
theorem Ground.Legal.stepLegal {s : State} (h : g.Legal i s.session.reps ⟨len, back⟩) (hinp : s.inp = g.inp)
    (hpos : g.start + i = s.session.enc.nowPos) : Machine.stepLegal s len back := by
  have hin := h.inside
  rw [← Nat.add_assoc, hpos, ← hinp] at hin
  refine ⟨hin, ?_⟩
  have hrepeat {d : Nat} (hrep : RepeatsAt g.inp (g.start + i) d len) : repeatsFrom s d len := by
    rw [hpos, ← hinp] at hrep
    exact ⟨hrep.before, hrep.equal⟩
  rcases h with ⟨hlen, hback, -⟩ | ⟨hback, hlen, hrep⟩ | ⟨hback, -, hlo, hhi, hrep⟩
  · exact .inl ⟨hlen, hback⟩
  · exact .inr (.inl ⟨hback, hlen, hrepeat hrep⟩)
  · exact .inr (.inr ⟨hback, hlo, hhi, hrepeat hrep⟩)

end Step

/-- A session that has coded its first byte, between two symbols: `prog` is its program, and the coder of the program stands at
`c`. -/
structure Going (p : Props) (inp : List Byte) (marker : Bool) (prog : List Instr) (s c : State) : Prop where
  props : s.session.props = p
  input : s.inp = inp
  marker : s.session.enc.writeEndMarker = marker
  traced : Traced p prog c
  first : prog.head? = inp.head?.map Instr.lit
  started : prog ≠ []
  same : SameCoder s c
  ok : CoderOk s
  prices : Priceable s
  search : Searchable s
  inCount : s.regs.inCount = u32 s.session.enc.nowPos
  parse : ∃ g i, g.inp = inp ∧ g.dict = p.dictSize ∧ g.start + i = s.session.enc.nowPos ∧
    g.RepsOk i s.session.reps ∧
    Pending g s.session.enc.numFastBytes s.session.opt s.session.mf.mfAbs i s.session.enc.additionalOffset s.session.reps

/-- What can code can be priced and conversely. -/
theorem Priceable.canCode {s : State} (h : Priceable s) (hok : CoderOk s) : CanCode s := by
  have hfast := h.fast
  have hshaped := h.shaped
  have hsize := hshaped.lenTableSize
  exact ⟨hok.coder, hok.reachable, hok.canonical, h.lc, h.pb, hshaped.lenCounter, hshaped.repLenCounter, by omega⟩

theorem Pending.position_eq {g : Ground} {fast mfAbs i offset n : Nat} {o : OptStore} {r : Reps}
    (h : Pending g fast o mfAbs i offset r) (hn : g.start + i = n) : mfAbs = n + offset := by
  have hpos := h.position
  have hoff := h.offset
  omega

/-- `s` after GetOptimum. -/
def State.parsed (s : State) (m : MatchFinder) (o : OptStore) (offset : Nat) : State :=
  { s with session := { s.session with mf := m, opt := o, enc := { s.session.enc with additionalOffset := offset } } }

theorem parseFrame_parsed {s t : State} (h : parseFrame s t) :
    t = s.parsed t.session.mf t.session.opt t.session.enc.additionalOffset := h

section Coded

variable {st : CoderState} {r : Reps} {b : Byte} {s t : State} (h : Coded st r b s t)
include h

theorem Coded.mf : t.session.mf = s.session.mf := by rw [h.frame]
theorem Coded.opt : t.session.opt = s.session.opt := by rw [h.frame]
theorem Coded.props : t.session.props = s.session.props := by rw [h.frame]
theorem Coded.inp : t.inp = s.inp := by rw [h.frame]
theorem Coded.reps : t.session.reps = r := by rw [h.frame]
theorem Coded.enc : t.session.enc = { s.session.enc with prevByte := b } := by rw [h.frame]

/-- The match finder answers after a symbol as before it. -/
theorem Coded.searchable (hs : Searchable s) (len : Nat) (last : Byte) : Searchable (t.stepped len last) := by
  have hkind : t.session.enc.mfKind = s.session.enc.mfKind := by rw [h.enc]
  have hfast : t.session.enc.numFastBytes = s.session.enc.numFastBytes := by rw [h.enc]
  refine hs.congr (fun hc => ?_) h.inp hkind h.mf h.ok.canonical (h.opt ▸ hs.nodes)
  show constantsOk { t.session with enc := _ }
  unfold constantsOk at hc ⊢
  dsimp only
  rwa [h.mf, h.props, hkind, hfast]

end Coded

/-- The tables keep their shape over a symbol. -/
theorem CodedAs.shaped {i : Instr} {b : Byte} {s c t u : State} (h : CodedAs i b s c t u) {n : Nat}
    (hs : s.session.prices.Shaped n) : t.session.prices.Shaped n := by
  obtain ⟨p, hkept, hp⟩ := h.tables
  obtain ⟨h1, h2, h3, h4, h5, h6, h7, h8⟩ := hkept.shaped n hs
  rw [hp]
  cases i <;> exact ⟨h1, h2, h3, h4, h5, h6, h7, h8⟩

/-- Prices after a symbol. -/
theorem CodedAs.priceable {i : Instr} {b : Byte} {s c t u : State} (h : CodedAs i b s c t u) (hs : Priceable s) (len : Nat)
    (last : Byte) : Priceable (t.stepped len last) := by
  have hprops := h.coded.props
  have hfast : t.session.enc.numFastBytes = s.session.enc.numFastBytes := by rw [h.coded.enc]
  refine ⟨h.coded.ok.reachable, ?_, ?_, ?_, ?_⟩
  · exact hprops ▸ hs.lc
  · exact hprops ▸ hs.pb
  · exact hfast ▸ hs.fast
  · exact hfast ▸ h.shaped hs.shaped

/-- One symbol: GetOptimum chooses it, and it is coded and stepped over. -/
theorem Going.symbol {p : Props} {inp : List Byte} {marker : Bool} {prog : List Instr} {s c : State}
    (h : Going p inp marker prog s c) (hlt : s.session.enc.nowPos < inp.length) :
    ∃ x t v i c', getOptimum s.session.enc.nowPos s = .ok x t ∧
      (encodeStep x.1 x.2 (posStateOf s.session.props.pb s.session.enc.nowPos) >>= fun _ =>
        postStep x.1 (x.1 = 1 && x.2 = backChar)) t = .ok () v ∧ Going p inp marker (prog ++ [i]) v c' ∧
      1 ≤ x.1 ∧ v.session.enc.nowPos = s.session.enc.nowPos + x.1 ∧
      v.session.enc.progressStart = s.session.enc.progressStart := by
  obtain ⟨g, i, hginp, hgdict, hgpos, hreps, hpending⟩ := h.parse
  obtain ⟨-, hdict, -⟩ := h.search.constants
  rw [h.props, ← hgdict] at hdict
  obtain ⟨⟨len, back⟩, t, hrun, hchosen⟩ := getOptimum_chooses (g := g) (i := i) ⟨h.input.trans hginp.symm,
    (congrArg Props.dictSize h.props).trans hgdict.symm, hdict, h.prices, h.search, by rw [hgpos, hginp]; exact hlt, hreps,
    hpending⟩
  rw [hgpos] at hrun
  have hlegal := hchosen.legal
  have hoff := hchosen.offset
  have hsearch := hchosen.search
  obtain ⟨g', i', hginp', hgdict', hgpos', hpending'⟩ := hchosen.pending
  obtain ⟨m, o, offset, rfl⟩ : ∃ m o offset, t = s.parsed m o offset :=
    ⟨_, _, _, parseFrame_parsed ((getOptimum_frame _).ok hrun)⟩
  set t := s.parsed m o offset
  have hprices : Priceable t := ⟨h.prices.cells, h.prices.lc, h.prices.pb, h.prices.fast, h.prices.shaped⟩
  have hsame : SameCoder t c := ⟨h.same.cells, h.same.coder, h.same.state, h.same.reps, h.same.lc, h.same.lp, h.same.pb,
    h.same.out, h.same.window, h.same.inInput, h.same.prevByte, h.same.matchByte⟩
  have hmpos : m.mfAbs = s.session.enc.nowPos + offset := by
    have hafter : m.mfAbs = s.session.enc.nowPos + len + (offset - len) :=
      hpending'.position_eq (by rw [hgpos', ← Nat.add_assoc, hgpos])
    have hoff : len ≤ offset := hoff
    omega
  have hv : t.inp[t.session.enc.nowPos]? = some (t.inp[s.session.enc.nowPos]'(by rw [← h.input] at hlt; exact hlt)) :=
    List.getElem?_eq_getElem _
  obtain ⟨v, c', hem⟩ := legal_emission (hprices.canCode (h.ok.congr rfl rfl)) hsame hmpos
    (hlegal.stepLegal (s := t) (h.input.trans hginp.symm) hgpos) hv
  set sym := stepSymbol _ len back
  have hsymReps := hlegal.symbolReps hdict (t.inp[s.session.enc.nowPos]'(by rw [← h.input] at hlt; exact hlt))
    s.session.reps
  have hrepsAfter := hlegal.repsOk hreps
  have hreach := hem.reaches
  have hsame' := hem.same
  obtain ⟨b, last, t1, c1, hcoded, hcode, -, rfl, rfl⟩ := hem.coded
  have henc := hcoded.coded.enc
  have hreps1 : t1.session.reps = repsAfter back s.session.reps := hcoded.coded.reps.trans hsymReps
  have hnow : t1.session.enc.nowPos + len = s.session.enc.nowPos + len := by rw [henc]; rfl
  refine ⟨(len, back), t, t1.stepped len last, sym, c1.ran sym, hrun, hem.run, ?_, hlegal.pos, hnow, by
    show t1.session.enc.progressStart = _; rw [henc]; rfl⟩
  refine ⟨hcoded.coded.props.trans h.props, hcoded.coded.inp.trans h.input, ?_, ?_, ?_, by simp, hsame',
    hcoded.coded.ok.congr rfl rfl, hcoded.priceable hprices len last, hcoded.coded.searchable hsearch len last, rfl, ?_⟩
  · show t1.session.enc.writeEndMarker = marker
    rw [henc]
    exact h.marker
  · refine h.traced.append hem.runs hcode hcoded.context ?_ (.inr (.inr ?_))
    · rw [State.reaches, h.same.reps, h.same.outPos]
      exact hreach
    · rw [h.same.reps, hsymReps, ← hgdict]
      exact (hrepsAfter 0).2
  · rw [← h.first]
    cases hprog : prog with
    | nil => exact absurd hprog h.started
    | cons j js => rfl
  · refine ⟨g', i', hginp'.trans hginp, hgdict'.trans hgdict, ?_, ?_, ?_⟩
    · exact hgpos'.trans (by rw [← Nat.add_assoc, hgpos]; exact hnow.symm)
    · show g'.RepsOk i' t1.session.reps
      rw [hreps1]
      intro k
      obtain ⟨h1, h2⟩ := hrepsAfter k
      exact ⟨by rw [hgpos']; exact h1, by rw [hgdict']; exact h2⟩
    · show Pending g' t1.session.enc.numFastBytes t1.session.opt t1.session.mf.mfAbs i'
        (t1.session.enc.additionalOffset - len) t1.session.reps
      rw [hreps1, hcoded.coded.opt, hcoded.coded.mf, henc]
      exact hpending'

end Sys2Proof.Machine
end

section
/-!
PROOFS. The main loop of a session (`45_encoder_driver.md` R373, R377 to R379): symbol by symbol it codes a program that executes to
the input, until it yields at the end of a chunk or flushes at the end of the input.
-/

namespace Sys2Proof.Machine

/-! ### The end of a session -/

/-- The stream in `t` is the assembled program `prog`, which gives the whole input. -/
structure Finished (p : Props) (inp : List Byte) (marker : Bool) (prog : List Instr) (c t : State) : Prop where
  traced : Traced p prog c
  first : prog.head? = inp.head?.map Instr.lit
  window : c.win = inp
  input : t.inp = inp
  inCount : t.regs.inCount = u32 inp.length
  out : some t.out = assemble p.lc p.lp p.pb (prog ++ endSymbols marker)
  kept : t.session.enc.writeEndMarker = marker

/-- At the end of the input the flush finishes the stream (R379). -/
theorem encFlush_finished {p : Props} {inp : List Byte} {marker : Bool} {prog : List Instr} {s c : State}
    (htraced : Traced p prog c) (hfirst : prog.head? = inp.head?.map Instr.lit) (hsame : SameCoder s c) (hcan : CanCode s)
    (hinp : s.inp = inp) (hcount : s.regs.inCount = u32 s.session.enc.nowPos) (hend : s.session.enc.nowPos = inp.length)
    (hmarker : s.session.enc.writeEndMarker = marker) : ∃ t, encFlush s = .ok () t ∧ Finished p inp marker prog c t := by
  obtain ⟨t, hrun, hout⟩ := encFlush_assembles hcan hsame (fun i hi => (htraced.runs i hi).symbol) htraced.coded
  obtain ⟨t', hrun', hflushed⟩ := encFlush_flushed hcan.coderOk hcan.pb
  cases hrun.symm.trans hrun'
  have hframe := hflushed.frame
  refine ⟨t, hrun, htraced, hfirst, ?_, ?_, ?_, hmarker ▸ hout, ?_⟩
  · rw [hsame.window, hinp, hend, List.take_length]
  · rw [hframe]
    exact hinp
  · rw [hframe, ← hend]
    exact hcount
  · rw [hframe]
    exact hmarker

/-- How a loop that started its chunk at `start` ends. -/
inductive LoopEnds (p : Props) (inp : List Byte) (marker : Bool) (start : Nat) : Progress → State → Prop where
  | more {prog : List Instr} {t c : State} (h : Going p inp marker prog t c) (hoff : t.session.enc.additionalOffset = 0)
      (hleft : t.session.enc.nowPos < inp.length) (hchunk : start + Config.progressChunk ≤ t.session.enc.nowPos)
      (hopen : t.session.enc.finished = false) : LoopEnds p inp marker start .more t
  | done {prog : List Instr} {t c : State} (h : Finished p inp marker prog c t) : LoopEnds p inp marker start .done t

section Loop

variable {p : Props} {inp : List Byte} {marker : Bool} {prog : List Instr} {s c : State}
  (h : Going p inp marker prog s c)
include h

theorem Going.mfAbs_eq : s.session.mf.mfAbs = s.session.enc.nowPos + s.session.enc.additionalOffset := by
  obtain ⟨g, i, -, -, hpos, -, hpending⟩ := h.parse
  exact hpending.position_eq hpos

theorem Going.mfAbs_le : s.session.mf.mfAbs ≤ inp.length := by
  obtain ⟨g, i, hinp, -, -, -, hpending⟩ := h.parse
  exact hinp ▸ hpending.inside

/-- The session after the price refreshes. -/
theorem Going.withPrices {q : Prices} (hq : q.Shaped s.session.enc.numFastBytes) : Going p inp marker prog (s.withPrices q) c :=
  ⟨h.props, h.input, h.marker, h.traced, h.first, h.started, ⟨h.same.cells, h.same.coder, h.same.state, h.same.reps, h.same.lc,
    h.same.lp, h.same.pb, h.same.out, h.same.window, h.same.inInput, h.same.prevByte, h.same.matchByte⟩, h.ok.congr rfl rfl,
    ⟨h.prices.cells, h.prices.lc, h.prices.pb, h.prices.fast, hq⟩,
    h.search.congr id rfl rfl rfl h.search.cells h.search.nodes, h.inCount, h.parse⟩

/-- The session with `finished` and the start of the chunk set. -/
theorem Going.withChunk (finished : Bool) (start : Nat) : Going p inp marker prog
    (s.mapSession fun ss => { ss with enc := { ss.enc with finished := finished, progressStart := start } }) c :=
  ⟨h.props, h.input, h.marker, h.traced, h.first, h.started, ⟨h.same.cells, h.same.coder, h.same.state, h.same.reps, h.same.lc,
    h.same.lp, h.same.pb, h.same.out, h.same.window, h.same.inInput, h.same.prevByte, h.same.matchByte⟩, h.ok.congr rfl rfl,
    ⟨h.prices.cells, h.prices.lc, h.prices.pb, h.prices.fast, h.prices.shaped⟩,
    h.search.congr id rfl rfl rfl h.search.cells h.search.nodes, h.inCount, h.parse⟩

/-- The flush at the end of the input. -/
theorem Going.flush (hend : s.session.enc.nowPos = inp.length) (start : Nat) :
    ∃ t, (encFlush >>= fun _ => pure Progress.done) s = .ok .done t ∧ LoopEnds p inp marker start .done t := by
  obtain ⟨t, hrun, hfinished⟩ := encFlush_finished h.traced h.first h.same (h.prices.canCode h.ok) h.input h.inCount hend
    h.marker
  exact ⟨t, act_bind_of_ok hrun _, .done hfinished⟩

end Loop

/-- What follows a symbol, where the loop ends whenever it goes on. -/
theorem Going.codeTail {p : Props} {inp : List Byte} {marker : Bool} {prog : List Instr} {s c : State} {fuel : Nat}
    (h : Going p inp marker prog s c) (hloop : ∀ {t : State}, Going p inp marker prog t c →
      t.session.enc.nowPos = s.session.enc.nowPos → t.session.enc.progressStart = s.session.enc.progressStart →
      t.session.enc.nowPos < inp.length → ∃ r u, codeLoop fuel t = .ok r u ∧
        LoopEnds p inp marker s.session.enc.progressStart r u) :
    ∃ r t, Machine.codeTail fuel s = .ok r t ∧ LoopEnds p inp marker s.session.enc.progressStart r t := by
  have hmf := h.mfAbs_eq
  have hin := h.mfAbs_le
  by_cases hoff : s.session.enc.additionalOffset = 0
  · obtain ⟨q, hrefresh, hq⟩ := refreshPrices_ok h.ok.reachable h.prices.shaped
    have hgoing := h.withPrices hq
    have hlen : (s.withPrices q).inp.length = inp.length := congrArg List.length h.input
    have hmf' : (s.withPrices q).session.mf.mfAbs = s.session.enc.nowPos := by
      show s.session.mf.mfAbs = _
      omega
    by_cases hend : s.session.enc.nowPos = inp.length
    · obtain ⟨t, hrun, hends⟩ := hgoing.flush hend s.session.enc.progressStart
      exact ⟨.done, t, (codeTail_drained hoff hrefresh (by omega)).trans hrun, hends⟩
    · have hleft : (s.withPrices q).inp.length - (s.withPrices q).session.mf.mfAbs ≠ 0 := by omega
      by_cases hchunk : Config.progressChunk ≤ s.session.enc.nowPos - s.session.enc.progressStart
      · have hpos : 1 ≤ Config.progressChunk := by decide
        exact ⟨.more, _, codeTail_yields hoff hrefresh hleft hchunk,
          .more (hgoing.withChunk false s.session.enc.progressStart) hoff
            (show s.session.enc.nowPos < inp.length by omega)
            (show s.session.enc.progressStart + Config.progressChunk ≤ s.session.enc.nowPos by omega) rfl⟩
      · rw [codeTail_goes_on hoff hrefresh hleft hchunk]
        exact hloop hgoing rfl rfl (show s.session.enc.nowPos < inp.length by omega)
  · rw [codeTail_inside hoff]
    exact hloop h rfl rfl (by omega)

/-- The main loop ends, with the input coded by a program. -/
theorem codeLoop_ends {p : Props} {inp : List Byte} {marker : Bool} {prog : List Instr} {s c : State} {fuel : Nat}
    (h : Going p inp marker prog s c) (hlt : s.session.enc.nowPos < inp.length)
    (hfuel : inp.length ≤ s.session.enc.nowPos + fuel) :
    ∃ r t, codeLoop fuel s = .ok r t ∧ LoopEnds p inp marker s.session.enc.progressStart r t := by
  induction fuel generalizing prog s c with
  | zero => omega
  | succ fuel ih =>
    obtain ⟨x, t, v, i, c', hopt, hemit, hgoing, hlen, hnow, hstart⟩ := h.symbol hlt
    have htail := hgoing.codeTail (fuel := fuel) fun {t} ht hpos hst hlt' => by
      obtain ⟨r, u, hrun, hends⟩ := ih ht hlt' (by omega)
      exact ⟨r, u, hrun, hst ▸ hends⟩
    obtain ⟨r, u, hrun, hends⟩ := htail
    obtain ⟨_, w, hstep, hpost⟩ := act_bind_ok hemit
    refine ⟨r, u, ?_, hstart ▸ hends⟩
    rw [codeLoop_succ, act_bind_of_ok hopt, if_neg (by omega), act_bind_of_ok hstep, act_bind_of_ok hpost, hrun]

end Sys2Proof.Machine
end

section
/-!
PROOFS. A whole encode session (`45_encoder_driver.md` R370 to R379): from ENC_OPEN on, every ENC_STEP codes a program that executes
to the input coded so far, and the last one finishes its stream.
-/

namespace Sys2Proof.Machine

/-! ### A session between two ENC_STEPs -/

/-- A session that has coded nothing. -/
structure Unbegun (p : Props) (inp : List Byte) (marker : Bool) (s : State) : Prop where
  props : s.session.props = p
  input : s.inp = inp
  marker : s.session.enc.writeEndMarker = marker
  same : SameCoder s (codingState p.lc p.lp p.pb)
  ok : CoderOk s
  prices : Priceable s
  search : Searchable s
  nowPos : s.session.enc.nowPos = 0
  offset : s.session.enc.additionalOffset = 0
  position : s.session.mf.mfAbs = 0
  idle : Idle s
  notFound : s.session.opt.longestMatchWasFound = false
  dict : 1 ≤ p.dictSize
  inCount : s.regs.inCount = u32 s.session.enc.nowPos

/-- An open session between two ENC_STEPs: it has coded nothing, or it stands at the end of a chain before the end of the input. -/
structure SessionOpen (p : Props) (inp : List Byte) (marker : Bool) (s : State) : Prop where
  notFinished : s.session.enc.finished = false
  coded : Unbegun p inp marker s ∨ ∃ prog c, Going p inp marker prog s c ∧ s.session.enc.additionalOffset = 0

theorem Unbegun.withChunk {p : Props} {inp : List Byte} {marker : Bool} {s : State} (h : Unbegun p inp marker s)
    (finished : Bool) (start : Nat) : Unbegun p inp marker
      (s.mapSession fun ss => { ss with enc := { ss.enc with finished := finished, progressStart := start } }) :=
  ⟨h.props, h.input, h.marker, ⟨h.same.cells, h.same.coder, h.same.state, h.same.reps, h.same.lc, h.same.lp, h.same.pb,
    h.same.out, h.same.window, h.same.inInput, h.same.prevByte, h.same.matchByte⟩, h.ok.congr rfl rfl,
    ⟨h.prices.cells, h.prices.lc, h.prices.pb, h.prices.fast, h.prices.shaped⟩,
    h.search.congr id rfl rfl rfl h.search.cells h.search.nodes, h.nowPos, h.offset, h.position, ⟨h.idle.endIndex, h.idle.cursor⟩,
    h.notFound, h.dict, h.inCount⟩

/-! ### The first byte (R372) -/

/-- No pair is reported at position 0. -/
theorem PairsOk.nil_at_start {g : Ground} {fast : Nat} {pairs : List MatchPair} (hstart : g.start = 0)
    (h : PairsOk g fast 0 pairs) : pairs = [] := by
  refine List.eq_nil_iff_forall_not_mem.mpr fun q hq => ?_
  have := (h.all q hq).run.before
  omega

/-- The first byte is coded as a LIT. -/
theorem Unbegun.firstByte {p : Props} {inp : List Byte} {marker : Bool} {s : State} (h : Unbegun p inp marker s)
    (hne : 0 < inp.length) : ∃ prog u c, codeFirstByte s = .ok () u ∧ Going p inp marker prog u c ∧
      u.session.enc.additionalOffset = 0 ∧ u.session.enc.nowPos = 1 ∧
      u.session.enc.progressStart = s.session.enc.progressStart := by
  have hinput := h.input
  obtain ⟨pairs, m, hget, hadvanced, hpairs⟩ := h.search.getMatches (g := ⟨inp, p.dictSize, 0⟩) (i := 0) h.input
    (congrArg Props.dictSize h.props) h.position (Nat.zero_le _)
  obtain rfl := hpairs.nil_at_start rfl
  have hm : m.mfAbs = 1 := hadvanced.position.trans (congrArg (· + 1) h.position)
  have hv : s.inp[0]? = some (inp[0]'hne) := by rw [h.input]; exact List.getElem?_eq_getElem hne
  obtain ⟨t, c1, hrun, hcode, hcoded, hsame⟩ := codeFirstByte_ok h.ok h.prices.lc h.prices.pb h.same hget hm h.offset h.nowPos hv
  have henc : t.session.enc = { (s.oneAhead m).session.enc with prevByte := inp[0]'hne } := hcoded.coded.enc
  have hreps : t.session.reps = Reps.zero := hcoded.coded.reps.trans h.same.reps.symm
  have hprices : Priceable (s.oneAhead m) := ⟨h.prices.cells, h.prices.lc, h.prices.pb, h.prices.fast, h.prices.shaped⟩
  have hsearch : Searchable (s.oneAhead m) := hadvanced.search.congr id rfl rfl rfl h.search.cells h.search.nodes
  have hnow : t.session.enc.nowPos + 1 = 1 := by
    rw [henc]
    exact congrArg (· + 1) h.nowPos
  have hoff : t.session.enc.additionalOffset - 1 = 0 := by
    rw [henc]
    show s.session.enc.additionalOffset + 1 - 1 = 0
    rw [h.offset]
  refine ⟨[] ++ [.lit (inp[0]'hne)], _, _, hrun, ⟨hcoded.coded.props.trans h.props, hcoded.coded.inp.trans h.input, ?_,
    (traced_nil p).append (runs_lit _) hcode hcoded.context (.inl ⟨_, rfl⟩) (.inl ⟨_, rfl⟩), ?_, by simp, hsame,
    hcoded.coded.ok.congr rfl rfl, hcoded.priceable hprices 1 _, hcoded.coded.searchable hsearch 1 _, rfl, ?_⟩, hoff, hnow, ?_⟩
  · show t.session.enc.writeEndMarker = marker
    rw [henc]
    exact h.marker
  · rw [List.head?_eq_getElem? (l := inp), List.getElem?_eq_getElem hne]
    rfl
  · refine ⟨⟨inp, p.dictSize, 1⟩, 0, rfl, rfl, hnow.symm, ?_, ?_⟩
    · show Ground.RepsOk _ 0 t.session.reps
      rw [hreps]
      have hdict := h.dict
      intro k
      have hzero : (Reps.zero.get k).toNat = 0 := by
        unfold Reps.get
        split <;> rfl
      rw [hzero]
      exact ⟨Nat.one_pos, hdict⟩
    · show Pending _ _ t.session.opt t.session.mf.mfAbs 0 (t.session.enc.additionalOffset - 1) _
      rw [hoff, hcoded.coded.opt, hcoded.coded.mf]
      show Pending _ _ s.session.opt m.mfAbs 0 0 _
      have hend := h.idle.endIndex
      have hnot := h.notFound
      refine ⟨?_, h.idle.cursor, ?_, ?_, ?_, ?_, ?_⟩
      · rw [hend]
        exact .done _
      · rw [hend]
        decide
      · rw [hend, hnot, hm]
        rfl
      · rw [hend, hnot]
        rfl
      · rw [hm]
        exact hne
      · rw [hnot]
        nofun
  · show t.session.enc.progressStart = _
    rw [henc]
    rfl

/-! ### A block -/

/-- A block after its first byte. -/
theorem Going.rest {p : Props} {inp : List Byte} {marker : Bool} {prog : List Instr} {s c : State}
    (h : Going p inp marker prog s c) (hoff : s.session.enc.additionalOffset = 0) {n : Nat} (hn : inp.length ≤ n) :
    ∃ r t, codeRest n s = .ok r t ∧ LoopEnds p inp marker s.session.enc.progressStart r t := by
  have hmf := h.mfAbs_eq
  have hin := h.mfAbs_le
  have hlen : s.inp.length = inp.length := congrArg List.length h.input
  by_cases hend : s.session.enc.nowPos = inp.length
  · obtain ⟨t, hrun, hends⟩ := h.flush hend s.session.enc.progressStart
    exact ⟨.done, t, (codeRest_drained (by omega)).trans hrun, hends⟩
  · rw [codeRest_left (by omega)]
    exact codeLoop_ends h (by omega) (by omega)

/-- A block of an open session. -/
theorem SessionOpen.block {p : Props} {inp : List Byte} {marker : Bool} {s : State} (h : SessionOpen p inp marker s) :
    ∃ r t, codeOneBlock s = .ok r t ∧ LoopEnds p inp marker s.session.enc.nowPos r t := by
  have hfin := h.notFinished
  rcases h.coded with hun | ⟨prog, c, hgoing, hoff⟩
  · have hbegun := hun.withChunk true s.session.enc.nowPos
    have hinput := hun.input
    have hposition := hun.position
    by_cases hempty : inp.length = 0
    · have hhead : ([] : List Instr).head? = inp.head?.map Instr.lit := by
        rw [List.length_eq_zero_iff.mp hempty]
        rfl
      obtain ⟨t, hrun, hfinished⟩ := encFlush_finished (traced_nil p) hhead hbegun.same
        (hbegun.prices.canCode hbegun.ok) hbegun.input hbegun.inCount (hbegun.nowPos.trans hempty.symm) hbegun.marker
      refine ⟨.done, t, ?_, .done hfinished⟩
      rw [codeOneBlock_empty hfin hun.nowPos (by rw [hinput]; omega)]
      exact act_bind_of_ok hrun _
    · obtain ⟨prog, u, c, hfirst, hgoing, hoff, hnow, hstart⟩ := hbegun.firstByte (Nat.pos_of_ne_zero hempty)
      obtain ⟨r, t, hrun, hends⟩ := hgoing.rest hoff (n := s.inp.length) (by rw [hinput])
      refine ⟨r, t, ?_, by rw [hstart] at hends; exact hends⟩
      rw [codeOneBlock_first hfin hun.nowPos (by rw [hinput]; omega)]
      exact (act_bind_of_ok hfirst _).trans hrun
  · have hne : s.session.enc.nowPos ≠ 0 := by
      obtain ⟨g, i, -, -, hpos, hreps, -⟩ := hgoing.parse
      have := (hreps 0).1
      omega
    obtain ⟨r, t, hrun, hends⟩ := (hgoing.withChunk true s.session.enc.nowPos).rest hoff (n := s.inp.length)
      (by rw [hgoing.input])
    exact ⟨r, t, (codeOneBlock_later hfin hne).trans hrun, hends⟩

/-! ### The session of ENC_OPEN (R370) -/

/-- The tables of a session that opens have their shape. -/
theorem opened_shaped (numFastBytes dictSize : Nat) {pb : Nat} (hpb : pb ≤ 4) :
    (Prices.opened numFastBytes dictSize pb).Shaped numFastBytes := by
  have hstates : 2 ^ pb ≤ 16 := Nat.pow_le_pow_right (n := 2) (by decide) hpb
  have hsize := distTableSize_le dictSize
  have hfilled {α : Type} (new old : α) : (filledTo (2 ^ pb) new old).length = 16 := by
    rw [filledTo, List.length_append, List.length_replicate, List.length_replicate]
    omega
  have hrow : (freshLenRow (numFastBytes - 1)).length = numFastBytes - 1 := by
    rw [freshLenRow, List.length_map, List.length_range]
  have htable : IsTable 16 (numFastBytes - 1)
      (filledTo (2 ^ pb) (freshLenRow (numFastBytes - 1)) (List.replicate (numFastBytes - 1) 0)) := by
    refine ⟨hfilled _ _, fun row hr => ?_⟩
    rcases List.mem_append.mp hr with hr | hr
    · rw [(List.mem_replicate.mp hr).2, hrow]
    · rw [(List.mem_replicate.mp hr).2, List.length_replicate]
  have hreplicate {n cols : Nat} {row : List Nat} (hr : row.length = cols) : IsTable n cols (List.replicate n row) :=
    ⟨List.length_replicate, fun r hr' => by rw [(List.mem_replicate.mp hr').2, hr]⟩
  refine ⟨rfl, htable, htable, hfilled _ _, hfilled _ _, hreplicate ?_, hreplicate ?_, List.length_replicate⟩
  · rw [freshSlotRow, List.length_append, List.length_map, List.length_range, List.length_replicate]
    omega
  · rw [List.length_map, List.length_range]

/-- A session that ENC_OPEN opens has coded nothing. -/
theorem encOpened_sessionOpen {r : State} (hcheck : configCheck r.regs.cfg r.regs.dict = none) :
    SessionOpen r.encOpened.session.props r.inp r.encOpened.session.enc.writeEndMarker r.encOpened := by
  obtain ⟨hlc, hlp, hpb, hfast, ⟨hdict, hdict'⟩, -⟩ := configCheck_none_iff.mp hcheck
  refine ⟨rfl, .inl ⟨rfl, rfl, rfl, ⟨rfl, rfl, rfl, rfl, rfl, rfl, rfl, rfl, rfl, Nat.zero_le _, rfl, nofun⟩,
    ⟨show RangeEnc.init.valid from ⟨by decide, by decide, by decide⟩, init_cells_reachable, rfl⟩, ⟨init_cells_reachable, hlc, hpb, hfast, opened_shaped _ _ hpb⟩, ⟨?_, ?_, rfl⟩, rfl,
    rfl, rfl, ⟨rfl, rfl⟩, rfl, by show 1 ≤ r.regs.dict.toNat; omega, rfl⟩⟩
  · refine ⟨rfl, hdict', rfl, hfast.1, hfast.2, ?_⟩
    show (cfgMfKind r.regs.cfg = .bt4 ∧ (MatchFinder.opened (cfgMfKind r.regs.cfg) _ _).minMatchCheck = 4 ∧
      (MatchFinder.opened (cfgMfKind r.regs.cfg) _ _).numHashDirectBytes = 0) ∨
      (cfgMfKind r.regs.cfg = .bt2 ∧ (MatchFinder.opened (cfgMfKind r.regs.cfg) _ _).minMatchCheck = 3 ∧
        (MatchFinder.opened (cfgMfKind r.regs.cfg) _ _).numHashDirectBytes = 2)
    cases cfgMfKind r.regs.cfg with
    | bt4 => exact .inl ⟨rfl, rfl, rfl⟩
    | bt2 => exact .inr ⟨rfl, rfl, rfl⟩
  · exact indexes_opened _ _ hdict' hfast.1

end Sys2Proof.Machine
end

section
/-!
PROOFS. ENC_STEPs on any input (R380 items 4 and 5): after any number of them the next one codes a program of legal symbols that
executes to the input.
-/

namespace Sys2Proof.Machine

/-! ### One step -/

/-- How an ENC_STEP of an open session ends. -/
inductive StepEnds (p : Props) (inp : List Byte) (marker : Bool) (start : Nat) (t : State) : Prop where
  | more {prog : List Instr} {c : State} (hphase : t.regs.phase = .encReady) (h : Going p inp marker prog t c)
      (hopen : SessionOpen p inp marker t) (hchunk : start + Config.progressChunk ≤ t.session.enc.nowPos)
  | done {prog : List Instr} {c : State} (hphase : t.regs.phase = .done) (h : Finished p inp marker prog c t)

theorem SessionOpen.step {p : Props} {inp : List Byte} {marker : Bool} {s : State} (h : SessionOpen p inp marker s)
    (hphase : s.regs.phase = .encReady) :
    ∃ t, exec .encStep s = .next t ∧ StepEnds p inp marker s.session.enc.nowPos t := by
  obtain ⟨r, t, hrun, hends⟩ := h.block
  cases hends with
  | more hgoing hoff hleft hchunk hopen =>
    have hkept : t.regs.phase = s.regs.phase := by rw [codeOneBlock_frame.ok hrun]
    exact ⟨t, execEncStep_more hphase hrun, .more (hkept.trans hphase) hgoing ⟨hopen, .inr ⟨_, _, hgoing, hoff⟩⟩ hchunk⟩
  | done hfinished =>
    exact ⟨_, execEncStep_done hphase hrun, .done rfl ⟨hfinished.traced, hfinished.first, hfinished.window, hfinished.input,
      hfinished.inCount, hfinished.out, hfinished.kept⟩⟩

/-! ### Sequences of steps -/

theorem encSteps_succ {n : Nat} {s t : State} (h : encSteps (n + 1) s = some t) :
    ∃ u, exec .encStep s = .next u ∧ encSteps n u = some t := by
  rw [encSteps] at h
  split at h
  · next u hu => exact ⟨u, hu, h⟩
  · cases h
  · cases h

/-- A session that is open after some steps was open before them. -/
theorem encSteps_ready {n : Nat} {s t : State} (h : encSteps n s = some t) (hphase : t.regs.phase = .encReady) :
    s.regs.phase = .encReady := by
  induction n generalizing s with
  | zero =>
    cases h
    exact hphase
  | succ n ih =>
    obtain ⟨u, hstep, hrest⟩ := encSteps_succ h
    exact (execEncStep_open hstep (ih hrest)).1

/-- Steps that leave a session open code a chunk each. -/
theorem SessionOpen.steps {p : Props} {inp : List Byte} {marker : Bool} {n : Nat} {s t : State}
    (h : SessionOpen p inp marker s) (hsteps : encSteps n s = some t) (hphase : t.regs.phase = .encReady) :
    SessionOpen p inp marker t ∧ s.session.enc.nowPos + n * Config.progressChunk ≤ t.session.enc.nowPos := by
  induction n generalizing s with
  | zero =>
    cases hsteps
    exact ⟨h, by omega⟩
  | succ n ih =>
    obtain ⟨u, hstep, hrest⟩ := encSteps_succ hsteps
    have hu := encSteps_ready hrest hphase
    obtain ⟨u', hstep', hends⟩ := h.step (encSteps_ready hsteps hphase)
    cases hstep'.symm.trans hstep
    cases hends with
    | more _ _ hopen hchunk =>
      obtain ⟨hopen', hpos⟩ := ih hopen hrest
      refine ⟨hopen', ?_⟩
      rw [Nat.succ_mul]
      omega
    | done hdone _ =>
      rw [hu] at hdone
      cases hdone

/-! ### ENC_OPEN -/

/-- An ENC_OPEN that opens a session passed its checks. -/
theorem encOpen_ready {r s : State} (h : exec .encOpen r = .next s) (hphase : s.regs.phase = .encReady) :
    configCheck r.regs.cfg r.regs.dict = none ∧ s = r.encOpened := by
  by_cases hmay : mayOpen r.regs.phase = true
  · cases hcheck : configCheck r.regs.cfg r.regs.dict with
    | some k =>
      cases (exec_encOpen_refused hmay hcheck).symm.trans h
      cases hphase
    | none =>
      cases (exec_encOpen hmay hcheck).symm.trans h
      exact ⟨rfl, rfl⟩
  · have hrefused : exec .encOpen r = .next (enterFault .illegalCommand 3 r) := by
      refine outcome_raised (a := actEncOpen) ?_
      rw [actEncOpen, inPhase, act_bind_of_ok (act_get r), if_neg hmay]
      rfl
    cases hrefused.symm.trans h
    cases hphase

/-- Settles O23: an open session is kept open by every step that yields, and the next step codes the rest of its chunk or of the
input. -/
theorem encStepCodesInput : Obligations.EncStepCodesInput := by
  intro r s0 s n hopen hready hsteps hphase p
  obtain ⟨hcheck, rfl⟩ := encOpen_ready hopen hready
  obtain ⟨hsession, hpos⟩ := (encOpened_sessionOpen hcheck).steps hsteps hphase
  refine ⟨(Nat.le_add_left _ _).trans hpos, ?_⟩
  obtain ⟨t, hstep, hends⟩ := hsession.step hphase
  cases hends with
  | more hphase' h _ hchunk =>
    obtain ⟨e, hexec, hout, -⟩ := h.traced.executed
    exact ⟨_, _, e, t, fun i hi => ⟨(h.traced.runs i hi).symbol, (h.traced.runs i hi).notEnd⟩, h.first, h.traced.coded, hexec,
      hout.win, hstep, h.input, .inl ⟨hphase', h.same, hchunk⟩⟩
  | done hphase' h =>
    obtain ⟨e, hexec, hout, -⟩ := h.traced.executed
    exact ⟨_, _, e, t, fun i hi => ⟨(h.traced.runs i hi).symbol, (h.traced.runs i hi).notEnd⟩, h.first, h.traced.coded, hexec,
      hout.win, hstep, h.input, .inr ⟨hphase', h.window, h.inCount, h.out⟩⟩

end Sys2Proof.Machine
end

section
/-!
PROOFS. Decoding a program in any number of DEC_STEPs (`46_decoder_driver.md` R400, R401, R413): the decoder follows the coder
symbol by symbol until the declared size is reached or END is decoded; a step that yields leaves a shorter program.
-/

namespace Sys2Proof.Machine

/-! ### One symbol -/

/-- The decoder `u`, which reads `F` with `size` declared, stands where the coder `c` and the executor `e` of a program stand. -/
structure Abreast (F : List Byte) (size : Option Nat) (c e u : State) : Prop where
  coding : Coding (2 ^ 24) c
  output : SameOutput c e
  unsized : e.session.dec.outSize = none
  synced : Synced F c u
  context : SameContext c u
  dict : u.session.dec.dictCheck = e.session.dec.dictCheck
  size : u.session.dec.outSize = size
  ready : u.regs.phase = .decReady

/-- A symbol that is followed in the coder and executed has the same effect in both. -/
theorem symbol_ran {i : Instr} {c c1 e e1 : State} (hi : Runs i) (hsame : SameOutput c e)
    (hunsized : e.session.dec.outSize = none) (hfollow : followSymbol i c = .ok () c1) (hexec : symbolAct i e = .ok () e1) :
    c1 = c.ran i ∧ e1 = e.ran i ∧ c.reaches i ∧ e.Accepts i := by
  have hacc := accepts_of_symbolAct hi hunsized hexec
  have hreach : c.reaches i := hsame.symm.reaches hacc.reaches
  cases (followSymbol_of_reaches hi hreach).symm.trans hfollow
  cases (symbolAct_of_accepts hi hacc).symm.trans hexec
  exact ⟨rfl, rfl, hreach, hacc⟩

section Symbol

variable {F : List Byte} {size : Option Nat} {c c1 e u : State} {i : Instr} (h : Abreast F size c e u)
include h

theorem Abreast.outPos : u.outPos = e.outPos := h.context.outPos.trans h.output.symm.outPos

theorem Abreast.win : u.win = e.win := h.context.win.trans h.output.symm.win

/-- The decoder fetches the symbol that is coded next. -/
theorem Abreast.fetch (hi : isProgramSymbol i = true) (hcode : codeSymbol i c = .ok () c1) (hcov : Covered F c1) :
    ∃ v, fetchSymbol u = .ok i v ∧ Abreast F size c1 e v := by
  have hfollowed := codeSymbol_replays hi F c c1 u h.coding h.context hcode
  obtain ⟨v, hfetch, hsync, hframe⟩ := hfollowed.decodes hcov h.synced
  have hdec : v.session.dec = u.session.dec := by rw [hframe]
  have hphase : v.regs.phase = u.regs.phase := by rw [hframe]
  exact ⟨v, hfetch, hfollowed.coding, hfollowed.context.output.symm.trans h.output, h.unsized, hsync,
    (hfollowed.context.symm.trans h.context).trans (SameContext.of_bitFrame hframe),
    (congrArg DecLatch.dictCheck hdec).trans h.dict, (congrArg DecLatch.outSize hdec).trans h.size, hphase.trans h.ready⟩

/-- A symbol that executes and does not pass the declared size has the same effect in the decoder. -/
theorem Abreast.act {c2 e1 : State} (hi : Runs i) (hfollow : followSymbol i c = .ok () c2)
    (hexec : symbolAct i e = .ok () e1) (hfits : ∀ n, size = some n → e1.outPos ≤ n) :
    ∃ v, symbolAct i u = .ok () v ∧ Abreast F size c2 e1 v ∧ e.outPos < e1.outPos := by
  obtain ⟨rfl, rfl, hreach, hacc⟩ := symbol_ran hi h.output h.unsized hfollow hexec
  have hreps : u.session.reps = e.session.reps := h.context.reps.trans h.output.symm.reps
  have hlen := symbolLength_pos hi
  have haccepts : u.Accepts i := by
    refine ⟨h.context.output.reaches hreach, ?_, fun n hn => ?_⟩
    · rw [h.dict, hreps]
      exact hacc.dict
    · have := hfits n (h.size.symm.trans hn)
      rw [ran_outPos] at this
      rwa [h.outPos]
  refine ⟨u.ran i, symbolAct_of_accepts hi haccepts, ⟨h.coding.ran hreach, h.output.ran i, h.unsized,
    ⟨h.synced.input, h.synced.cells, h.synced.coder, h.synced.inCount⟩, h.context.ran i, h.dict, h.size, h.ready⟩, ?_⟩
  rw [ran_outPos]
  omega

/-- END ends a session without a declared size (R410, R412). -/
theorem Abreast.actEnd (hsize : size = none) (hdict : e.session.dec.dictCheck < 2 ^ 32) :
    ∃ v, symbolAct (.endMark 2) u = .ok () v ∧ v.regs.phase = .done ∧ v.win = u.win := by
  have hpast : u.session.dec.dictCheck ≤ endDistance.toNat := by
    rw [h.dict]
    exact Nat.le_of_lt_succ hdict
  have hnone := h.size.trans hsize
  refine ⟨(u.moved (.endMark 2)).mapRegs fun r => { r with phase := .done }, ?_, rfl, rfl⟩
  show checkAndCopy 2 true (u.moved (.endMark 2)) = _
  have hend : (u.moved (.endMark 2)).session.reps.r0 = endDistance := rfl
  have hdict' : (u.moved (.endMark 2)).session.dec = u.session.dec := rfl
  simp only [checkAndCopy, act_bind, act_get, hend, hdict', hnone, hpast, decide_true, Bool.or_true, Bool.and_self,
    if_true]
  rfl

end Symbol

/-! ### One DEC_STEP -/

/-- How the decoder learns that the program from the coder `c` and the executor `e` on is empty: by the declared size, or by END. -/
inductive Ending (F : List Byte) (c e : State) : Option Nat → Prop where
  | size : Ending F c e (some e.outPos)
  | mark {c1 : State} (hcode : codeSymbol (.endMark 2) c = .ok () c1) (hcov : Covered F c1)
      (hdict : e.session.dec.dictCheck < 2 ^ 32) : Ending F c e none

/-- The decoder `u` has `prog` left to decode, which takes the coder to `c'` and the executor to `e'`. -/
structure Remaining (F : List Byte) (size : Option Nat) (c' e' : State) (prog : List Instr) (u : State) : Prop where
  runs : ∀ i ∈ prog, Runs i
  abreast : ∃ c e, Abreast F size c e u ∧ codeProgram prog c = .ok () c' ∧ execute prog e = .ok () e'

/-- How a loop of the decoder ends that had a program of `n` symbols left. -/
inductive DecodeEnds (F : List Byte) (size : Option Nat) (c' e' : State) (n : Nat) (v : State) : Progress → Prop where
  | done (hwin : v.win = e'.win) : DecodeEnds F size c' e' n v .done
  | more {rest : List Instr} (h : Remaining F size c' e' rest v) (hless : rest.length < n) :
      DecodeEnds F size c' e' n v .more

section Step

variable {F : List Byte} {size : Option Nat} {c' e' : State}

theorem DecodeEnds.mono {m n : Nat} {v : State} {p : Progress} (h : DecodeEnds F size c' e' m v p) (hle : m ≤ n) :
    DecodeEnds F size c' e' n v p := by
  cases h with
  | done hwin => exact .done hwin
  | more h hless => exact .more h (Nat.lt_of_lt_of_le hless hle)

/-- Before the end of the program the declared size is not reached. -/
theorem Ending.notReached (hend : Ending F c' e' size) {c e u : State} (h : Abreast F size c e u)
    (hlt : e.outPos < e'.outPos) : u.sizeReached = false := by
  have hsize := h.size
  cases hend with
  | size => simpa only [State.sizeReached, hsize, h.outPos, decide_eq_false_iff_not, Nat.not_le] using hlt
  | mark => simp only [State.sizeReached, hsize]

/-- The program does not pass the declared size. -/
theorem Ending.fits (hend : Ending F c' e' size) {n : Nat} (hle : n ≤ e'.outPos) : ∀ m, size = some m → n ≤ m := by
  rintro m rfl
  cases hend with
  | size => exact hle

/-- At the end of the program the loop is done. -/
theorem Ending.loop (hend : Ending F c' e' size) {u : State} (h : Abreast F size c' e' u) (start fuel : Nat) :
    ∃ v, decodeLoop start (fuel + 1) u = .ok .done v ∧ v.win = e'.win := by
  have hsize := h.size
  cases hend with
  | size =>
    have hreached : u.sizeReached = true := by
      simp only [State.sizeReached, hsize, h.outPos, le_refl, decide_true]
    exact ⟨u, by rw [decodeLoop_succ, if_pos hreached], h.win⟩
  | mark hcode hcov hdict =>
    have hopen : u.sizeReached = false := by simp only [State.sizeReached, hsize]
    obtain ⟨u1, hfetch, h1⟩ := h.fetch rfl hcode hcov
    obtain ⟨v, hact, hdone, hwin⟩ := h1.actEnd rfl hdict
    refine ⟨v, ?_, hwin.trans h1.win⟩
    rw [decodeLoop_succ, hopen]
    simp only [Bool.false_eq_true, if_false, hfetch, hact, hdone, if_true]

/-- The loop decodes symbols of the program until it is done or yields. -/
theorem Remaining.loop (hend : Ending F c' e' size) (hcov : Covered F c') {prog : List Instr} {u : State}
    (h : Remaining F size c' e' prog u) (start fuel : Nat) :
    ∃ p v, decodeLoop start (fuel + 1) u = .ok p v ∧ DecodeEnds F size c' e' prog.length v p := by
  induction prog generalizing u fuel with
  | nil =>
    obtain ⟨c, e, hu, hcode, hexec⟩ := h.abreast
    cases hcode
    cases hexec
    obtain ⟨v, hrun, hwin⟩ := hend.loop hu start fuel
    exact ⟨.done, v, hrun, .done hwin⟩
  | cons i is ih =>
    obtain ⟨c, e, hu, hcode, hexec⟩ := h.abreast
    have hi := h.runs i (List.mem_cons_self ..)
    have hruns : ∀ j ∈ is, Runs j := fun j hj => h.runs j (List.mem_cons_of_mem i hj)
    obtain ⟨c1, c2, hc1, hc2, hcode'⟩ := codeProgram_cons hcode
    obtain ⟨e1, he1, hexec'⟩ := execute_cons_ok hexec
    have hself := codeSymbol_replays hi.symbol F c c1 c hu.coding (SameContext.refl c) hc1
    have hsame : SameOutput c1 e := hself.context.output.symm.trans hu.output
    obtain ⟨rfl, rfl, hreach, -⟩ := symbol_ran hi hsame hu.unsized hc2 he1
    have hrest : ProgramFollowed F (c1.ran i) c' (e.ran i) e' :=
      program_followed hruns (hself.coding.ran hreach) (hsame.ran i) hu.unsized hcode' hexec'
    have hgrows := hrest.grows
    obtain ⟨u1, hfetch, hu1⟩ := hu.fetch hi.symbol hc1 (hrest.covered hcov)
    obtain ⟨u2, hact, hu2, hlt⟩ := hu1.act hi hc2 he1 (hend.fits hgrows)
    have hleft : Remaining F size c' e' is u2 := ⟨hruns, _, _, hu2, hcode', hexec'⟩
    have hready : u2.regs.phase ≠ .done := by
      rw [hu2.ready]
      decide
    rw [decodeLoop_succ, hend.notReached hu (by omega)]
    simp only [Bool.false_eq_true, if_false, hfetch, hact, if_neg hready]
    have hyield : DecodeEnds F size c' e' (is.length + 1) u2 .more := .more hleft (Nat.lt_succ_self _)
    split
    · exact ⟨.more, u2, rfl, hyield⟩
    · cases fuel with
      | zero => exact ⟨.more, u2, rfl, hyield⟩
      | succ fuel =>
        obtain ⟨p, v, hrun, hends⟩ := ih hleft fuel
        exact ⟨p, v, hrun, hends.mono (Nat.le_succ _)⟩

/-! ### Any number of DEC_STEPs -/

theorem execDecStep_more {u v : State} (hphase : u.regs.phase = .decReady)
    (hloop : decodeLoop u.outPos Config.progressChunk u = .ok .more v) : exec .decStep u = .next v := by
  rw [execDecStep_ready hphase]
  exact outcome_ok (act_bind_of_ok (show decodeLoop _ (4095 + 1) _ = _ from hloop) _)

/-- DEC_STEPs decode what is left of the program. -/
theorem Remaining.steps (hend : Ending F c' e' size) (hcov : Covered F c') {prog : List Instr} {u : State}
    (h : Remaining F size c' e' prog u) :
    ∃ m w, decSteps m u = some w ∧ w.regs.phase = .done ∧ w.win = e'.win := by
  induction hn : prog.length using Nat.strong_induction_on generalizing prog u with
  | h n ih =>
    have hready : u.regs.phase = .decReady := by
      obtain ⟨c, e, hu, -⟩ := h.abreast
      exact hu.ready
    obtain ⟨p, v, hrun, hends⟩ := h.loop hend hcov u.outPos 4095
    cases hends with
    | done hwin =>
      refine ⟨1, v.mapRegs fun r => { r with phase := .done }, ?_, rfl, hwin⟩
      simp only [decSteps, execDecStep_done hready hrun]
    | more hrest hless =>
      obtain ⟨m, w, hsteps, hdone⟩ := ih _ (hn ▸ hless) hrest rfl
      refine ⟨m + 1, w, ?_, hdone⟩
      simp only [decSteps, execDecStep_more hready hrun, hsteps]

end Step

end Sys2Proof.Machine
end

section
/-!
PROOFS. The round trip (`45_encoder_driver.md` R380 item 1): the stream of a finished session is an assembled program, and a
decoder opened over it decodes that program to the input.
-/

namespace Sys2Proof.Machine

/-! ### The session that has ended -/

/-- ENC_STEPs keep a fault. -/
theorem encSteps_fault {n : Nat} {s t : State} (h : encSteps n s = some t) (hphase : s.regs.phase = .fault) :
    t.regs.phase = .fault := by
  induction n generalizing s with
  | zero =>
    cases h
    exact hphase
  | succ n ih =>
    obtain ⟨u, hstep, hrest⟩ := encSteps_succ h
    cases (execEncStep_illegal (by rw [hphase]; decide)).symm.trans hstep
    exact ih hrest rfl

/-- No ENC_STEP follows the one that ends a session, if the session is DONE. -/
theorem encSteps_done {n : Nat} {s t : State} (h : encSteps n s = some t) (hs : s.regs.phase = .done)
    (ht : t.regs.phase = .done) : t = s := by
  cases n with
  | zero =>
    cases h
    rfl
  | succ n =>
    obtain ⟨u, hstep, hrest⟩ := encSteps_succ h
    cases (execEncStep_illegal (by rw [hs]; decide)).symm.trans hstep
    have hfault := encSteps_fault hrest rfl
    rw [ht] at hfault
    cases hfault

theorem encSteps_propsKept {n : Nat} {s t : State} (h : encSteps n s = some t) : PropsKept s t := by
  induction n generalizing s with
  | zero =>
    cases h
    exact propsKept_preorder.refl _
  | succ n ih =>
    obtain ⟨u, hstep, hrest⟩ := encSteps_succ h
    exact propsKept_preorder.trans _ _ _ (exec_propsKept (by decide) hstep) (ih hrest)

/-- A session that is DONE after some ENC_STEPs has assembled a program that gives the input. -/
theorem SessionOpen.finishes {p : Props} {inp : List Byte} {marker : Bool} {n : Nat} {s t : State}
    (h : SessionOpen p inp marker s) (hphase : s.regs.phase = .encReady) (hsteps : encSteps n s = some t)
    (hdone : t.regs.phase = .done) : ∃ prog c, Finished p inp marker prog c t := by
  induction n generalizing s with
  | zero =>
    cases hsteps
    rw [hphase] at hdone
    cases hdone
  | succ n ih =>
    obtain ⟨u, hstep, hrest⟩ := encSteps_succ hsteps
    obtain ⟨u', hstep', hends⟩ := h.step hphase
    cases hstep'.symm.trans hstep
    cases hends with
    | more hready _ hopen _ => exact ih hopen hready hrest
    | done hend hfinished =>
      cases encSteps_done hrest hend hdone
      exact ⟨_, _, hfinished⟩

/-! ### The stream -/

/-- The bytes of a program lie in the interval of its coding. -/
theorem assemble_covers {lc lp pb : Nat} {prog : List Instr} {bytes : List Byte}
    (hasm : assemble lc lp pb prog = some bytes) :
    ∃ c, codeProgram prog (codingState lc lp pb) = .ok () c ∧ (c.session.renc.Open (2 ^ 24) → Covered bytes c) := by
  unfold assemble at hasm
  split at hasm
  · split at hasm
    · next t hrun =>
      obtain ⟨_, c, hcode, hflush⟩ := act_bind_ok hrun
      cases hasm
      exact ⟨c, hcode, fun hopen => (flushEncoder_covers hopen hflush).1⟩
    · cases hasm
  · cases hasm

/-- The program of a session is followed from the beginning of its coding. -/
theorem Traced.followed {p : Props} {prog : List Instr} {c e : State} (h : Traced p prog c)
    (hexec : execute prog (executingState p.dictSize) = .ok () e) (F : List Byte) :
    ProgramFollowed F (codingState p.lc p.lp p.pb) c (executingState p.dictSize) e :=
  program_followed h.runs (codingState_coding _ _ _) ⟨rfl, rfl, rfl⟩ rfl h.coded hexec

section Stream

variable {p : Props} {inp : List Byte} {marker : Bool} {prog : List Instr} {c t : State}
  (h : Finished p inp marker prog c t)
include h

/-- The coder of the program stands between two symbols. -/
theorem Finished.coding : Coding (2 ^ 24) c := by
  obtain ⟨e, hexec, -⟩ := h.traced.executed
  exact (h.traced.followed hexec []).coding

/-- The stream is that of the program, and of END after it where END is enabled. -/
theorem Finished.covered : Covered t.out c ∧
    (marker = true → ∃ c1, codeSymbol (.endMark 2) c = .ok () c1 ∧ Covered t.out c1) := by
  obtain ⟨c2, hcode, hcovers⟩ := assemble_covers h.out.symm
  rw [codeProgram_append, act_bind_of_ok h.traced.coded] at hcode
  cases marker with
  | false =>
    cases hcode
    exact ⟨hcovers h.coding.coder, nofun⟩
  | true =>
    obtain ⟨c1, _, hmark, hfollow, hnil⟩ := codeProgram_cons (show codeProgram [.endMark 2] c = _ from hcode)
    cases hnil
    cases (followSymbol_endMark 2 c1).symm.trans hfollow
    have hself := codeSymbol_replays (i := .endMark 2) rfl t.out c c1 c h.coding (SameContext.refl c) hmark
    have hcov : Covered t.out c1 := hcovers hself.coding.coder
    exact ⟨hself.covered hcov, fun _ => ⟨c1, hmark, hcov⟩⟩

end Stream

/-! ### The decoder over the stream -/

/-- DEC_OPEN on the bytes of a program: the decoder stands where the coding began. -/
theorem execDecOpen_abreast {lc lp pb : Nat} {u : State} (hlc : lc ≤ 8) (hlp : lp ≤ 4) (hpb : pb ≤ 4)
    (hphase : mayOpen u.regs.phase = true) (hprops : u.regs.dprops0 = propsByte lc lp pb)
    (hcov : Covered u.cin (codingState lc lp pb)) :
    ∃ v, exec .decOpen u = .next v ∧
      Abreast u.cin (declaredSize u.regs) (codingState lc lp pb) (executingState u.regs.dprops1.toNat) v := by
  obtain ⟨v, hinit, hsync, hframe⟩ := rcDecInit_synced (codingState_fresh lc lp pb) hcov
    (u := decOpening lc lp pb u) rfl rfl rfl
  have hctx := (decOpening_context lc lp pb u).trans (SameContext.of_bitFrame hframe)
  have hdec : v.session.dec = { dictCheck := max u.regs.dprops1.toNat 1, outSize := declaredSize u.regs } := by
    rw [hframe]
    exact decOpening_dec lc lp pb u
  have hdecode : decodePropsByte u.regs.dprops0 = some (lc, lp, pb) := by
    rw [hprops]
    exact decodePropsByte_propsByte hlc hlp hpb
  exact ⟨_, execDecOpen_ok hphase hdecode hinit, codingState_coding lc lp pb, ⟨rfl, rfl, rfl⟩, rfl,
    ⟨hsync.input, hsync.cells, hsync.coder, hsync.inCount⟩,
    ⟨hctx.win, hctx.state, hctx.reps, hctx.lc, hctx.lp, hctx.pb⟩, (congrArg DecLatch.dictCheck hdec :),
    (congrArg DecLatch.outSize hdec :), rfl⟩

/-- The stream of a finished session decodes to its input, of declared size or with END. -/
theorem Finished.decodes {p : Props} {inp : List Byte} {marker : Bool} {prog : List Instr} {c t u : State}
    (h : Finished p inp marker prog c t) (hlc : p.lc ≤ 8) (hlp : p.lp ≤ 4) (hpb : p.pb ≤ 4)
    (hphase : mayOpen u.regs.phase = true) (hcin : u.cin = t.out) (hprops : u.regs.dprops0 = propsByte p.lc p.lp p.pb)
    (hdict : u.regs.dprops1.toNat = p.dictSize)
    (hsize : declaredSize u.regs = some inp.length ∨ declaredSize u.regs = none ∧ marker = true) :
    ∃ v w m, exec .decOpen u = .next v ∧ decSteps m v = some w ∧ w.regs.phase = .done ∧ w.win = inp := by
  obtain ⟨e, hexec, hout, hdec⟩ := h.traced.executed
  obtain ⟨hcov, hmark⟩ := h.covered
  rw [← hcin] at hcov hmark
  have hwin : e.win = inp := hout.win.trans h.window
  have hend : Ending u.cin c e (declaredSize u.regs) := by
    rcases hsize with hsome | ⟨hnone, hmarker⟩
    · rw [hsome, ← hwin]
      exact .size
    · obtain ⟨c1, hcode, hcov1⟩ := hmark hmarker
      rw [hnone]
      refine .mark hcode hcov1 ?_
      rw [hdec, ← hdict]
      exact max_lt u.regs.dprops1.isLt (by decide)
  obtain ⟨v, hopen, habreast⟩ := execDecOpen_abreast hlc hlp hpb hphase hprops
    ((h.traced.followed hexec u.cin).covered hcov)
  rw [hdict] at habreast
  have hleft : Remaining u.cin (declaredSize u.regs) c e prog v := ⟨h.traced.runs, _, _, habreast, h.traced.coded, hexec⟩
  obtain ⟨m, w, hsteps, hdone, hw⟩ := hleft.steps hend hcov
  exact ⟨v, w, m, hopen, hsteps, hdone, hw.trans hwin⟩

/-- Settles O24: a session ends with the assembled encoding of a program that gives the input, and the decoder follows that
program over any number of DEC_STEPs. -/
theorem encodedInputDecodes : Obligations.EncodedInputDecodes := by
  intro r s0 s u n hopen hready hsteps hdone hmay hcin hprops0 hprops1 hsize
  obtain ⟨hcheck, rfl⟩ := encOpen_ready hopen hready
  obtain ⟨hlc, hlp, hpb, -⟩ := configCheck_none_iff.mp hcheck
  obtain ⟨prog, c, hfinished⟩ := (encOpened_sessionOpen hcheck).finishes hready hsteps hdone
  have hkept := encSteps_propsKept hsteps
  exact hfinished.decodes hlc hlp hpb hmay hcin (hprops0.trans hkept.eprops0)
    (congrArg BitVec.toNat (hprops1.trans hkept.eprops1)) hsize

end Sys2Proof.Machine
end

section
/-!
PROOFS. What the decoder does with each symbol (`46_decoder_driver.md` R402 to R405, R410 to R412; `60_exceptions.md` R459):
the bytes a copy appends, the checks it fails, and the end of the session at END.
-/

namespace Sys2Proof.Machine

/-! ### The bytes of a copy (R109) -/

/-- A copy appends its bytes. -/
theorem copyOnto_append (d n : Nat) (w : List Byte) : ∃ bytes, copyOnto d n w = w ++ bytes ∧ bytes.length = n := by
  induction n generalizing w with
  | zero => exact ⟨[], (List.append_nil w).symm, rfl⟩
  | succ n ih =>
    obtain ⟨bytes, hcopy, hlen⟩ := ih (w ++ [w.getD (w.length - d - 1) 0])
    exact ⟨_ :: bytes, hcopy.trans (List.append_assoc ..), congrArg Nat.succ hlen⟩

/-- A copy leaves the bytes before it. -/
theorem copyOnto_getElem?_of_lt (d n : Nat) {w : List Byte} {a : Nat} (h : a < w.length) :
    (copyOnto d n w)[a]? = w[a]? := by
  obtain ⟨bytes, hcopy, -⟩ := copyOnto_append d n w
  rw [hcopy, List.getElem?_append_left h]

/-- Every byte of a copy from inside the output is the byte `d + 1` before it. -/
theorem copyOnto_repeats {d n j : Nat} {w : List Byte} (hd : d < w.length) (hj : j < n) :
    (copyOnto d n w)[w.length + j]? = (copyOnto d n w)[w.length + j - (d + 1)]? := by
  induction n generalizing w j with
  | zero => omega
  | succ n ih =>
    have hlen : (w ++ [w.getD (w.length - d - 1) 0]).length = w.length + 1 := List.length_append
    rw [copyOnto]
    cases j with
    | zero =>
      have hsource : w.length - (d + 1) < w.length := by omega
      rw [copyOnto_getElem?_of_lt _ _ (by omega), copyOnto_getElem?_of_lt _ _ (by omega), Nat.add_zero,
        List.getElem?_concat_length, List.getElem?_append_left hsource, List.getElem?_eq_getElem hsource,
        Nat.sub_sub, List.getD_eq_getElem w 0 hsource]
    | succ j =>
      have hrest := ih (w := w ++ [w.getD (w.length - d - 1) 0]) (j := j) (by omega) (by omega)
      rwa [hlen, Nat.add_assoc, Nat.add_comm 1 j] at hrest

/-! ### Symbols that execute -/

/-- Settles O34, by evaluation: LIT makes no test. -/
theorem litCompletes : Obligations.LitCompletes := fun _ _ => rfl

/-- Settles O35, by the one test SHORTREP makes. -/
theorem shortRepCompletes : Obligations.ShortRepCompletes := by
  intro s
  refine ⟨fun b hlt hb => ?_, fun hlt => ?_, fun hge => ?_⟩
  · have hbyte : s.win.getD (s.win.length - s.session.reps.r0.toNat - 1) 0 = b :=
      congrArg (Option.getD · 0) (show s.win[s.win.length - s.session.reps.r0.toNat - 1]? = some b from hb)
    have hwin : symbolWin .shortRep s.session.reps s.win = s.win ++ [b] :=
      congrArg (fun b => s.win ++ [b]) hbyte
    have hlen : (s.win ++ [b]).length = s.outPos + 1 := List.length_append
    refine (outcome_ok (symbolAct_shortRep hlt)).trans ?_
    rw [State.ran, hwin, State.withWin, hlen]
    rfl
  · exact ⟨_, outcome_ok (symbolAct_shortRep hlt), rfl, ran_outPos .shortRep s⟩
  · exact outcome_raised (symbolAct_shortRep_raises hge)

/-- A copying symbol whose checks pass appends its length of bytes, moves the rep set and the state, and leaves the rest. -/
theorem exec_copies {i : Instr} {s : State} (hi : Runs i) (hl : ∀ v, i ≠ .lit v) (hcommand : i.isCommand = false)
    (hpos : (symbolReps i s.session.reps).r0.toNat < s.outPos)
    (hdict : (symbolReps i s.session.reps).r0.toNat < s.session.dec.dictCheck)
    (hsize : ∀ n, s.session.dec.outSize = some n → s.outPos + symbolLength i ≤ n) :
    ∃ bytes : List Byte, bytes.length = symbolLength i ∧
      exec i s = .next { s with
        win := s.win ++ bytes
        regs := { s.regs with outCount := u32 (s.outPos + symbolLength i) }
        session := { s.session with
          reps := symbolReps i s.session.reps, state := symbolState i s.session.state } } ∧
      ∀ j, j < symbolLength i → (s.win ++ bytes)[s.outPos + j]? =
        (s.win ++ bytes)[s.outPos + j - ((symbolReps i s.session.reps).r0.toNat + 1)]? := by
  obtain ⟨bytes, hcopy, hlen⟩ := copyOnto_append (symbolReps i s.session.reps).r0.toNat (symbolLength i) s.win
  refine ⟨bytes, hlen, ?_, fun j hj => hcopy ▸ copyOnto_repeats hpos hj⟩
  have hcount : (s.win ++ bytes).length = s.outPos + symbolLength i := by rw [List.length_append, hlen, State.outPos]
  rw [exec_symbol hcommand, outcome_ok (symbolAct_of_accepts hi ⟨.inr hpos, .inr (.inr hdict), hsize⟩), State.ran,
    symbolWin_copy hl, hcopy, State.withWin, hcount]
  rfl

/-- Settles O36: `reps[k]` stands at index 0 once it is promoted. -/
theorem repCompletes : Obligations.RepCompletes := by
  intro s k len i hmem hwf hpos hdict hsize
  simp only [List.mem_cons, Prod.mk.injEq, List.not_mem_nil, or_false] at hmem
  rcases hmem with ⟨rfl, rfl⟩ | ⟨rfl, rfl⟩ | ⟨rfl, rfl⟩ | ⟨rfl, rfl⟩
  all_goals
    have hruns : Runs _ := ⟨(Bool.and_true _).trans hwf, nofun⟩
    exact exec_copies hruns nofun rfl hpos hdict hsize

/-- Settles O37: the distance pushed is the one the copy is made from. -/
theorem matchCompletes : Obligations.MatchCompletes := by
  intro s len d hwf hpos hdict hsize
  exact exec_copies (i := .matchSym len d) ⟨(Bool.and_true _).trans hwf, nofun⟩ nofun rfl hpos hdict hsize

/-! ### The checks of CheckAndCopy (R410) -/

/-- CheckAndCopy refuses the distance in `reps[0]`. -/
def State.refusesDistance (s : State) : Prop :=
  s.outPos ≤ s.session.reps.r0.toNat ∨ s.session.dec.dictCheck ≤ s.session.reps.r0.toNat

theorem refusesDistance_test {s : State} (h : s.refusesDistance) :
    (decide (s.outPos ≤ s.session.reps.r0.toNat) || decide (s.session.dec.dictCheck ≤ s.session.reps.r0.toNat)) = true := by
  rwa [Bool.or_eq_true, decide_eq_true_eq, decide_eq_true_eq]

/-- A distance that is refused and is not END's. -/
theorem checkAndCopy_distance {len : Nat} {isMatch : Bool} {s : State} (h : s.refusesDistance)
    (hend : s.session.reps.r0 ≠ endDistance ∨ isMatch = false) :
    checkAndCopy len isMatch s = .error (.raised .dataError 1) s := by
  have hno : ¬(decide (s.session.reps.r0 = endDistance) && isMatch) = true := by
    rw [Bool.and_eq_true, decide_eq_true_eq]
    exact fun ⟨he, hm⟩ => hend.elim (fun hne => hne he) fun hf => Bool.false_ne_true (hf.symm.trans hm)
  simp only [checkAndCopy, act_bind, act_get, refusesDistance_test h, if_true, if_neg hno]
  rfl

/-- An accepted distance, and a length past the declared size. -/
theorem checkAndCopy_pastSize {len n : Nat} {isMatch : Bool} {s : State} (h : ¬s.refusesDistance)
    (hsize : s.session.dec.outSize = some n) (hpast : n < s.outPos + len) :
    checkAndCopy len isMatch s = .error (.raised .dataError 3) s := by
  have hacc : ¬(decide (s.outPos ≤ s.session.reps.r0.toNat) ||
      decide (s.session.dec.dictCheck ≤ s.session.reps.r0.toNat)) = true := by
    rwa [Bool.or_eq_true, decide_eq_true_eq, decide_eq_true_eq]
  simp only [checkAndCopy, act_bind, act_get, if_neg hacc, hsize, if_pos hpast]
  rfl

/-- END where the size is UNKNOWN or reached ends the session (R412). -/
theorem checkAndCopy_end {len : Nat} {s : State} (h : s.refusesDistance) (hend : s.session.reps.r0 = endDistance)
    (hsize : s.session.dec.outSize = none ∨ s.session.dec.outSize = some s.outPos) :
    checkAndCopy len true s = .ok () (s.mapRegs fun r => { r with phase := .done }) := by
  simp only [checkAndCopy, act_bind, act_get, refusesDistance_test h, if_true, decide_eq_true hend, Bool.and_self]
  rcases hsize with hsize | hsize
  · simp only [hsize]
    rfl
  · simp only [hsize, if_true]
    rfl

/-- END short of the declared size, or past it (R412). -/
theorem checkAndCopy_end_offSize {len n : Nat} {s : State} (h : s.refusesDistance)
    (hend : s.session.reps.r0 = endDistance) (hsize : s.session.dec.outSize = some n) (hne : s.outPos ≠ n) :
    checkAndCopy len true s = .error (.raised .dataError 4) s := by
  simp only [checkAndCopy, act_bind, act_get, refusesDistance_test h, if_true, decide_eq_true hend, Bool.and_self,
    hsize, if_neg hne]
  rfl

/-- Settles O38: a 32-bit `dictCheck` refuses END's distance. -/
theorem endCompletes : Obligations.EndCompletes := by
  intro s len hdict
  have hpast : s.session.dec.dictCheck ≤ endDistance.toNat := by
    rw [show endDistance.toNat = 2 ^ 32 - 1 by decide]
    omega
  have hrefused : (s.moved (.endMark len)).refusesDistance := .inr hpast
  exact ⟨fun hsize => outcome_ok (checkAndCopy_end hrefused rfl hsize),
    fun n hsize hne => outcome_raised (checkAndCopy_end_offSize hrefused rfl hsize hne)⟩

/-- A symbol whose action is CheckAndCopy after its moves faults with the moves made. -/
theorem exec_copyFaults {i : Instr} {len : Nat} {isMatch : Bool} {s : State} (hcommand : i.isCommand = false)
    (hact : symbolAct i s = checkAndCopy len isMatch (s.moved i))
    (hend : (symbolReps i s.session.reps).r0 ≠ endDistance ∨ isMatch = false) :
    ((s.moved i).refusesDistance → exec i s = .next (enterFault .dataError 1 (s.moved i))) ∧
    (¬(s.moved i).refusesDistance → ∀ n, s.session.dec.outSize = some n → n < s.outPos + len →
      exec i s = .next (enterFault .dataError 3 (s.moved i))) := by
  rw [exec_symbol hcommand]
  exact ⟨fun h => outcome_raised (hact.trans (checkAndCopy_distance h hend)),
    fun h n hsize hpast => outcome_raised (hact.trans (checkAndCopy_pastSize h hsize hpast))⟩

/-- Settles O39: the five symbols with a distance make the same checks after their moves. -/
theorem copyFaults : Obligations.CopyFaults := by
  intro s len i reps st hi
  suffices h : ∃ isMatch, i.isCommand = false ∧ symbolAct i s = checkAndCopy len isMatch (s.moved i) ∧
      (reps.r0 ≠ endDistance ∨ isMatch = false) ∧ reps = symbolReps i s.session.reps ∧
      st = symbolState i s.session.state by
    obtain ⟨isMatch, hcommand, hact, hend, rfl, rfl⟩ := h
    obtain ⟨hdistance, hpast⟩ := exec_copyFaults hcommand hact hend
    exact ⟨hdistance, fun hpos hdict => hpast (not_or.mpr ⟨Nat.not_le.mpr hpos, Nat.not_le.mpr hdict⟩)⟩
  rcases hi with hrep | ⟨d, hd, rfl, rfl, rfl⟩
  · simp only [List.mem_cons, Prod.mk.injEq, List.not_mem_nil, or_false] at hrep
    rcases hrep with ⟨rfl, rfl, rfl⟩ | ⟨rfl, rfl, rfl⟩ | ⟨rfl, rfl, rfl⟩ | ⟨rfl, rfl, rfl⟩
    all_goals exact ⟨false, rfl, rfl, .inr rfl, rfl, rfl⟩
  · exact ⟨true, rfl, rfl, .inl hd, rfl, rfl⟩

end Sys2Proof.Machine
end

section
/-!
PROOFS. DEC_OPEN over a legal start of the stream (`46_decoder_driver.md` R400; `47_host_commands.md` R434;
`40_range_coder.md` R179): the four bytes after the first are the initial `code`.
-/

namespace Sys2Proof.Machine

/-! ### The initial code -/

/-- Four bytes as a word, the first most significant. -/
theorem toNat_append_bytes (b1 b2 b3 b4 : Byte) : (b1 ++ b2 ++ b3 ++ b4).toNat =
    ((b1.toNat * 256 + b2.toNat) * 256 + b3.toNat) * 256 + b4.toNat := by
  have step {n : Nat} (x : BitVec n) (b : Byte) : (x ++ b).toNat = x.toNat * 256 + b.toNat := by
    rw [BitVec.toNat_append, ← Nat.shiftLeft_add_eq_or_of_lt b.isLt, Nat.shiftLeft_eq]
  rw [step, step, step]

/-- Four bytes make up a word of all ones only if each is all ones. -/
theorem append_bytes_ne_ones {b1 b2 b3 b4 : Byte} (h : (b1, b2, b3, b4) ≠ (0xFF, 0xFF, 0xFF, 0xFF)) :
    (b1 ++ b2 ++ b3 ++ b4).toNat ≠ 0xFFFFFFFF := by
  intro hall
  rw [toNat_append_bytes] at hall
  have := b1.isLt
  have := b2.isLt
  have := b3.isLt
  have := b4.isLt
  have ones {b : Byte} (hb : b.toNat = 255) : b = 0xFF := BitVec.eq_of_toNat_eq hb
  refine h ?_
  rw [ones (b := b1) (by omega), ones (b := b2) (by omega), ones (b := b3) (by omega), ones (b := b4) (by omega)]

/-- The decoder that has read its first five bytes, the last four of them `code`. -/
def decBegun (code : Word) (u : State) : State :=
  { u with
    regs := { u.regs with inCount := 5 }
    session := { u.session with rdec := { range := 0xFFFFFFFF, code := code, inPos := 5 } } }

/-- RcDecInit over a 0 and four bytes that are not all ones. -/
theorem rcDecInit_of_legal {u : State} {b1 b2 b3 b4 : Byte} {rest : List Byte} (hpos : u.session.rdec.inPos = 0)
    (hcin : u.cin = 0 :: b1 :: b2 :: b3 :: b4 :: rest) (hones : (b1, b2, b3, b4) ≠ (0xFF, 0xFF, 0xFF, 0xFF)) :
    rcDecInit u = .ok () (decBegun (b1 ++ b2 ++ b3 ++ b4) u) := by
  have hvalue : prefixValue u.cin 5 = (b1 ++ b2 ++ b3 ++ b4).toNat := by
    rw [toNat_append_bytes, hcin]
    simp [prefixValue, bytesValue]
  have hone : prefixValue u.cin 1 = 0 := by
    rw [hcin]
    rfl
  have hlong : 1 + 4 ≤ u.cin.length := by simp [hcin]
  obtain ⟨v, hv, hcode, hvpos, hrange, hcells, hcount⟩ := shiftInCodes_value 4 (u := decStarted u) hone.symm rfl hlong
    (show prefixValue u.cin 5 < 2 ^ 32 from hvalue ▸ (b1 ++ b2 ++ b3 ++ b4).isLt)
  have hframe := (shiftInCodes_frame 4).ok hv
  have hword : v.session.rdec.code = b1 ++ b2 ++ b3 ++ b4 := BitVec.eq_of_toNat_eq (hcode.trans hvalue)
  have hrdec : v.session.rdec = { range := 0xFFFFFFFF, code := b1 ++ b2 ++ b3 ++ b4, inPos := 5 } := by
    rw [← hword]
    exact congrArg₂ (fun r n => RangeDec.mk r v.session.rdec.code n) hrange hvpos
  have hlegal : v.session.rdec.code ≠ 0xFFFFFFFF := fun hall =>
    append_bytes_ne_ones hones (hword ▸ congrArg BitVec.toNat hall)
  have hcount5 : v.regs.inCount = 5 := by rw [hcount, hvpos]; rfl
  have hend : v = decBegun (b1 ++ b2 ++ b3 ++ b4) u := by
    rw [hframe, hcount5, hcells, hrdec]
    rfl
  rw [rcDecInit_of_zero hpos (by rw [hcin]; rfl), act_bind_of_ok hv, act_bind_of_ok (act_get v), if_neg hlegal, ← hend]
  rfl

/-! ### The command -/

/-- All ones in both halves of OUTSIZE means UNKNOWN (R36). -/
theorem declaredSize_eq (r : HostRegs) : declaredSize r =
    if r.outsizeHi = 0xFFFFFFFF ∧ r.outsizeLo = 0xFFFFFFFF then none
    else some (r.outsizeHi.toNat * 2 ^ 32 + r.outsizeLo.toNat) := by
  have hhi := r.outsizeHi.isLt
  have hlo := r.outsizeLo.isLt
  have hones : (0xFFFFFFFF : Word).toNat = 2 ^ 32 - 1 := by decide
  refine if_congr ?_ rfl rfl
  rw [← BitVec.toNat_inj, ← BitVec.toNat_inj, hones]
  omega

/-- Settles O18: the session that DEC_OPEN sets up, after RcDecInit. -/
theorem decOpenCompletes : Obligations.DecOpenCompletes := by
  intro s b1 b2 b3 b4 rest hphase hprops0 hcin hones
  have hprops : decodePropsByte s.regs.dprops0 =
      some (s.regs.dprops0.toNat % 9, s.regs.dprops0.toNat / 9 % 5, s.regs.dprops0.toNat / 9 / 5) :=
    if_neg (by omega)
  have hopen {lc lp pb : Nat} (hprops : decodePropsByte s.regs.dprops0 = some (lc, lp, pb)) :=
    execDecOpen_ok hphase hprops (rcDecInit_of_legal (u := decOpening lc lp pb s) rfl hcin hones)
  exact ⟨_, hopen hprops, rfl, rfl, rfl, declaredSize_eq s.regs, rfl, rfl, cells_init_get, rfl, rfl, rfl, rfl, rfl, rfl,
    rfl, rfl, rfl, rfl, rfl, rfl, rfl⟩

end Sys2Proof.Machine
end

section
/-!
PROOFS. One DEC_STEP (`46_decoder_driver.md` R401, R413; `70_reset_and_hazards.md` R497): a fetch leaves `Win` and the phase,
a symbol that executes appends 1 to 273 bytes or ends the session, and the loop stops at the first symbol that takes the
step to the progress chunk.
-/

namespace Sys2Proof.Machine

/-! ### Actions that only read -/

/-- `Win` is `w` and the phase is `p`. -/
def State.Shows (w : List Byte) (p : Phase) (s : State) : Prop := s.win = w ∧ s.regs.phase = p

/-- The action ends or raises a fault, and in both leaves `Win` and the phase. -/
def Act.Fetches {α : Type} (a : Act α) : Prop :=
  ∀ w p, Act.Sat (State.Shows w p) a (fun _ => State.Shows w p) fun e t => e ≠ .stuck ∧ t.Shows w p

theorem Act.Fetches.bind {α β : Type} {a : Act α} {f : α → Act β} (ha : a.Fetches) (hf : ∀ x, (f x).Fetches) :
    (a >>= f).Fetches := fun w p => Act.Sat.bind (ha w p) fun x => hf x w p

theorem Act.Fetches.pure {α : Type} (x : α) : (Pure.pure x : Act α).Fetches := fun _ _ => Act.Sat.pure fun _ h => h

theorem Act.Fetches.get : (MonadState.get : Act State).Fetches := fun _ _ => Act.Sat.get fun _ h => h

theorem Act.Fetches.raise {α : Type} (c : FaultClass) (k : Nat) : (Machine.raise c k : Act α).Fetches :=
  fun _ _ => Act.Sat.raise fun _ h => ⟨nofun, h⟩

theorem Act.Fetches.ite {α : Type} {c : Prop} [Decidable c] {a b : Act α} (ha : a.Fetches) (hb : b.Fetches) :
    (if c then a else b).Fetches := fun w p => Act.Sat.ite (fun _ => ha w p) fun _ => hb w p

theorem Act.Fetches.mapSession (f : Session → Session) : (Machine.mapSession f).Fetches :=
  fun _ _ => Act.Sat.ofModify fun _ h => h

theorem Act.Fetches.onStop {α : Type} {f : State → State} {a : Act α} (hf : ∀ w p s, s.Shows w p → (f s).Shows w p)
    (ha : a.Fetches) : (onStop f a).Fetches := by
  intro w p s h
  have hs := ha w p s h
  rw [act_onStop]
  cases hrun : a s with
  | ok x t =>
    rw [hrun] at hs
    exact hs
  | error e t =>
    rw [hrun] at hs
    exact ⟨hs.1, hf w p t hs.2⟩

/-! ### The fields of a symbol (R292, R293, R302, R313) -/

theorem readCell_fetches (c : Cell) : (readCell c).Fetches :=
  .bind .get fun _ => .ite (.ite (.raise _ _) (.pure _)) (.raise _ _)

theorem winRead_fetches (a : Nat) : (winRead a).Fetches := by
  refine .bind .get fun s => ?_
  split
  · exact .pure _
  · exact .raise _ _

theorem readIn_fetches : readIn.Fetches := by
  intro w p s h
  simp only [readIn, act_bind, act_get]
  cases s.cin[s.session.rdec.inPos]? with
  | none => exact ⟨nofun, h⟩
  | some b => exact h

theorem shiftInCode_fetches : shiftInCode.Fetches := .bind readIn_fetches fun _ => .mapSession _

theorem decNormalize_fetches : decNormalize.Fetches :=
  .bind .get fun _ => .ite (.bind (.mapSession _) fun _ => shiftInCode_fetches) (.pure _)

theorem decodeBit_fetches (c : Cell) : (decodeBit c).Fetches := by
  refine .bind (readCell_fetches c) fun p => .bind .get fun s => ?_
  have tail (b : Bool) : (do writeCell c (updateProb p b); decNormalize; pure b : Act Bool).Fetches :=
    .bind (.mapSession _) fun _ => .bind decNormalize_fetches fun _ => .pure _
  exact .ite (.bind (.mapSession _) fun _ => tail _) (.bind (.mapSession _) fun _ => tail _)

theorem decodeDirectBits_fetches (v n : Nat) : (decodeDirectBits v n).Fetches := by
  induction n generalizing v with
  | zero => exact .pure _
  | succ n ih => exact .bind .get fun _ => .bind (.mapSession _) fun _ => .bind decNormalize_fetches fun _ => ih _

theorem treeDecodeFrom_fetches (A : CellArray) (b n m : Nat) : (treeDecodeFrom A b n m).Fetches := by
  induction n generalizing m with
  | zero => exact .pure _
  | succ n ih => exact .bind (decodeBit_fetches _) fun _ => ih _

theorem bitTreeDecode_fetches (A : CellArray) (b k : Nat) : (bitTreeDecode A b k).Fetches :=
  .bind (treeDecodeFrom_fetches _ _ _ _) fun _ => .pure _

theorem treeReverseDecodeFrom_fetches (node : Nat → Cell) (n m : Nat) : (treeReverseDecodeFrom node n m).Fetches := by
  induction n generalizing m with
  | zero => exact .pure _
  | succ n ih => exact .bind (decodeBit_fetches _) fun _ => .bind (ih _) fun _ => .pure _

theorem litDecodeMatchedFrom_fetches (base : Nat) (mb : Byte) (n m : Nat) : (litDecodeMatchedFrom base mb n m).Fetches := by
  induction n generalizing m with
  | zero => exact .pure _
  | succ n ih => exact .bind (decodeBit_fetches _) fun _ => .ite (ih _) (treeDecodeFrom_fetches _ _ _ _)

theorem lenDecode_fetches (L : CellArray) (ps : Nat) : (lenDecode L ps).Fetches :=
  .bind (decodeBit_fetches _) fun _ => .ite
    (.bind (decodeBit_fetches _) fun _ => .ite (.bind (bitTreeDecode_fetches _ _ _) fun _ => .pure _)
      (.bind (bitTreeDecode_fetches _ _ _) fun _ => .pure _))
    (bitTreeDecode_fetches _ _ _)

theorem distDecode_fetches (len : Nat) : (distDecode len).Fetches :=
  .bind (bitTreeDecode_fetches _ _ _) fun _ => .ite (.pure _) <|
    .ite (.bind (treeReverseDecodeFrom_fetches _ _ _) fun _ => .pure _)
      (.bind (decodeDirectBits_fetches _ _) fun _ => .bind (treeReverseDecodeFrom_fetches _ _ _) fun _ => .pure _)

/-! ### Fetching a symbol (R401) -/

theorem prevOutByte_fetches : prevOutByte.Fetches := .bind .get fun _ => .ite (.pure _) (winRead_fetches _)

theorem fetchLiteral_fetches : fetchLiteral.Fetches :=
  .bind .get fun _ => .bind prevOutByte_fetches fun _ => .ite
    (.bind (.bind (treeDecodeFrom_fetches _ _ _ _) fun _ => .pure _) fun _ => .pure _)
    (.bind (winRead_fetches _) fun _ =>
      .bind (.bind (litDecodeMatchedFrom_fetches _ _ _ _) fun _ => .pure _) fun _ => .pure _)

theorem fetchRep_fetches (k ps : Nat) (mk : Nat → Instr) : (fetchRep k ps mk).Fetches :=
  .bind (.onStop (fun _ _ _ h => h) (lenDecode_fetches _ _)) fun _ => .pure _

theorem fetchMatch_fetches (ps : Nat) : (fetchMatch ps).Fetches :=
  .bind (.onStop (fun _ _ _ h => h) (lenDecode_fetches _ _)) fun _ =>
    .bind (.onStop (fun _ _ _ h => h) (distDecode_fetches _)) fun _ => .pure _

theorem fetchSymbol_fetches : fetchSymbol.Fetches := by
  have bit := decodeBit_fetches
  refine .bind .get fun s => .bind (bit _) fun _ => .ite fetchLiteral_fetches ?_
  refine .bind (bit _) fun _ => .ite (fetchMatch_fetches _) ?_
  refine .bind (bit _) fun _ => .ite (.bind (bit _) fun _ => .ite (fetchRep_fetches _ _ _) (.pure _)) ?_
  refine .bind (bit _) fun _ => .ite (fetchRep_fetches _ _ _) ?_
  exact .bind (bit _) fun _ => .ite (fetchRep_fetches _ _ _) (fetchRep_fetches _ _ _)

/-! ### Executing a symbol (R402 to R405) -/

/-- How a symbol's action ends from a state with `Win` equal to `w` in phase `p`: 1 to 273 bytes longer, with the session
ended, or in a fault that wrote no byte. -/
inductive SymbolEnds (w : List Byte) (p : Phase) : EStateM.Result Abort State Unit → Prop where
  | appended {u : State} (hphase : u.regs.phase = p) (hleast : w.length + 1 ≤ u.outPos)
      (hmost : u.outPos ≤ w.length + 273) : SymbolEnds w p (.ok () u)
  | ended {u : State} (hphase : u.regs.phase = .done) (hwin : u.win = w) : SymbolEnds w p (.ok () u)
  | raised {c : FaultClass} {k : Byte} {u : State} (hwin : u.win = w) : SymbolEnds w p (.error (.raised c k) u)

theorem checkAndCopy_ends {len : Nat} (isMatch : Bool) (hlen : lenOk len = true) (s : State) :
    SymbolEnds s.win s.regs.phase (checkAndCopy len isMatch s) := by
  obtain ⟨hlo, hhi⟩ := lenOk_iff.mp hlen
  by_cases hrefused : s.refusesDistance
  · by_cases hend : s.session.reps.r0 = endDistance ∧ isMatch = true
    · obtain ⟨hend, rfl⟩ := hend
      by_cases hsize : s.session.dec.outSize = none ∨ s.session.dec.outSize = some s.outPos
      · rw [checkAndCopy_end hrefused hend hsize]
        exact .ended rfl rfl
      · obtain ⟨hknown, hoff⟩ := not_or.mp hsize
        obtain ⟨n, hn⟩ := Option.ne_none_iff_exists'.mp hknown
        rw [checkAndCopy_end_offSize hrefused hend hn fun he => hoff (he ▸ hn)]
        exact .raised rfl
    · rw [checkAndCopy_distance hrefused (by simpa only [not_and_or, Bool.not_eq_true] using hend)]
      exact .raised rfl
  · by_cases hpast : ∃ n, s.session.dec.outSize = some n ∧ n < s.outPos + len
    · obtain ⟨n, hsize, hpast⟩ := hpast
      rw [checkAndCopy_pastSize hrefused hsize hpast]
      exact .raised rfl
    · obtain ⟨hpos, hdict⟩ := not_or.mp hrefused
      have hfits : ∀ n, s.session.dec.outSize = some n → s.outPos + len ≤ n :=
        fun n hn => Nat.not_lt.mp fun hlt => hpast ⟨n, hn, hlt⟩
      have houtPos : (s.withWin (copyOnto s.session.reps.r0.toNat len s.win)).outPos = s.win.length + len :=
        copyOnto_length ..
      rw [checkAndCopy_accepts (Nat.not_le.mp hpos) (Nat.not_le.mp hdict) hfits,
        copyBytes_eq (Nat.not_le.mp hpos) (by omega)]
      exact .appended rfl (by omega) (by omega)

theorem symbolAct_ends {i : Instr} (hwf : i.wellFormed = true) (hcommand : i.isCommand = false) (s : State) :
    SymbolEnds s.win s.regs.phase (symbolAct i s) := by
  have one {j : Instr} (hj : symbolLength j = 1) : SymbolEnds s.win s.regs.phase (.ok () (s.ran j)) := by
    have houtPos : (s.ran j).outPos = s.win.length + 1 := hj ▸ ran_outPos j s
    exact .appended rfl (by omega) (by omega)
  cases i with
  | lit v =>
    rw [symbolAct_lit]
    exact one rfl
  | shortRep =>
    rcases Nat.lt_or_ge s.session.reps.r0.toNat s.outPos with hnear | hfar
    · rw [symbolAct_shortRep hnear]
      exact one rfl
    · rw [symbolAct_shortRep_raises hfar]
      exact .raised rfl
  | matchSym len d => exact checkAndCopy_ends true (Bool.and_eq_true_iff.mp hwf).1 (s.moved (.matchSym len d))
  | endMark len => exact checkAndCopy_ends true hwf (s.moved (.endMark len))
  | rep0 len => exact checkAndCopy_ends false hwf (s.moved (.rep0 len))
  | rep1 len => exact checkAndCopy_ends false hwf (s.moved (.rep1 len))
  | rep2 len => exact checkAndCopy_ends false hwf (s.moved (.rep2 len))
  | rep3 len => exact checkAndCopy_ends false hwf (s.moved (.rep3 len))
  | nop | encOpen | encStep | decOpen | decStep | close => cases hcommand

/-- The next symbol of a session is executed where it is fetched, and ends in one of the three ways. -/
theorem fetched_ends {s s1 : State} {i : Instr} (hfetch : fetchSymbol s = .ok i s1) :
    i.isCommand = false ∧ SymbolEnds s.win s.regs.phase (symbolAct i s1) := by
  obtain ⟨hwf, hcommand⟩ := fetchSymbol_gives s i s1 hfetch
  obtain ⟨hwin, hphase⟩ := (fetchSymbol_fetches s.win s.regs.phase).ok ⟨rfl, rfl⟩ hfetch
  exact ⟨hcommand, hwin ▸ hphase ▸ symbolAct_ends hwf hcommand s1⟩

/-! ### One turn of the loop (R401) -/

/-- Short of the declared size the loop executes the symbol it fetches. -/
theorem decodeLoop_fetched {s s1 : State} {i : Instr} (start n : Nat) (hsize : s.sizeReached = false)
    (hfetch : fetchSymbol s = .ok i s1) : decodeLoop start (n + 1) s =
      match symbolAct i s1 with
      | .error e u => .error e u
      | .ok _ u =>
        if u.regs.phase = .done then .ok .done u
        else if Config.progressChunk ≤ u.outPos - start then .ok .more u
        else decodeLoop start n u := by
  rw [decodeLoop_succ, hsize, hfetch]
  rfl

theorem decodeLoop_reached {s : State} (start n : Nat) (hsize : s.sizeReached = true) :
    decodeLoop start (n + 1) s = .ok .done s := by
  rw [decodeLoop_succ, if_pos hsize]

/-- DEC_STEP takes the fault its loop raises. -/
theorem execDecStep_raised {s t : State} {c : FaultClass} {k : Byte} (hphase : s.regs.phase = .decReady)
    (hloop : decodeLoop s.outPos Config.progressChunk s = .error (.raised c k) t) :
    exec .decStep s = .next (enterFault c k t) := by
  rw [execDecStep_ready hphase]
  refine outcome_raised ?_
  rw [act_bind, show (4095 + 1 : Nat) = Config.progressChunk from rfl, hloop]

/-- DEC_STEP in another phase is an illegal command. -/
theorem execDecStep_illegal {s : State} (h : s.regs.phase ≠ .decReady) :
    exec .decStep s = .next (enterFault .illegalCommand 3 s) := by
  refine outcome_raised (a := actDecStep) ?_
  simp only [actDecStep, inPhase, act_bind, act_get, h, decide_false, Bool.false_eq_true, if_false, act_raise]
  rfl

/-- Settles O28: the loop tests the size before it reads. -/
theorem decStepAtSizeCompletes : Obligations.DecStepAtSizeCompletes := by
  intro s n hphase hsize hle
  have hreached : s.sizeReached = true := by
    rw [State.sizeReached, hsize]
    exact decide_eq_true hle
  exact execDecStep_done hphase (decodeLoop_reached s.outPos 4095 hreached)

/-- Settles O8: the first turn of the loop runs the symbol, which is shorter than the progress chunk. -/
theorem decStepRunsFetchedSymbol : Obligations.DecStepRunsFetchedSymbol := by
  intro s s1 s2 i hready hsize hfetch hexec
  obtain ⟨hcommand, hends⟩ := fetched_ends hfetch
  have hturn := decodeLoop_fetched s.outPos 4095 hsize hfetch
  rw [exec_symbol hcommand] at hexec
  cases hact : symbolAct i s1 with
  | error e u =>
    rw [hact] at hends hturn
    cases hends with
    | raised hwin =>
      cases (outcome_raised hact).symm.trans hexec
      exact ⟨nofun, fun _ => execDecStep_raised hready hturn, nofun, nofun⟩
  | ok _ u =>
    cases (outcome_ok hact).symm.trans hexec
    rw [hact] at hends hturn
    cases hends with
    | ended hphase hwin =>
      have hstep : exec .decStep s = .next s2 := by
        rw [execDecStep_done hready (hturn.trans (if_pos hphase)), ← hphase]
        rfl
      rw [hphase]
      exact ⟨fun _ => hstep, nofun, nofun, nofun⟩
    | appended hphase hleast hmost =>
      rw [hready] at hphase
      have hopen : s2.regs.phase ≠ .done := by rw [hphase]; decide
      have hshort : ¬Config.progressChunk ≤ s2.outPos - s.outPos := by
        have hchunk : Config.progressChunk = 4096 := rfl
        have hpos : s.outPos = s.win.length := rfl
        omega
      have hrest : decodeLoop s.outPos (4095 + 1) s = decodeLoop s.outPos 4095 s2 :=
        hturn.trans ((if_neg hopen).trans (if_neg hshort))
      refine ⟨fun h => absurd h hopen, fun h => ?_, fun _ hreached => ?_, fun _ _ => ?_⟩
      · rw [hphase] at h
        cases h
      · exact execDecStep_done hready (hrest.trans (decodeLoop_reached _ 4094 hreached))
      · rw [execDecStep_ready hready]
        simp only [outcome, act_bind, hrest]
        rfl

/-! ### The bytes of a step (R413, R497) -/

/-- How the loop of a step that began at `start` ends: it yields with the progress chunk produced, is done, or raises a
fault, and at most the last symbol reaches past the chunk. -/
inductive DecodeLoopEnds (start : Nat) : EStateM.Result Abort State Progress → Prop where
  | more {t : State} (hleast : start + Config.progressChunk ≤ t.outPos)
      (hmost : t.outPos ≤ start + (Config.progressChunk + 272)) : DecodeLoopEnds start (.ok .more t)
  | done {t : State} (hmost : t.outPos ≤ start + (Config.progressChunk + 272)) : DecodeLoopEnds start (.ok .done t)
  | raised {c : FaultClass} {k : Byte} {t : State} (hmost : t.outPos ≤ start + (Config.progressChunk + 272)) :
      DecodeLoopEnds start (.error (.raised c k) t)

/-- The fuel is enough: every turn appends a byte or is the last. -/
theorem decodeLoop_ends {start fuel : Nat} {s : State} (hfuel : start + Config.progressChunk ≤ s.outPos + fuel)
    (hpos : s.outPos < start + Config.progressChunk) : DecodeLoopEnds start (decodeLoop start fuel s) := by
  induction fuel generalizing s with
  | zero => omega
  | succ fuel ih =>
    cases hsize : s.sizeReached with
    | true =>
      rw [decodeLoop_reached start fuel hsize]
      exact .done (by omega)
    | false =>
      cases hfetch : fetchSymbol s with
      | error e t =>
        obtain ⟨hstuck, hwin, -⟩ := (fetchSymbol_fetches s.win s.regs.phase).error ⟨rfl, rfl⟩ hfetch
        have hsame : t.outPos = s.outPos := congrArg List.length hwin
        rw [decodeLoop_succ, hsize, hfetch]
        cases e with
        | stuck => exact absurd rfl hstuck
        | raised c k => exact .raised (by omega)
      | ok i s1 =>
        obtain ⟨-, hends⟩ := fetched_ends hfetch
        rw [decodeLoop_fetched start fuel hsize hfetch]
        have hlength : s.outPos = s.win.length := rfl
        cases hact : symbolAct i s1 with
        | error e u =>
          rw [hact] at hends
          cases hends with
          | raised hwin =>
            have hsame : u.outPos = s.outPos := congrArg List.length hwin
            exact .raised (by omega)
        | ok _ u =>
          rw [hact] at hends
          cases hends with
          | ended hphase hwin =>
            have hsame : u.outPos = s.outPos := congrArg List.length hwin
            simp only [hphase, if_true]
            exact .done (by omega)
          | appended _ hleast hmost =>
            have hbound : u.outPos ≤ start + (Config.progressChunk + 272) := calc
              u.outPos ≤ s.outPos + 1 + 272 := hmost
              _ ≤ start + Config.progressChunk + 272 := Nat.add_le_add_right hpos 272
              _ = start + (Config.progressChunk + 272) := Nat.add_assoc ..
            by_cases hdone : u.regs.phase = .done
            · simp only [hdone, if_true]
              exact .done hbound
            · by_cases hyield : Config.progressChunk ≤ u.outPos - start
              · simp only [if_neg hdone, if_pos hyield]
                have hpositive : 0 < Config.progressChunk := by decide
                exact .more (by omega) hbound
              · simp only [if_neg hdone, if_neg hyield]
                exact ih (by omega) (by omega)

/-- Settles O29, by how the loop of the step ends. -/
theorem decStepProgresses : Obligations.DecStepProgresses := by
  intro s
  by_cases hready : s.regs.phase = .decReady
  · have hchunk : 0 < Config.progressChunk := by decide
    have hends := decodeLoop_ends (start := s.outPos) (fuel := Config.progressChunk) le_rfl
      (Nat.lt_add_of_pos_right hchunk)
    cases hloop : decodeLoop s.outPos Config.progressChunk s with
    | error e t =>
      rw [hloop] at hends
      cases hends with
      | raised hmost =>
        exact ⟨_, execDecStep_raised hready hloop, hmost, fun _ h => nomatch h⟩
    | ok p t =>
      rw [hloop] at hends
      cases hends with
      | more hleast hmost => exact ⟨t, execDecStep_more hready hloop, hmost, fun _ _ => hleast⟩
      | done hmost => exact ⟨_, execDecStep_done hready hloop, hmost, fun _ h => nomatch h⟩
  · exact ⟨_, execDecStep_illegal hready, Nat.le_add_right _ _, fun h => absurd h hready⟩

end Sys2Proof.Machine
end
